-- ==== Sys2Proof/Word.lean ====
section
/-! DEFINITION. The word and byte types of the UVH-208 (spec/00_scope.md, Conventions). -/

namespace Sys2Proof

/-- A word is 32 bits, bit 0 the least significant (00_scope.md, "Words and addresses"). -/
abbrev Word := BitVec 32

/-- A word is made of four bytes. -/
abbrev Byte := BitVec 8

/-- The four byte enables of one word of a burst; bit `i` enables byte `i` (R162, 10.6 PA_BE[3:0]). -/
abbrev Enables := BitVec 4

/-- A privilege level, 0 the most privileged (00_scope.md, "Levels"). -/
abbrev Level := BitVec 2

end Sys2Proof
end

