-- ==== Sys2Proof/Syntax.lean ====
section
/-! DEFINITION. The commands of the block, one constructor for each row of spec/opcode_table.json, and the types of
their operands. The table gives no row operands; those here name the port, context or transfer the row's rule
speaks of, or the order the spec leaves open inside the event (log 2, log 3, log 13, log 19, log 22). -/

namespace Sys2Proof

/-- The two upstream ports (00_scope.md, "Ports"). -/
inductive Port where
  | A | B
  deriving DecidableEq, Repr

/-- The port that is not `p`. -/
def Port.other : Port → Port
  | .A => .B
  | .B => .A

/-- Direction of a transfer (R162). -/
inductive Dir where
  | read | write
  deriving DecidableEq, Repr

/-- Burst length lines, codes 0 to 3: 1, 2, 4 or 8 words (R162). -/
inductive Burst where
  | one | two | four | eight
  deriving DecidableEq, Repr

/-- The number of words `k` of a burst (R162). -/
def Burst.words : Burst → Nat
  | .one => 1
  | .two => 2
  | .four => 4
  | .eight => 8

/-- A transfer as a port's lines carry it at its arrival (R162). `lines` are address bits 25 to 2; bits 1 and 0 are
taken as 0. `enables` has one entry for each word of the burst; `data` has the words of a write. -/
structure Transfer where
  lines   : BitVec 24
  dir     : Dir
  burst   : Burst
  enables : List Enables
  level   : Level
  data    : List Word
  deriving DecidableEq, Repr

/-- One part of a tick event that the spec places "in that tick event" (R29, R38, R67, R77, R82). -/
inductive TickPart where
  /-- The holdoff count of a context (R77). -/
  | holdoff (c : Fin 8)
  /-- The idle count of a port's open assembly (R29). -/
  | idle (p : Port)
  /-- The stall count of a port's held commit or held pop (R38, R67). -/
  | held (p : Port)
  /-- The age judgement of a context (R82). -/
  | stale (c : Fin 8)
  deriving DecidableEq, Repr

/-- The commands: the 54 rows of spec/opcode_table.json, in the table's order. -/
inductive Instr where
  /-- TRANSFER_ARRIVAL, R162. -/
  | transferArrival (p : Port) (t : Transfer)
  /-- REQUEST_WITHDRAWAL, R163. -/
  | requestWithdrawal (p : Port)
  /-- PASS_THROUGH, R93. -/
  | passThrough (p : Port)
  /-- PLAIN_WINDOW_TRANSFER, R94. -/
  | plainWindowTransfer (p : Port)
  /-- UNMAPPED, R92. -/
  | unmapped (p : Port)
  /-- CB_READ, R134. -/
  | cbRead (p : Port)
  /-- CB_WRITE, R135. -/
  | cbWrite (p : Port)
  /-- PUSH, R26. -/
  | push (p : Port)
  /-- PUSH_LAST, R31. -/
  | pushLast (p : Port)
  /-- POP, R55. -/
  | pop (p : Port)
  /-- PEEK, R52. -/
  | peek (p : Port)
  /-- STATE, R51. -/
  | state (p : Port)
  /-- BITFIELD_TRANSFER, R98. -/
  | bitfieldTransfer (p : Port)
  /-- BITFIELD_PLAIN_WRITE, R110: the unit in progress completes. -/
  | bitfieldPlainWrite
  /-- SET, R111. -/
  | set
  /-- CLEAR, R111. -/
  | clear
  /-- TOGGLE, R111. -/
  | toggle
  /-- BITFIELD_PLAIN_READ, R112. -/
  | bitfieldPlainRead
  /-- FETCH_AND_CLEAR, R113. -/
  | fetchAndClear
  /-- COMPARE_READ, R114. -/
  | compareRead
  /-- ARBITER_GRANT, R152. -/
  | arbiterGrant
  /-- JOB_PRESENTATION, R157; `prefer` names the owner whose job is presented where two are eligible (log 22). -/
  | jobPresentation (prefer : Port)
  /-- PORT_READ_COMPLETION, R93. -/
  | portReadCompletion
  /-- PORT_WRITE_COMPLETION, R93. -/
  | portWriteCompletion
  /-- NOTICE_WORD_READ_CLEAR, R126. -/
  | noticeWordReadClear
  /-- PEEK_READ_COMPLETION, R53. -/
  | peekReadCompletion
  /-- ENTRY_WRITE_COMPLETION, R12. -/
  | entryWriteCompletion
  /-- ENTRY_COPY_COMPLETION, R60. -/
  | entryCopyCompletion
  /-- STAMP_FETCH_COMPLETION, R81. -/
  | stampFetchCompletion
  /-- SIGNAL_UPDATE_GRANT, R86. -/
  | signalUpdateGrant
  /-- SIGNAL_UPDATE_COMPLETION, R87. -/
  | signalUpdateCompletion
  /-- MIRROR_WRITE, R147. -/
  | mirrorWrite
  /-- GLOBAL_WORD, R144. -/
  | globalWord
  /-- ENABLE_WORD, R121. -/
  | enableWord
  /-- ACK_CONFIG, R123. -/
  | ackConfig
  /-- ACK_FAULT, R123. -/
  | ackFault
  /-- ACK_ENGINE, R123. -/
  | ackEngine
  /-- CONTEXT_ACK, R124. -/
  | contextAck
  /-- STAGE_RECORD_WORD, R137. -/
  | stageRecordWord
  /-- WINDOW_RECORD_APPLY, R138. -/
  | windowRecordApply
  /-- CONTEXT_RECORD_APPLY, R140. -/
  | contextRecordApply
  /-- FLUSH, R21. -/
  | flush
  /-- CB_PLAIN_WRITE, R136. -/
  | cbPlainWrite
  /-- TICK, R74; `order` lists the parts of the tick event that are taken first, in that order (log 3). -/
  | tick (order : List TickPart)
  /-- IDLE_EXPIRY, R29. -/
  | idleExpiry (p : Port)
  /-- STALL_EXPIRY, R38. -/
  | stallExpiry (p : Port)
  /-- WAIT_EXPIRY, R67. -/
  | waitExpiry (p : Port)
  /-- HOLDOFF_EXPIRY, R77. -/
  | holdoffExpiry (c : Fin 8)
  /-- STALE, R82. -/
  | stale (c : Fin 8)
  /-- PORT_RESET, R168; `late` are the kinds of each context, by their notice bits, whose raise in the same event the
  attention unit takes after the reset (R132, log 13). -/
  | portReset (p : Port) (late : Vector (BitVec 8) 8)
  /-- PORT_RESET_RELEASE, R169; `standing` is the request standing at the lines, if any (log 19). -/
  | portResetRelease (p : Port) (standing : Option Transfer)
  /-- POWER_ON_RESET, R170, with the levels of the CBSEL and MEMSZ straps. -/
  | powerOnReset (cbsel memsz : BitVec 2)
  /-- POWER_ON_RESET_RELEASE, R170, with the requests standing at the two ports (log 19). -/
  | powerOnResetRelease (standingA standingB : Option Transfer)
  /-- MIRROR_UNIT_COMPLETION, R150. -/
  | mirrorUnitCompletion
  deriving DecidableEq, Repr

end Sys2Proof
end

