-- ==== Sys2Proof/Config.lean ====
section
/-! DEFINITION. The free values: what the spec leaves open and no proof may know (log 5, log 8). -/

namespace Sys2Proof

/-- The data byte that memory holds at an address nothing has written since power-up. "Memory contents at
power-on are whatever the memory holds" (R158). A free value (log 5). -/
opaque Config.powerUpByte : Nat → Byte

/-- The parity bit that memory holds beside that byte; such a byte "may therefore fail its first read"
(R158). A free value (log 5). -/
opaque Config.powerUpParity : Nat → Bool

/-- Whether word `i` of the write that the `n`-th power-on reset interrupted holds its new value: "Each word of
an interrupted write is left holding either its old contents or its new word whole" (R160). A free value
(log 8). -/
opaque Config.wordLanded : Nat → Nat → Bool

end Sys2Proof
end

