-- ==== Sys2Proof/Machine/State.lean ====
section
/-! DEFINITION. The state of the UVH-208 as plain data, and State.reset. Every piece of state the spec gives the block
is a field here; INVENTORY.md lists them with their rules and reset values. -/

namespace Sys2Proof.Machine

/-- Nothing stops the block: every fault of the spec is an ERROR answer, an engine fault or a refused configuration
write, all of them state (R99, R129, R130). No command raises a fault (log 24); safe. -/
inductive Fault where
  deriving DecidableEq, Repr

/-- Reasons to give a command no meaning. -/
inductive Refusal where
  /-- Raised by an arm of exec whose row has no meaning yet; safe. No arm raises it. -/
  | notModelled (mnemonic : String)
  deriving DecidableEq, Repr

/-! ## Per-port pairs -/

/-- One of a thing for each port. -/
structure PerPort (α : Type) where
  a : α
  b : α
  deriving DecidableEq, Repr

def PerPort.get {α : Type} (x : PerPort α) : Port → α
  | .A => x.a
  | .B => x.b

def PerPort.set {α : Type} (x : PerPort α) (p : Port) (v : α) : PerPort α :=
  match p with
  | .A => { x with a := v }
  | .B => { x with b := v }

/-! ## Records -/

/-- A window or context record: eight words (R89, section 1.1). -/
structure Record where
  w0 : Word
  w1 : Word
  w2 : Word
  w3 : Word
  w4 : Word
  w5 : Word
  w6 : Word
  w7 : Word
  deriving DecidableEq, Repr

/-- The all-zero record of power-on reset (R22, R89). -/
def Record.zero : Record := ⟨0, 0, 0, 0, 0, 0, 0, 0⟩

/-- A window: the decoder's applied record and the monitor's staged copy (R89, R137). -/
structure Window where
  applied : Record
  staged  : Record
  deriving DecidableEq, Repr

/-! ## Faults and notices -/

/-- The nine fault kinds (R99). -/
inductive FaultKind where
  | unmapped | access | shape | parity | full | empty | overrun | expired | withdrawn
  deriving DecidableEq, Repr

/-- The eight context notice kinds (section 7.1). -/
inductive Kind where
  | high | low | reject | loss | cut | stale | damaged | wrap
  deriving DecidableEq, Repr

/-- A valid port fault record (R127). -/
structure FaultRecord where
  kind    : FaultKind
  dir     : Dir
  level   : Level
  window  : BitVec 5
  address : BitVec 26
  further : Nat
  deriving DecidableEq, Repr

/-- The tables a configuration refusal may name (R130). -/
inductive Table where
  | window | context | command | global
  deriving DecidableEq, Repr

/-- The refusal reasons (R130). -/
inductive Reason where
  | range | align | memory | control | overlap | binding | bound
  deriving DecidableEq, Repr

/-- A valid config status record (R130). -/
structure ConfigStatus where
  table   : Table
  index   : Nat
  reason  : Reason
  port    : Port
  further : Nat
  deriving DecidableEq, Repr

/-- The causes of an engine fault (R129). -/
inductive EngineCause where
  | stamp | signal
  deriving DecidableEq, Repr

/-- A valid engine fault record (R129). -/
structure EngineFault where
  cause   : EngineCause
  context : Fin 8
  address : Nat
  further : Nat
  deriving DecidableEq, Repr

/-- The attention state of one port (R119-R128). Bit `k` of a pending or shown set is the kind with notice bit `k`
(section 8.7). -/
structure PortAttn where
  pending : Vector (BitVec 8) 8
  shown   : Vector (BitVec 8) 8
  config  : Bool
  fault   : Bool
  engine  : Bool
  enable  : BitVec 11
  record  : Option FaultRecord
  deriving DecidableEq, Repr

/-- The attention state power-on reset leaves (R131). -/
def PortAttn.clear : PortAttn :=
  { pending := Vector.replicate 8 0, shown := Vector.replicate 8 0, config := false, fault := false, engine := false,
    enable := 0, record := none }

/-! ## Transfers behind the port interface -/

/-- The quarters of a BITFIELD aperture (R107). -/
inductive Quarter where
  | q0 | q1 | q2 | q3
  deriving DecidableEq, Repr

/-- The sub-ranges of a RING aperture (R97). -/
inductive SubRange where
  | push | pushLast | pop | peek | state
  deriving DecidableEq, Repr

/-- What the decoder decided, kept until the transfer is answered or dropped (R100). -/
inductive Decode where
  | pass
  | plain (w : Fin 16) (address : Nat)
  | ring (w : Fin 16) (c : Fin 8) (sub : SubRange)
  | bitfield (w : Fin 16) (quarter : Quarter) (address : Nat) (mask compare : Word)
  | cb
  /-- A refused transfer, with the window that decided its first word, if any (R99). -/
  | refused (w : Option (Fin 16))
  deriving DecidableEq, Repr

/-- What a BITFIELD transfer does (R107). -/
inductive BitOp where
  | plainWrite | set | clear | toggle | plainRead | fetchClear | compare
  deriving DecidableEq, Repr

/-- The forms of work on a port path (R150). -/
inductive UnitWork where
  | read
  | write
  | cbRead
  | cbWrite
  | bitfield (op : BitOp) (level : Level) (mask compare : Word)
  | peek
  deriving DecidableEq, Repr

/-- A unit on a port path: its work, the memory byte address of its first word, the byte enables of each word, the
write data, and whether its answer is still wanted (R151). -/
structure PathUnit where
  work    : UnitWork
  address : Nat
  enables : List Enables
  data    : List Word
  wanted  : Bool
  deriving DecidableEq, Repr

/-- An answer on a port's lines (R166). An ERROR of a read presents `zeros` zero words, whose number
is the model's choice (log 33). -/
inductive Answer where
  | okWrite
  | okRead (words : List Word)
  | error (kind : FaultKind) (zeros : Nat)
  deriving DecidableEq, Repr

/-- The four states of a port interface (R163). A HELD transfer may wait for a path that a dropped unit holds. -/
inductive Iface where
  | idle
  | decoding (t : Transfer)
  | held (t : Transfer) (d : Decode) (waiting : Option PathUnit)
  | answering (answer : Answer)
  deriving DecidableEq, Repr

/-! ## The queue engine -/

/-- The assembly buffer of a port (R25). A held commit still has its words; a reserved one has passed them to its job
(R33). -/
inductive Assembly where
  | empty
  | opened (c : Fin 8) (words : List Word) (idle : Option Nat)
  | committing (c : Fin 8) (length : Nat) (level : Level) (words : List Word) (reserved : Bool)
  deriving DecidableEq, Repr

/-- The delivery latch of a port (R54). -/
inductive Latch where
  | empty
  | filling (c : Fin 8) (slot : Nat) (burst : Burst) (withdrawn : Bool)
  | holding (c : Fin 8) (header : Word) (payload : List Word) (remaining : Nat)
  | waiting (c : Fin 8)
  deriving DecidableEq, Repr

/-- A commit of a port in a held list (R32). -/
structure HeldCommit where
  port        : Port
  length      : Nat
  level       : Level
  stall       : Option Nat
  discardMade : Bool
  deriving DecidableEq, Repr

/-- A pop of a port in a held list (R55). -/
structure HeldPop where
  port  : Port
  burst : Burst
  stall : Option Nat
  deriving DecidableEq, Repr

/-- An item of a context's held list (section 2.6). -/
inductive HeldItem where
  | commit (h : HeldCommit)
  | pop (h : HeldPop)
  deriving DecidableEq, Repr

/-- A WRITING slot: the port whose commit reserved it, the stamp the engine placed in its header, and whether its
ENTRY_WRITE has completed (R8, R12, R79). -/
structure WritingSlot where
  slot     : Nat
  port     : Port
  stamp    : BitVec 16
  complete : Bool
  deriving DecidableEq, Repr

/-- A slot of the held run (R9): IN-COPY for a port, or SPENT. -/
inductive HeldSlot where
  | copying (p : Port)
  | spent
  deriving DecidableEq, Repr

/-- The watermark state, with the holdoff count of ARMING (section 4.2). -/
inductive Watermark where
  | calm
  | arming (count : Nat)
  | raised
  deriving DecidableEq, Repr

/-- The stamp cache of a context (R79). -/
structure StampCache where
  stamp        : BitVec 16
  valid        : Bool
  staleRaised  : Bool
  fetchCurrent : Bool
  fetchFailed  : Bool
  deriving DecidableEq, Repr

/-- One context: its records and its live state (R1-R23, R76-R79). `depth` is the LIFO index (R16); `release`,
`head` and `tail` are the FIFO indices (R9). `signalDue` and `statusDue` are the model's own marks, false between
events: a SIGNAL_UPDATE asked for by R20 or R88 in the running event, and the status item marked dirty by R20. -/
structure Ctx where
  applied      : Record
  staged       : Record
  initialised  : Bool
  ready        : Nat
  release      : Nat
  head         : Nat
  tail         : Nat
  depth        : Nat
  writingRun   : List WritingSlot
  heldRun      : List HeldSlot
  seq          : BitVec 8
  gap          : Bool
  published    : BitVec 16
  delivered    : BitVec 16
  discarded    : BitVec 16
  rejected     : BitVec 16
  watermark    : Watermark
  cache        : StampCache
  held         : List HeldItem
  pendingFlush : Bool
  signalDue    : Bool
  statusDue    : Bool
  deriving DecidableEq, Repr

/-- The cache of power-on reset: invalid with all flags clear (R79); its stamp field is DESIGN CHOICE 0 (log 10). -/
def StampCache.reset : StampCache :=
  { stamp := 0, valid := false, staleRaised := false, fetchCurrent := false, fetchFailed := false }

/-- A context after power-on reset (R22). -/
def Ctx.reset : Ctx :=
  { applied := Record.zero, staged := Record.zero, initialised := false, ready := 0, release := 0, head := 0, tail := 0,
    depth := 0, writingRun := [], heldRun := [], seq := 0, gap := false, published := 0, delivered := 0,
    discarded := 0, rejected := 0, watermark := .calm, cache := StampCache.reset, held := [], pendingFlush := false,
    signalDue := false, statusDue := false }

/-- The jobs of the engine job list with their fields (R155). -/
inductive Job where
  | entryWrite (c : Fin 8) (slot address : Nat) (header : Word) (payload : List Word) (p : Port)
  | entryCopy (c : Fin 8) (slot address payloadMax : Nat) (p : Port)
  | stampFetch (c : Fin 8) (slot address : Nat)
  | signalUpdate (c : Fin 8)
  deriving DecidableEq, Repr

/-- How far a job on the list has come (R157). -/
inductive Phase where
  | waiting | presented | inProgress
  deriving DecidableEq, Repr

/-- A job on the list; `target` is the signal word address and bit fixed at the presentation of a SIGNAL_UPDATE
(R86). -/
structure JobEntry where
  job    : Job
  phase  : Phase
  target : Option (Nat × Nat)
  deriving DecidableEq, Repr

/-! ## Mirror writer and memory port -/

/-- The thirty status items (section 8.6). -/
inductive Item where
  | summary (p : Port)
  | notice (p : Port) (c : Fin 8)
  | faultRecord (p : Port)
  | configStatus
  | engineFault
  | context (c : Fin 8)
  deriving DecidableEq, Repr

/-- Every status item, in increasing offset order (section 8.6, R148). -/
def Item.all : List Item :=
  [.summary .A, .notice .A 0, .notice .A 1, .notice .A 2, .notice .A 3, .notice .A 4, .notice .A 5, .notice .A 6,
    .notice .A 7, .faultRecord .A, .summary .B, .notice .B 0, .notice .B 1, .notice .B 2, .notice .B 3, .notice .B 4,
    .notice .B 5, .notice .B 6, .notice .B 7, .faultRecord .B, .configStatus, .engineFault, .context 0, .context 1,
    .context 2, .context 3, .context 4, .context 5, .context 6, .context 7]

/-- The four requesters in the arbiter's fixed order (R152). -/
inductive Requester where
  | portA | portB | engine | mirror
  deriving DecidableEq, Repr

/-- The unit the memory is performing (R150): the unit on a port's path, the job of the list that is in progress, a
granted SIGNAL_UPDATE with what its grant fixed (R154), or a mirror item with its words. -/
inductive Busy where
  | port (p : Port)
  | job
  | signal (c : Fin 8) (address bit : Nat) (value : Bool)
  | mirror (item : Item) (words : List Word)
  deriving DecidableEq, Repr

/-- The shared memory: the data byte of each address that holds a known byte, and the parity bit beside it (R158).
Both lists have strictly rising addresses; an unlisted address has no value stored and reads as a free value
(log 5). -/
structure Memory where
  bytes  : List Host.Cell
  parity : List (Nat × Bool)
  deriving DecidableEq, Repr

/-! ## The state -/

/-- The state that operations on the queues reach: contexts, assembly buffers, delivery latches, dropped-copy flags,
the engine job list, the port interfaces they answer and the attention state they raise notices in. -/
structure Live where
  ctxs     : Vector Ctx 8
  assembly : PerPort Assembly
  latch    : PerPort Latch
  dropped  : PerPort Bool
  jobs     : List JobEntry
  ifaces   : PerPort Iface
  attn     : PerPort PortAttn
  deriving DecidableEq, Repr

/-- The whole block, the memory behind it, and the queue of commands that wait. -/
structure State extends Live where
  /-- The commands waiting, first in, first out. -/
  pending      : List Instr
  /-- The shared memory. -/
  mem          : Memory
  /-- CBSEL as sampled at power-on reset (R133). -/
  cbsel        : BitVec 2
  /-- MEMSZ as sampled at power-on reset (R149). -/
  memsz        : BitVec 2
  /-- RESET_N is asserted (R170). -/
  inReset      : Bool
  /-- The reset line of each port is asserted (R168, R169). -/
  portReset    : PerPort Bool
  /-- The sixteen windows (R89). -/
  windows      : Vector Window 16
  /-- The applied global word (R144). -/
  globalWord   : Word
  /-- The tick counter (R74). -/
  tick         : BitVec 16
  /-- Clock periods since the tick period began (R74, R75). -/
  prescaler    : Nat
  /-- The engine fault record, `none` while invalid (R129). -/
  engineFault  : Option EngineFault
  /-- The config status record, `none` while invalid (R130). -/
  configStatus : Option ConfigStatus
  /-- The mirror list (R146). -/
  mirror       : List Item
  /-- The round-robin pointer: the requester granted last (R152). -/
  pointer      : Requester
  /-- The port paths (R151). -/
  paths        : PerPort (Option PathUnit)
  /-- The unit in progress (R150). -/
  busy         : Option Busy
  /-- The model's counter of free choices taken (log 8). -/
  free         : Nat
  deriving DecidableEq, Repr

/-- The live state after power-on reset (R22, R25, R54, R131, R160, R163). -/
def Live.reset : Live :=
  { ctxs := Vector.replicate 8 Ctx.reset
    assembly := ⟨.empty, .empty⟩
    latch := ⟨.empty, .empty⟩
    dropped := ⟨false, false⟩
    jobs := []
    ifaces := ⟨.idle, .idle⟩
    attn := ⟨PortAttn.clear, PortAttn.clear⟩ }

/-- The machine right after reset: at the release of RESET_N (R170), with the port reset lines released and the straps
sampled as 0 (DESIGN CHOICE, log 9). -/
def State.reset : State :=
  { Live.reset with
    pending := []
    mem := ⟨[], []⟩
    cbsel := 0
    memsz := 0
    inReset := false
    portReset := ⟨false, false⟩
    windows := Vector.replicate 16 ⟨Record.zero, Record.zero⟩
    globalWord := 0x00001903
    tick := 0
    prescaler := 0
    engineFault := none
    configStatus := none
    mirror := Item.all
    pointer := .mirror
    paths := ⟨none, none⟩
    busy := none
    free := 0 }

end Sys2Proof.Machine
end

