-- ==== Sys2Proof/Machine/Operands.lean ====
section
/-! DEFINITION. Every word format of section 8.7 and every operand form of a transfer: bit fields, byte lanes, the fields
of the records and of the global word, entry headers, the queue state word, control-block offsets. -/

namespace Sys2Proof.Machine

/-! ## Bit fields and byte lanes -/

/-- The field of `len` bits of `w` whose lowest bit is `lo`. -/
def bits (w : Word) (lo len : Nat) : Nat := (w.extractLsb' lo len).toNat

/-- A word that holds `n` in the field of `len` bits whose lowest bit is `lo`, and 0 elsewhere. -/
def field (lo len n : Nat) : Word := (BitVec.ofNat len n).setWidth 32 <<< lo

/-- 1 for true. -/
def bit01 (b : Bool) : Nat := if b then 1 else 0

/-- Byte lane `i` of a word: bits `8 i + 7` to `8 i`. -/
def byteLane (w : Word) (i : Nat) : Byte := w.extractLsb' (8 * i) 8

/-- The bits of a word that lie in its enabled bytes (R108). -/
def laneMask (be : Enables) : Word :=
  (if be.getLsbD 0 then 0x000000FF else 0) ||| (if be.getLsbD 1 then 0x0000FF00 else 0) |||
    (if be.getLsbD 2 then 0x00FF0000 else 0) ||| (if be.getLsbD 3 then 0xFF000000 else 0)

/-- "each enabled byte replaces the corresponding byte ..., and each byte not enabled keeps the byte it had" (R136). -/
def mergeBytes (be : Enables) (old new : Word) : Word :=
  (old &&& ~~~laneMask be) ||| (new &&& laneMask be)

/-- All four byte enables. -/
def allEnabled : Enables := 0xF

/-! ## Indices -/

def allCtxs : List (Fin 8) := [0, 1, 2, 3, 4, 5, 6, 7]

def allWindows : List (Fin 16) := [0, 1, 2, 3, 4, 5, 6, 7, 8, 9, 10, 11, 12, 13, 14, 15]

def allPorts : List Port := [.A, .B]

/-! ## Records by word -/

/-- Word `i` of a record. -/
def Record.word (r : Record) (i : Nat) : Word :=
  match i with
  | 0 => r.w0
  | 1 => r.w1
  | 2 => r.w2
  | 3 => r.w3
  | 4 => r.w4
  | 5 => r.w5
  | 6 => r.w6
  | _ => r.w7

/-- The record with word `i` replaced. -/
def Record.setWord (r : Record) (i : Nat) (v : Word) : Record :=
  match i with
  | 0 => { r with w0 := v }
  | 1 => { r with w1 := v }
  | 2 => { r with w2 := v }
  | 3 => { r with w3 := v }
  | 4 => { r with w4 := v }
  | 5 => { r with w5 := v }
  | 6 => { r with w6 := v }
  | _ => { r with w7 := v }

/-! ## Window record (section 8.7, R89) -/

/-- The kinds of a window (R89). -/
inductive WindowKind where
  | plain | ring | bitfield
  deriving DecidableEq, Repr

def Record.winEnable (r : Record) : Bool := r.w0.getLsbD 0

def Record.kindCode (r : Record) : Nat := bits r.w0 1 2

/-- The kind of an applied record. Code 3 is refused at application (R138), so no applied enabled record has it; the
model reads it as PLAIN (log 16). -/
def Record.kind (r : Record) : WindowKind :=
  match r.kindCode with
  | 1 => .ring
  | 2 => .bitfield
  | _ => .plain

def Record.winCtx (r : Record) : Fin 8 := Fin.ofNat 8 (bits r.w0 4 3)

/-- The rights of a port: bit 0 READ, bit 1 WRITE, so that 3 is READWRITE. -/
def Record.rights (r : Record) (p : Port) : Nat :=
  match p with
  | .A => bits r.w0 8 2
  | .B => bits r.w0 10 2

def Record.mayRead (r : Record) (p : Port) : Bool := r.rights p == 1 || r.rights p == 3

def Record.mayWrite (r : Record) (p : Port) : Bool := r.rights p == 2 || r.rights p == 3

/-- The minimum level of a port (R95). -/
def Record.minLevel (r : Record) (p : Port) : Nat :=
  match p with
  | .A => bits r.w0 12 2
  | .B => bits r.w0 14 2

def Record.sizeCode (r : Record) : Nat := bits r.w0 16 4

/-- Aperture size 4 KiB times 2 to the size code (R89). -/
def Record.apertureSize (r : Record) : Nat := 4096 * 2 ^ r.sizeCode

def Record.apertureBase (r : Record) : Nat := r.w1.toNat

def Record.targetBase (r : Record) : Nat := r.w2.toNat

def Record.protectedMask (r : Record) : Word := r.w3

def Record.compareWord (r : Record) : Word := r.w4

/-- "an enabled RING window" (R3). -/
def Record.isRing (r : Record) : Bool := r.winEnable && r.kind == .ring

/-! ## Context record (section 8.7, R1) -/

/-- Full policies (R1). -/
inductive FullPolicy where
  | refuse | stall | overwrite
  deriving DecidableEq, Repr

/-- Empty actions (R1). -/
inductive EmptyAction where
  | fill | error | wait
  deriving DecidableEq, Repr

def Record.isLifo (r : Record) : Bool := r.w0.getLsbD 0

def Record.slotSize (r : Record) : Nat := bits r.w0 4 4

/-- Payload capacity P = S - 1 (R1). -/
def Record.payloadCap (r : Record) : Nat := r.slotSize - 1

def Record.policyCode (r : Record) : Nat := bits r.w0 8 2

/-- The full policy; code 3 is refused at application (R139) and read as REFUSE (log 16). -/
def Record.policy (r : Record) : FullPolicy :=
  match r.policyCode with
  | 1 => .stall
  | 2 => .overwrite
  | _ => .refuse

def Record.emptyCode (r : Record) : Nat := bits r.w0 10 2

/-- The empty action; code 3 is refused at application (R139) and read as FILL (log 16). -/
def Record.emptyAction (r : Record) : EmptyAction :=
  match r.emptyCode with
  | 1 => .error
  | 2 => .wait
  | _ => .fill

/-- Stale action DISCARD, else NOTIFY. -/
def Record.staleDiscard (r : Record) : Bool := r.w0.getLsbD 12

def Record.holdoff (r : Record) : Nat := bits r.w0 16 4

def Record.stallLimit (r : Record) : Nat := bits r.w0 24 8

def Record.ringBase (r : Record) : Nat := r.w1.toNat

def Record.capacity (r : Record) : Nat := bits r.w2 0 12

def Record.high (r : Record) : Nat := bits r.w2 16 12

def Record.low (r : Record) : Nat := bits r.w3 0 12

def Record.ageLimit (r : Record) : Nat := bits r.w3 16 8

def Record.fillWord (r : Record) : Word := r.w4

def Record.signalAddress (r : Record) : Nat := r.w5.toNat

def Record.signalBit (r : Record) : Nat := bits r.w6 0 5

def Record.signalEnable (r : Record) : Bool := r.w6.getLsbD 31

/-- Bytes of the ring: 4 S capacity (R1, R4). -/
def Record.ringBytes (r : Record) : Nat := 4 * r.slotSize * r.capacity

/-- Slot `k` begins at ring base + 4 S k (R4). -/
def Record.slotAddress (r : Record) (k : Nat) : Nat := r.ringBase + 4 * r.slotSize * k

/-- The notice bit of a kind (section 8.7). -/
def Kind.index : Kind → Nat
  | .high => 0
  | .low => 1
  | .reject => 2
  | .loss => 3
  | .cut => 4
  | .stale => 5
  | .damaged => 6
  | .wrap => 7

/-- The kind's bit in a notice or acknowledge word (section 8.7). -/
def Kind.mask (k : Kind) : BitVec 8 := 1#8 <<< k.index

/-- A route of two bits names port A in bit 0 and port B in bit 1: 0 NONE, 1 A, 2 B, 3 BOTH (section 8.7). -/
def routeNames (route : Nat) (p : Port) : Bool :=
  match p with
  | .A => route == 1 || route == 3
  | .B => route == 2 || route == 3

/-- The applied route of a kind (R119). -/
def Record.route (r : Record) (k : Kind) : Nat := bits r.w7 (2 * k.index) 2

/-- "every geometry field equals its applied value": order, slot size, ring base, capacity, full policy (R2). -/
def Record.sameGeometry (r s : Record) : Bool :=
  r.isLifo == s.isLifo && r.slotSize == s.slotSize && r.ringBase == s.ringBase && r.capacity == s.capacity &&
    r.policyCode == s.policyCode

/-- The three watermark fields are equal (R78). -/
def Record.sameWatermarks (r s : Record) : Bool := r.high == s.high && r.low == s.low && r.holdoff == s.holdoff

/-- The signal word's enable, address and bit are equal (R88). -/
def Record.sameSignal (r s : Record) : Bool :=
  r.signalEnable == s.signalEnable && r.signalAddress == s.signalAddress && r.signalBit == s.signalBit

/-! ## Global word (section 8.7, R144) -/

/-- The tick period in microseconds. -/
def tickMicros (g : Word) : Nat :=
  match bits g 0 2 with
  | 0 => 1
  | 1 => 10
  | 2 => 100
  | _ => 1000

def clockMHz (g : Word) : Nat := bits g 8 7

/-- T clock periods to a tick (R74). -/
def tickClocks (g : Word) : Nat := clockMHz g * tickMicros g

def idleLimit (g : Word) : Nat := bits g 16 8

/-- Clear mode READCLEAR, else ACKWRITE. -/
def readClear (g : Word) : Bool := g.getLsbD 24

def engineRoute (g : Word) : Nat := bits g 28 2

/-- The idle count that an append gives (R26). -/
def idleCountOf (g : Word) : Option Nat := if idleLimit g == 0 then none else some (idleLimit g)

/-! ## Entry header and queue state word (section 8.7) -/

def portBit : Port → Nat
  | .A => 0
  | .B => 1

/-- The header built at a reservation, damaged 0 (R5, R33). -/
def header (length : Nat) (p : Port) (level : Level) (gap : Bool) (seq : BitVec 8) (stamp : BitVec 16) : Word :=
  field 0 16 stamp.toNat ||| field 16 8 seq.toNat ||| field 24 3 length ||| field 27 1 (portBit p) |||
    field 28 2 level.toNat ||| field 31 1 (bit01 gap)

/-- The length field of a header as read (R59). -/
def headerLength (h : Word) : Nat := bits h 24 3

/-- The stamp field of a header as read (R81). -/
def headerStamp (h : Word) : BitVec 16 := h.extractLsb' 0 16

/-- The header with its damaged field, bit 30, set as given (R52, R60, R61). -/
def withDamaged (h : Word) (damaged : Bool) : Word :=
  (h &&& ~~~(0x40000000 : Word)) ||| field 30 1 (bit01 damaged)

/-- The code of a watermark state (section 8.7). -/
def Watermark.code : Watermark → Nat
  | .calm => 0
  | .arming _ => 1
  | .raised => 2

/-- The queue state word (R51). -/
def stateWord (ready free latchWords : Nat) (w : Watermark) (assemblyWords : Nat) : Word :=
  field 0 12 ready ||| field 12 12 free ||| field 24 3 latchWords ||| field 27 2 w.code ||| field 29 3 assemblyWords

/-! ## Codes of the records (section 8.7) -/

def FaultKind.code : FaultKind → Nat
  | .unmapped => 1
  | .access => 2
  | .shape => 3
  | .parity => 4
  | .full => 5
  | .empty => 6
  | .overrun => 7
  | .expired => 8
  | .withdrawn => 9

def dirBit : Dir → Nat
  | .read => 0
  | .write => 1

def Table.code : Table → Nat
  | .window => 0
  | .context => 1
  | .command => 2
  | .global => 3

def Reason.code : Reason → Nat
  | .range => 1
  | .align => 2
  | .memory => 3
  | .control => 4
  | .overlap => 5
  | .binding => 6
  | .bound => 7

def EngineCause.code : EngineCause → Nat
  | .stamp => 0
  | .signal => 1

/-- The two words of a port's fault record item; all 0 while invalid (R127, R128). -/
def faultRecordWords : Option FaultRecord → List Word
  | none => [0, 0]
  | some r =>
    [field 0 4 r.kind.code ||| field 4 1 (dirBit r.dir) ||| field 5 2 r.level.toNat ||| field 8 5 r.window.toNat |||
        field 16 4 r.further ||| field 31 1 1,
      r.address.setWidth 32]

/-- The two words of the config status record item (R130). -/
def configStatusWords : Option ConfigStatus → List Word
  | none => [0, 0]
  | some r =>
    [field 0 2 r.table.code ||| field 4 4 r.index ||| field 8 3 r.reason.code ||| field 12 1 (portBit r.port) |||
        field 31 1 1,
      field 0 8 r.further]

/-- The two words of the engine fault record item (R129). -/
def engineFaultWords : Option EngineFault → List Word
  | none => [0, 0]
  | some r =>
    [field 0 1 r.cause.code ||| field 4 3 r.context.val ||| field 8 4 r.further ||| field 31 1 1,
      field 0 24 r.address]

end Sys2Proof.Machine

namespace Sys2Proof

/-! ## Transfers (R162) -/

/-- The upstream byte address of the first word; bits 1 and 0 are 0. -/
def Transfer.address (t : Transfer) : Nat := 4 * t.lines.toNat

/-- The number of words `k`. -/
def Transfer.k (t : Transfer) : Nat := t.burst.words

/-- The upstream addresses of the words of a burst, in burst order. -/
def Transfer.addresses (t : Transfer) : List Nat := (List.range t.k).map fun i => t.address + 4 * i

/-- The byte enables of the `k` words; an entry the term lacks counts as off (log 23). -/
def Transfer.wordEnables (t : Transfer) : List Enables := (List.range t.k).map fun i => t.enables.getD i 0

/-- The `k` data words of a write; an entry the term lacks counts as 0 (log 23). -/
def Transfer.wordData (t : Transfer) : List Word := (List.range t.k).map fun i => t.data.getD i 0

def Transfer.isWrite (t : Transfer) : Bool := t.dir == .write

/-- How many zero words the data lines present with an ERROR. R166 has them presented for a read and does not say how
many: one for each word of the burst is the model's choice (log 33). -/
def Transfer.errorWords (t : Transfer) : Nat := if t.isWrite then 0 else t.k

end Sys2Proof

namespace Sys2Proof.Machine

/-! ## Straps and the control block (R133, R149) -/

/-- Installed memory in bytes (R149). -/
def installedOf (memsz : BitVec 2) : Nat := 2097152 * 2 ^ memsz.toNat

/-- The base of the control block (R133). -/
def cbBaseOf (cbsel memsz : BitVec 2) : Nat :=
  match cbsel.toNat with
  | 0 => 0x000000
  | 1 => 0x001000
  | 2 => 0x100000
  | _ => installedOf memsz - 0x1000

/-- What a word of the configuration area is for (R133). -/
inductive CbFunction where
  | global
  | enable (p : Port)
  | globalAck (p : Port)
  | contextAck (p : Port) (c : Fin 8)
  | window (w : Fin 16) (i : Nat)
  | context (c : Fin 8) (i : Nat)
  | command (c : Fin 8)
  | plain
  deriving DecidableEq, Repr

/-- The function of the word at an offset of the control block (R133's map). -/
def cbFunction (offset : Nat) : CbFunction :=
  if offset = 0x000 then .global
  else if offset = 0x004 then .enable .A
  else if offset = 0x008 then .enable .B
  else if offset = 0x040 then .globalAck .A
  else if 0x044 ≤ offset ∧ offset < 0x064 then .contextAck .A (Fin.ofNat 8 ((offset - 0x044) / 4))
  else if offset = 0x080 then .globalAck .B
  else if 0x084 ≤ offset ∧ offset < 0x0A4 then .contextAck .B (Fin.ofNat 8 ((offset - 0x084) / 4))
  else if 0x200 ≤ offset ∧ offset < 0x400 then
    .window (Fin.ofNat 16 ((offset - 0x200) / 0x20)) ((offset - 0x200) % 0x20 / 4)
  else if 0x400 ≤ offset ∧ offset < 0x500 then
    .context (Fin.ofNat 8 ((offset - 0x400) / 0x20)) ((offset - 0x400) % 0x20 / 4)
  else if 0x500 ≤ offset ∧ offset < 0x520 then .command (Fin.ofNat 8 ((offset - 0x500) / 4))
  else .plain

/-- The context whose notice word of port `p` lies at a status offset, if any: 804h + 4c and 844h + 4c (section
8.6). -/
def noticeContext (p : Port) (offset : Nat) : Option (Fin 8) :=
  match p with
  | .A => if 0x804 ≤ offset ∧ offset < 0x824 then some (Fin.ofNat 8 ((offset - 0x804) / 4)) else none
  | .B => if 0x844 ≤ offset ∧ offset < 0x864 then some (Fin.ofNat 8 ((offset - 0x844) / 4)) else none

/-- The offset of a status item (section 8.6). -/
def Item.offset : Item → Nat
  | .summary .A => 0x800
  | .notice .A c => 0x804 + 4 * c.val
  | .faultRecord .A => 0x824
  | .summary .B => 0x840
  | .notice .B c => 0x844 + 4 * c.val
  | .faultRecord .B => 0x864
  | .configStatus => 0x880
  | .engineFault => 0x888
  | .context c => 0x900 + 0x10 * c.val

end Sys2Proof.Machine
end

