-- ==== Sys2Proof/Machine/Flags.lean ====
section
/-! DEFINITION. The attention unit's flags: pending sets, shown marks, summary words, ATTN, the three records (chapter 7). -/

namespace Sys2Proof.Machine

/-! ## One port's set -/

/-- Kind `k` of context `c` becomes pending: the set is unchanged if it is pending already, and a kind that becomes
pending starts with its shown mark clear (R119, R125). -/
def PortAttn.raise (a : PortAttn) (c : Fin 8) (k : Kind) : PortAttn :=
  { a with
    pending := a.pending.set c (a.pending[c] ||| k.mask)
    shown := a.shown.set c (a.shown[c] &&& (a.pending[c] ||| ~~~k.mask)) }

/-- Kinds of context `c` leave the set with their marks (R124, R125, R126). -/
def PortAttn.clearKinds (a : PortAttn) (c : Fin 8) (kinds : BitVec 8) : PortAttn :=
  { a with
    pending := a.pending.set c (a.pending[c] &&& ~~~kinds)
    shown := a.shown.set c (a.shown[c] &&& ~~~kinds) }

/-- Every kind pending for context `c` gets its shown mark (R125). -/
def PortAttn.markShown (a : PortAttn) (c : Fin 8) : PortAttn :=
  { a with shown := a.shown.set c a.pending[c] }

/-- Bit `c` of the summary word (R121). -/
def PortAttn.anyPending (a : PortAttn) (c : Fin 8) : Bool := a.pending[c] != 0

/-- The summary word: eleven bits (R121, section 8.7). -/
def PortAttn.summary (a : PortAttn) : BitVec 11 :=
  (field 0 1 (bit01 (a.anyPending 0)) ||| field 1 1 (bit01 (a.anyPending 1)) |||
    field 2 1 (bit01 (a.anyPending 2)) ||| field 3 1 (bit01 (a.anyPending 3)) |||
    field 4 1 (bit01 (a.anyPending 4)) ||| field 5 1 (bit01 (a.anyPending 5)) |||
    field 6 1 (bit01 (a.anyPending 6)) ||| field 7 1 (bit01 (a.anyPending 7)) |||
    field 8 1 (bit01 a.config) ||| field 9 1 (bit01 a.fault) ||| field 10 1 (bit01 a.engine)).setWidth 11

/-- "ATTN of a port is asserted exactly when that port's summary word and enable word have a set bit in common"
(R121). -/
def PortAttn.asserted (a : PortAttn) : Bool := (a.summary &&& a.enable) != 0

/-- An ERROR answer reaches the fault record: captured with FAULT raised while the record is invalid, counted up to
15 while it is valid (R120, R127). -/
def PortAttn.capture (a : PortAttn) (kind : FaultKind) (t : Transfer) (window : BitVec 5) : PortAttn :=
  match a.record with
  | none =>
    { a with
      fault := true
      record := some { kind := kind, dir := t.dir, level := t.level, window := window,
                       address := BitVec.ofNat 26 t.address, further := 0 } }
  | some r => { a with record := some { r with further := min 15 (r.further + 1) } }

/-- The FAULT bit of the global acknowledge word: FAULT and the port's fault record are cleared (R123, R128). -/
def PortAttn.ackFault (a : PortAttn) : PortAttn := { a with fault := false, record := none }

/-! ## Both ports -/

/-- A notice is added to the pending set of each port its route names (R119). -/
def raiseRouted (a : PerPort PortAttn) (route : Nat) (c : Fin 8) (k : Kind) : PerPort PortAttn :=
  { a := if routeNames route .A then a.a.raise c k else a.a
    b := if routeNames route .B then a.b.raise c k else a.b }

/-- ENGINE is raised for the ports named by the engine fault route (R120). -/
def raiseEngine (a : PerPort PortAttn) (route : Nat) : PerPort PortAttn :=
  { a := if routeNames route .A then { a.a with engine := true } else a.a
    b := if routeNames route .B then { a.b with engine := true } else a.b }

/-- Notice `k` is raised at context `c`, routed by the context's applied record (R119). -/
def Live.raise (l : Live) (c : Fin 8) (k : Kind) : Live :=
  { l with attn := raiseRouted l.attn (l.ctxs[c].applied.route k) c k }

/-- CONFIG is raised for a port (R120). -/
def Live.raiseConfig (l : Live) (p : Port) : Live :=
  { l with attn := l.attn.set p { l.attn.get p with config := true } }

/-! ## The shared records -/

/-- An engine fault is captured or counted, and ENGINE is raised by the applied route (R129, R120). -/
def State.engineFaultReport (s : State) (cause : EngineCause) (c : Fin 8) (address : Nat) : State :=
  { s with
    engineFault := some (match s.engineFault with
      | none => { cause := cause, context := c, address := address, further := 0 }
      | some r => { r with further := min 15 (r.further + 1) })
    attn := raiseEngine s.attn (engineRoute s.globalWord) }

/-- A refused configuration write: the config status record captures it or counts it up to 255, and CONFIG is raised
for the writing port (R130, R142). -/
def State.refuseConfig (s : State) (p : Port) (table : Table) (index : Nat) (reason : Reason) : State :=
  { s with
    configStatus := some (match s.configStatus with
      | none => { table := table, index := index, reason := reason, port := p, further := 0 }
      | some r => { r with further := min 255 (r.further + 1) })
    attn := s.attn.set p { s.attn.get p with config := true } }

end Sys2Proof.Machine
end

