-- ==== Sys2Proof/Machine/Ops.lean ====
section
/-! DEFINITION. The named operations that the meanings share: memory with byte parity, answers at a port interface,
context counts and counters, the values of the status items, and the close of an event. -/

namespace Sys2Proof.Machine

/-! ## Memory -/

/-- The value an address-keyed list stores at `x`, if any. -/
def cellLookup {β : Type} : List (Nat × β) → Nat → Option β
  | [], _ => none
  | (a, v) :: rest, x => if x = a then some v else cellLookup rest x

/-- The list with `v` stored at `x`, its addresses kept rising. -/
def cellInsert {β : Type} : List (Nat × β) → Nat → β → List (Nat × β)
  | [], x, v => [(x, v)]
  | (a, w) :: rest, x, v =>
    if x < a then (x, v) :: (a, w) :: rest
    else if x = a then (x, v) :: rest
    else (a, w) :: cellInsert rest x v

/-- Addresses strictly rising, all at least `lo`. -/
def keysRisingFrom : Nat → List Nat → Bool
  | _, [] => true
  | lo, a :: rest => decide (lo ≤ a) && keysRisingFrom (a + 1) rest

/-- The canonical form of memory: strictly rising addresses of 24 bits, with a parity bit beside each byte. -/
def Memory.wf (m : Memory) : Bool :=
  keysRisingFrom 0 (m.bytes.map Prod.fst) && (m.bytes.map Prod.fst).all (fun a => decide (a < 16777216)) &&
    (m.parity.map Prod.fst == m.bytes.map Prod.fst)

/-- "the memory port, which presents the low 24 bits of each memory byte address to the memory" (R149). -/
def memIndex (address : Nat) : Nat := address % 16777216

/-- Whether the count of 1s in a byte is odd. -/
def oddOnes (b : Byte) : Bool :=
  (((b.getLsbD 0).xor (b.getLsbD 1)).xor ((b.getLsbD 2).xor (b.getLsbD 3))).xor
    (((b.getLsbD 4).xor (b.getLsbD 5)).xor ((b.getLsbD 6).xor (b.getLsbD 7)))

/-- The data byte at an address; a free value where nothing is stored (R158, log 5). -/
def Memory.readByte (m : Memory) (address : Nat) : Byte :=
  (cellLookup m.bytes (memIndex address)).getD (Config.powerUpByte (memIndex address))

/-- The parity bit at an address; a free value where nothing is stored (R158, log 5). -/
def Memory.parityBit (m : Memory) (address : Nat) : Bool :=
  (cellLookup m.parity (memIndex address)).getD (Config.powerUpParity (memIndex address))

/-- "A byte whose count of 1s, parity bit included, is even fails" (R158). -/
def Memory.byteGood (m : Memory) (address : Nat) : Bool :=
  (oddOnes (m.readByte address)).xor (m.parityBit address)

/-- A byte is written with odd parity (R158). -/
def Memory.writeByte (m : Memory) (address : Nat) (b : Byte) : Memory :=
  { bytes := cellInsert m.bytes (memIndex address) b
    parity := cellInsert m.parity (memIndex address) (!oddOnes b) }

/-- Byte `i` of the word at an address is written if its enable is on. -/
def Memory.writeLane (m : Memory) (address : Nat) (be : Enables) (w : Word) (i : Nat) : Memory :=
  if be.getLsbD i then m.writeByte (address + i) (byteLane w i) else m

/-- The enabled bytes of a word are written (R150, R158). Byte lane `i` is the byte at address + i (log 6). -/
def Memory.writeWord (m : Memory) (address : Nat) (be : Enables) (w : Word) : Memory :=
  (((m.writeLane address be w 0).writeLane address be w 1).writeLane address be w 2).writeLane address be w 3

/-- Byte `i` of the word at an address, 00h where its enable is off. -/
def Memory.readLane (m : Memory) (address : Nat) (be : Enables) (i : Nat) : Word :=
  if be.getLsbD i then (m.readByte (address + i)).setWidth 32 <<< (8 * i) else 0

/-- The word read at an address: "Bytes a port-path unit does not enable are neither read nor checked, and a port-path
read answers them as 00h" (R158). -/
def Memory.readWord (m : Memory) (address : Nat) (be : Enables) : Word :=
  m.readLane address be 0 ||| m.readLane address be 1 ||| m.readLane address be 2 ||| m.readLane address be 3

/-- Every enabled byte of the word passes parity (R158). -/
def Memory.wordGood (m : Memory) (address : Nat) (be : Enables) : Bool :=
  [0, 1, 2, 3].all fun i => !be.getLsbD i || m.byteGood (address + i)

/-- The words of a burst, read from consecutive word addresses (R150). -/
def Memory.readBurst (m : Memory) : Nat → List Enables → List Word
  | _, [] => []
  | address, be :: rest => m.readWord address be :: m.readBurst (address + 4) rest

/-- Every byte a burst reads passes parity. -/
def Memory.burstGood (m : Memory) : Nat → List Enables → Bool
  | _, [] => true
  | address, be :: rest => m.wordGood address be && m.burstGood (address + 4) rest

/-- One word that a unit writes. -/
structure WordWrite where
  address : Nat
  enables : Enables
  word    : Word
  deriving DecidableEq, Repr

/-- The writes of a burst at consecutive word addresses. -/
def burstWrites : Nat → List Enables → List Word → List WordWrite
  | address, be :: bes, w :: ws => ⟨address, be, w⟩ :: burstWrites (address + 4) bes ws
  | _, _, _ => []

/-- The writes made in order. -/
def Memory.applyWrites (m : Memory) : List WordWrite → Memory
  | [] => m
  | w :: rest => (m.writeWord w.address w.enables w.word).applyWrites rest

/-- The writes of an interrupted unit: word `i` is new exactly where `landed i` (R160). -/
def Memory.applyLanded (m : Memory) (landed : Nat → Bool) : Nat → List WordWrite → Memory
  | _, [] => m
  | i, w :: rest =>
    (if landed i then m.writeWord w.address w.enables w.word else m).applyLanded landed (i + 1) rest

/-! ## Straps -/

/-- Installed memory in bytes, by the sampled straps (R149). -/
def State.installed (s : State) : Nat := installedOf s.memsz

/-- The base of the control block, by the sampled straps (R133). -/
def State.cbBase (s : State) : Nat := cbBaseOf s.cbsel s.memsz

/-- Whether the bytes from `base` share a byte with the control block. -/
def State.meetsCb (s : State) (base size : Nat) : Bool :=
  decide (base < s.cbBase + 0x1000) && decide (s.cbBase < base + size)

/-! ## Context counts (R9, R10, R16) -/

def HeldSlot.isSpent : HeldSlot → Bool
  | .spent => true
  | .copying _ => false

def HeldSlot.isCopying : HeldSlot → Bool
  | .spent => false
  | .copying _ => true

def Ctx.isLifo (x : Ctx) : Bool := x.applied.isLifo

def Ctx.capacity (x : Ctx) : Nat := x.applied.capacity

/-- writing: the number of WRITING slots (R9). -/
def Ctx.writing (x : Ctx) : Nat := x.writingRun.length

/-- in-copy: the number of IN-COPY slots (R9). -/
def Ctx.inCopy (x : Ctx) : Nat := x.heldRun.countP HeldSlot.isCopying

/-- spent: the number of SPENT slots (R9). -/
def Ctx.spent (x : Ctx) : Nat := x.heldRun.countP HeldSlot.isSpent

/-- held is in-copy + spent (R9). -/
def Ctx.heldCount (x : Ctx) : Nat := x.heldRun.length

/-- occupied is ready + writing + held for a FIFO context (R9); the depth of a LIFO context (R16). -/
def Ctx.occupied (x : Ctx) : Nat := if x.isLifo then x.depth else x.ready + x.writing + x.heldCount

/-- A context is full while occupied equals capacity (R9, R16). -/
def Ctx.full (x : Ctx) : Bool := decide (x.capacity ≤ x.occupied)

/-- A LIFO context has an operation running: a push being written or a pop being copied (R7). -/
def Ctx.opRunning (x : Ctx) : Bool := decide (0 < x.writing) || decide (0 < x.inCopy)

/-- The slot of the next entry: the head of a FIFO ring, slot ready - 1 of a LIFO stack (R52, R58, R80). -/
def Ctx.nextSlot (x : Ctx) : Nat := if x.isLifo then x.ready - 1 else x.head

/-- The next entry changes and its stamp is not known (R79). The stamp field keeps its value (log 10). -/
def Ctx.cacheInvalid (x : Ctx) : Ctx :=
  { x with cache := { x.cache with valid := false, staleRaised := false, fetchCurrent := false,
                                   fetchFailed := false } }

/-- The next entry changes to one whose stamp the engine knows (R79). -/
def Ctx.cacheValid (x : Ctx) (stamp : BitVec 16) : Ctx :=
  { x with cache := { stamp := stamp, valid := true, staleRaised := false, fetchCurrent := false,
                      fetchFailed := false } }

def HeldItem.port : HeldItem → Port
  | .commit h => h.port
  | .pop h => h.port

def HeldItem.stall : HeldItem → Option Nat
  | .commit h => h.stall
  | .pop h => h.stall

def HeldItem.isCommit : HeldItem → Bool
  | .commit _ => true
  | .pop _ => false

/-- The commits of a held list, in arrival order. -/
def heldCommits : List HeldItem → List HeldCommit
  | [] => []
  | .commit h :: rest => h :: heldCommits rest
  | .pop _ :: rest => heldCommits rest

/-- The pops of a held list, in arrival order. -/
def heldPops : List HeldItem → List HeldPop
  | [] => []
  | .commit _ :: rest => heldPops rest
  | .pop h :: rest => h :: heldPops rest

/-! ## Contexts in the live state -/

/-- Context `c` is replaced by `f` of it. -/
def Live.modCtx (l : Live) (c : Fin 8) (f : Ctx → Ctx) : Live :=
  { l with ctxs := l.ctxs.set c (f l.ctxs[c]) }

/-- An increase of `n` carries a 16-bit counter past 65535 (R19). -/
def wraps (old : BitVec 16) (n : Nat) : Bool := decide (65535 < old.toNat + n)

/-- WRAP is raised where a counter passed 65535 (R19). -/
def Live.raiseWrap (l : Live) (c : Fin 8) (wrapped : Bool) : Live :=
  if wrapped then l.raise c .wrap else l

/-- REJECTED increases by one and the gap flag is set (R18, R19). -/
def Live.countRejected (l : Live) (c : Fin 8) : Live :=
  (l.modCtx c fun x => { x with rejected := x.rejected + 1, gap := true }).raiseWrap c (wraps l.ctxs[c].rejected 1)

/-- A push to `c` ends without publication, with the REJECT notice (R48). -/
def Live.reject (l : Live) (c : Fin 8) : Live := (l.countRejected c).raise c .reject

/-- DISCARDED increases by `n` and the gap flag is set (R14, R18, R19). -/
def Live.countDiscarded (l : Live) (c : Fin 8) (n : Nat) : Live :=
  (l.modCtx c fun x => { x with discarded := x.discarded + BitVec.ofNat 16 n, gap := true }).raiseWrap c
    (wraps l.ctxs[c].discarded n)

/-- PUBLISHED increases by one (R12, R16). -/
def Live.countPublished (l : Live) (c : Fin 8) : Live :=
  (l.modCtx c fun x => { x with published := x.published + 1 }).raiseWrap c (wraps l.ctxs[c].published 1)

/-- DELIVERED increases by one (R15, R16). -/
def Live.countDelivered (l : Live) (c : Fin 8) : Live :=
  (l.modCtx c fun x => { x with delivered := x.delivered + 1 }).raiseWrap c (wraps l.ctxs[c].delivered 1)

/-- The port's item leaves the held list of `c`. -/
def Live.removeHeld (l : Live) (c : Fin 8) (p : Port) : Live :=
  l.modCtx c fun x => { x with held := x.held.filter fun i => i.port != p }

/-- Whether port `p` has an item in the held list. -/
def Ctx.holds (x : Ctx) (p : Port) : Bool := x.held.any fun i => i.port == p

/-- The item stays in its place in the held list of `c`, or joins its end (R32, R37, R55, R65). -/
def Live.holdItem (l : Live) (c : Fin 8) (i : HeldItem) : Live :=
  l.modCtx c fun x =>
    { x with held := if x.holds i.port then x.held.map (fun j => if j.port == i.port then i else j)
                     else x.held ++ [i] }

/-- The context whose held list has an item of port `p`, if any. -/
def Live.findHeld (l : Live) (p : Port) : Option (Fin 8) := allCtxs.find? fun c => l.ctxs[c].holds p

/-- The port has an entry WRITING, at any context (R32, R42). -/
def Live.portWriting (l : Live) (p : Port) : Bool :=
  allCtxs.any fun c => l.ctxs[c].writingRun.any fun w => w.port == p

def Job.isCopyOf (p : Port) : Job → Bool
  | .entryCopy _ _ _ _ q => p == q
  | _ => false

def Job.isFetchOf (c : Fin 8) : Job → Bool
  | .stampFetch d _ _ => c == d
  | _ => false

def Job.isSignalOf (c : Fin 8) : Job → Bool
  | .signalUpdate d => c == d
  | _ => false

/-- The port has an ENTRY_COPY in flight, claimed for its latch or dropped (R55). -/
def Live.copyInFlight (l : Live) (p : Port) : Bool := l.jobs.any fun e => e.job.isCopyOf p

/-- A job joins the end of the list (R156). -/
def Live.addJob (l : Live) (j : Job) : Live := { l with jobs := l.jobs ++ [⟨j, .waiting, none⟩] }

def Live.setAssembly (l : Live) (p : Port) (x : Assembly) : Live := { l with assembly := l.assembly.set p x }

def Live.setLatch (l : Live) (p : Port) (x : Latch) : Live := { l with latch := l.latch.set p x }

def Live.setIface (l : Live) (p : Port) (x : Iface) : Live := { l with ifaces := l.ifaces.set p x }

/-! ## Answers (R164, R166) -/

/-- The window index a fault record takes: the window that decided the first word, or 31 (R127). -/
def Decode.windowIndex : Decode → BitVec 5
  | .pass => 31
  | .plain w _ => BitVec.ofNat 5 w.val
  | .ring w _ _ => BitVec.ofNat 5 w.val
  | .bitfield w _ _ _ _ => BitVec.ofNat 5 w.val
  | .cb => 31
  | .refused none => 31
  | .refused (some w) => BitVec.ofNat 5 w.val

/-- The owner answers OK: the HELD transfer passes to ANSWERING. A port that has no transfer in HELD is not answered
(R164). -/
def Live.answerOk (l : Live) (p : Port) (a : Answer) : Live :=
  match l.ifaces.get p with
  | .held _ _ _ => l.setIface p (.answering a)
  | _ => l

/-- The owner answers ERROR: the answer reaches the port's fault record in the same event, with the fields of the
transfer as it was decoded (R127, R166). -/
def Live.answerError (l : Live) (p : Port) (kind : FaultKind) : Live :=
  match l.ifaces.get p with
  | .held t d _ =>
    { l with
      ifaces := l.ifaces.set p (.answering (.error kind t.errorWords))
      attn := l.attn.set p ((l.attn.get p).capture kind t d.windowIndex) }
  | _ => l

/-! ## Lines driven by a port interface -/

def Iface.ackLine : Iface → Bool
  | .answering .okWrite => true
  | .answering (.okRead _) => true
  | _ => false

def Iface.errLine : Iface → Bool
  | .answering (.error _ _) => true
  | _ => false

/-- The words on the data lines: the answer words of an OK read, zero words for an ERROR of a read (R166, their
number: log 33). -/
def Iface.dataLines : Iface → List Word
  | .answering (.okRead words) => words
  | .answering (.error _ zeros) => List.replicate zeros 0
  | _ => []

/-- The ATTN line of a port (R121, R170). -/
def State.attnLine (s : State) (p : Port) : Bool := !s.inReset && (s.attn.get p).asserted

/-! ## Binding (R101) -/

/-- "A context is bound while an enabled RING window names it" (R3). -/
def State.bound (s : State) (c : Fin 8) : Bool :=
  allWindows.any fun w => s.windows[w].applied.isRing && s.windows[w].applied.winCtx == c

/-! ## The status items (sections 8.6, 8.7) -/

/-- The four words of a context status item (R145). -/
def Ctx.statusWords (x : Ctx) : List Word :=
  [field 0 12 x.ready ||| field 12 12 x.heldCount ||| field 24 2 x.writing ||| field 26 2 x.inCopy |||
      field 28 2 x.watermark.code ||| field 30 1 (bit01 x.initialised) ||| field 31 1 (bit01 x.isLifo),
    field 0 16 x.published.toNat ||| field 16 16 x.delivered.toNat,
    field 0 16 x.discarded.toNat ||| field 16 16 x.rejected.toNat,
    field 0 16 x.cache.stamp.toNat ||| field 16 8 x.seq.toNat ||| field 24 1 (bit01 x.cache.valid) |||
      field 25 1 (bit01 x.cache.staleRaised)]

/-- The value of a status item as the owning block's state stands (R145). -/
def State.itemWords (s : State) : Item → List Word
  | .summary p => [(s.attn.get p).summary.setWidth 32]
  | .notice p c => [((s.attn.get p).pending[c]).setWidth 32]
  | .faultRecord p => faultRecordWords (s.attn.get p).record
  | .configStatus => configStatusWords s.configStatus
  | .engineFault => engineFaultWords s.engineFault
  | .context c => s.ctxs[c].statusWords

/-! ## The close of an event -/

/-- One evaluation of the watermark against the ready count an event leaves, with the notice it raises (R76). -/
def Ctx.evaluate (x : Ctx) : Watermark × Option Kind :=
  match x.watermark with
  | .calm =>
    if x.applied.high ≤ x.ready then
      if x.applied.holdoff = 0 then (.raised, some .high) else (.arming x.applied.holdoff, none)
    else (.calm, none)
  | .arming n => if x.applied.high ≤ x.ready then (.arming n, none) else (.calm, none)
  | .raised => if x.ready ≤ x.applied.low then (.calm, some .low) else (.raised, none)

/-- The watermark is evaluated where the event changed the ready count (R76, log 20). -/
def closeWatermark (before after : Ctx) : Watermark × Option Kind :=
  if before.ready = after.ready then (after.watermark, none) else after.evaluate

/-- The watermarks of all contexts at the close of an event (R76). -/
def closeWatermarks (before l : Live) : Live :=
  { l with
    ctxs := Vector.ofFn fun c : Fin 8 =>
      { l.ctxs[c] with watermark := (closeWatermark before.ctxs[c] l.ctxs[c]).1 }
    attn := allCtxs.foldl (fun a c =>
      match (closeWatermark before.ctxs[c] l.ctxs[c]).2 with
      | none => a
      | some k => raiseRouted a (l.ctxs[c].applied.route k) c k) l.attn }

/-- R80's conditions for placing a STAMP_FETCH. -/
def Live.needsFetch (l : Live) (c : Fin 8) : Bool :=
  !l.ctxs[c].cache.valid && decide (0 < l.ctxs[c].ready) && decide (l.ctxs[c].applied.ageLimit ≠ 0) &&
    !l.ctxs[c].cache.fetchFailed && !l.jobs.any fun e => e.job.isFetchOf c

/-- The event left ready on the other side of zero, with the signal word enabled, or asked for an update (R85, R88,
R20); and none of the context is on the list. -/
def Live.needsSignal (before l : Live) (c : Fin 8) : Bool :=
  ((l.ctxs[c].applied.signalEnable && (decide (before.ctxs[c].ready = 0) != decide (l.ctxs[c].ready = 0))) ||
      l.ctxs[c].signalDue) &&
    !l.jobs.any fun e => e.job.isSignalOf c

/-- The STAMP_FETCH of a context is placed where R80 requires one. -/
def Live.placeFetch (l : Live) (c : Fin 8) : Live :=
  if l.needsFetch c then
    (l.addJob (.stampFetch c l.ctxs[c].nextSlot (l.ctxs[c].applied.slotAddress l.ctxs[c].nextSlot))).modCtx c
      fun x => { x with cache := { x.cache with fetchCurrent := true } }
  else l

/-- The SIGNAL_UPDATE of a context is placed where R85 requires one. The marks of the event are cleared. -/
def Live.placeSignal (before l : Live) (c : Fin 8) : Live :=
  (if Live.needsSignal before l c then l.addJob (.signalUpdate c) else l).modCtx c
    fun x => { x with signalDue := false, statusDue := false }

/-- The context jobs of an event join in increasing context order, a context's STAMP_FETCH before its SIGNAL_UPDATE
(R156). -/
def closeJobs (before l : Live) : Live :=
  allCtxs.foldl (fun l c => Live.placeSignal before (l.placeFetch c) c) l

/-- The event marked the item dirty whatever its value: the status item of a context that it initialised (R20). -/
def Live.marksItem (l : Live) : Item → Bool
  | .context c => l.ctxs[c].statusDue
  | .summary _ => false
  | .notice _ _ => false
  | .faultRecord _ => false
  | .configStatus => false
  | .engineFault => false

/-- The items that the event `marked` dirty or changed and that are not on the mirror list, in offset order (R146). The
status item of an initialised context joins also where its value is as it was, as R20 says (log 28); a context item joins
at a port reset that changes it, though R148 says that none is marked (log 29). -/
def dirtied (before : State) (marked : Live) (after : State) : List Item :=
  Item.all.filter fun i =>
    (marked.marksItem i || before.itemWords i != after.itemWords i) && !after.mirror.contains i

/-- The last part of the close of an event, after the watermarks: context jobs, then the mirror list. -/
def settle (before after : State) : State :=
  let settled : State := { after with toLive := closeJobs before.toLive after.toLive }
  { settled with mirror := settled.mirror ++ dirtied before after.toLive settled }

/-- The close of an event: watermarks, context jobs, mirror list. -/
def closeEvent (before after : State) : State :=
  settle before { after with toLive := closeWatermarks before.toLive after.toLive }

/-- One event of the block that takes place where `possible` holds; else, and while RESET_N is asserted, it does not
take place and the state is unchanged (log 1). -/
def event (possible : Bool) (s : State) (f : State → State) : Host.Outcome State Fault Refusal :=
  .next (if possible && !s.inReset then closeEvent s (f s) else s)

/-- An event that the live state alone takes. -/
def State.onLive (s : State) (f : Live → Live) : State := { s with toLive := f s.toLive }

end Sys2Proof.Machine
end

