-- ==== Sys2Proof/Machine/MemoryPort.lean ====
section
/-! DEFINITION. The memory port: what the unit in progress reads and writes, the arbiter, the presentation of jobs, and
the completions of port reads, port writes and mirror units (chapter 9), with the meanings of ARBITER_GRANT,
SIGNAL_UPDATE_GRANT, MIRROR_WRITE, JOB_PRESENTATION, PORT_READ_COMPLETION, PORT_WRITE_COMPLETION,
NOTICE_WORD_READ_CLEAR and MIRROR_UNIT_COMPLETION. -/

namespace Sys2Proof.Machine

/-! ## BITFIELD values (R108-R111, R113-R115) -/

/-- The open bits of a word: those of its enabled bytes that the protected mask leaves open to the level (R108,
R109). -/
def openBits (be : Enables) (level : Level) (mask : Word) : Word :=
  if level = 0 then laneMask be else laneMask be &&& ~~~mask

/-- The value the write half stores, from the value read and the data (R110, R111, R113). -/
def BitOp.newWord (op : BitOp) (opened old data : Word) : Word :=
  match op with
  | .plainWrite => (old &&& ~~~opened) ||| (data &&& opened)
  | .set => old ||| (data &&& opened)
  | .clear => old &&& ~~~(data &&& opened)
  | .toggle => old ^^^ (data &&& opened)
  | .fetchClear => old &&& ~~~opened
  | .plainRead => old
  | .compare => old

/-- The unit has a write half (R115). -/
def BitOp.writesBack : BitOp → Bool
  | .plainRead => false
  | .compare => false
  | .plainWrite => true
  | .set => true
  | .clear => true
  | .toggle => true
  | .fetchClear => true

/-- The unit has a read half: every unit but a Q0 write at level 0 (R110, R115). -/
def BitOp.reads (op : BitOp) (level : Level) : Bool := op != .plainWrite || level != 0

/-- The words the write half stores, built from the words read (R115, R154). -/
def BitOp.writes (op : BitOp) (level : Level) (mask : Word) (m : Memory) :
    Nat → List Enables → List Word → List WordWrite
  | _, [], _ => []
  | a, be :: bes, data =>
    ⟨a, be, op.newWord (openBits be level mask) (if op.reads level then m.readWord a be else 0) (data.headD 0)⟩ ::
      op.writes level mask m (a + 4) bes data.tail

/-- The answer words of a BITFIELD read: the words as read, or per bit whether memory equals the compare word; bytes
whose enables are off are 00h (R108, R112-R114). -/
def BitOp.answerWords (op : BitOp) (compare : Word) : List Enables → List Word → List Word
  | be :: bes, w :: ws =>
    (match op with
      | .compare => ~~~(w ^^^ compare) &&& laneMask be
      | _ => w) :: op.answerWords compare bes ws
  | _, _ => []

/-! ## What the unit in progress writes (R150, R153, R154) -/

/-- The writes of a port-path unit run to its completion; a read-modify-write whose read half fails writes nothing
(R116). -/
def PathUnit.writes (u : PathUnit) (m : Memory) : List WordWrite :=
  match u.work with
  | .read => []
  | .cbRead => []
  | .peek => []
  | .write => burstWrites u.address u.enables u.data
  | .cbWrite => burstWrites u.address u.enables u.data
  | .bitfield op level mask _ =>
    if op.writesBack && (!op.reads level || m.burstGood u.address u.enables) then
      op.writes level mask m u.address u.enables u.data
    else []

/-- The entry of the job in progress, if any. -/
def Live.jobInProgress (l : Live) : Option Job := (l.jobs.find? fun e => e.phase == .inProgress).map JobEntry.job

/-- The word with bit `i` set to `v`, the other 31 bits as they are (R86). -/
def withBit (w : Word) (i : Nat) (v : Bool) : Word :=
  (w &&& ~~~((1 : Word) <<< i)) ||| (if v then (1 : Word) <<< i else 0)

/-- Full byte enables for each word of a list. -/
def fullEnables (words : List Word) : List Enables := words.map fun _ => allEnabled

/-- The writes of the unit in progress, if it runs to its completion. -/
def State.busyWrites (s : State) : List WordWrite :=
  match s.busy with
  | none => []
  | some (.port p) =>
    match s.paths.get p with
    | none => []
    | some u => u.writes s.mem
  | some .job =>
    match s.jobInProgress with
    | some (.entryWrite _ _ address h payload _) => burstWrites address (fullEnables (h :: payload)) (h :: payload)
    | _ => []
  | some (.signal _ address bit value) =>
    if s.mem.wordGood address allEnabled then
      [⟨address, allEnabled, withBit (s.mem.readWord address allEnabled) bit value⟩]
    else []
  | some (.mirror item words) => burstWrites (s.cbBase + item.offset) (fullEnables words) words

/-- The unit in progress writes its words and the memory port is idle (R150, R152; log 7). -/
def State.finishUnit (s : State) : State := { s with mem := s.mem.applyWrites s.busyWrites, busy := none }

/-! ## The arbiter (R152) -/

/-- The requesters in the order of a search that starts after the pointer (R152). -/
def Requester.searchOrder : Requester → List Requester
  | .portA => [.portB, .engine, .mirror, .portA]
  | .portB => [.engine, .mirror, .portA, .portB]
  | .engine => [.mirror, .portA, .portB, .engine]
  | .mirror => [.portA, .portB, .engine, .mirror]

/-- The entry of the job presented, if any. -/
def Live.jobPresented (l : Live) : Option JobEntry := l.jobs.find? fun e => e.phase == .presented

/-- Whether a requester has a unit presented (R147, R151, R157). -/
def State.presents (s : State) : Requester → Bool
  | .portA => s.paths.a.isSome
  | .portB => s.paths.b.isSome
  | .engine => s.jobPresented.isSome
  | .mirror => !s.mirror.isEmpty

/-- The requester that the arbiter grants, with the memory idle and a unit presented (R152). -/
def State.winner (s : State) : Option Requester :=
  if s.busy.isSome then none else s.pointer.searchOrder.find? s.presents

/-- A granted SIGNAL_UPDATE leaves the list, with its bit value fixed from the ready count (R86, R154, R156); another
job is in progress. -/
def State.grantJob (s : State) : State :=
  match s.jobPresented with
  | none => s
  | some e =>
    match e.job, e.target with
    | .signalUpdate c, some (address, bit) =>
      { s with
        jobs := s.jobs.eraseP fun e => e.phase == .presented
        busy := some (.signal c address bit (decide (0 < s.ctxs[c].ready))) }
    | _, _ =>
      { s with
        jobs := s.jobs.map fun e => if e.phase == .presented then { e with phase := .inProgress } else e
        busy := some .job }

/-- The grant of a mirror item sets the shown marks of a notice word (R125, R147). -/
def Live.markGranted (l : Live) : Item → Live
  | .notice p c => { l with attn := l.attn.set p ((l.attn.get p).markShown c) }
  | .summary _ => l
  | .faultRecord _ => l
  | .configStatus => l
  | .engineFault => l
  | .context _ => l

/-- The head item leaves the mirror list and its value is fixed (R147). -/
def State.grantMirror (s : State) : State :=
  match s.mirror with
  | [] => s
  | item :: rest =>
    { s.onLive (fun l => l.markGranted item) with mirror := rest, busy := some (.mirror item (s.itemWords item)) }

/-- A grant: the memory goes to the requester and the pointer moves to it (R152). -/
def State.grantTo (s : State) (r : Requester) : State :=
  let s := { s with pointer := r }
  match r with
  | .portA => { s with busy := some (.port .A) }
  | .portB => { s with busy := some (.port .B) }
  | .engine => s.grantJob
  | .mirror => s.grantMirror

/-- The arbiter grants in one event (R152). -/
def State.grant (s : State) : State :=
  match s.winner with
  | none => s
  | some r => s.grantTo r

/-- The job presented is a SIGNAL_UPDATE. -/
def Live.signalPresented (l : Live) : Bool :=
  match l.jobPresented with
  | some ⟨.signalUpdate _, _, _⟩ => true
  | _ => false

/-- ARBITER_GRANT (R152). -/
def execArbiterGrant (s : State) : Host.Outcome State Fault Refusal :=
  event s.winner.isSome s fun s => s.grant

/-- SIGNAL_UPDATE_GRANT: the grant that falls to a presented SIGNAL_UPDATE (R86). -/
def execSignalUpdateGrant (s : State) : Host.Outcome State Fault Refusal :=
  event (s.winner == some .engine && s.signalPresented) s fun s => s.grant

/-- MIRROR_WRITE: the grant that falls to the mirror writer's head item (R147). -/
def execMirrorWrite (s : State) : Host.Outcome State Fault Refusal :=
  event (s.winner == some .mirror) s fun s => s.grant

/-! ## Presentation of a job (R157) -/

/-- The port that owns a port-owned job (section 9.4). -/
def Job.owner : Job → Option Port
  | .entryWrite _ _ _ _ _ p => some p
  | .entryCopy _ _ _ _ p => some p
  | .stampFetch _ _ _ => none
  | .signalUpdate _ => none

/-- A job is eligible after the older jobs that are not yet presented: a context job when there is none, a port-owned
job when they are all port-owned jobs of the other port (R157). -/
def Job.eligibleAfter (j : Job) (older : List Job) : Bool :=
  match j.owner with
  | none => older.isEmpty
  | some p => older.all fun k => k.owner == some p.other

/-- The eligible jobs with their places on the list, oldest first (R157). -/
def eligibleJobs : List JobEntry → Nat → List Job → List (Nat × Job)
  | [], _, _ => []
  | e :: rest, i, older =>
    if e.phase == .waiting then
      (if e.job.eligibleAfter older then [(i, e.job)] else []) ++ eligibleJobs rest (i + 1) (older ++ [e.job])
    else eligibleJobs rest (i + 1) older

/-- The job the engine chooses: the eligible one that `prefer` owns, else the oldest eligible one (R157, log 22). -/
def chooseJob (prefer : Port) (jobs : List JobEntry) : Option (Nat × Job) :=
  ((eligibleJobs jobs 0 []).find? fun x => x.2.owner == some prefer).or (eligibleJobs jobs 0 []).head?

/-- The chosen job is presented. A SIGNAL_UPDATE whose signal word is disabled leaves the list without being
presented, and the engine chooses again in the same event (R86, R157); its address and bit are fixed at presentation
(R86). The first argument bounds the choices by the length of the list. -/
def Live.presentJob (prefer : Port) : Nat → Live → Live
  | 0, l => l
  | n + 1, l =>
    match chooseJob prefer l.jobs with
    | none => l
    | some (i, .signalUpdate c) =>
      if l.ctxs[c].applied.signalEnable then
        { l with jobs := l.jobs.set i ⟨.signalUpdate c, .presented,
                           some (l.ctxs[c].applied.signalAddress, l.ctxs[c].applied.signalBit)⟩ }
      else Live.presentJob prefer n { l with jobs := l.jobs.eraseIdx i }
    | some (i, j) => { l with jobs := l.jobs.set i ⟨j, .presented, none⟩ }

/-- JOB_PRESENTATION: no job is presented and the list holds one not yet presented (R157). -/
def execJobPresentation (prefer : Port) (s : State) : Host.Outcome State Fault Refusal :=
  event (s.jobPresented.isNone && s.jobs.any fun e => e.phase == .waiting) s fun s =>
    s.onLive fun l => Live.presentJob prefer l.jobs.length l

/-! ## Completions on a port path (R93, R126, R151) -/

/-- The unit in progress on a port's path, with its port. -/
def State.currentUnit (s : State) : Option (Port × PathUnit) :=
  match s.busy with
  | some (.port p) => (s.paths.get p).map fun u => (p, u)
  | _ => none

/-- The unit leaves the path; a unit that waits in HELD is handed down (R151, R163). -/
def State.leavePath (s : State) (p : Port) : State :=
  match s.ifaces.get p with
  | .held t d (some u) =>
    { s.onLive (fun l => l.setIface p (.held t d none)) with paths := s.paths.set p (some u) }
  | _ => { s with paths := s.paths.set p none }

/-- The completion of the unit on the path of `p`: its words are written, it leaves the path, and where its answer is
still wanted the port is answered; the answer of a unit whose port was reset is discarded (R151). -/
def State.completeUnit (s : State) (p : Port) (u : PathUnit) (answer : Live → Live) : State :=
  let s := s.finishUnit.leavePath p
  if u.wanted then s.onLive answer else s

/-- The kinds that a READCLEAR read clears at one word: in the data, pending and shown (R126). -/
def PortAttn.readClearWord (a : PortAttn) (p : Port) (offset : Nat) (w : Word) : PortAttn :=
  match noticeContext p offset with
  | none => a
  | some c => a.clearKinds c (w.setWidth 8 &&& a.pending[c] &&& a.shown[c])

/-- A READCLEAR read of a burst clears each of the port's own notice words for its own context (R126). -/
def PortAttn.readClearBurst (p : Port) : Nat → List Word → PortAttn → PortAttn
  | _, [], a => a
  | offset, w :: rest, a => PortAttn.readClearBurst p (offset + 4) rest (a.readClearWord p offset w)

/-- The data of a read has passed to the port: OK, and under READCLEAR the shown kinds it returned are cleared (R93,
R126, R134). -/
def State.readPassed (s : State) (p : Port) (u : PathUnit) (l : Live) : Live :=
  let words := s.mem.readBurst u.address u.enables
  let l := l.answerOk p (.okRead words)
  if u.work == .cbRead && readClear s.globalWord then
    { l with attn := l.attn.set p (PortAttn.readClearBurst p (u.address - s.cbBase) words (l.attn.get p)) }
  else l

/-- A read unit completes: the data, or ERROR PARITY when a byte failed (R93, R159). -/
def State.completeRead (s : State) : State :=
  match s.currentUnit with
  | none => s
  | some (p, u) =>
    s.completeUnit p u fun l =>
      if s.mem.burstGood u.address u.enables then s.readPassed p u l else l.answerError p .parity

/-- The unit in progress is a port unit of the given work. -/
def State.unitIs (s : State) (f : UnitWork → Bool) : Bool :=
  match s.currentUnit with
  | some (_, u) => f u.work
  | none => false

/-- PORT_READ_COMPLETION (R93, R94, R134). -/
def execPortReadCompletion (s : State) : Host.Outcome State Fault Refusal :=
  event (s.unitIs fun w => w == .read || w == .cbRead) s fun s => s.completeRead

/-- The offsets of the words of a unit in the control block. -/
def PathUnit.offsets (u : PathUnit) (base : Nat) : List Nat :=
  (List.range u.enables.length).map fun i => u.address - base + 4 * i

/-- The unit in progress is a read, under READCLEAR and still wanted, that covers a notice word of its own port and
whose bytes pass (R126). -/
def State.readsNotice (s : State) : Bool :=
  match s.currentUnit with
  | some (p, u) =>
    u.work == .cbRead && u.wanted && readClear s.globalWord && s.mem.burstGood u.address u.enables &&
      (u.offsets s.cbBase).any fun o => (noticeContext p o).isSome
  | none => false

/-- NOTICE_WORD_READ_CLEAR: the completion of a read that clears by READCLEAR (R126). -/
def execNoticeWordReadClear (s : State) : Host.Outcome State Fault Refusal :=
  event s.readsNotice s fun s => s.completeRead

/-- PORT_WRITE_COMPLETION: a pass-through or PLAIN write is answered when its words are in memory (R93, R94). -/
def execPortWriteCompletion (s : State) : Host.Outcome State Fault Refusal :=
  event (s.unitIs fun w => w == .write) s fun s =>
    match s.currentUnit with
    | none => s
    | some (p, u) => s.completeUnit p u fun l => l.answerOk p .okWrite

/-- The unit in progress is a mirror item. -/
def State.mirrorBusy (s : State) : Bool :=
  match s.busy with
  | some (.mirror _ _) => true
  | _ => false

/-- MIRROR_UNIT_COMPLETION: the item's words are in memory and the memory port is idle (R147, R150). -/
def execMirrorUnitCompletion (s : State) : Host.Outcome State Fault Refusal :=
  event s.mirrorBusy s fun s => s.finishUnit

end Sys2Proof.Machine
end

