-- ==== Sys2Proof/Machine/Bitfield.lean ====
section
/-! DEFINITION. The completions of BITFIELD units (R110-R116), with the meanings of BITFIELD_PLAIN_WRITE, SET, CLEAR,
TOGGLE, BITFIELD_PLAIN_READ, FETCH_AND_CLEAR and COMPARE_READ. -/

namespace Sys2Proof.Machine

/-- The operation returns data to the port. -/
def BitOp.isRead : BitOp → Bool
  | .plainRead => true
  | .fetchClear => true
  | .compare => true
  | .plainWrite => false
  | .set => false
  | .clear => false
  | .toggle => false

/-- The answer of a BITFIELD unit: ERROR PARITY when a byte its read half read failed, else OK with the operation's
words for a read (R111-R114, R116). -/
def State.bitAnswer (s : State) (p : Port) (u : PathUnit) (op : BitOp) (level : Level) (compare : Word)
    (l : Live) : Live :=
  if op.reads level && !s.mem.burstGood u.address u.enables then l.answerError p .parity
  else if op.isRead then
    l.answerOk p (.okRead (op.answerWords compare u.enables (s.mem.readBurst u.address u.enables)))
  else l.answerOk p .okWrite

/-- A BITFIELD unit completes: memory as the operation states, then the answer (R115, R116, R118). -/
def State.completeBitfield (s : State) : State :=
  match s.currentUnit with
  | some (p, u) =>
    match u.work with
    | .bitfield op level _ compare => s.completeUnit p u fun l => s.bitAnswer p u op level compare l
    | _ => s
  | none => s

/-- The unit in progress is a BITFIELD unit of the given operation. -/
def State.bitfieldIs (s : State) (op : BitOp) : Bool :=
  s.unitIs fun w =>
    match w with
    | .bitfield o _ _ _ => o == op
    | _ => false

/-- BITFIELD_PLAIN_WRITE (R110). -/
def execBitfieldPlainWrite (s : State) : Host.Outcome State Fault Refusal :=
  event (s.bitfieldIs .plainWrite) s fun s => s.completeBitfield

/-- SET (R111). -/
def execSet (s : State) : Host.Outcome State Fault Refusal :=
  event (s.bitfieldIs .set) s fun s => s.completeBitfield

/-- CLEAR (R111). -/
def execClear (s : State) : Host.Outcome State Fault Refusal :=
  event (s.bitfieldIs .clear) s fun s => s.completeBitfield

/-- TOGGLE (R111). -/
def execToggle (s : State) : Host.Outcome State Fault Refusal :=
  event (s.bitfieldIs .toggle) s fun s => s.completeBitfield

/-- BITFIELD_PLAIN_READ (R112). -/
def execBitfieldPlainRead (s : State) : Host.Outcome State Fault Refusal :=
  event (s.bitfieldIs .plainRead) s fun s => s.completeBitfield

/-- FETCH_AND_CLEAR (R113). -/
def execFetchAndClear (s : State) : Host.Outcome State Fault Refusal :=
  event (s.bitfieldIs .fetchClear) s fun s => s.completeBitfield

/-- COMPARE_READ (R114). -/
def execCompareRead (s : State) : Host.Outcome State Fault Refusal :=
  event (s.bitfieldIs .compare) s fun s => s.completeBitfield

end Sys2Proof.Machine
end

