-- ==== Sys2Proof/Machine/Ring.lean ====
section
/-! DEFINITION. The events of a ring: reservation, publication, claim, discard, release, FLUSH (R11-R16, R21), and what
they do to a port's buffer and latch (R33-R36, R58). -/

namespace Sys2Proof.Machine

/-! ## Release and discard (R14, R15) -/

/-- The slots at the release index are released for as long as they are SPENT (R15). -/
def Ctx.releaseStep (x : Ctx) : Ctx :=
  { x with
    heldRun := x.heldRun.dropWhile HeldSlot.isSpent
    release := (x.release + (x.heldRun.takeWhile HeldSlot.isSpent).length) % x.capacity }

/-- `n` READY slots are discarded from the head of a FIFO ring: each becomes SPENT, and the release step follows
(R14, R15). From the top of a LIFO stack: ready and depth decrease (R16). The next entry changes (R79). -/
def Ctx.dropReady (x : Ctx) (n : Nat) : Ctx :=
  (if x.isLifo then { x with ready := x.ready - n, depth := x.depth - n }
   else Ctx.releaseStep
     { x with
       ready := x.ready - n
       head := (x.head + n) % x.capacity
       heldRun := x.heldRun ++ List.replicate n .spent }).cacheInvalid

/-- A discard of the next entry, or of `n` of them in one event: DISCARDED, gap flag, LOSS once (R14, R16, R21). -/
def Live.discard (l : Live) (c : Fin 8) (n : Nat) : Live :=
  ((l.modCtx c fun x => x.dropReady n).countDiscarded c n).raise c .loss

/-- Every ready entry is discarded; with none ready nothing changes (R21). -/
def Live.discardAll (l : Live) (c : Fin 8) : Live :=
  if l.ctxs[c].ready = 0 then l else l.discard c l.ctxs[c].ready

/-- The event freed one or more slots of the context. -/
def Live.freedSince (before l : Live) (c : Fin 8) : Bool :=
  decide (l.ctxs[c].occupied < before.ctxs[c].occupied)

/-! ## Reservation (R11, R16, R33, R34) -/

/-- The ring side of a reservation: the tail slot of a FIFO ring or slot depth of a LIFO stack becomes WRITING, the
sequence number advances, the gap flag is cleared. -/
def Ctx.reserve (x : Ctx) (p : Port) (now : BitVec 16) : Ctx :=
  let slot := if x.isLifo then x.depth else x.tail
  { x with
    tail := if x.isLifo then x.tail else (x.tail + 1) % x.capacity
    depth := if x.isLifo then x.depth + 1 else x.depth
    writingRun := x.writingRun ++ [⟨slot, p, now, false⟩]
    seq := x.seq + 1
    gap := false }

/-- The slot the next reservation takes. -/
def Ctx.reserveSlot (x : Ctx) : Nat := if x.isLifo then x.depth else x.tail

/-- The payload words a committing buffer holds. -/
def Assembly.commitWords : Assembly → List Word
  | .committing _ _ _ words _ => words
  | _ => []

/-- The ENTRY_WRITE job of a reservation by port `p` (R34). -/
def Live.entryWriteJob (l : Live) (now : BitVec 16) (c : Fin 8) (h : HeldCommit) : Job :=
  .entryWrite c l.ctxs[c].reserveSlot (l.ctxs[c].applied.slotAddress l.ctxs[c].reserveSlot)
    (header h.length h.port h.level l.ctxs[c].gap l.ctxs[c].seq now) (l.assembly.get h.port).commitWords h.port

/-- A commit reserves: it leaves the held list, the slot becomes WRITING, the ENTRY_WRITE joins the list, and the
buffer stays COMMITTING, marked reserved (R11, R33, R34). -/
def Live.reserve (l : Live) (now : BitVec 16) (c : Fin 8) (h : HeldCommit) : Live :=
  (((l.addJob (l.entryWriteJob now c h)).modCtx c fun x => x.reserve h.port now).removeHeld c h.port).setAssembly
    h.port (.committing c h.length h.level [] true)

/-- A commit is refused on a full context: ERROR FULL, REJECTED, REJECT, buffer EMPTY (R36, R40). -/
def Live.refuseFull (l : Live) (c : Fin 8) (h : HeldCommit) : Live :=
  (((l.removeHeld c h.port).answerError h.port .full).reject c).setAssembly h.port .empty

/-! ## Claim (R13, R16, R58) -/

/-- The ring side of a claim: the next entry becomes IN-COPY for the port. -/
def Ctx.claim (x : Ctx) (p : Port) : Ctx :=
  Ctx.cacheInvalid
    { x with
      ready := x.ready - 1
      head := if x.isLifo then x.head else (x.head + 1) % x.capacity
      heldRun := x.heldRun ++ [.copying p] }

/-- A claim for a pop: ring, ENTRY_COPY, latch FILLING, out of the held list (R58). -/
def Live.claim (l : Live) (c : Fin 8) (h : HeldPop) : Live :=
  (((l.addJob (.entryCopy c l.ctxs[c].nextSlot (l.ctxs[c].applied.slotAddress l.ctxs[c].nextSlot)
      l.ctxs[c].applied.payloadCap h.port)).modCtx c fun x => x.claim h.port).removeHeld c h.port).setLatch h.port
    (.filling c l.ctxs[c].nextSlot h.burst false)

/-! ## Publication (R12, R16, R35) -/

/-- The oldest WRITING slot becomes READY (R12, R16). On a FIFO ring the next entry changes only when ready was 0; on
a LIFO stack it always does (R79). -/
def Ctx.publish (x : Ctx) (w : WritingSlot) : Ctx :=
  let y := { x with writingRun := x.writingRun.drop 1, ready := x.ready + 1 }
  if x.isLifo || x.ready == 0 then y.cacheValid w.stamp else y

/-- Whether the port's producer still waits for an entry of context `c` that it has reserved (R35). -/
def Assembly.waitsFor (c : Fin 8) : Assembly → Bool
  | .committing d _ _ _ reserved => reserved && c == d
  | _ => false

/-- "The waiting producer's PUSH_LAST transfer is answered OK and the port's assembly buffer becomes EMPTY" (R35). -/
def Live.answerProducer (l : Live) (c : Fin 8) (p : Port) : Live :=
  if (l.assembly.get p).waitsFor c then (l.answerOk p .okWrite).setAssembly p .empty else l

/-- One publication and the offer of the entry to the oldest held pop of a FIFO context (R12). -/
def Live.publishOne (l : Live) (c : Fin 8) (w : WritingSlot) : Live :=
  let l := ((l.modCtx c fun x => x.publish w).countPublished c).answerProducer c w.port
  match l.ctxs[c].isLifo, heldPops l.ctxs[c].held with
  | false, h :: _ => if l.copyInFlight h.port || l.ctxs[c].ready == 0 then l else l.claim c h
  | _, _ => l

/-- The run of written slots is published one by one, in reservation order (R12). -/
def Live.publishRun : List WritingSlot → Fin 8 → Live → Live
  | [], _, l => l
  | w :: rest, c, l => Live.publishRun rest c (l.publishOne c w)

/-- The write of the slot that port `p` reserved is complete (R12). -/
def Ctx.writeComplete (x : Ctx) (slot : Nat) (p : Port) : Ctx :=
  { x with writingRun := x.writingRun.map fun w =>
      if w.slot == slot && w.port == p then { w with complete := true } else w }

/-! ## End of a copy at the ring (R15, R16) -/

/-- The first slot IN-COPY for `p` becomes SPENT. -/
def spendCopy (p : Port) : List HeldSlot → List HeldSlot
  | [] => []
  | .copying q :: rest => if p = q then .spent :: rest else .copying q :: spendCopy p rest
  | .spent :: rest => .spent :: spendCopy p rest

/-- The copy of port `p` completes at the ring: SPENT and released in claim order (R15); on a LIFO stack the slot is
FREE at once (R16). -/
def Ctx.copyDone (x : Ctx) (p : Port) : Ctx :=
  if x.isLifo then { x with heldRun := x.heldRun.erase (.copying p), depth := x.depth - 1 }
  else Ctx.releaseStep { x with heldRun := spendCopy p x.heldRun }

end Sys2Proof.Machine
end

