-- ==== Sys2Proof/Machine/HeldList.lean ====
section
/-! DEFINITION. The held list of a context: taking commits and pops, the full policies, the empty actions, and the
examinations of the list (R32-R44, R63-R70). `now` is the tick counter, the stamp of a reservation (R33). -/

namespace Sys2Proof.Machine

/-! ## Taking a commit (R33, R36-R40, R44) -/

/-- The commit stays or joins as held for space, with the stall count it has or the stall limit (R37). -/
def Live.holdForSpace (l : Live) (c : Fin 8) (h : HeldCommit) : Live :=
  l.holdItem c (.commit { h with stall := some (h.stall.getD l.ctxs[c].applied.stallLimit) })

/-- OVERWRITE at a full context with an entry ready: the head is discarded, and the commit reserves if the release step
freed its slot, else it is held with discard made yes and no stall count (R39). -/
def Live.overwrite (l : Live) (now : BitVec 16) (c : Fin 8) (h : HeldCommit) : Live :=
  let l := l.discard c 1
  if l.ctxs[c].full then l.holdItem c (.commit { h with discardMade := true, stall := none })
  else l.reserve now c h

/-- A commit is taken: it reserves, or the full policy of a full context applies (R33, R36, R37, R39, R40, R44). -/
def Live.takeCommit (l : Live) (now : BitVec 16) (c : Fin 8) (h : HeldCommit) : Live :=
  if l.ctxs[c].full then
    match l.ctxs[c].applied.policy with
    | .refuse => l.refuseFull c h
    | .stall => l.holdForSpace c h
    | .overwrite =>
      if h.discardMade then l.holdItem c (.commit h)
      else if l.ctxs[c].ready = 0 then l.refuseFull c h
      else l.overwrite now c h
  else l.reserve now c h

/-! ## Taking a pop (R58, R63-R65, R69) -/

/-- The empty action of a pop taken with ready = 0 (R63, R64, R65). -/
def Live.takeEmpty (l : Live) (c : Fin 8) (h : HeldPop) : Live :=
  match l.ctxs[c].applied.emptyAction with
  | .fill =>
    ((l.removeHeld c h.port).answerOk h.port
      (.okRead (List.replicate h.burst.words l.ctxs[c].applied.fillWord))).setLatch h.port .empty
  | .error => ((l.removeHeld c h.port).answerError h.port .empty).setLatch h.port .empty
  | .wait =>
    (l.holdItem c (.pop { h with stall := some (h.stall.getD l.ctxs[c].applied.stallLimit) })).setLatch h.port
      (.waiting c)

/-- A pop is taken: it claims the next entry, or its empty action applies. -/
def Live.takePop (l : Live) (c : Fin 8) (h : HeldPop) : Live :=
  if l.ctxs[c].ready = 0 then l.takeEmpty c h else l.claim c h

/-! ## Examinations (R41, R66, R70) -/

/-- The held commits of a FIFO context are considered in arrival order; one that cannot be taken, or that stays,
stops the examination (R41). -/
def examineCommitList (now : BitVec 16) (c : Fin 8) : List HeldCommit → Live → Live
  | [], l => l
  | h :: rest, l =>
    if l.portWriting h.port then l
    else
      let l := l.takeCommit now c h
      if l.ctxs[c].holds h.port then l else examineCommitList now c rest l

/-- The held pops of a FIFO context are considered in arrival order; one whose port has a copy in flight stops the
examination (R66). -/
def examinePopList (c : Fin 8) : List HeldPop → Live → Live
  | [], l => l
  | h :: rest, l => if l.copyInFlight h.port then l else examinePopList c rest (l.takePop c h)

/-- The held items of a LIFO context are considered in arrival order, commits and pops together. An item that starts
an operation ends it, an item held back by its port's earlier work stops it, others are passed (R43, R70). -/
def examineStackList (now : BitVec 16) (c : Fin 8) : List HeldItem → Live → Live
  | [], l => l
  | i :: rest, l =>
    if l.ctxs[c].opRunning then l
    else
      match i with
      | .commit h => if l.portWriting h.port then l else examineStackList now c rest (l.takeCommit now c h)
      | .pop h => if l.copyInFlight h.port then l else examineStackList now c rest (l.takePop c h)

/-- The held list of a LIFO context is examined. -/
def Live.examineStack (l : Live) (now : BitVec 16) (c : Fin 8) : Live :=
  examineStackList now c l.ctxs[c].held l

/-- The held list of a context is examined for commits (R41; R70 for a LIFO context). -/
def Live.examineCommits (l : Live) (now : BitVec 16) (c : Fin 8) : Live :=
  if l.ctxs[c].isLifo then l.examineStack now c else examineCommitList now c (heldCommits l.ctxs[c].held) l

/-- The held list of a context is examined for pops (R66; R70 for a LIFO context). -/
def Live.examinePops (l : Live) (now : BitVec 16) (c : Fin 8) : Live :=
  if l.ctxs[c].isLifo then l.examineStack now c else examinePopList c (heldPops l.ctxs[c].held) l

/-- The held list where the port's commit waits is examined at the publication of the port's entry (R42, R70). -/
def Live.examineCommitOf (l : Live) (now : BitVec 16) (p : Port) : Live :=
  match l.findHeld p with
  | none => l
  | some c =>
    if l.ctxs[c].isLifo || (heldCommits l.ctxs[c].held).any (fun h => h.port == p) then l.examineCommits now c else l

/-- The held list where the port's pop waits is examined at the completion of the port's copy (R68, R70). -/
def Live.examinePopOf (l : Live) (now : BitVec 16) (p : Port) : Live :=
  match l.findHeld p with
  | none => l
  | some c =>
    if l.ctxs[c].isLifo || (heldPops l.ctxs[c].held).any (fun h => h.port == p) then l.examinePops now c else l

/-- The held commits are examined where the event freed slots of a FIFO context; a LIFO list is examined (R15, R41,
R70). -/
def Live.offerSpace (before l : Live) (now : BitVec 16) (c : Fin 8) : Live :=
  if l.ctxs[c].isLifo then l.examineStack now c
  else if Live.freedSince before l c then l.examineCommits now c
  else l

/-- The end of a LIFO operation: a pending FLUSH first, then the held list (R16, R21, R43). -/
def Live.operationEnds (l : Live) (now : BitVec 16) (c : Fin 8) : Live :=
  (if l.ctxs[c].pendingFlush then (l.modCtx c fun x => { x with pendingFlush := false }).discardAll c
   else l).examineStack now c

/-! ## Arrivals at a context (R32, R43, R55, R69) -/

/-- A commit that joins the list on arrival is given a stall count when the context is full under STALL (R32, R43). -/
def Live.joinCommit (l : Live) (c : Fin 8) (h : HeldCommit) : Live :=
  l.holdItem c (.commit { h with
    stall := if l.ctxs[c].full && l.ctxs[c].applied.policy == .stall then some l.ctxs[c].applied.stallLimit
             else none })

/-- A commit arrives at its context: taken at once or held (R32, R43). Joining a LIFO list while no operation runs
examines it (R70). -/
def Live.arriveCommit (l : Live) (now : BitVec 16) (c : Fin 8) (h : HeldCommit) : Live :=
  if l.ctxs[c].isLifo then
    if !l.ctxs[c].opRunning && l.ctxs[c].held.isEmpty && !l.portWriting h.port then l.takeCommit now c h
    else (l.joinCommit c h).examineStack now c
  else if (heldCommits l.ctxs[c].held).isEmpty && !l.portWriting h.port then l.takeCommit now c h
  else l.joinCommit c h

/-- A pop that joins the list on arrival is given a stall count when ready is 0 and the empty action is WAIT; its
latch becomes WAITING (R55, R69). -/
def Live.joinPop (l : Live) (c : Fin 8) (h : HeldPop) : Live :=
  (l.holdItem c (.pop { h with
    stall := if decide (l.ctxs[c].ready = 0) && l.ctxs[c].applied.emptyAction == .wait
             then some l.ctxs[c].applied.stallLimit else none })).setLatch h.port (.waiting c)

/-- A pop arrives at its context: it claims, its empty action applies, or it is held (R55, R69, R70). -/
def Live.arrivePop (l : Live) (now : BitVec 16) (c : Fin 8) (h : HeldPop) : Live :=
  if l.ctxs[c].isLifo then
    if !l.ctxs[c].opRunning && l.ctxs[c].held.isEmpty && !l.copyInFlight h.port then l.takePop c h
    else (l.joinPop c h).examineStack now c
  else if l.copyInFlight h.port then l.joinPop c h
  else if l.ctxs[c].ready = 0 then l.takeEmpty c h
  else if (heldPops l.ctxs[c].held).isEmpty then l.claim c h
  else l.joinPop c h

end Sys2Proof.Machine
end

