-- ==== Sys2Proof/Machine/DecodePath.lean ====
section
/-! DEFINITION. The window decoder: classes of an address, the decision of a burst, rights, levels and shapes, and what
is handed down (chapter 5), with the meanings of PASS_THROUGH, PLAIN_WINDOW_TRANSFER, UNMAPPED, CB_READ, CB_WRITE and
BITFIELD_TRANSFER. -/

namespace Sys2Proof.Machine

/-! ## Classes and decisions (R91, R92) -/

/-- The class of one upstream address (R91). -/
inductive WordClass where
  | cb
  | window (w : Fin 16)
  | pass
  | unmapped
  deriving DecidableEq, Repr

/-- "The window with the lowest index among them decides" (R91). -/
def State.windowAt (s : State) (a : Nat) : Option (Fin 16) :=
  allWindows.find? fun w =>
    s.windows[w].applied.winEnable && decide (s.windows[w].applied.apertureBase ≤ a) &&
      decide (a < s.windows[w].applied.apertureBase + s.windows[w].applied.apertureSize)

/-- The class of an upstream word address: control block, window, pass-through, otherwise unmapped; beyond the top of
the 64 MiB space unmapped (R91, R92). -/
def State.classify (s : State) (a : Nat) : WordClass :=
  if 67108864 ≤ a then .unmapped
  else if s.cbBase ≤ a ∧ a < s.cbBase + 0x1000 then .cb
  else
    match s.windowAt a with
    | some w => .window w
    | none => if a < s.installed then .pass else .unmapped

/-- The decision of a transfer (R92). -/
inductive Decision where
  | cb
  | window (w : Fin 16)
  | pass
  | unmapped
  | mixed
  deriving DecidableEq, Repr

/-- The decision from the classes of the words of a burst, the first word's class given beside them (R92). -/
def decisionOf (first : WordClass) (classes : List WordClass) : Decision :=
  if classes.all (· == first) then
    match first with
    | .cb => .cb
    | .window w => .window w
    | .pass => .pass
    | .unmapped => .unmapped
  else if classes.all (fun x => x == .pass || x == .unmapped) then .unmapped
  else .mixed

def State.firstClass (s : State) (t : Transfer) : WordClass := s.classify t.address

def State.decision (s : State) (t : Transfer) : Decision :=
  decisionOf (s.firstClass t) (t.addresses.map s.classify)

/-- The window that decided the first word, if a window did (R99). -/
def State.firstWindow (s : State) (t : Transfer) : Option (Fin 16) :=
  match s.firstClass t with
  | .window w => some w
  | _ => none

/-! ## Edges inside a window (R96-R98) -/

/-- The sub-range of an offset of a RING aperture (R97). -/
def subRangeOf (offset : Nat) : SubRange :=
  if offset < 0x400 then .push
  else if offset < 0x800 then .pushLast
  else if offset < 0xC00 then .pop
  else if offset < 0xE00 then .peek
  else .state

/-- The quarter of an offset of a BITFIELD aperture of the given size (R98). -/
def quarterOf (size offset : Nat) : Quarter :=
  if offset < size / 4 then .q0
  else if offset < 2 * (size / 4) then .q1
  else if offset < 3 * (size / 4) then .q2
  else .q3

/-- The number of a quarter. -/
def Quarter.index : Quarter → Nat
  | .q0 => 0
  | .q1 => 1
  | .q2 => 2
  | .q3 => 3

/-- The offset of the first word in the aperture of a window. -/
def Record.offsetOf (r : Record) (t : Transfer) : Nat := t.address - r.apertureBase

/-! ## Which row takes a transfer -/

/-- The rows whose event takes a transfer from DECODING. -/
inductive DecodeRow where
  | passThrough | plainWindow | unmapped | cbRead | cbWrite | push | pushLast | pop | peek | state | bitfield
  deriving DecidableEq, Repr

/-- The row of a sub-range. -/
def SubRange.row : SubRange → DecodeRow
  | .push => .push
  | .pushLast => .pushLast
  | .pop => .pop
  | .peek => .peek
  | .state => .state

/-- The row of a transfer whose first word a window decided. -/
def Record.row (r : Record) (t : Transfer) : DecodeRow :=
  match r.kind with
  | .plain => .plainWindow
  | .bitfield => .bitfield
  | .ring => (subRangeOf (r.offsetOf t)).row

/-- The row that takes a transfer: by its decision, and for a burst of mixed classes by the class of its first word
(log 11). -/
def State.decodeRow (s : State) (t : Transfer) : DecodeRow :=
  if s.decision t = .unmapped then .unmapped
  else
    match s.firstClass t with
    | .cb => if t.isWrite then .cbWrite else .cbRead
    | .window w => s.windows[w].applied.row t
    | .pass => .passThrough
    | .unmapped => .unmapped

/-- The port's interface is in DECODING with a transfer of the given row. -/
def State.decodes (s : State) (p : Port) (row : DecodeRow) : Bool :=
  match s.ifaces.get p with
  | .decoding t => s.decodeRow t == row
  | _ => false

/-- What the decoder does with the transfer in DECODING at a port. -/
def State.takeTransfer (s : State) (p : Port) (f : Transfer → State → State) : State :=
  match s.ifaces.get p with
  | .decoding t => f t s
  | _ => s

/-! ## Refusal and handing down (R99, R151, R163) -/

/-- The decoder refuses: ERROR in the decoding event, and nothing else changes (R99). -/
def State.refuseTransfer (s : State) (p : Port) (t : Transfer) (kind : FaultKind) : State :=
  s.onLive fun l => (l.setIface p (.held t (.refused (s.firstWindow t)) none)).answerError p kind

/-- The transfer is handed on with its decode; its owner answers it in this event or later (R163). -/
def State.handOn (s : State) (p : Port) (t : Transfer) (d : Decode) : State :=
  s.onLive fun l => l.setIface p (.held t d none)

/-- A unit is handed down the port's path, or waits in HELD while the path still holds a dropped unit (R151, R163). -/
def State.handDown (s : State) (p : Port) (t : Transfer) (d : Decode) (u : PathUnit) : State :=
  match s.paths.get p with
  | none => { s.handOn p t d with paths := s.paths.set p (some u) }
  | some _ => s.onLive fun l => l.setIface p (.held t d (some u))

/-- The unit of a transfer at a memory address. -/
def Transfer.pathUnit (t : Transfer) (work : UnitWork) (address : Nat) : PathUnit :=
  { work := work, address := address, enables := t.wordEnables, data := if t.isWrite then t.wordData else [],
    wanted := true }

/-- A plain write or read of the transfer's direction. -/
def plainWork (t : Transfer) : UnitWork := if t.isWrite then .write else .read

/-! ## Rights and levels (R95) -/

/-- The port has the right that the transfer's operation calls for: READ for a read, WRITE for a write, both for a
fetch-and-clear (R95). -/
def Record.hasRight (r : Record) (p : Port) (t : Transfer) (fetchClear : Bool) : Bool :=
  if t.isWrite then r.mayWrite p
  else if fetchClear then r.rights p == 3
  else r.mayRead p

/-- The right and the level check (R95). -/
def Record.admits (r : Record) (p : Port) (t : Transfer) (fetchClear : Bool) : Bool :=
  r.hasRight p t fetchClear && decide (t.level.toNat ≤ r.minLevel p)

/-! ## Pass-through, PLAIN, unmapped (R92-R94) -/

/-- A pass-through transfer goes to memory at its own address (R93). -/
def State.takePass (s : State) (p : Port) (t : Transfer) : State :=
  if s.decision t = .mixed then s.refuseTransfer p t .shape
  else s.handDown p t .pass (Transfer.pathUnit t (plainWork t) t.address)

/-- PLAIN translation: target base plus the upstream address minus the aperture base (R94). -/
def Record.translate (r : Record) (a : Nat) : Nat := r.targetBase + (a - r.apertureBase)

/-- A transfer that a PLAIN window decides is checked and translated (R94, R95). -/
def State.takePlain (s : State) (p : Port) (t : Transfer) : State :=
  match s.decision t with
  | .window w =>
    let r := s.windows[w].applied
    if r.admits p t false then
      s.handDown p t (.plain w (r.translate t.address)) (Transfer.pathUnit t (plainWork t) (r.translate t.address))
    else s.refuseTransfer p t .access
  | _ => s.refuseTransfer p t .shape

/-- An unmapped transfer is refused with UNMAPPED, a mixed one that begins in unmapped space with SHAPE (R92). -/
def State.takeUnmapped (s : State) (p : Port) (t : Transfer) : State :=
  if s.decision t = .unmapped then s.refuseTransfer p t .unmapped else s.refuseTransfer p t .shape

/-! ## Control block (R134, R135) -/

/-- A read wholly inside the control block is a plain memory read at the word's address (R134). -/
def State.takeCbRead (s : State) (p : Port) (t : Transfer) : State :=
  if s.decision t = .cb then s.handDown p t .cb (Transfer.pathUnit t .cbRead t.address)
  else s.refuseTransfer p t .shape

/-- The monitor permits a write at level 0 that lies wholly in the configuration area (R135). -/
def State.permitsCbWrite (s : State) (t : Transfer) : Bool :=
  t.level == 0 && t.addresses.all fun a => decide (a - s.cbBase < 0x800)

/-- A write wholly inside the control block is judged by the monitor (R135). -/
def State.takeCbWrite (s : State) (p : Port) (t : Transfer) : State :=
  if s.decision t = .cb then
    if s.permitsCbWrite t then s.handDown p t .cb (Transfer.pathUnit t .cbWrite t.address)
    else s.onLive fun l => (l.setIface p (.held t .cb none)).answerError p .access
  else s.refuseTransfer p t .shape

/-! ## BITFIELD (R95, R96, R98, R107) -/

/-- The operation of a quarter and direction (R107). -/
def bitOpOf (q : Quarter) (d : Dir) : BitOp :=
  match q, d with
  | .q0, .write => .plainWrite
  | .q1, .write => .set
  | .q2, .write => .clear
  | .q3, .write => .toggle
  | .q0, .read => .plainRead
  | .q1, .read => .fetchClear
  | .q2, .read => .compare
  | .q3, .read => .plainRead

/-- Every word of the burst lies in the quarter of the first word (R96). -/
def Record.inQuarter (r : Record) (t : Transfer) : Bool :=
  t.addresses.all fun a => quarterOf r.apertureSize (a - r.apertureBase) == quarterOf r.apertureSize (r.offsetOf t)

/-- The memory address of the first word: target base plus its offset within its quarter (R98). -/
def Record.bitAddress (r : Record) (t : Transfer) : Nat :=
  r.targetBase + (r.offsetOf t - (quarterOf r.apertureSize (r.offsetOf t)).index * (r.apertureSize / 4))

/-- A transfer that a BITFIELD window decides is checked and handed to the bit-field unit, which hands its one grant
unit down the port's path (R98, R107). -/
def State.takeBitfield (s : State) (p : Port) (t : Transfer) : State :=
  match s.decision t with
  | .window w =>
    let r := s.windows[w].applied
    let q := quarterOf r.apertureSize (r.offsetOf t)
    if !r.admits p t (q == .q1) then s.refuseTransfer p t .access
    else if !r.inQuarter t then s.refuseTransfer p t .shape
    else
      s.handDown p t (.bitfield w q (r.bitAddress t) r.protectedMask r.compareWord)
        (Transfer.pathUnit t (.bitfield (bitOpOf q t.dir) t.level r.protectedMask r.compareWord) (r.bitAddress t))
  | _ => s.refuseTransfer p t .shape

/-! ## RING (R95-R97) -/

/-- The direction and shape a sub-range accepts (R96). -/
def Record.ringShape (r : Record) (t : Transfer) (sub : SubRange) : Bool :=
  t.wordEnables.all (· == allEnabled) &&
    t.addresses.all (fun a => subRangeOf (a - r.apertureBase) == sub) &&
    (match sub with
      | .push => t.isWrite
      | .pushLast => t.isWrite
      | .pop => !t.isWrite
      | .peek => !t.isWrite && t.k == 1
      | .state => !t.isWrite && t.k == 1)

/-- A transfer that a RING window decides is checked, and reaches the context in the decoding event (R95-R97). -/
def State.takeRing (s : State) (p : Port) (t : Transfer) (sub : SubRange) (act : Decode → Fin 8 → State → State) :
    State :=
  match s.decision t with
  | .window w =>
    let r := s.windows[w].applied
    if !r.admits p t false then s.refuseTransfer p t .access
    else if !r.ringShape t sub then s.refuseTransfer p t .shape
    else act (.ring w r.winCtx sub) r.winCtx (s.handOn p t (.ring w r.winCtx sub))
  | _ => s.refuseTransfer p t .shape

/-! ## Meanings -/

/-- PASS_THROUGH (R93). -/
def execPassThrough (p : Port) (s : State) : Host.Outcome State Fault Refusal :=
  event (s.decodes p .passThrough) s fun s => s.takeTransfer p fun t s => s.takePass p t

/-- PLAIN_WINDOW_TRANSFER (R94). -/
def execPlainWindowTransfer (p : Port) (s : State) : Host.Outcome State Fault Refusal :=
  event (s.decodes p .plainWindow) s fun s => s.takeTransfer p fun t s => s.takePlain p t

/-- UNMAPPED (R92). -/
def execUnmapped (p : Port) (s : State) : Host.Outcome State Fault Refusal :=
  event (s.decodes p .unmapped) s fun s => s.takeTransfer p fun t s => s.takeUnmapped p t

/-- CB_READ (R134). -/
def execCbRead (p : Port) (s : State) : Host.Outcome State Fault Refusal :=
  event (s.decodes p .cbRead) s fun s => s.takeTransfer p fun t s => s.takeCbRead p t

/-- CB_WRITE (R135). -/
def execCbWrite (p : Port) (s : State) : Host.Outcome State Fault Refusal :=
  event (s.decodes p .cbWrite) s fun s => s.takeTransfer p fun t s => s.takeCbWrite p t

/-- BITFIELD_TRANSFER (R98). -/
def execBitfieldTransfer (p : Port) (s : State) : Host.Outcome State Fault Refusal :=
  event (s.decodes p .bitfield) s fun s => s.takeTransfer p fun t s => s.takeBitfield p t

end Sys2Proof.Machine
end

