-- ==== Sys2Proof/Machine/Push.lean ====
section
/-! DEFINITION. Pushing: the assembly buffer, overrun, cut and commit (R24-R32), with the meanings of PUSH and
PUSH_LAST. -/

namespace Sys2Proof.Machine

/-- "An append for a context while the buffer is OPEN on a different context cuts the open assembly" (R28). -/
def Live.cutAssembly (l : Live) (p : Port) (c : Fin 8) : Live :=
  match l.assembly.get p with
  | .opened d _ _ => if d = c then l else (l.reject d).setAssembly p .empty
  | _ => l

/-- The words the buffer holds for context `c`, as R26 counts them. -/
def Assembly.wordsFor (c : Fin 8) : Assembly → List Word
  | .opened d words _ => if d = c then words else []
  | _ => []

/-- An append beyond the payload capacity: ERROR OVERRUN, REJECTED, REJECT, buffer EMPTY (R27). -/
def Live.overrun (l : Live) (p : Port) (c : Fin 8) : Live :=
  ((l.answerError p .overrun).reject c).setAssembly p .empty

/-- The buffer becomes COMMITTING and the commit arrives at its context (R31, R32). -/
def Live.commit (l : Live) (now : BitVec 16) (p : Port) (c : Fin 8) (level : Level) (words : List Word) : Live :=
  (l.setAssembly p (.committing c words.length level words false)).arriveCommit now c
    { port := p, length := words.length, level := level, stall := none, discardMade := false }

/-- An append of a burst, for PUSH_LAST with the commit in the same event (R26, R27, R28, R31). -/
def Live.append (l : Live) (now : BitVec 16) (idle : Option Nat) (p : Port) (c : Fin 8) (t : Transfer)
    (last : Bool) : Live :=
  let l := l.cutAssembly p c
  let words := (l.assembly.get p).wordsFor c ++ t.wordData
  if l.ctxs[c].applied.payloadCap < words.length then l.overrun p c
  else if last then (l.setAssembly p (.opened c words idle)).commit now p c t.level words
  else (l.setAssembly p (.opened c words idle)).answerOk p .okWrite

/-- PUSH (R26). -/
def execPush (p : Port) (s : State) : Host.Outcome State Fault Refusal :=
  event (s.decodes p .push) s fun s => s.takeTransfer p fun t s =>
    s.takeRing p t .push fun _ c s => s.onLive fun l => l.append s.tick (idleCountOf s.globalWord) p c t false

/-- PUSH_LAST (R31). -/
def execPushLast (p : Port) (s : State) : Host.Outcome State Fault Refusal :=
  event (s.decodes p .pushLast) s fun s => s.takeTransfer p fun t s =>
    s.takeRing p t .pushLast fun _ c s => s.onLive fun l => l.append s.tick (idleCountOf s.globalWord) p c t true

end Sys2Proof.Machine
end

