-- ==== Sys2Proof/Machine/Pop.lean ====
section
/-! DEFINITION. Popping: the delivery latch served and cut, PEEK and STATE (R51-R57), with the meanings of POP, PEEK and
STATE. -/

namespace Sys2Proof.Machine

/-- The first `k` words of `words`, followed by fill words (R56, R60). -/
def fillTo (k : Nat) (words : List Word) (fill : Word) : List Word :=
  words.take k ++ List.replicate (k - words.length) fill

/-- The words of a HOLDING latch that are not yet served. -/
def latchWords (header : Word) (payload : List Word) (remaining : Nat) : List Word :=
  (header :: payload).drop (payload.length + 1 - remaining)

/-- A POP read on the context the latch holds is served from it (R56). -/
def Live.serveLatch (l : Live) (p : Port) (c : Fin 8) (k : Nat) (header : Word) (payload : List Word)
    (remaining : Nat) : Live :=
  (l.answerOk p (.okRead (fillTo k (latchWords header payload remaining) l.ctxs[c].applied.fillWord))).setLatch p
    (if remaining ≤ k then .empty else .holding c header payload (remaining - k))

/-- A HOLDING latch is cut: its words are dropped and CUT is raised at its context (R57, R71). -/
def Live.cutLatch (l : Live) (p : Port) (c : Fin 8) : Live := (l.raise c .cut).setLatch p .empty

/-- A POP read is taken according to the state of the port's latch (R55). -/
def Live.popRead (l : Live) (now : BitVec 16) (p : Port) (c : Fin 8) (burst : Burst) : Live :=
  match l.latch.get p with
  | .holding d header payload remaining =>
    if d = c then l.serveLatch p c burst.words header payload remaining
    else (l.cutLatch p d).arrivePop now c { port := p, burst := burst, stall := none }
  | _ => l.arrivePop now c { port := p, burst := burst, stall := none }

/-- POP (R55). -/
def execPop (p : Port) (s : State) : Host.Outcome State Fault Refusal :=
  event (s.decodes p .pop) s fun s => s.takeTransfer p fun t s =>
    s.takeRing p t .pop fun _ c s => s.onLive fun l => l.popRead s.tick p c t.burst

/-- The PEEK's one-word read of the slot of the next entry (R52). -/
def peekUnit (x : Ctx) : PathUnit :=
  { work := .peek, address := x.applied.slotAddress x.nextSlot, enables := [allEnabled], data := [], wanted := true }

/-- A PEEK: the fill word when ready is 0, else a header read on the port's path (R52). -/
def State.takePeek (s : State) (p : Port) (t : Transfer) (d : Decode) (c : Fin 8) : State :=
  if s.ctxs[c].ready = 0 then s.onLive fun l => l.answerOk p (.okRead [l.ctxs[c].applied.fillWord])
  else s.handDown p t d (peekUnit s.ctxs[c])

/-- PEEK (R52). -/
def execPeek (p : Port) (s : State) : Host.Outcome State Fault Refusal :=
  event (s.decodes p .peek) s fun s => s.takeTransfer p fun t s =>
    s.takeRing p t .peek fun d c s => s.takePeek p t d c

/-- The words of the port's latch for context `c` not yet served (R51). -/
def Latch.wordsLeft (c : Fin 8) : Latch → Nat
  | .holding d _ _ remaining => if d = c then remaining else 0
  | _ => 0

/-- The queue state word of a context as a port reads it (R51). -/
def Live.queueState (l : Live) (p : Port) (c : Fin 8) : Word :=
  stateWord l.ctxs[c].ready (l.ctxs[c].capacity - l.ctxs[c].occupied) ((l.latch.get p).wordsLeft c)
    l.ctxs[c].watermark ((l.assembly.get p).wordsFor c).length

/-- STATE (R51). -/
def execState (p : Port) (s : State) : Host.Outcome State Fault Refusal :=
  event (s.decodes p .state) s fun s => s.takeTransfer p fun t s =>
    s.takeRing p t .state fun _ c s => s.onLive fun l => l.answerOk p (.okRead [l.queueState p c])

end Sys2Proof.Machine
end

