-- ==== Sys2Proof/Machine/Engine.lean ====
section
/-! DEFINITION. The completions of the queue engine's units (R12, R16, R53, R60-R62, R72, R73, R81, R87), with the
meanings of PEEK_READ_COMPLETION, ENTRY_WRITE_COMPLETION, ENTRY_COPY_COMPLETION, STAMP_FETCH_COMPLETION and
SIGNAL_UPDATE_COMPLETION. -/

namespace Sys2Proof.Machine

/-! ## PEEK (R52, R53) -/

/-- PEEK_READ_COMPLETION: the header with its damaged field 0, or ERROR PARITY (R52, R53). -/
def execPeekReadCompletion (s : State) : Host.Outcome State Fault Refusal :=
  event (s.unitIs fun w => w == .peek) s fun s =>
    match s.currentUnit with
    | none => s
    | some (p, u) =>
      s.completeUnit p u fun l =>
        if s.mem.burstGood u.address u.enables then
          l.answerOk p (.okRead ((s.mem.readBurst u.address u.enables).map fun w => withDamaged w false))
        else l.answerError p .parity

/-! ## Jobs of the list -/

/-- The job in progress leaves the list at its completion (R156). -/
def State.leaveJob (s : State) : State :=
  s.finishUnit.onLive fun l => { l with jobs := l.jobs.eraseP fun e => e.phase == .inProgress }

/-- The job in progress, while the memory performs a job of the list. -/
def State.currentJob (s : State) : Option Job :=
  match s.busy with
  | some .job => s.jobInProgress
  | _ => none

/-! ## ENTRY_WRITE (R12, R16, R35, R42) -/

/-- The WRITING slots whose turn to publish has come: the run of written slots at the front (R12). -/
def Ctx.publishable (x : Ctx) : List WritingSlot := x.writingRun.takeWhile WritingSlot.complete

/-- An ENTRY_WRITE completes: the run of written slots publishes in reservation order with its offers; the held pops
of a FIFO context are examined, or the operation of a LIFO context ends; then the lists where commits waited for the
published entries (R12, R16, R42, R66; log 12). -/
def Live.entryWritten (l : Live) (now : BitVec 16) (c : Fin 8) (slot : Nat) (p : Port) : Live :=
  let l := l.modCtx c fun x => x.writeComplete slot p
  let run := l.ctxs[c].publishable
  if run.isEmpty then l
  else
    let l := Live.publishRun run c l
    let l := if l.ctxs[c].isLifo then l.operationEnds now c else l.examinePops now c
    run.foldl (fun l w => l.examineCommitOf now w.port) l

/-- The job in progress is an ENTRY_WRITE. -/
def Job.isEntryWrite : Job → Bool
  | .entryWrite _ _ _ _ _ _ => true
  | _ => false

/-- ENTRY_WRITE_COMPLETION (R12). -/
def execEntryWriteCompletion (s : State) : Host.Outcome State Fault Refusal :=
  event (s.currentJob.any Job.isEntryWrite) s fun s =>
    match s.currentJob with
    | some (.entryWrite c slot _ _ _ p) => s.leaveJob.onLive fun l => l.entryWritten s.tick c slot p
    | _ => s

/-! ## ENTRY_COPY (R59-R62, R72, R73) -/

/-- What an ENTRY_COPY read (R59). -/
inductive CopyRead where
  | headerFailed
  | passed (header : Word) (payload : List Word) (payloadGood : Bool)
  deriving DecidableEq, Repr

/-- The words an ENTRY_COPY reads: the header, and where it passes as many payload words as its length field gives,
limited to P (R59). -/
def Memory.readEntry (m : Memory) (address payloadMax : Nat) : CopyRead :=
  if m.wordGood address allEnabled then
    let h := m.readWord address allEnabled
    let enables := List.replicate (min (headerLength h) payloadMax) allEnabled
    .passed h (m.readBurst (address + 4) enables) (m.burstGood (address + 4) enables)
  else .headerFailed

/-- The outcome at the context: DELIVERED, with DAMAGED for a failing payload (R60, R61), or for a failing header
DISCARDED with the gap flag, LOSS and DAMAGED (R14, R62). -/
def Live.accountCopy (l : Live) (c : Fin 8) (p : Port) (r : CopyRead) : Live :=
  if l.ctxs[c].heldRun.contains (.copying p) then
    let l := l.modCtx c fun x => x.copyDone p
    match r with
    | .headerFailed => ((l.countDiscarded c 1).raise c .loss).raise c .damaged
    | .passed _ _ true => l.countDelivered c
    | .passed _ _ false => (l.countDelivered c).raise c .damaged
  else l

/-- The entry goes to a FILLING latch: answered with the claiming read's words, kept in part, withdrawn, or failed
(R60-R62, R72). -/
def Live.fillLatch (l : Live) (c : Fin 8) (p : Port) (burst : Burst) (withdrawn : Bool) (r : CopyRead) : Live :=
  match r with
  | .headerFailed => (l.answerError p .parity).setLatch p .empty
  | .passed h payload good =>
    if withdrawn then ((l.answerError p .withdrawn).raise c .cut).setLatch p .empty
    else
      (l.answerOk p (.okRead (fillTo burst.words (withDamaged h (!good) :: payload)
        l.ctxs[c].applied.fillWord))).setLatch p
        (if payload.length + 1 ≤ burst.words then .empty
         else .holding c (withDamaged h (!good)) payload (payload.length + 1 - burst.words))

/-- The outcome at the port: a dropped copy only clears the dropped-copy flag (R73). -/
def Live.deliverCopy (l : Live) (c : Fin 8) (p : Port) (r : CopyRead) : Live :=
  if l.dropped.get p then { l with dropped := l.dropped.set p false }
  else
    match l.latch.get p with
    | .filling _ _ burst withdrawn => l.fillLatch c p burst withdrawn r
    | _ => l

/-- An ENTRY_COPY completes: the context's outcome, the port's, then the held lists (R15, R16, R41, R60-R62, R68;
log 12). -/
def Live.copyCompleted (l : Live) (now : BitVec 16) (c : Fin 8) (p : Port) (r : CopyRead) : Live :=
  let done := (l.accountCopy c p r).deliverCopy c p r
  let l := if l.ctxs[c].isLifo then done.operationEnds now c else Live.offerSpace l done now c
  l.examinePopOf now p

/-- The job in progress is an ENTRY_COPY. -/
def Job.isEntryCopy : Job → Bool
  | .entryCopy _ _ _ _ _ => true
  | _ => false

/-- ENTRY_COPY_COMPLETION (R60). -/
def execEntryCopyCompletion (s : State) : Host.Outcome State Fault Refusal :=
  event (s.currentJob.any Job.isEntryCopy) s fun s =>
    match s.currentJob with
    | some (.entryCopy c _ address payloadMax p) =>
      s.leaveJob.onLive fun l => l.copyCompleted s.tick c p (s.mem.readEntry address payloadMax)
    | _ => s

/-! ## STAMP_FETCH (R81) -/

/-- The fetch is accepted: the cache becomes valid with the stamp read (R81). -/
def Ctx.acceptStamp (x : Ctx) (stamp : BitVec 16) : Ctx :=
  { x with cache := { x.cache with stamp := stamp, valid := true, fetchCurrent := false } }

/-- The fetch failed parity (R81). -/
def Ctx.failStamp (x : Ctx) : Ctx :=
  { x with cache := { x.cache with fetchFailed := true, fetchCurrent := false } }

/-- A STAMP_FETCH completes: accepted, failed with an engine fault, or overtaken and dropped (R81). -/
def State.stampFetched (s : State) (m : Memory) (c : Fin 8) (address : Nat) : State :=
  if s.ctxs[c].cache.fetchCurrent then
    if m.wordGood address allEnabled then
      s.onLive fun l => l.modCtx c fun x => x.acceptStamp (headerStamp (m.readWord address allEnabled))
    else (s.onLive fun l => l.modCtx c Ctx.failStamp).engineFaultReport .stamp c address
  else s

/-- The job in progress is a STAMP_FETCH. -/
def Job.isStampFetch : Job → Bool
  | .stampFetch _ _ _ => true
  | _ => false

/-- STAMP_FETCH_COMPLETION (R81). -/
def execStampFetchCompletion (s : State) : Host.Outcome State Fault Refusal :=
  event (s.currentJob.any Job.isStampFetch) s fun s =>
    match s.currentJob with
    | some (.stampFetch c _ address) => s.leaveJob.stampFetched s.mem c address
    | _ => s

/-! ## SIGNAL_UPDATE (R86, R87) -/

/-- The unit in progress is a SIGNAL_UPDATE. -/
def State.signalBusy (s : State) : Bool :=
  match s.busy with
  | some (.signal _ _ _ _) => true
  | _ => false

/-- SIGNAL_UPDATE_COMPLETION: the word is written back with its bit, or the write is abandoned with an engine fault
(R86, R87). -/
def execSignalUpdateCompletion (s : State) : Host.Outcome State Fault Refusal :=
  event s.signalBusy s fun s =>
    match s.busy with
    | some (.signal c address _ _) =>
      if s.mem.wordGood address allEnabled then s.finishUnit
      else s.finishUnit.engineFaultReport .signal c address
    | _ => s

end Sys2Proof.Machine
end

