-- ==== Sys2Proof/Machine/Interface.lean ====
section
/-! DEFINITION. The port interface: arrival of a transfer and withdrawal of a request (R162, R163). -/

namespace Sys2Proof.Machine

/-- The interface is IDLE and its reset line is not asserted, so that it takes an arrival (R163, R169). -/
def State.takesArrival (s : State) (p : Port) : Bool := s.ifaces.get p == .idle && !s.portReset.get p

/-- TRANSFER_ARRIVAL: "A port presents a transfer as one arrival at its port interface" (R162), taken in IDLE alone
(R164). -/
def execTransferArrival (p : Port) (t : Transfer) (s : State) : Host.Outcome State Fault Refusal :=
  event (s.takesArrival p) s fun s => s.onLive fun l => l.setIface p (.decoding t)

/-- The interface presents an answer. -/
def Iface.isAnswering : Iface → Bool
  | .answering _ => true
  | _ => false

/-- REQUEST_WITHDRAWAL: "The withdrawal is an event at the interface that returns it to IDLE" (R163). -/
def execRequestWithdrawal (p : Port) (s : State) : Host.Outcome State Fault Refusal :=
  event (s.ifaces.get p).isAnswering s fun s => s.onLive fun l => l.setIface p .idle

end Sys2Proof.Machine
end

