-- ==== Sys2Proof/Machine/Windows.lean ====
section
/-! DEFINITION. Validation and application of window records, binding and withdrawal (R90, R101-R103, R138). -/

namespace Sys2Proof.Machine

/-! ## Validation (R90, R138) -/

/-- The size of the target region: the aperture of a PLAIN window, a quarter of it for BITFIELD (R90). -/
def Record.targetSize (r : Record) : Nat :=
  match r.kind with
  | .bitfield => r.apertureSize / 4
  | _ => r.apertureSize

/-- The named context is bound by an enabled RING window other than `w` (R90, R102). -/
def State.boundElsewhere (s : State) (w : Fin 16) (c : Fin 8) : Bool :=
  allWindows.any fun v => v != w && s.windows[v].applied.isRing && s.windows[v].applied.winCtx == c

/-- The checks of R90 on an enabled record, in the order of its table; the first that fails gives the reason. -/
def State.windowCheck (s : State) (w : Fin 16) (r : Record) : Option Reason :=
  if r.kindCode = 3 then some .range
  else if 12 < r.sizeCode then some .range
  else if r.kind = .ring ∧ r.sizeCode ≠ 0 then some .range
  else if 67108864 ≤ r.apertureBase then some .range
  else if r.apertureBase % r.apertureSize ≠ 0 then some .align
  else if r.kind = .plain ∧ r.targetBase % r.apertureSize ≠ 0 then some .align
  else if r.kind = .bitfield ∧ r.targetBase % (r.apertureSize / 4) ≠ 0 then some .align
  else if r.kind ≠ .ring ∧ s.installed < r.targetBase + r.targetSize then some .memory
  else if r.kind ≠ .ring ∧ s.meetsCb r.targetBase r.targetSize then some .control
  else if r.kind = .ring ∧ s.ctxs[r.winCtx].initialised = false then some .binding
  else if r.kind = .ring ∧ s.boundElsewhere w r.winCtx then some .binding
  else none

/-- Validation of a staged window record: "with enable 0 applied without any check" (R138). -/
def State.windowReason (s : State) (w : Fin 16) (r : Record) : Option Reason :=
  if r.winEnable then s.windowCheck w r else none

/-! ## Withdrawal (R103) -/

/-- One held item ends by withdrawal: a commit with the counts and notice of R45, a pop as R71 states. -/
def Live.withdrawItem (c : Fin 8) (l : Live) : HeldItem → Live
  | .commit h => ((l.answerError h.port .withdrawn).reject c).setAssembly h.port .empty
  | .pop h => (l.answerError h.port .withdrawn).setLatch h.port .empty

/-- An OPEN assembly on the context is discarded (R46). -/
def Live.withdrawAssembly (l : Live) (c : Fin 8) (p : Port) : Live :=
  match l.assembly.get p with
  | .opened d _ _ => if d = c then (l.reject c).setAssembly p .empty else l
  | _ => l

/-- A latch HOLDING an entry of the context is cut; one FILLING from it has its withdrawn flag set (R71, R72). -/
def Live.withdrawLatch (l : Live) (c : Fin 8) (p : Port) : Live :=
  match l.latch.get p with
  | .holding d _ _ _ => if d = c then l.cutLatch p c else l
  | .filling d slot burst _ => if d = c then l.setLatch p (.filling d slot burst true) else l
  | _ => l

/-- Withdrawal of a context: the held list is emptied in arrival order, then assemblies and latches of both ports
(R103). -/
def Live.withdraw (l : Live) (c : Fin 8) : Live :=
  let items := l.ctxs[c].held
  let l := items.foldl (Live.withdrawItem c) (l.modCtx c fun x => { x with held := [] })
  (((l.withdrawAssembly c .A).withdrawAssembly c .B).withdrawLatch c .A).withdrawLatch c .B

/-! ## Application (R101, R102, R138) -/

/-- The record replaces window `w`; a binding that the new record does not keep ends in withdrawal (R101, R102). A
binding that begins changes no live state (R101). -/
def State.installWindow (s : State) (w : Fin 16) (r : Record) : State :=
  let old := s.windows[w].applied
  let s := { s with windows := s.windows.set w { s.windows[w] with applied := r } }
  if old.isRing && !(r.isRing && r.winCtx == old.winCtx) then s.onLive fun l => l.withdraw old.winCtx else s

/-- A write of word 0 applies the staged window record or refuses it (R137, R138, R142). -/
def State.applyWindow (s : State) (p : Port) (w : Fin 16) : State :=
  match s.windowReason w s.windows[w].staged with
  | some reason => s.refuseConfig p .window w.val reason
  | none => s.installWindow w s.windows[w].staged

end Sys2Proof.Machine
end

