-- ==== Sys2Proof/Machine/Contexts.lean ====
section
/-! DEFINITION. Validation and application of context records, initialisation, soft fields, and the FLUSH command (R20,
R21, R78, R88, R139-R141, R143). -/

namespace Sys2Proof.Machine

/-! ## Validation (R139) -/

/-- The bytes from `a` share a byte with the bytes from `b`. -/
def spansMeet (a asize b bsize : Nat) : Bool := decide (a < b + bsize) && decide (b < a + asize)

/-- The ring shares a byte with the ring of another INITIALISED context (R1, R139). -/
def State.ringOverlaps (s : State) (c : Fin 8) (r : Record) : Bool :=
  allCtxs.any fun d =>
    d != c && s.ctxs[d].initialised &&
      spansMeet r.ringBase r.ringBytes s.ctxs[d].applied.ringBase s.ctxs[d].applied.ringBytes

/-- The checks of R139 on a staged context record, in the order of its table; the first that fails gives the reason.
The signal word is checked only when its enable is 1. -/
def State.contextReason (s : State) (c : Fin 8) (r : Record) : Option Reason :=
  if r.slotSize < 2 ∨ 8 < r.slotSize ∨ r.policyCode = 3 ∨ r.emptyCode = 3 then some .range
  else if r.policy = .overwrite ∧ r.isLifo then some .range
  else if r.stallLimit = 0 then some .range
  else if r.capacity < 2 then some .range
  else if r.high < 1 ∨ r.capacity < r.high ∨ r.high ≤ r.low then some .range
  else if r.ringBase % 4 ≠ 0 ∨ (r.signalEnable ∧ r.signalAddress % 4 ≠ 0) then some .align
  else if s.installed < r.ringBase + r.ringBytes ∨ (r.signalEnable ∧ s.installed < r.signalAddress + 4) then
    some .memory
  else if s.meetsCb r.ringBase r.ringBytes ∨ (r.signalEnable ∧ s.meetsCb r.signalAddress 4) then some .control
  else if s.ringOverlaps c r then some .overlap
  else if s.bound c ∧ r.sameGeometry s.ctxs[c].applied = false then some .bound
  else if s.bound c = false ∧ (s.ctxs[c].writing ≠ 0 ∨ s.ctxs[c].inCopy ≠ 0) then some .bound
  else none

/-! ## Initialisation and soft fields (R20, R78, R88, R141) -/

/-- Initialisation (R20). The sequence of fields is the rule's; the stamp field of the cache is kept (log 10). An
enabled signal word asks for an update, and the context status item is marked dirty whatever its value (log 28). -/
def Ctx.initialise (x : Ctx) (r : Record) : Ctx :=
  Ctx.cacheInvalid
    { x with
      applied := r, initialised := true, ready := 0, release := 0, head := 0, tail := 0, depth := 0, writingRun := [],
      heldRun := [], seq := 0, gap := false, published := 0, delivered := 0, discarded := 0, rejected := 0,
      watermark := .calm, held := [], pendingFlush := false, signalDue := r.signalEnable, statusDue := true }

/-- Soft fields take their new values and the live state is kept; a changed signal word asks for an update (R88,
R141). -/
def Ctx.softApply (x : Ctx) (r : Record) : Ctx :=
  { x with applied := r, signalDue := r.signalEnable && !r.sameSignal x.applied }

/-- Changed watermark fields return the state to CALM and evaluate it against the ready count (R78). -/
def Live.rearm (l : Live) (c : Fin 8) : Live :=
  let e := Ctx.evaluate { l.ctxs[c] with watermark := .calm }
  let l := l.modCtx c fun x => { x with watermark := e.1 }
  match e.2 with
  | none => l
  | some k => l.raise c k

/-- A context record that passes is applied: an unbound context is initialised, a bound one takes the soft fields
(R140). -/
def Live.installContext (l : Live) (c : Fin 8) (bound : Bool) (r : Record) : Live :=
  if bound then
    let same := r.sameWatermarks l.ctxs[c].applied
    let l := l.modCtx c fun x => x.softApply r
    if same then l else l.rearm c
  else l.modCtx c fun x => x.initialise r

/-- A write of word 0 applies the staged context record or refuses it (R137, R140, R142). -/
def State.applyContext (s : State) (p : Port) (c : Fin 8) : State :=
  match s.contextReason c s.ctxs[c].staged with
  | some reason => s.refuseConfig p .context c.val reason
  | none => s.onLive fun l => l.installContext c (s.bound c) l.ctxs[c].staged

/-! ## Commands (R21, R143) -/

/-- FLUSH on an INITIALISED context (R21). On a LIFO context with an operation running the flag is set; otherwise the
ready entries are discarded and the space is offered (R21, R44; log 14). -/
def Live.flush (l : Live) (now : BitVec 16) (c : Fin 8) : Live :=
  if l.ctxs[c].isLifo && l.ctxs[c].opRunning then l.modCtx c fun x => { x with pendingFlush := true }
  else if l.ctxs[c].ready = 0 then l
  else Live.offerSpace l (l.discardAll c) now c

/-- The command word of context `c` is executed (R143). -/
def State.command (s : State) (p : Port) (c : Fin 8) (code : Nat) : State :=
  match code with
  | 0 => s
  | 1 =>
    if s.ctxs[c].initialised then s.onLive fun l => l.flush s.tick c
    else s.refuseConfig p .command c.val .binding
  | _ => s.refuseConfig p .command c.val .range

end Sys2Proof.Machine
end

