-- ==== Sys2Proof/Machine/Monitor.lean ====
section
/-! DEFINITION. The control-block monitor: acting on a permitted write at its completion (R121-R124, R136, R137, R144),
with the meanings of GLOBAL_WORD, ENABLE_WORD, ACK_CONFIG, ACK_FAULT, ACK_ENGINE, CONTEXT_ACK, STAGE_RECORD_WORD,
WINDOW_RECORD_APPLY, CONTEXT_RECORD_APPLY, FLUSH and CB_PLAIN_WRITE. -/

namespace Sys2Proof.Machine

/-- One word of a control-block write: its offset, byte enables and data. -/
structure CbWord where
  offset  : Nat
  enables : Enables
  data    : Word
  deriving DecidableEq, Repr

/-- The words of a burst in increasing offset order. -/
def cbWords : Nat → List Enables → List Word → List CbWord
  | offset, be :: bes, w :: ws => ⟨offset, be, w⟩ :: cbWords (offset + 4) bes ws
  | _, _, _ => []

/-- "A word of the burst whose four byte enables are all off does not act" (R136). -/
def CbWord.acts (w : CbWord) : Bool := w.enables != 0

/-- The data of an acknowledge or command word: "the bytes not enabled are taken as 00h" (R136). -/
def CbWord.carried (w : CbWord) : Word := w.data &&& laneMask w.enables

/-! ## Global word (R144) -/

/-- A changed idle limit acts on an open assembly (R30). -/
def Assembly.idleLimitChange (old new : Word) : Assembly → Assembly
  | .opened c words idle =>
    .opened c words
      (if idleLimit new = 0 then none else if idleLimit old = 0 then some (idleLimit new) else idle)
  | .empty => .empty
  | .committing c length level words reserved => .committing c length level words reserved

/-- A new global word is applied: a changed tick period or clock frequency restarts the prescaler (R75), a changed
idle limit acts on open assemblies (R30). -/
def State.installGlobal (s : State) (g : Word) : State :=
  { s with
    globalWord := g
    prescaler := if tickMicros g = tickMicros s.globalWord ∧ clockMHz g = clockMHz s.globalWord then s.prescaler
                 else 0
    assembly := if idleLimit g = idleLimit s.globalWord then s.assembly
                else ⟨s.assembly.a.idleLimitChange s.globalWord g, s.assembly.b.idleLimitChange s.globalWord g⟩ }

/-- A write of the global word forms a candidate and applies it, or refuses it with RANGE (R144). -/
def State.writeGlobal (s : State) (p : Port) (be : Enables) (w : Word) : State :=
  let g := mergeBytes be s.globalWord w
  if clockMHz g = 0 ∨ 100 < clockMHz g then s.refuseConfig p .global 0 .range else s.installGlobal g

/-! ## Enable and acknowledge words (R121, R123, R124) -/

/-- The enable word of port `q` is applied; bits outside the eleven are ignored (R121, R136). -/
def State.writeEnable (s : State) (q : Port) (be : Enables) (w : Word) : State :=
  { s with attn := s.attn.set q { s.attn.get q with
      enable := (mergeBytes be ((s.attn.get q).enable.setWidth 32) w).setWidth 11 } }

/-- CONFIG of port `p` and the config status record are cleared (R123, R130). -/
def State.ackConfig (s : State) (p : Port) : State :=
  { s with configStatus := none, attn := s.attn.set p { s.attn.get p with config := false } }

/-- FAULT of port `p` and its fault record are cleared (R123, R128). -/
def State.ackFault (s : State) (p : Port) : State :=
  { s with attn := s.attn.set p (s.attn.get p).ackFault }

/-- ENGINE of port `p` and the engine fault record are cleared (R123, R129). -/
def State.ackEngine (s : State) (p : Port) : State :=
  { s with engineFault := none, attn := s.attn.set p { s.attn.get p with engine := false } }

/-- A write by port `p` to its own global acknowledge word (R123). -/
def State.globalAck (s : State) (p : Port) (bits : Word) : State :=
  let s := if bits.getLsbD 8 then s.ackConfig p else s
  let s := if bits.getLsbD 9 then s.ackFault p else s
  if bits.getLsbD 10 then s.ackEngine p else s

/-- A write by port `p` to its own acknowledge word for context `c`, under ACKWRITE (R122, R124). -/
def State.contextAck (s : State) (p : Port) (c : Fin 8) (bits : Word) : State :=
  if readClear s.globalWord then s
  else { s with attn := s.attn.set p ((s.attn.get p).clearKinds c (bits.setWidth 8)) }

/-! ## The two passes (R136) -/

/-- First pass: a word of a record replaces its enabled bytes in the staged copy (R137). -/
def State.stageWord (s : State) (w : CbWord) : State :=
  if w.acts then
    match cbFunction w.offset with
    | .window v i =>
      { s with windows := s.windows.set v { s.windows[v] with
          staged := s.windows[v].staged.setWord i (mergeBytes w.enables (s.windows[v].staged.word i) w.data) } }
    | .context c i =>
      s.onLive fun l => l.modCtx c fun x =>
        { x with staged := x.staged.setWord i (mergeBytes w.enables (x.staged.word i) w.data) }
    | _ => s
  else s

/-- Second pass: a word with its own function acts; word 0 of a record applies it (R136). -/
def State.actWord (p : Port) (s : State) (w : CbWord) : State :=
  if w.acts then
    match cbFunction w.offset with
    | .global => s.writeGlobal p w.enables w.data
    | .enable q => s.writeEnable q w.enables w.data
    | .globalAck q => if q = p then s.globalAck p w.carried else s
    | .contextAck q c => if q = p then s.contextAck p c w.carried else s
    | .window v 0 => s.applyWindow p v
    | .context c 0 => s.applyContext p c
    | .command c => s.command p c (bits w.carried 0 8)
    | _ => s
  else s

/-- The monitor acts on every word of a permitted write of port `p`, in two passes (R136). -/
def State.monitorActs (s : State) (p : Port) (words : List CbWord) : State :=
  words.foldl (State.actWord p) (words.foldl State.stageWord s)

/-- The words of the permitted write in progress. -/
def PathUnit.cbWords (u : PathUnit) (base : Nat) : List CbWord :=
  Sys2Proof.Machine.cbWords (u.address - base) u.enables u.data

/-- The completion of a permitted control-block write: in memory, answered OK, acted on (R136); of a port that was
reset, acted on all the same (R151). -/
def State.completeCbWrite (s : State) : State :=
  match s.currentUnit with
  | none => s
  | some (p, u) =>
    (s.completeUnit p u fun l => l.answerOk p .okWrite).monitorActs p (u.cbWords s.cbBase)

/-! ## Which rows a burst stands for (log 2) -/

/-- The rows that the completion of a permitted control-block write may go by. -/
inductive CbRow where
  | globalWord | enableWord | ackConfig | ackFault | ackEngine | contextAck | stage | windowApply | contextApply | flush
  | plain
  deriving DecidableEq, Repr

/-- The rows of the bits written 1 to a port's own global acknowledge word; with none set the write is plain. -/
def ackRows (bits : Word) : List CbRow :=
  let rows := (if bits.getLsbD 8 then [CbRow.ackConfig] else []) ++ (if bits.getLsbD 9 then [CbRow.ackFault] else []) ++
    (if bits.getLsbD 10 then [CbRow.ackEngine] else [])
  if rows.isEmpty then [.plain] else rows

/-- The rows of one word of a burst. -/
def CbWord.rows (w : CbWord) (p : Port) (readClearMode : Bool) : List CbRow :=
  if w.acts then
    match cbFunction w.offset with
    | .global => [.globalWord]
    | .enable _ => [.enableWord]
    | .globalAck q => if q = p then ackRows w.carried else [.plain]
    | .contextAck q _ => if q = p ∧ readClearMode = false then [.contextAck] else [.plain]
    | .window _ 0 => [.stage, .windowApply]
    | .window _ _ => [.stage]
    | .context _ 0 => [.stage, .contextApply]
    | .context _ _ => [.stage]
    | .command _ => if bits w.carried 0 8 = 1 then [.flush] else [.plain]
    | .plain => [.plain]
  else [.plain]

/-- The unit in progress is a permitted control-block write with a word of the given row. -/
def State.cbWriteHas (s : State) (row : CbRow) : Bool :=
  match s.currentUnit with
  | some (p, u) =>
    u.work == .cbWrite && (u.cbWords s.cbBase).any fun w => (w.rows p (readClear s.globalWord)).contains row
  | none => false

/-! ## Meanings -/

/-- GLOBAL_WORD (R144). -/
def execGlobalWord (s : State) : Host.Outcome State Fault Refusal :=
  event (s.cbWriteHas .globalWord) s fun s => s.completeCbWrite

/-- ENABLE_WORD (R121). -/
def execEnableWord (s : State) : Host.Outcome State Fault Refusal :=
  event (s.cbWriteHas .enableWord) s fun s => s.completeCbWrite

/-- ACK_CONFIG (R123). -/
def execAckConfig (s : State) : Host.Outcome State Fault Refusal :=
  event (s.cbWriteHas .ackConfig) s fun s => s.completeCbWrite

/-- ACK_FAULT (R123). -/
def execAckFault (s : State) : Host.Outcome State Fault Refusal :=
  event (s.cbWriteHas .ackFault) s fun s => s.completeCbWrite

/-- ACK_ENGINE (R123). -/
def execAckEngine (s : State) : Host.Outcome State Fault Refusal :=
  event (s.cbWriteHas .ackEngine) s fun s => s.completeCbWrite

/-- CONTEXT_ACK (R124). -/
def execContextAck (s : State) : Host.Outcome State Fault Refusal :=
  event (s.cbWriteHas .contextAck) s fun s => s.completeCbWrite

/-- STAGE_RECORD_WORD (R137). -/
def execStageRecordWord (s : State) : Host.Outcome State Fault Refusal :=
  event (s.cbWriteHas .stage) s fun s => s.completeCbWrite

/-- WINDOW_RECORD_APPLY (R138). -/
def execWindowRecordApply (s : State) : Host.Outcome State Fault Refusal :=
  event (s.cbWriteHas .windowApply) s fun s => s.completeCbWrite

/-- CONTEXT_RECORD_APPLY (R140). -/
def execContextRecordApply (s : State) : Host.Outcome State Fault Refusal :=
  event (s.cbWriteHas .contextApply) s fun s => s.completeCbWrite

/-- FLUSH (R21). -/
def execFlush (s : State) : Host.Outcome State Fault Refusal :=
  event (s.cbWriteHas .flush) s fun s => s.completeCbWrite

/-- CB_PLAIN_WRITE (R136). -/
def execCbPlainWrite (s : State) : Host.Outcome State Fault Refusal :=
  event (s.cbWriteHas .plain) s fun s => s.completeCbWrite

end Sys2Proof.Machine
end

