-- ==== Sys2Proof/Machine/TimeBase.lean ====
section
/-! DEFINITION. The tick event and its parts (R29, R37, R38, R65, R67, R74, R77, R82, R83), with the meanings of TICK,
IDLE_EXPIRY, STALL_EXPIRY, WAIT_EXPIRY, HOLDOFF_EXPIRY and STALE. -/

namespace Sys2Proof.Machine

/-! ## Counts (R29, R37, R65, R77) -/

/-- A stall or idle count decreases by one. -/
def countDown : Option Nat → Option Nat
  | none => none
  | some n => some (n - 1)

def HeldItem.countDown : HeldItem → HeldItem
  | .commit h => .commit { h with stall := Sys2Proof.Machine.countDown h.stall }
  | .pop h => .pop { h with stall := Sys2Proof.Machine.countDown h.stall }

def Watermark.countDown : Watermark → Watermark
  | .arming n => .arming (n - 1)
  | .calm => .calm
  | .raised => .raised

def Assembly.countDown : Assembly → Assembly
  | .opened c words idle => .opened c words (Sys2Proof.Machine.countDown idle)
  | .empty => .empty
  | .committing c length level words reserved => .committing c length level words reserved

def Ctx.countDown (x : Ctx) : Ctx :=
  { x with held := x.held.map HeldItem.countDown, watermark := x.watermark.countDown }

/-- Every count that runs in ticks decreases by one (R74). -/
def Live.countDown (l : Live) : Live :=
  { l with
    ctxs := Vector.ofFn fun c : Fin 8 => l.ctxs[c].countDown
    assembly := ⟨l.assembly.a.countDown, l.assembly.b.countDown⟩ }

/-! ## Parts of the tick -/

/-- A holdoff count that reached 0: RAISED with HIGH (R77). -/
def Live.holdoffPart (l : Live) (c : Fin 8) : Live :=
  match l.ctxs[c].watermark with
  | .arming 0 => (l.modCtx c fun x => { x with watermark := .raised }).raise c .high
  | _ => l

/-- An open assembly whose idle count reached 0 is discarded (R29): on the idle-limit-th tick after the append, also where
that is the first tick after it (log 32). -/
def Live.idlePart (l : Live) (p : Port) : Live :=
  match l.assembly.get p with
  | .opened c _ (some 0) => (l.reject c).setAssembly p .empty
  | _ => l

/-- The item of a port in the held list of a context, if any. -/
def Ctx.itemOf (x : Ctx) (p : Port) : Option HeldItem := x.held.find? fun i => i.port == p

/-- A held commit expires: ERROR EXPIRED, REJECTED, REJECT, buffer EMPTY; the list is examined again (R38). -/
def Live.expireCommit (l : Live) (now : BitVec 16) (c : Fin 8) (p : Port) : Live :=
  ((((l.removeHeld c p).answerError p .expired).reject c).setAssembly p .empty).examineCommits now c

/-- A held pop expires: ERROR EXPIRED, latch EMPTY; the list is examined for pops (R67). -/
def Live.expirePop (l : Live) (now : BitVec 16) (c : Fin 8) (p : Port) : Live :=
  (((l.removeHeld c p).answerError p .expired).setLatch p .empty).examinePops now c

/-- A stall count that reached 0 (R38, R67). -/
def Live.heldPart (l : Live) (now : BitVec 16) (p : Port) : Live :=
  match l.findHeld p with
  | none => l
  | some c =>
    match l.ctxs[c].itemOf p with
    | some (.commit h) => if h.stall = some 0 then l.expireCommit now c p else l
    | some (.pop h) => if h.stall = some 0 then l.expirePop now c p else l
    | none => l

/-- The next entry of a context is judged older than the age limit, and its stale action can be taken: a LIFO context
with an operation running makes no discard and raises no STALE (R82, R83). -/
def Ctx.judgedStale (x : Ctx) (now : BitVec 16) : Bool :=
  decide (x.applied.ageLimit ≠ 0) && decide (0 < x.ready) && x.cache.valid && !x.cache.staleRaised &&
    decide (x.applied.ageLimit < (now - x.cache.stamp).toNat) &&
    !(x.applied.staleDiscard && x.isLifo && x.opRunning)

/-- The age judgement of a context: STALE, and under DISCARD the discard of the next entry with the offer of its space
(R82, R83). -/
def Live.stalePart (l : Live) (now : BitVec 16) (c : Fin 8) : Live :=
  if l.ctxs[c].judgedStale now then
    if l.ctxs[c].applied.staleDiscard then Live.offerSpace l ((l.raise c .stale).discard c 1) now c
    else (l.raise c .stale).modCtx c fun x => { x with cache := { x.cache with staleRaised := true } }
  else l

/-- One part of the tick. -/
def Live.tickPart (now : BitVec 16) (l : Live) : TickPart → Live
  | .holdoff c => l.holdoffPart c
  | .idle p => l.idlePart p
  | .held p => l.heldPart now p
  | .stale c => l.stalePart now c

/-- The parts in the order taken where the command names none (log 3). -/
def allParts : List TickPart :=
  allCtxs.map .holdoff ++ allPorts.map .idle ++ allPorts.map .held ++ allCtxs.map .stale

/-- The parts of a tick: those the command names first, then the others (log 3). -/
def partsInOrder (order : List TickPart) : List TickPart := order ++ allParts.filter fun x => !order.contains x

/-- The tick event: the counter advances, every count decreases, and the parts are taken (R74). -/
def State.tickEvent (order : List TickPart) (s : State) : State :=
  { s.onLive fun l => (partsInOrder order).foldl (Live.tickPart (s.tick + 1)) l.countDown with
    tick := s.tick + 1
    prescaler := 0 }

/-! ## Meanings -/

/-- TICK (R74). -/
def execTick (order : List TickPart) (s : State) : Host.Outcome State Fault Refusal :=
  event true s fun s => s.tickEvent order

/-- The next tick brings the idle count of the port's open assembly to 0. -/
def Assembly.idleDue : Assembly → Bool
  | .opened _ _ (some n) => decide (n ≤ 1)
  | _ => false

/-- IDLE_EXPIRY: the tick event that brings the idle count to 0 (R29). -/
def execIdleExpiry (p : Port) (s : State) : Host.Outcome State Fault Refusal :=
  event (s.assembly.get p).idleDue s fun s => s.tickEvent [.idle p]

/-- The next tick brings the stall count of the port's held item to 0; `commit` says of which sort. -/
def Live.stallDue (l : Live) (p : Port) (commit : Bool) : Bool :=
  match l.findHeld p with
  | none => false
  | some c =>
    match l.ctxs[c].itemOf p with
    | none => false
    | some i => i.isCommit == commit && i.stall.any fun n => decide (n ≤ 1)

/-- STALL_EXPIRY: the tick event that brings a held commit's stall count to 0 (R38). -/
def execStallExpiry (p : Port) (s : State) : Host.Outcome State Fault Refusal :=
  event (s.stallDue p true) s fun s => s.tickEvent [.held p]

/-- WAIT_EXPIRY: the tick event that brings a held pop's stall count to 0 (R67). -/
def execWaitExpiry (p : Port) (s : State) : Host.Outcome State Fault Refusal :=
  event (s.stallDue p false) s fun s => s.tickEvent [.held p]

/-- The next tick brings a holdoff count to 0. -/
def Watermark.holdoffDue : Watermark → Bool
  | .arming n => decide (n ≤ 1)
  | .calm => false
  | .raised => false

/-- HOLDOFF_EXPIRY: the tick event that brings the holdoff count of a context to 0 (R77). -/
def execHoldoffExpiry (c : Fin 8) (s : State) : Host.Outcome State Fault Refusal :=
  event s.ctxs[c].watermark.holdoffDue s fun s => s.tickEvent [.holdoff c]

/-- STALE: the tick event in which the next entry of a context is judged older than the age limit (R82). -/
def execStale (c : Fin 8) (s : State) : Host.Outcome State Fault Refusal :=
  event (s.ctxs[c].judgedStale (s.tick + 1)) s fun s => s.tickEvent [.stale c]

/-- One clock period: the prescaler counts it, and after T periods produces a tick (R74, R75). No period is counted
while RESET_N is asserted (R170). -/
def State.clockPeriod (s : State) : State :=
  if s.inReset then s
  else if s.prescaler + 1 < tickClocks s.globalWord then { s with prescaler := s.prescaler + 1 }
  else closeEvent s (s.tickEvent [])

end Sys2Proof.Machine
end

