-- ==== Sys2Proof/Machine/Reset.lean ====
section
/-! DEFINITION. Port reset and power-on reset (R23, R47, R73, R132, R151, R160, R168-R170), with the meanings of
PORT_RESET, PORT_RESET_RELEASE, POWER_ON_RESET and POWER_ON_RESET_RELEASE. -/

namespace Sys2Proof.Machine

/-! ## Port reset (R168) -/

/-- Every push of the port ends, by the state of its assembly buffer (R47). REJECTED and the gap flag are set before the
held list is examined, so that a commit reserved in the same event carries the gap (log 30). -/
def Live.resetPush (l : Live) (now : BitVec 16) (p : Port) : Live :=
  match l.assembly.get p with
  | .empty => l
  | .opened c _ _ => (l.countRejected c).setAssembly p .empty
  | .committing _ _ _ _ true => l.setAssembly p .empty
  | .committing c _ _ _ false => (((l.removeHeld c p).countRejected c).setAssembly p .empty).examineCommits now c

/-- Every pop of the port ends, by the state of its delivery latch (R73). -/
def Live.resetPop (l : Live) (now : BitVec 16) (p : Port) : Live :=
  match l.latch.get p with
  | .empty => l
  | .waiting c => ((l.removeHeld c p).setLatch p .empty).examinePops now c
  | .filling _ _ _ _ => { l.setLatch p .empty with dropped := l.dropped.set p true }
  | .holding _ _ _ _ => l.setLatch p .empty

/-- The port's attention state is cleared (R132). -/
def Live.resetAttn (l : Live) (p : Port) : Live := { l with attn := l.attn.set p PortAttn.clear }

/-- Of the kinds that the event of the port's reset raised, those stay pending whose raise the attention unit takes after
the reset; the reset clears every other (R132, log 13). -/
def Live.keepLate (l : Live) (p : Port) (late : Vector (BitVec 8) 8) : Live :=
  { l with attn := l.attn.set p { PortAttn.clear with
      pending := Vector.ofFn fun c : Fin 8 => (l.attn.get p).pending[c] &&& late[c] } }

/-- The transfer in hand is dropped unanswered (R168). -/
def Live.resetIface (l : Live) (p : Port) : Live := l.setIface p .idle

/-- The port's operations on the queues end (R23, R47, R73): its push, then its pop (log 31). -/
def Live.resetQueues (l : Live) (now : BitVec 16) (p : Port) : Live := (l.resetPush now p).resetPop now p

/-- What a port reset does outside the attention unit: the transfer in hand is dropped, the port's operations on the
queues end, and the answer of a unit on its path is no longer wanted (R151, R168). -/
def State.resetWork (s : State) (p : Port) : State :=
  { s.onLive fun l => (l.resetIface p).resetQueues s.tick p with
    portReset := s.portReset.set p true
    paths := s.paths.set p ((s.paths.get p).map fun u => { u with wanted := false }) }

/-- The event of a port reset (R168) up to the watermarks of its close. The attention unit takes the reset before or
after each notice that the event raises, HIGH and LOW among them (R132, log 13). -/
def State.resetPort (s : State) (p : Port) (late : Vector (BitVec 8) 8) : State :=
  ((s.onLive fun l => l.resetAttn p).resetWork p).onLive fun l => (closeWatermarks s.toLive l).keepLate p late

/-- PORT_RESET: the assertion of a port's reset line (R168). While RESET_N is asserted the line has no effect but its
level (R170); a line already asserted cannot be asserted (log 18). The status items marked are those whose values the
event changes, a context's among them (R146, log 29). -/
def execPortReset (p : Port) (late : Vector (BitVec 8) 8) (s : State) : Host.Outcome State Fault Refusal :=
  .next (if s.inReset then { s with portReset := s.portReset.set p true }
         else if s.portReset.get p then s
         else settle s (s.resetPort p late))

/-! ## Releases (R169, R170) -/

/-- A request standing at the lines of an interface that is ready is taken as an arrival (R163, R169, R170). -/
def State.takeStanding (s : State) (p : Port) (standing : Option Transfer) : State :=
  match standing with
  | none => s
  | some t => if s.takesArrival p then s.onLive fun l => l.setIface p (.decoding t) else s

/-- PORT_RESET_RELEASE: the interface is ready, and a standing request is taken as an arrival (R169). While RESET_N is
asserted the release has no effect but the line's level (R170). -/
def execPortResetRelease (p : Port) (standing : Option Transfer) (s : State) :
    Host.Outcome State Fault Refusal :=
  .next (if s.inReset then { s with portReset := s.portReset.set p false }
         else if s.portReset.get p then
           State.takeStanding { s with portReset := s.portReset.set p false } p standing
         else s)

/-! ## Power-on reset (R160, R170) -/

/-- What memory holds after the unit in progress was stopped: each word of its write old or new (R160, log 8). -/
def State.interruptedMemory (s : State) : Memory := s.mem.applyLanded (Config.wordLanded s.free) 0 s.busyWrites

/-- POWER_ON_RESET: RESET_N is asserted, the unit in progress stops, every block is reset, and the straps are sampled
(R160, R170). Memory is otherwise untouched, and the port reset lines keep their levels. -/
def execPowerOnReset (cbsel memsz : BitVec 2) (s : State) : Host.Outcome State Fault Refusal :=
  .next { State.reset with
    pending := s.pending
    mem := s.interruptedMemory
    cbsel := cbsel
    memsz := memsz
    inReset := true
    portReset := s.portReset
    free := s.free + 1 }

/-- POWER_ON_RESET_RELEASE: the prescaler and tick counter start, the mirror writer presents its first item, and the
ports take arrivals, each a request standing at its lines (R170). -/
def execPowerOnResetRelease (standingA standingB : Option Transfer) (s : State) :
    Host.Outcome State Fault Refusal :=
  .next (if s.inReset then
           (State.takeStanding { s with inReset := false } .A standingA).takeStanding .B standingB
         else s)

end Sys2Proof.Machine
end

