-- ==== Sys2Proof/Machine/Dispatch.lean ====
section
/-! DEFINITION. One arm for each command, each one call of its meaning. -/

namespace Sys2Proof.Machine

/-- The effect of a command on everything but the queue of commands. -/
def exec (i : Instr) (s : State) : Host.Outcome State Fault Refusal :=
  match i with
  | .transferArrival p t => Sys2Proof.Machine.execTransferArrival p t s
  | .requestWithdrawal p => Sys2Proof.Machine.execRequestWithdrawal p s
  | .passThrough p => Sys2Proof.Machine.execPassThrough p s
  | .plainWindowTransfer p => Sys2Proof.Machine.execPlainWindowTransfer p s
  | .unmapped p => Sys2Proof.Machine.execUnmapped p s
  | .cbRead p => Sys2Proof.Machine.execCbRead p s
  | .cbWrite p => Sys2Proof.Machine.execCbWrite p s
  | .push p => Sys2Proof.Machine.execPush p s
  | .pushLast p => Sys2Proof.Machine.execPushLast p s
  | .pop p => Sys2Proof.Machine.execPop p s
  | .peek p => Sys2Proof.Machine.execPeek p s
  | .state p => Sys2Proof.Machine.execState p s
  | .bitfieldTransfer p => Sys2Proof.Machine.execBitfieldTransfer p s
  | .bitfieldPlainWrite => Sys2Proof.Machine.execBitfieldPlainWrite s
  | .set => Sys2Proof.Machine.execSet s
  | .clear => Sys2Proof.Machine.execClear s
  | .toggle => Sys2Proof.Machine.execToggle s
  | .bitfieldPlainRead => Sys2Proof.Machine.execBitfieldPlainRead s
  | .fetchAndClear => Sys2Proof.Machine.execFetchAndClear s
  | .compareRead => Sys2Proof.Machine.execCompareRead s
  | .arbiterGrant => Sys2Proof.Machine.execArbiterGrant s
  | .jobPresentation prefer => Sys2Proof.Machine.execJobPresentation prefer s
  | .portReadCompletion => Sys2Proof.Machine.execPortReadCompletion s
  | .portWriteCompletion => Sys2Proof.Machine.execPortWriteCompletion s
  | .noticeWordReadClear => Sys2Proof.Machine.execNoticeWordReadClear s
  | .peekReadCompletion => Sys2Proof.Machine.execPeekReadCompletion s
  | .entryWriteCompletion => Sys2Proof.Machine.execEntryWriteCompletion s
  | .entryCopyCompletion => Sys2Proof.Machine.execEntryCopyCompletion s
  | .stampFetchCompletion => Sys2Proof.Machine.execStampFetchCompletion s
  | .signalUpdateGrant => Sys2Proof.Machine.execSignalUpdateGrant s
  | .signalUpdateCompletion => Sys2Proof.Machine.execSignalUpdateCompletion s
  | .mirrorWrite => Sys2Proof.Machine.execMirrorWrite s
  | .globalWord => Sys2Proof.Machine.execGlobalWord s
  | .enableWord => Sys2Proof.Machine.execEnableWord s
  | .ackConfig => Sys2Proof.Machine.execAckConfig s
  | .ackFault => Sys2Proof.Machine.execAckFault s
  | .ackEngine => Sys2Proof.Machine.execAckEngine s
  | .contextAck => Sys2Proof.Machine.execContextAck s
  | .stageRecordWord => Sys2Proof.Machine.execStageRecordWord s
  | .windowRecordApply => Sys2Proof.Machine.execWindowRecordApply s
  | .contextRecordApply => Sys2Proof.Machine.execContextRecordApply s
  | .flush => Sys2Proof.Machine.execFlush s
  | .cbPlainWrite => Sys2Proof.Machine.execCbPlainWrite s
  | .tick order => Sys2Proof.Machine.execTick order s
  | .idleExpiry p => Sys2Proof.Machine.execIdleExpiry p s
  | .stallExpiry p => Sys2Proof.Machine.execStallExpiry p s
  | .waitExpiry p => Sys2Proof.Machine.execWaitExpiry p s
  | .holdoffExpiry c => Sys2Proof.Machine.execHoldoffExpiry c s
  | .stale c => Sys2Proof.Machine.execStale c s
  | .portReset p late => Sys2Proof.Machine.execPortReset p late s
  | .portResetRelease p standing => Sys2Proof.Machine.execPortResetRelease p standing s
  | .powerOnReset cbsel memsz => Sys2Proof.Machine.execPowerOnReset cbsel memsz s
  | .powerOnResetRelease standingA standingB => Sys2Proof.Machine.execPowerOnResetRelease standingA standingB s
  | .mirrorUnitCompletion => Sys2Proof.Machine.execMirrorUnitCompletion s

end Sys2Proof.Machine
end

