-- ==== Sys2Proof/Safety.lean ====
section
/-! DEFINITION. What the claims speak of: what they assume of a state, the parts of a state that a command leaves alone,
and the laws of the device as predicates on a state. -/

namespace Sys2Proof.Machine

/-! ## What a statement assumes of a state -/

/-- The transfer `t` of port `p` has arrived and stands before the decoder, out of power-on reset (R162, R163). -/
structure State.Decoding (s : State) (p : Port) (t : Transfer) : Prop where
  running : s.inReset = false
  arrived : s.ifaces.get p = .decoding t

/-- The transfer is decided by RING window `w`, admitted by its rights and level, and of a shape that sub-range `sub`
accepts (R92, R95, R96). -/
structure State.ToRing (s : State) (p : Port) (t : Transfer) (w : Fin 16) (sub : SubRange) : Prop
    extends State.Decoding s p t where
  decided  : s.decision t = .window w
  kind     : s.windows[w].applied.kind = .ring
  admitted : s.windows[w].applied.admits p t false = true
  shape    : s.windows[w].applied.ringShape t sub = true

/-- The unit `u` on the path of `p` is the unit in progress (R150, R151). -/
structure State.PortUnit (s : State) (p : Port) (u : PathUnit) : Prop where
  running : s.inReset = false
  busy    : s.busy = some (.port p)
  path    : s.paths.get p = some u

/-- The unit in progress is of port `p`, whose transfer `t` waits in HELD for its answer (R151, R163). -/
structure State.WantedUnit (s : State) (p : Port) (u : PathUnit) (t : Transfer) (d : Decode) : Prop
    extends State.PortUnit s p u where
  wanted : u.wanted = true
  held   : s.ifaces.get p = .held t d none

/-- The job `j` of the engine job list is in progress; `rest` is the list without it (R156, R157). -/
structure State.JobUnit (s : State) (j : Job) (rest : List JobEntry) : Prop where
  running : s.inReset = false
  busy    : s.busy = some .job
  job     : s.jobInProgress = some j
  rest    : s.jobs.eraseP (fun e => e.phase == .inProgress) = rest

/-- The unit in progress is a permitted control-block write of one word `v` with byte enables `be` at an offset of the
control block, made by port `p` (R136). -/
structure State.CbWordUnit (s : State) (p : Port) (offset : Nat) (be : Enables) (v : Word) (t : Transfer) : Prop
    extends State.WantedUnit s p ⟨.cbWrite, s.cbBase + offset, [be], [v], true⟩ t .cb where
  enabled : be ≠ 0

/-! ## How a statement names a next state -/

/-- The state with the items that the event changed at the end of the mirror list (R146). -/
def State.reported (s t : State) : State := { t with mirror := t.mirror ++ dirtied s t.toLive t }

/-- Notice `k` of context `c`, routed by the record of `x`, is raised where `yes` (R119). -/
def noticed (x : Ctx) (c : Fin 8) (k : Kind) (yes : Bool) (a : PerPort PortAttn) : PerPort PortAttn :=
  if yes then raiseRouted a (x.applied.route k) c k else a

/-- A push to context `c` ended without publication: the notices WRAP, where REJECTED wraps, and REJECT (R19, R48). -/
def rejectNotices (x : Ctx) (c : Fin 8) (a : PerPort PortAttn) : PerPort PortAttn :=
  noticed x c .reject true (noticed x c .wrap (wraps x.rejected 1) a)

/-- The context after a push to it ended without publication: REJECTED one more, gap flag set (R18, R19). -/
def Ctx.rejectedOne (x : Ctx) : Ctx := { x with rejected := x.rejected + 1, gap := true }

/-- The stamp cache when the next entry changes and its stamp is not known (R79, log 10). -/
def StampCache.unknown (k : StampCache) : StampCache :=
  { stamp := k.stamp, valid := false, staleRaised := false, fetchCurrent := false, fetchFailed := false }

/-- The stamp cache when the next entry changes to one whose stamp the engine knows (R79). -/
def StampCache.known (stamp : BitVec 16) : StampCache :=
  { stamp := stamp, valid := true, staleRaised := false, fetchCurrent := false, fetchFailed := false }

/-- The notices of `n` entries of context `c` discarded in one event: WRAP, where DISCARDED wraps, and LOSS once (R14, R19,
R21). -/
def lossNotices (x : Ctx) (c : Fin 8) (n : Nat) (a : PerPort PortAttn) : PerPort PortAttn :=
  noticed x c .loss true (noticed x c .wrap (wraps x.discarded n) a)

/-- The context after a commit of port `p` reserved at it: the tail slot of a FIFO ring or slot depth of a LIFO stack is
WRITING, the sequence number advanced, the gap flag clear (R11, R16). -/
def Ctx.reservedFor (x : Ctx) (p : Port) (now : BitVec 16) : Ctx :=
  { x with
    tail := if x.applied.isLifo then x.tail else (x.tail + 1) % x.applied.capacity
    depth := if x.applied.isLifo then x.depth + 1 else x.depth
    writingRun := x.writingRun ++ [⟨if x.applied.isLifo then x.depth else x.tail, p, now, false⟩]
    seq := x.seq + 1
    gap := false }

/-- The ENTRY_WRITE that a reservation of commit `k` at context `c` puts on the list (R33, R34). -/
def Ctx.writeEntry (x : Ctx) (c : Fin 8) (k : HeldCommit) (words : List Word) (now : BitVec 16) : JobEntry :=
  let slot := if x.applied.isLifo then x.depth else x.tail
  ⟨.entryWrite c slot (x.applied.ringBase + 4 * x.applied.slotSize * slot)
    (header k.length k.port k.level x.gap x.seq now) words k.port, .waiting, none⟩

/-- The context after a pop of port `p` claimed its next entry (R13, R16; the cache's stamp field is log 10). -/
def Ctx.claimedFor (x : Ctx) (p : Port) : Ctx :=
  { x with
    ready := x.ready - 1
    head := if x.applied.isLifo then x.head else (x.head + 1) % x.applied.capacity
    heldRun := x.heldRun ++ [.copying p]
    cache := x.cache.unknown }

/-- The ENTRY_COPY that a claim of port `p` at context `c` puts on the list (R58). -/
def Ctx.copyEntry (x : Ctx) (c : Fin 8) (p : Port) : JobEntry :=
  let slot := if x.applied.isLifo then x.ready - 1 else x.head
  ⟨.entryCopy c slot (x.applied.ringBase + 4 * x.applied.slotSize * slot) (x.applied.slotSize - 1) p, .waiting, none⟩

/-- `y` is the context when the copy of port `p` completed at its ring: the oldest claim is spent and released with the
spent slots behind it, or on a LIFO stack its slot is free; a claim behind an earlier one of another port is spent and
releases nothing (R15, R16). -/
def Ctx.copySpent (x : Ctx) (p : Port) (y : Ctx) : Prop :=
  (∃ more, x.heldRun = .copying p :: more ∧ y = { x with
    heldRun := if x.applied.isLifo then more else more.dropWhile HeldSlot.isSpent
    release := if x.applied.isLifo then x.release
      else (x.release + ((more.takeWhile HeldSlot.isSpent).length + 1)) % x.applied.capacity
    depth := if x.applied.isLifo then x.depth - 1 else x.depth }) ∨
  ∃ q before more, x.applied.isLifo = false ∧ q ≠ p ∧ x.heldRun = .copying q :: (before ++ .copying p :: more) ∧
    .copying p ∉ before ∧ y = { x with
      heldRun := .copying q :: (before ++ .spent :: more)
      release := x.release % x.applied.capacity }

/-- What an ENTRY_COPY counts at its context: DELIVERED, or DISCARDED with the gap flag where the header failed (R60,
R62). -/
def CopyRead.counted : CopyRead → Ctx → Ctx
  | .headerFailed, x => { x with discarded := x.discarded + 1, gap := true }
  | .passed _ _ _, x => { x with delivered := x.delivered + 1 }

/-- The notices that an ENTRY_COPY raises at its context: WRAP, where its counter wraps, LOSS and DAMAGED for a failing
header, DAMAGED for a failing payload (R19, R61, R62). -/
def CopyRead.notices (r : CopyRead) (x : Ctx) (c : Fin 8) (a : PerPort PortAttn) : PerPort PortAttn :=
  match r with
  | .headerFailed => noticed x c .damaged true (lossNotices x c 1 a)
  | .passed _ _ good => noticed x c .damaged (!good) (noticed x c .wrap (wraps x.delivered 1) a)

/-- The reason of the first check that fails, none where every check passes (R90, R139). -/
def firstFailing (checks : List (Bool × Reason)) : Option Reason :=
  (checks.find? fun check => !check.1).map fun check => check.2

/-- The attention state of port `p` after its reset in an event that left `a` with the reset taken before every notice:
cleared, but for the kinds of `late`, which the attention unit took after the reset (R132, log 13). -/
def lateOnly (p : Port) (late : Vector (BitVec 8) 8) (a : PerPort PortAttn) : PerPort PortAttn :=
  a.set p { PortAttn.clear with pending := Vector.ofFn fun c : Fin 8 => (a.get p).pending[c] &&& late[c] }

/-- One thing for each port, given by the port. -/
def PerPort.each {α : Type} (f : Port → α) : PerPort α := ⟨f .A, f .B⟩

/-- The command that takes a transfer of port `p` from DECODING, by its row. -/
def DecodeRow.command (p : Port) : DecodeRow → Instr
  | .passThrough => .passThrough p
  | .plainWindow => .plainWindowTransfer p
  | .unmapped => .unmapped p
  | .cbRead => .cbRead p
  | .cbWrite => .cbWrite p
  | .push => .push p
  | .pushLast => .pushLast p
  | .pop => .pop p
  | .peek => .peek p
  | .state => .state p
  | .bitfield => .bitfieldTransfer p

/-- The fault kind with which the window decoder refuses a transfer, if it does: UNMAPPED or SHAPE by the classes of its
words (R92), ACCESS by the rights and the level (R95), SHAPE by the window's kind (R96). -/
def State.refusalOf (s : State) (p : Port) (t : Transfer) : Option FaultKind :=
  match s.decision t with
  | .cb => none
  | .pass => none
  | .unmapped => some .unmapped
  | .mixed => some .shape
  | .window w =>
    let r := s.windows[w].applied
    match r.kind with
    | .plain => if r.admits p t false then none else some .access
    | .ring =>
      if r.admits p t false then
        if r.ringShape t (subRangeOf (r.offsetOf t)) then none else some .shape
      else some .access
    | .bitfield =>
      if r.admits p t (quarterOf r.apertureSize (r.offsetOf t) == .q1) then
        if r.inQuarter t then none else some .shape
      else some .access

/-- The place of a requester in the arbiter's fixed order (R152). -/
def Requester.rank : Requester → Nat
  | .portA => 0
  | .portB => 1
  | .engine => 2
  | .mirror => 3

/-- How many requesters a cyclic search that starts after `pointer` passes before it meets `r` (R152). -/
def Requester.distance (pointer r : Requester) : Nat := (r.rank + 3 - pointer.rank) % 4

/-- R80's conditions: an invalid cache, an entry ready, an age limit, no failed fetch, and no STAMP_FETCH on the list. -/
def Live.owesFetch (l : Live) (c : Fin 8) : Prop :=
  l.ctxs[c].cache.valid = false ∧ 0 < l.ctxs[c].ready ∧ l.ctxs[c].applied.ageLimit ≠ 0 ∧
    l.ctxs[c].cache.fetchFailed = false ∧ ∀ e ∈ l.jobs, e.job.isFetchOf c = false

/-- The event asks for an update of the signal word: the signal word is enabled and ready ended on the other side of
zero (R85), or the event asked for one (R20, R88); and none of the context is on the list. -/
def Live.owesSignal (before l : Live) (c : Fin 8) : Prop :=
  ((l.ctxs[c].applied.signalEnable = true ∧ ¬(before.ctxs[c].ready = 0 ↔ l.ctxs[c].ready = 0)) ∨
      l.ctxs[c].signalDue = true) ∧
    ∀ e ∈ l.jobs, e.job.isSignalOf c = false

/-- The port answers ERROR: the interface presents it, and the fault record takes the transfer's fields (R127,
R166); how many zero words a read is given is the model's choice (log 33). -/
def State.erred (s : State) (p : Port) (k : FaultKind) (t : Transfer) (window : BitVec 5) : State :=
  { s with
    ifaces := s.ifaces.set p (.answering (.error k t.errorWords))
    attn := s.attn.set p ((s.attn.get p).capture k t window) }

/-- How the copy of port `p` at context `c`, which read `r`, ends at its port, where `done` is the state with its outcome at
the context: a dropped copy clears the dropped-copy flag (R73); a failing header is answered ERROR PARITY (R62); an entry
for a withdrawn latch is answered ERROR WITHDRAWN with CUT (R72); any other is answered OK with its first words, the rest
kept HOLDING (R60, R61). -/
def State.CopyEndsAtPort (s : State) (c : Fin 8) (slot : Nat) (p : Port) (r : CopyRead) (done port : State) : Prop :=
  (s.dropped.get p = true ∧ port = { done with dropped := s.dropped.set p false }) ∨
  ∃ (t : Transfer) (d : Decode) (burst : Burst) (withdrawn : Bool), s.dropped.get p = false ∧
    s.latch.get p = .filling c slot burst withdrawn ∧ s.ifaces.get p = .held t d none ∧
    port = match r with
      | .headerFailed => { done.erred p .parity t d.windowIndex with latch := s.latch.set p .empty }
      | .passed h payload good =>
        let header := (h &&& 0xBFFFFFFF) ||| (if good then 0 else 0x40000000)
        if withdrawn then
          { done.erred p .withdrawn t d.windowIndex with
            attn := noticed s.ctxs[c] c .cut true (done.erred p .withdrawn t d.windowIndex).attn
            latch := s.latch.set p .empty }
        else
          { done with
            ifaces := s.ifaces.set p (.answering (.okRead ((header :: payload).take burst.words ++
              List.replicate (burst.words - (payload.length + 1)) s.ctxs[c].applied.fillWord)))
            latch := s.latch.set p (if payload.length + 1 ≤ burst.words then .empty
              else .holding c header payload (payload.length + 1 - burst.words)) }

/-- The transfer `t` of port `p` waits in HELD for its owner, and its unit is on the path; while the path still holds a
dropped unit, the unit waits in HELD too (R151, R163). -/
def State.handedDown (s : State) (p : Port) (t : Transfer) (d : Decode) (u : PathUnit) : State :=
  match s.paths.get p with
  | none => { s with ifaces := s.ifaces.set p (.held t d none), paths := s.paths.set p (some u) }
  | some _ => { s with ifaces := s.ifaces.set p (.held t d (some u)) }

/-- The unit of port `p` left its path and the memory port is idle (R151, R152). -/
def State.pathFreed (s : State) (p : Port) : State := { s with paths := s.paths.set p none, busy := none }

/-- The unit of port `p`, which was reset, is done and left memory as `m`: its answer is discarded, and a transfer that
waits in HELD for the path is handed down (R151, R163). -/
def State.endsUnanswered (s : State) (p : Port) (m : Memory) : State :=
  match s.ifaces.get p with
  | .held t d (some v) =>
    { s with mem := m, busy := none, paths := s.paths.set p (some v), ifaces := s.ifaces.set p (.held t d none) }
  | _ => { s.pathFreed p with mem := m }

/-- A write unit of port `p` is done: its words are in memory, the path is free, the port is answered OK (R93). -/
def State.writeAnswered (s : State) (p : Port) (u : PathUnit) : State :=
  { s.pathFreed p with
    mem := s.mem.applyWrites (burstWrites u.address u.enables u.data)
    ifaces := s.ifaces.set p (.answering .okWrite) }

/-- A commit of port `p` that arrives at context `c` is taken at once: the port has no entry WRITING, and the held list
has no commit, or at a LIFO context nothing at all and no operation runs (R32, R43). -/
def Live.commitTaken (l : Live) (p : Port) (c : Fin 8) : Prop :=
  l.portWriting p = false ∧ l.ctxs[c].holds p = false ∧
    if l.ctxs[c].isLifo then l.ctxs[c].held = [] ∧ l.ctxs[c].opRunning = false
    else heldCommits l.ctxs[c].held = []

/-- A pop of port `p` that arrives at context `c` is decided at once: the port has no copy in flight, and where an entry
is ready the held list has no pop, or at a LIFO context nothing is held and no operation runs (R55, R69). -/
def Live.popTaken (l : Live) (p : Port) (c : Fin 8) : Prop :=
  l.copyInFlight p = false ∧ l.ctxs[c].holds p = false ∧
    if l.ctxs[c].isLifo then l.ctxs[c].held = [] ∧ l.ctxs[c].opRunning = false
    else l.ctxs[c].ready ≠ 0 → heldPops l.ctxs[c].held = []

/-- The part `x` of the next tick has something to do (R29, R38, R67, R77, R82). -/
def State.partDue (s : State) : TickPart → Bool
  | .holdoff c => s.ctxs[c].watermark.holdoffDue
  | .idle p => (s.assembly.get p).idleDue
  | .held p => s.stallDue p true || s.stallDue p false
  | .stale c => s.ctxs[c].judgedStale (s.tick + 1)

/-- The state after a tick that only counts: the counter one more, the prescaler restarted, every count one less
(R74). -/
def State.ticked (s : State) : State :=
  { s with
    tick := s.tick + 1
    prescaler := 0
    ctxs := Vector.ofFn fun c : Fin 8 => s.ctxs[c].countDown
    assembly := ⟨s.assembly.a.countDown, s.assembly.b.countDown⟩ }

/-! ## Parts of a state -/

/-- Everything outside the queues, the interfaces, the attention state and the mirror list: memory, windows, global
word, time base, shared records, memory port, straps and lines, and the model's own fields. -/
def State.outer (s : State) : State := { s with toLive := Live.reset, mirror := [] }

/-- A context without what the close of an event may change in it: the watermark state, the fetch current flag and the
marks of an update and of a status item asked for (R20, R76, R80, R85). -/
def Ctx.core (x : Ctx) : Ctx :=
  { x with
    watermark := .calm, cache := { x.cache with fetchCurrent := false }, signalDue := false, statusDue := false }

/-- The port-owned jobs on the list, in their order (section 9.4). -/
def Live.portJobs (l : Live) : List JobEntry := l.jobs.filter fun e => e.job.owner.isSome

/-- No context, assembly buffer, latch or dropped-copy flag changed, but for what the close of an event may change. -/
structure Live.SameQueues (l m : Live) : Prop where
  ctxs     : ∀ c : Fin 8, m.ctxs[c].core = l.ctxs[c].core
  assembly : m.assembly = l.assembly
  latch    : m.latch = l.latch
  dropped  : m.dropped = l.dropped

/-- No notice was raised or cleared, no watermark moved and no status item changed. -/
structure State.SameReports (s t : State) : Prop where
  attn      : t.attn = s.attn
  watermark : ∀ c : Fin 8, t.ctxs[c].watermark = s.ctxs[c].watermark
  mirror    : t.mirror = s.mirror

/-- The byte address is one that the writes store to, in the 24 bits the memory sees (R149). -/
def storesTo (writes : List WordWrite) (a : Nat) : Prop :=
  ∃ w ∈ writes, ∃ i < 4, w.enables.getLsbD i = true ∧ memIndex (w.address + i) = memIndex a

/-! ## Laws of the device -/

/-- R146: the mirror list has no item twice. -/
def State.MirrorLaw (s : State) : Prop := s.mirror.Nodup

/-- R19: PUBLISHED ≡ DELIVERED + DISCARDED + ready + in-copy (modulo 65536). -/
def Ctx.CounterLaw (x : Ctx) : Prop :=
  x.published = x.delivered + x.discarded + BitVec.ofNat 16 (x.ready + x.inCopy)

def State.CounterLaw (s : State) : Prop := ∀ c : Fin 8, s.ctxs[c].CounterLaw

/-- R9: "ready + writing + held never exceeds capacity", the head is the release index plus held and the tail the
release index plus occupied, modulo capacity; R16: the depth of a LIFO context is ready + writing + in-copy. -/
def Ctx.RingLaw (x : Ctx) : Prop :=
  x.occupied ≤ x.capacity ∧
    (x.isLifo = true → x.depth = x.ready + x.writing + x.inCopy) ∧
    (x.isLifo = false →
      x.head = (x.release + x.heldCount) % x.capacity ∧ x.tail = (x.release + x.occupied) % x.capacity)

def State.RingLaw (s : State) : Prop := ∀ c : Fin 8, s.ctxs[c].RingLaw

/-- R101: "a context is bound by at most one enabled RING window, and ... only an INITIALISED context is bound". -/
def State.BindingLaw (s : State) : Prop :=
  (∀ v w : Fin 16, s.windows[v].applied.isRing → s.windows[w].applied.isRing →
      s.windows[v].applied.winCtx = s.windows[w].applied.winCtx → v = w) ∧
    ∀ w : Fin 16, s.windows[w].applied.isRing → s.ctxs[s.windows[w].applied.winCtx].initialised = true

/-- R20, R80, R85: nothing is owed at the close of an event: no context lacks a STAMP_FETCH that R80 requires, and no
SIGNAL_UPDATE and no status item is asked for. -/
def State.JobsPlaced (s : State) : Prop :=
  ∀ c : Fin 8, s.needsFetch c = false ∧ s.ctxs[c].signalDue = false ∧ s.ctxs[c].statusDue = false

/-- R54: a latch HOLDING an entry has words left, never the header among them, and no more than one entry's words. -/
def State.LatchLaw (s : State) : Prop :=
  ∀ (p : Port) (c : Fin 8) (header : Word) (payload : List Word) (remaining : Nat),
    s.latch.get p = .holding c header payload remaining →
      0 < remaining ∧ remaining ≤ payload.length ∧ payload.length ≤ 7

/-- R155: at most one STAMP_FETCH and one SIGNAL_UPDATE of each context is on the engine job list. -/
def State.ContextJobLaw (s : State) : Prop :=
  ∀ c : Fin 8, s.jobs.countP (fun e => e.job.isFetchOf c) ≤ 1 ∧ s.jobs.countP (fun e => e.job.isSignalOf c) ≤ 1

/-- The job writes an entry of port `p`. -/
def Job.isWriteOf (p : Port) : Job → Bool
  | .entryWrite _ _ _ _ _ q => p == q
  | .entryCopy _ _ _ _ _ => false
  | .stampFetch _ _ _ => false
  | .signalUpdate _ => false

/-- R10: a FIFO context has at most 2 slots WRITING and 2 IN-COPY, a LIFO context at most one of both, and none SPENT. -/
def Ctx.WorkBounded (x : Ctx) : Prop :=
  (x.isLifo = false → x.writing ≤ 2 ∧ x.inCopy ≤ 2) ∧ (x.isLifo = true → x.writing + x.inCopy ≤ 1 ∧ x.spent = 0)

/-- R155, R10: at most one ENTRY_WRITE and one ENTRY_COPY of each port is on the engine job list; a port has at most one
slot WRITING, and the one its ENTRY_WRITE names is not yet written; a port has at most one slot IN-COPY, which its
ENTRY_COPY names; a LIFO context has at most one operation running and no slot SPENT. -/
structure Live.WorkLaw (l : Live) : Prop where
  writes   : ∀ p : Port, l.jobs.countP (fun e => e.job.isWriteOf p) ≤ 1
  copies   : ∀ p : Port, l.jobs.countP (fun e => e.job.isCopyOf p) ≤ 1
  writing  : ∀ (c : Fin 8) (p : Port), l.ctxs[c].writingRun.countP (fun w => w.port == p) ≤ 1
  oneRing  : ∀ c d : Fin 8, ∀ v ∈ l.ctxs[c].writingRun, ∀ w ∈ l.ctxs[d].writingRun, v.port = w.port → c = d
  unwritten : ∀ e ∈ l.jobs, ∀ (c : Fin 8) (slot address : Nat) (h : Word) (payload : List Word) (p : Port),
    e.job = .entryWrite c slot address h payload p →
      ∃ w ∈ l.ctxs[c].writingRun, w.slot = slot ∧ w.port = p ∧ w.complete = false
  inCopy   : ∀ (c : Fin 8) (p : Port), l.ctxs[c].heldRun.count (.copying p) ≤ 1
  copied   : ∀ (c : Fin 8) (p : Port), .copying p ∈ l.ctxs[c].heldRun →
    ∃ e ∈ l.jobs, ∃ slot address payloadMax : Nat, e.job = .entryCopy c slot address payloadMax p
  stack    : ∀ c : Fin 8, l.ctxs[c].isLifo = true → l.ctxs[c].writing + l.ctxs[c].inCopy ≤ 1 ∧ l.ctxs[c].spent = 0

end Sys2Proof.Machine
end

