-- ==== Sys2Proof/Certificates/Slice0/Obligations.lean ====
section
/-! DEFINITION. The statements about the block, each an `Obligations.<Name>`. A statement that rests on a choice of the
model names its log entry. -/

open Sys2Proof Sys2Proof.Machine

/-! ## The queue of commands and time -/

/-- A step runs exec on the command at the front of the queue, on the state with the queue's rest (log 17), and every
command answers a next state: none faults and none is refused (log 24). -/
def Obligations.StepRunsTheFrontCommand : Prop :=
  (∀ (c : Instr) (s : State), step { s with pending := c :: s.pending } = exec c s) ∧
  ∀ (c : Instr) (s : State), ∃ t : State, exec c s = .next t

/-- On an empty queue a step is one clock period: the prescaler counts it, or it completes T periods and is a tick;
under power-on reset nothing is counted (R74, R170; that an empty queue lets a period pass is log 4). -/
def Obligations.IdleStepCountsOneClockPeriod : Prop :=
  ∀ s : State, s.pending = [] →
    (s.inReset = true → step s = .next s) ∧
    (s.inReset = false → s.prescaler + 1 < tickClocks s.globalWord →
      step s = .next { s with prescaler := s.prescaler + 1 }) ∧
    (s.inReset = false → tickClocks s.globalWord ≤ s.prescaler + 1 → step s = exec (.tick []) s)

/-! ## Invariants -/

/-- State.reset obeys every law that the steps keep. -/
def Obligations.ResetObeysTheLaws : Prop :=
  State.reset.CounterLaw ∧ State.reset.RingLaw ∧ State.reset.MirrorLaw ∧ State.reset.BindingLaw ∧
    State.reset.JobsPlaced ∧ State.reset.ContextJobLaw ∧ State.reset.WorkLaw ∧ State.reset.LatchLaw ∧
    State.reset.mem.wf = true

/-- R19: PUBLISHED ≡ DELIVERED + DISCARDED + ready + in-copy; R9 and R16: occupied never exceeds capacity, and the
indices follow the runs. Every step keeps the two laws together. -/
def Obligations.StepsKeepTheCounterAndRunLaws : Prop :=
  ∀ s t : State, s.CounterLaw ∧ s.RingLaw → step s = .next t → t.CounterLaw ∧ t.RingLaw

/-- R146: no item is twice on the mirror list, "so it never holds more than thirty". -/
def Obligations.StepsKeepTheMirrorLaw : Prop :=
  ∀ s t : State, s.MirrorLaw → step s = .next t → t.MirrorLaw ∧ t.mirror.length ≤ 30

/-- R101: a context is bound by at most one enabled RING window, and only an INITIALISED context is bound. -/
def Obligations.StepsKeepTheBindingLaw : Prop :=
  ∀ s t : State, s.BindingLaw → step s = .next t → t.BindingLaw

/-- R80, R85: a step leaves no job owed; R155: at most one STAMP_FETCH and one SIGNAL_UPDATE of a context is listed,
and, with the laws that hold it up, at most one ENTRY_WRITE and one ENTRY_COPY of a port. R10: by these laws a FIFO
context has writing and in-copy at most 2, and a LIFO context has writing + in-copy at most 1 and spent 0. -/
def Obligations.StepsKeepTheJobLaws : Prop :=
  (∀ s t : State, step s = .next t →
    (s.JobsPlaced → t.JobsPlaced) ∧ (s.ContextJobLaw → t.ContextJobLaw) ∧ (s.WorkLaw → t.WorkLaw)) ∧
  ∀ s : State, s.WorkLaw → ∀ c : Fin 8, s.ctxs[c].WorkBounded

/-- R54: a port's delivery latch holds the words of at most one entry, and of those never the header once HOLDING.
Memory keeps its canonical form (log 5). -/
def Obligations.StepsKeepTheLatchAndMemoryForms : Prop :=
  (∀ s t : State, s.LatchLaw → step s = .next t → t.LatchLaw) ∧
  ∀ s t : State, s.mem.wf = true → step s = .next t → t.mem.wf = true

/-! ## The close of an event -/

/-- R76: where an event changed the ready count of a context, its watermark is evaluated once, against the count the
event leaves; HIGH is raised from CALM at a holdoff of 0, LOW from RAISED at the low mark, routed by the record, and
no other kind is raised by the evaluation. -/
def Obligations.WatermarkAtTheClose : Prop :=
  ∀ (s u : State) (c : Fin 8), s.ctxs[c].ready ≠ u.ctxs[c].ready →
    (u.ctxs[c].watermark = .calm → u.ctxs[c].applied.high ≤ u.ctxs[c].ready →
      u.ctxs[c].applied.holdoff = 0 →
        (closeEvent s u).ctxs[c].watermark = .raised ∧
        ∀ p : Port, ((closeEvent s u).attn.get p).pending[c] = (u.attn.get p).pending[c] |||
          if routeNames (u.ctxs[c].applied.route .high) p then Kind.high.mask else 0) ∧
    (u.ctxs[c].watermark = .calm → u.ctxs[c].applied.high ≤ u.ctxs[c].ready →
      u.ctxs[c].applied.holdoff ≠ 0 →
        (closeEvent s u).ctxs[c].watermark = .arming u.ctxs[c].applied.holdoff ∧
        ∀ p : Port, ((closeEvent s u).attn.get p).pending[c] = (u.attn.get p).pending[c]) ∧
    (u.ctxs[c].watermark = .calm → u.ctxs[c].ready < u.ctxs[c].applied.high →
        (closeEvent s u).ctxs[c].watermark = .calm ∧
        ∀ p : Port, ((closeEvent s u).attn.get p).pending[c] = (u.attn.get p).pending[c]) ∧
    (∀ n, u.ctxs[c].watermark = .arming n →
        (closeEvent s u).ctxs[c].watermark =
          (if u.ctxs[c].ready < u.ctxs[c].applied.high then .calm else .arming n) ∧
        ∀ p : Port, ((closeEvent s u).attn.get p).pending[c] = (u.attn.get p).pending[c]) ∧
    (u.ctxs[c].watermark = .raised → u.ctxs[c].ready ≤ u.ctxs[c].applied.low →
        (closeEvent s u).ctxs[c].watermark = .calm ∧
        ∀ p : Port, ((closeEvent s u).attn.get p).pending[c] = (u.attn.get p).pending[c] |||
          if routeNames (u.ctxs[c].applied.route .low) p then Kind.low.mask else 0) ∧
    (u.ctxs[c].watermark = .raised → u.ctxs[c].applied.low < u.ctxs[c].ready →
        (closeEvent s u).ctxs[c].watermark = .raised ∧
        ∀ p : Port, ((closeEvent s u).attn.get p).pending[c] = (u.attn.get p).pending[c])

/-- R80, R85, R156: the context jobs of an event join the end of the list in increasing context order, a context's
STAMP_FETCH before its SIGNAL_UPDATE, each exactly where its rule asks for it; a placed fetch sets fetch current. -/
def Obligations.ContextJobsAtTheClose : Prop :=
  ∀ s u : State,
    (∃ new : Fin 8 → List JobEntry, (closeEvent s u).jobs = u.jobs ++ allCtxs.flatMap new ∧
      ∀ c : Fin 8, ∃ fetch signal : List JobEntry, new c = fetch ++ signal ∧
        (u.owesFetch c → fetch = [⟨.stampFetch c u.ctxs[c].nextSlot
          (u.ctxs[c].applied.ringBase + 4 * u.ctxs[c].applied.slotSize * u.ctxs[c].nextSlot), .waiting, none⟩]) ∧
        (¬u.owesFetch c → fetch = []) ∧
        (Live.owesSignal s.toLive u.toLive c → signal = [⟨.signalUpdate c, .waiting, none⟩]) ∧
        (¬Live.owesSignal s.toLive u.toLive c → signal = [])) ∧
    ∀ c : Fin 8,
      (u.owesFetch c → (closeEvent s u).ctxs[c].cache = { u.ctxs[c].cache with fetchCurrent := true }) ∧
      (¬u.owesFetch c → (closeEvent s u).ctxs[c].cache = u.ctxs[c].cache)

/-- R146: the items that the event left with another value join the end of the mirror list in increasing offset
order, those on it keep their place, and no item is on it twice, so that it never holds more than thirty. (That the
status item of a context that the event initialised joins also where its value is as it was is the model's choice,
log 28.) -/
def Obligations.DirtyItemsJoinTheMirrorList : Prop :=
  (Item.all.map Item.offset).Pairwise (· < ·) ∧ (∀ i : Item, i ∈ Item.all) ∧
  ∀ s u : State, ∃ joined : List Item,
    (closeEvent s u).mirror = u.mirror ++ joined ∧ joined.Sublist Item.all ∧
    (∀ i : Item, i ∈ joined ↔ ((closeEvent s u).itemWords i ≠ s.itemWords i ∨
      ∃ c : Fin 8, i = .context c ∧ u.ctxs[c].statusDue = true) ∧ i ∉ u.mirror) ∧
    (u.mirror.Nodup → (closeEvent s u).mirror.Nodup ∧ (closeEvent s u).mirror.length ≤ 30)

/-- The close of an event changes nothing but what the three statements above say, and nothing at all where the event
changed no context, no notice and no record and no job is owed (R76, R80, R85, R146; that an unchanged ready count is
not evaluated is log 20). A shown mark stands, but that of a kind which the close makes pending is clear (R125). -/
def Obligations.CloseChangesNothingElse : Prop :=
  ∀ s u : State,
    (closeEvent s u).outer = u.outer ∧ (closeEvent s u).ifaces = u.ifaces ∧
    (closeEvent s u).assembly = u.assembly ∧ (closeEvent s u).latch = u.latch ∧
    (closeEvent s u).dropped = u.dropped ∧ (∀ c : Fin 8, (closeEvent s u).ctxs[c].core = u.ctxs[c].core) ∧
    (∀ c : Fin 8, s.ctxs[c].ready = u.ctxs[c].ready →
      (closeEvent s u).ctxs[c].watermark = u.ctxs[c].watermark ∧
      ∀ p : Port, ((closeEvent s u).attn.get p).pending[c] = (u.attn.get p).pending[c]) ∧
    (∀ (p : Port) (c : Fin 8), ((closeEvent s u).attn.get p).shown[c] =
      (u.attn.get p).shown[c] &&& ~~~(((closeEvent s u).attn.get p).pending[c] &&& ~~~(u.attn.get p).pending[c])) ∧
    (∀ p : Port, ((closeEvent s u).attn.get p).config = (u.attn.get p).config ∧
      ((closeEvent s u).attn.get p).fault = (u.attn.get p).fault ∧
      ((closeEvent s u).attn.get p).engine = (u.attn.get p).engine ∧
      ((closeEvent s u).attn.get p).enable = (u.attn.get p).enable ∧
      ((closeEvent s u).attn.get p).record = (u.attn.get p).record) ∧
    (s.JobsPlaced → u.ctxs = s.ctxs → u.jobs = s.jobs → closeEvent s u = s.reported u) ∧
    (s.JobsPlaced → u.ctxs = s.ctxs → u.jobs = s.jobs → u.attn = s.attn → u.configStatus = s.configStatus →
      u.engineFault = s.engineFault → closeEvent s u = u)

/-! ## Attention (chapter 7) -/

/-- R119: a notice is added to the pending set of each port its route names, for its context alone; already pending,
or raised twice, it changes nothing; the route NONE changes no pending set. R125: a kind that becomes pending starts
with its shown mark clear, and every other mark stands. -/
def Obligations.NoticesAreRouted : Prop :=
  ∀ (l : Live) (c : Fin 8) (k : Kind) (p : Port),
    (∀ d : Fin 8, ((l.raise c k).attn.get p).pending[d] =
      if d = c ∧ routeNames (l.ctxs[c].applied.route k) p then (l.attn.get p).pending[d] ||| k.mask
      else (l.attn.get p).pending[d]) ∧
    (∀ d : Fin 8, ((l.raise c k).attn.get p).shown[d] =
      if d = c ∧ routeNames (l.ctxs[c].applied.route k) p ∧ (l.attn.get p).pending[d] &&& k.mask = 0 then
        (l.attn.get p).shown[d] &&& ~~~k.mask
      else (l.attn.get p).shown[d]) ∧
    ((l.raise c k).raise c k).attn = (l.raise c k).attn ∧
    ((∀ q : Port, routeNames (l.ctxs[c].applied.route k) q = true → (l.attn.get q).pending[c] &&& k.mask = k.mask) →
      (l.raise c k).attn = l.attn) ∧
    (l.ctxs[c].applied.route k = 0 → (l.raise c k).attn = l.attn) ∧
    (routeNames 0 p = false ∧ routeNames 1 p = (p == .A) ∧ routeNames 2 p = (p == .B) ∧ routeNames 3 p = true)

/-- R121: the summary word has a bit for each context with a kind pending and one each for CONFIG, FAULT and ENGINE,
and ATTN is asserted exactly when it has a set bit in common with the enable word; R170: not under power-on reset. -/
def Obligations.SummaryWordDrivesAttn : Prop :=
  ∀ (s : State) (p : Port),
    (∀ c : Fin 8, (s.attn.get p).summary.getLsbD c.val = ((s.attn.get p).pending[c] != 0)) ∧
    (s.attn.get p).summary.getLsbD 8 = (s.attn.get p).config ∧
    (s.attn.get p).summary.getLsbD 9 = (s.attn.get p).fault ∧
    (s.attn.get p).summary.getLsbD 10 = (s.attn.get p).engine ∧
    s.itemWords (.summary p) = [(s.attn.get p).summary.setWidth 32] ∧
    (s.inReset = true → s.attnLine p = false) ∧
    (s.inReset = false → (s.attnLine p = true ↔
      ∃ i < 11, (s.attn.get p).summary.getLsbD i = true ∧ (s.attn.get p).enable.getLsbD i = true))

/-- R127: with the record invalid an ERROR answer is captured and FAULT raised; with it valid the further-count
increases up to 15 and the first ERROR's fields stay. R130, R142: a refused configuration write is captured by the
config status record, or counted up to 255, with table, index, reason and writing port, and raises CONFIG for the
writing port; every applied value stays. -/
def Obligations.RecordsCaptureTheFirstAndCount : Prop :=
  (∀ (a : PortAttn) (k : FaultKind) (t : Transfer) (w : BitVec 5),
     (a.record = none → (a.capture k t w).fault = true ∧
       (a.capture k t w).record = some ⟨k, t.dir, t.level, w, BitVec.ofNat 26 t.address, 0⟩) ∧
     (∀ r, a.record = some r → (a.capture k t w).fault = a.fault ∧
       (a.capture k t w).record = some { r with further := if r.further < 15 then r.further + 1 else 15 }) ∧
     (a.capture k t w).pending = a.pending ∧ (a.capture k t w).shown = a.shown ∧
     (a.capture k t w).config = a.config ∧ (a.capture k t w).engine = a.engine ∧ (a.capture k t w).enable = a.enable) ∧
  ∀ (s : State) (p : Port) (table : Table) (index : Nat) (reason : Reason),
    s.refuseConfig p table index reason = { s with
      attn := s.attn.set p { s.attn.get p with config := true }
      configStatus := some (match s.configStatus with
        | none => ⟨table, index, reason, p, 0⟩
        | some r => { r with further := if r.further < 255 then r.further + 1 else 255 }) }

/-! ## The port interface and the decoder (chapters 5 and 10) -/

/-- R162, R163, R164, R169: an arrival is taken in IDLE alone and not while the port's reset line is asserted; the
withdrawal of an answered request returns the interface to IDLE. Otherwise nothing changes (log 1). -/
def Obligations.ArrivalAndWithdrawal : Prop :=
  ∀ (s : State) (p : Port) (t : Transfer), s.inReset = false → s.JobsPlaced →
    (s.ifaces.get p = .idle → s.portReset.get p = false →
      exec (.transferArrival p t) s = .next { s with ifaces := s.ifaces.set p (.decoding t) }) ∧
    (s.ifaces.get p ≠ .idle ∨ s.portReset.get p = true → exec (.transferArrival p t) s = .next s) ∧
    (∀ a : Answer, s.ifaces.get p = .answering a →
      exec (.requestWithdrawal p) s = .next { s with ifaces := s.ifaces.set p .idle }) ∧
    ((∀ a : Answer, s.ifaces.get p ≠ .answering a) → exec (.requestWithdrawal p) s = .next s)

/-- R91: the class of an upstream address, by the first test it meets. -/
def Obligations.ClassOfAnAddress : Prop :=
  ∀ (s : State) (a : Nat), a < 67108864 →
    (s.cbBase ≤ a ∧ a < s.cbBase + 4096 → s.classify a = .cb) ∧
    (¬(s.cbBase ≤ a ∧ a < s.cbBase + 4096) → ∀ w : Fin 16,
      (s.windows[w].applied.winEnable = true ∧ s.windows[w].applied.apertureBase ≤ a ∧
        a < s.windows[w].applied.apertureBase + s.windows[w].applied.apertureSize) →
      (∀ v : Fin 16, v < w → ¬(s.windows[v].applied.winEnable = true ∧ s.windows[v].applied.apertureBase ≤ a ∧
        a < s.windows[v].applied.apertureBase + s.windows[v].applied.apertureSize)) →
      s.classify a = .window w) ∧
    (¬(s.cbBase ≤ a ∧ a < s.cbBase + 4096) →
      (∀ v : Fin 16, ¬(s.windows[v].applied.winEnable = true ∧ s.windows[v].applied.apertureBase ≤ a ∧
        a < s.windows[v].applied.apertureBase + s.windows[v].applied.apertureSize)) →
      s.classify a = if a < s.installed then .pass else .unmapped)

/-- R92: the decision of a burst from the classes of its words; an address beyond the 64 MiB space is UNMAPPED;
UNMAPPED and mixed bursts are refused with their fault kinds. R95: the right a transfer's operation calls for, then
the level check; a transfer that fails is refused with ACCESS, before any shape rule. R96: PLAIN accepts any shape; a
RING sub-range accepts its direction, all byte enables, bursts that stay in it, and PEEK and STATE one word; BITFIELD
bursts stay in the quarter of their first word; any other shape is refused with SHAPE. R97: the edges of the five
sub-ranges. R98: the edges of the four quarters, each a quarter of the aperture. -/
def Obligations.DecisionRightsAndLevel : Prop :=
  (∀ (s : State) (t : Transfer) (p : Port),
     t.addresses = (List.range t.burst.words).map (fun i => t.address + 4 * i) ∧
     (∀ a, 67108864 ≤ a → s.classify a = .unmapped) ∧
     ((∀ a ∈ t.addresses, s.classify a = .cb) → s.decision t = .cb) ∧
     (∀ w, (∀ a ∈ t.addresses, s.classify a = .window w) → s.decision t = .window w) ∧
     ((∀ a ∈ t.addresses, s.classify a = .pass) → s.decision t = .pass) ∧
     ((∃ a ∈ t.addresses, s.classify a = .unmapped) →
       (∀ a ∈ t.addresses, s.classify a = .pass ∨ s.classify a = .unmapped) →
       s.decision t = .unmapped ∧ s.refusalOf p t = some .unmapped) ∧
     ((∃ a ∈ t.addresses, ∃ b ∈ t.addresses, s.classify a ≠ s.classify b) →
       (∃ a ∈ t.addresses, s.classify a ≠ .pass ∧ s.classify a ≠ .unmapped) →
       s.decision t = .mixed ∧ s.refusalOf p t = some .shape)) ∧
  (∀ (r : Record) (p : Port) (t : Transfer) (fetchClear : Bool),
    r.admits p t fetchClear = true ↔
      (t.dir = .write → r.rights p = 2 ∨ r.rights p = 3) ∧
      (t.dir = .read → fetchClear = true → r.rights p = 3) ∧
      (t.dir = .read → fetchClear = false → r.rights p = 1 ∨ r.rights p = 3) ∧
      t.level.toNat ≤ r.minLevel p) ∧
  (∀ offset : Nat, offset < 0x1000 →
    (subRangeOf offset = .push ↔ offset < 0x400) ∧
    (subRangeOf offset = .pushLast ↔ 0x400 ≤ offset ∧ offset < 0x800) ∧
    (subRangeOf offset = .pop ↔ 0x800 ≤ offset ∧ offset < 0xC00) ∧
    (subRangeOf offset = .peek ↔ 0xC00 ≤ offset ∧ offset < 0xE00) ∧
    (subRangeOf offset = .state ↔ 0xE00 ≤ offset)) ∧
  (∀ (r : Record) (offset : Nat) (q : Quarter), offset < 4096 * 2 ^ r.sizeCode →
    (quarterOf r.apertureSize offset = q ↔
      q.index * (1024 * 2 ^ r.sizeCode) ≤ offset ∧ offset < (q.index + 1) * (1024 * 2 ^ r.sizeCode))) ∧
  (∀ (r : Record) (t : Transfer) (sub : SubRange),
    (r.ringShape t sub = true ↔
      (∀ be ∈ t.wordEnables, be = 0xF) ∧ (∀ a ∈ t.addresses, subRangeOf (a - r.apertureBase) = sub) ∧
      (t.dir = .write ↔ sub = .push ∨ sub = .pushLast) ∧ (sub = .peek ∨ sub = .state → t.burst = .one)) ∧
    (r.inQuarter t = true ↔ ∀ a ∈ t.addresses,
      quarterOf r.apertureSize (a - r.apertureBase) = quarterOf r.apertureSize (t.address - r.apertureBase))) ∧
  ∀ (s : State) (t : Transfer) (p : Port) (w : Fin 16), s.decision t = .window w →
    let r := s.windows[w].applied
    let fetchClear := r.kind == .bitfield && quarterOf r.apertureSize (t.address - r.apertureBase) == .q1
    (r.admits p t fetchClear = false → s.refusalOf p t = some .access) ∧
    (r.admits p t fetchClear = true →
      (r.kind = .plain → s.refusalOf p t = none) ∧
      (r.kind = .ring → s.refusalOf p t =
        if r.ringShape t (subRangeOf (t.address - r.apertureBase)) then none else some .shape) ∧
      (r.kind = .bitfield → s.refusalOf p t = if r.inQuarter t then none else some .shape))

/-- R99: a transfer that the decoder refuses is answered ERROR in the event that decodes it, with the fault kind, and
the fault record receives kind, direction, level, address and the index of the window that decided the first word, or
31; a refused read carries no valid data; no other state changes. The command that takes the transfer is the row of
its first word's class; for a burst of mixed classes that row is the model's choice (log 11). R92, R99: the row
UNMAPPED: a transfer with an unmapped word and no window or control-block word is answered ERROR with UNMAPPED and
window index 31, and no other state changes. (How many zero words the ERROR of a read presents is the model's choice,
log 33.) -/
def Obligations.RefusedTransferIsAnsweredError : Prop :=
  (∀ (s : State) (p : Port) (t : Transfer) (k : FaultKind), s.Decoding p t → s.JobsPlaced →
     s.refusalOf p t = some k →
     exec ((s.decodeRow t).command p) s = .next (s.reported (s.erred p k t
       (match s.classify t.address with
         | .window w => BitVec.ofNat 5 w.val
         | _ => 31)))) ∧
  ∀ (s : State) (p : Port) (t : Transfer), s.Decoding p t → s.JobsPlaced → s.decision t = .unmapped →
    exec (.unmapped p) s = .next (s.reported (s.erred p .unmapped t 31))

/-- R93, R94, R151, R163: an admitted pass-through or PLAIN transfer is handed down its port's path, at its own
address or at the target base plus its offset in the aperture, or waits in HELD while a dropped unit holds the path. -/
def Obligations.PassThroughAndPlainAreHandedDown : Prop :=
  ∀ (s : State) (p : Port) (t : Transfer) (i : Instr) (d : Decode) (address : Nat), s.Decoding p t → s.JobsPlaced →
    ((s.decision t = .pass ∧ i = .passThrough p ∧ d = .pass ∧ address = t.address) ∨
      (∃ w : Fin 16, s.decision t = .window w ∧ s.windows[w].applied.kind = .plain ∧
        s.windows[w].applied.admits p t false = true ∧ i = .plainWindowTransfer p ∧ d = .plain w address ∧
        address = s.windows[w].applied.targetBase + (t.address - s.windows[w].applied.apertureBase))) →
    let u : PathUnit := ⟨if t.dir = .write then .write else .read, address, t.wordEnables,
      if t.dir = .write then t.wordData else [], true⟩
    exec i s = .next (s.handedDown p t d u)

/-- R134, R135: a control-block read is a plain read at its own address; a write at level 0 wholly in the
configuration area is passed to memory on the port's path; any other write is answered ERROR ACCESS with window index
31, and no memory word, staged or applied value changes and no CONFIG notice is raised. -/
def Obligations.ControlBlockTransfersAreJudged : Prop :=
  ∀ (s : State) (p : Port) (t : Transfer), s.Decoding p t → s.JobsPlaced → s.decision t = .cb →
    (t.dir = .read →
      exec (.cbRead p) s = .next (s.handedDown p t .cb ⟨.cbRead, t.address, t.wordEnables, [], true⟩)) ∧
    (t.dir = .write → t.level = 0 → (∀ a ∈ t.addresses, a < s.cbBase + 0x800) →
      exec (.cbWrite p) s = .next (s.handedDown p t .cb ⟨.cbWrite, t.address, t.wordEnables, t.wordData, true⟩)) ∧
    (t.dir = .write → (t.level ≠ 0 ∨ ∃ a ∈ t.addresses, s.cbBase + 0x800 ≤ a) →
      exec (.cbWrite p) s = .next (s.reported (s.erred p .access t 31)))

/-- R98, R107: an admitted BITFIELD transfer inside one quarter becomes one unit on its port's path, at the target
base plus its offset within its quarter, with the operation its quarter and direction choose. -/
def Obligations.BitfieldTransferIsHandedDown : Prop :=
  ∀ (s : State) (p : Port) (t : Transfer) (w : Fin 16) (q : Quarter) (op : BitOp), s.Decoding p t → s.JobsPlaced →
    s.decision t = .window w → s.windows[w].applied.kind = .bitfield →
    q = quarterOf s.windows[w].applied.apertureSize (t.address - s.windows[w].applied.apertureBase) →
    s.windows[w].applied.admits p t (q == .q1) = true → s.windows[w].applied.inQuarter t = true →
    (q, t.dir, op) ∈ [(Quarter.q0, Dir.write, BitOp.plainWrite), (.q1, .write, .set), (.q2, .write, .clear),
      (.q3, .write, .toggle), (.q0, .read, .plainRead), (.q1, .read, .fetchClear), (.q2, .read, .compare),
      (.q3, .read, .plainRead)] →
    let r := s.windows[w].applied
    let address := r.targetBase + (t.address - r.apertureBase - q.index * (r.apertureSize / 4))
    exec (.bitfieldTransfer p) s = .next (s.handedDown p t (.bitfield w q address r.protectedMask r.compareWord)
      ⟨.bitfield op t.level r.protectedMask r.compareWord, address, t.wordEnables,
        if t.dir = .write then t.wordData else [], true⟩)

/-! ## Pushing (chapter 2) -/

/-- R26: a PUSH that fits is added to the words the buffer holds for its context, the buffer is OPEN on it with the
idle count of the global idle limit, the transfer is answered OK, and nothing else changes. R28: an append while the
buffer is OPEN on another context cuts that assembly: REJECTED and the gap flag of the old context, the REJECT notice
there, the words dropped; the append then proceeds for its own context. -/
def Obligations.PushAppendsToTheAssembly : Prop :=
  (∀ (s : State) (p : Port) (t : Transfer) (w : Fin 16) (c : Fin 8) (words : List Word),
     s.ToRing p t w .push → s.JobsPlaced → c = s.windows[w].applied.winCtx →
     ((s.assembly.get p = .empty ∧ words = []) ∨ ∃ idle, s.assembly.get p = .opened c words idle) →
     words.length + t.wordData.length ≤ s.ctxs[c].applied.slotSize - 1 →
     exec (.push p) s = .next { s with
       ifaces := s.ifaces.set p (.answering .okWrite)
       assembly := s.assembly.set p (.opened c (words ++ t.wordData)
         (if idleLimit s.globalWord = 0 then none else some (idleLimit s.globalWord))) }) ∧
  ∀ (s : State) (p : Port) (t : Transfer) (w : Fin 16) (c d : Fin 8) (old : List Word) (idle : Option Nat),
    s.ToRing p t w .push → c = s.windows[w].applied.winCtx → d ≠ c → s.assembly.get p = .opened d old idle →
    t.wordData.length ≤ s.ctxs[c].applied.slotSize - 1 →
    exec (.push p) s = .next (closeEvent s { s with
      ifaces := s.ifaces.set p (.answering .okWrite)
      ctxs := s.ctxs.set d s.ctxs[d].rejectedOne
      attn := rejectNotices s.ctxs[d] d s.attn
      assembly := s.assembly.set p (.opened c t.wordData
        (if idleLimit s.globalWord = 0 then none else some (idleLimit s.globalWord))) })

/-- R27: an append beyond the payload capacity is refused with ERROR OVERRUN, for PUSH and PUSH_LAST alike: REJECTED,
the gap flag and REJECT at the context, the fault recorded, the buffer EMPTY. Where the buffer was OPEN on another
context that assembly is cut first, and the overrun is judged against none of its words. -/
def Obligations.OverrunIsRefused : Prop :=
  ∀ (s : State) (p : Port) (t : Transfer) (w : Fin 16) (c : Fin 8) (words : List Word) (sub : SubRange) (i : Instr),
    s.ToRing p t w sub → c = s.windows[w].applied.winCtx →
    s.ctxs[c].applied.slotSize - 1 < words.length + t.wordData.length →
    (sub = .push ∧ i = .push p ∨ sub = .pushLast ∧ i = .pushLast p) →
    (((s.assembly.get p = .empty ∧ words = []) ∨ ∃ idle, s.assembly.get p = .opened c words idle) →
      exec i s = .next (closeEvent s { s.erred p .overrun t (BitVec.ofNat 5 w.val) with
        ctxs := s.ctxs.set c s.ctxs[c].rejectedOne
        attn := rejectNotices s.ctxs[c] c (s.erred p .overrun t (BitVec.ofNat 5 w.val)).attn
        assembly := s.assembly.set p .empty })) ∧
    (∀ (d : Fin 8) (old : List Word) (idle : Option Nat), d ≠ c → words = [] → s.assembly.get p = .opened d old idle →
      let cut : State := { s with
        ctxs := s.ctxs.set d s.ctxs[d].rejectedOne
        attn := rejectNotices s.ctxs[d] d s.attn }
      exec i s = .next (closeEvent s { cut.erred p .overrun t (BitVec.ofNat 5 w.val) with
        ctxs := cut.ctxs.set c s.ctxs[c].rejectedOne
        attn := rejectNotices s.ctxs[c] c (cut.erred p .overrun t (BitVec.ofNat 5 w.val)).attn
        assembly := s.assembly.set p .empty }))

/-- R11, R16, R31, R33, R34: a PUSH_LAST taken at a context that is not full reserves the tail slot of a FIFO ring or
slot depth of a LIFO stack: the slot is WRITING, the sequence number advances, the gap flag is copied and cleared,
one ENTRY_WRITE with the slot's address, the header and the words joins the list, and the transfer stays in HELD. R5,
section 8.7: the fields of the header built at a reservation: stamp, sequence number, length, port, level, damaged 0,
gap. R32, R43: a PUSH_LAST that finds an earlier commit of the other port in a FIFO context's held list, or an entry of
its own port WRITING at any context, or a LIFO context's operation running, joins the end of the held list with its
words, with a stall count only where the context is full under STALL. R70: a PUSH_LAST at an empty LIFO context on which
the other port's pop is held under WAIT joins behind it and reserves at once, the pop passed over in its place. -/
def Obligations.PushLastReservesASlot : Prop :=
  (∀ (s : State) (p : Port) (t : Transfer) (w : Fin 16) (c : Fin 8) (words : List Word),
     s.ToRing p t w .pushLast → c = s.windows[w].applied.winCtx →
     ((s.assembly.get p = .empty ∧ words = []) ∨ ∃ idle, s.assembly.get p = .opened c words idle) →
     words.length + t.wordData.length ≤ s.ctxs[c].applied.slotSize - 1 →
     s.commitTaken p c → s.ctxs[c].occupied < s.ctxs[c].applied.capacity →
     let x := s.ctxs[c]
     let entry := words ++ t.wordData
     let slot := if x.applied.isLifo then x.depth else x.tail
     exec (.pushLast p) s = .next (closeEvent s { s with
       ifaces := s.ifaces.set p (.held t (.ring w c .pushLast) none)
       assembly := s.assembly.set p (.committing c entry.length t.level [] true)
       jobs := s.jobs ++ [⟨.entryWrite c slot (x.applied.ringBase + 4 * x.applied.slotSize * slot)
         (header entry.length p t.level x.gap x.seq s.tick) entry p, .waiting, none⟩]
       ctxs := s.ctxs.set c { x with
         tail := if x.applied.isLifo then x.tail else (x.tail + 1) % x.applied.capacity
         depth := if x.applied.isLifo then x.depth + 1 else x.depth
         writingRun := x.writingRun ++ [⟨slot, p, s.tick, false⟩]
         seq := x.seq + 1
         gap := false } })) ∧
  (∀ (length : Nat) (p : Port) (level : Level) (gap : Bool) (seq : BitVec 8) (stamp : BitVec 16), length < 8 →
    let h := header length p level gap seq stamp
    h.extractLsb' 0 16 = stamp ∧ h.extractLsb' 16 8 = seq ∧ bits h 24 3 = length ∧
      h.getLsbD 27 = (p == .B) ∧ h.extractLsb' 28 2 = level ∧ h.getLsbD 30 = false ∧ h.getLsbD 31 = gap) ∧
  ∀ (s : State) (p : Port) (t : Transfer) (w : Fin 16) (c : Fin 8) (words : List Word),
    s.ToRing p t w .pushLast → c = s.windows[w].applied.winCtx →
    ((s.assembly.get p = .empty ∧ words = []) ∨ ∃ idle, s.assembly.get p = .opened c words idle) →
    words.length + t.wordData.length ≤ s.ctxs[c].applied.slotSize - 1 → s.ctxs[c].holds p = false →
    let x := s.ctxs[c]
    let entry := words ++ t.wordData
    ((x.applied.isLifo = false ∧ (heldCommits x.held ≠ [] ∨ s.portWriting p = true)) ∨
        (x.applied.isLifo = true ∧ (0 < x.writing ∨ 0 < x.inCopy)) →
      exec (.pushLast p) s = .next (closeEvent s { s with
        ifaces := s.ifaces.set p (.held t (.ring w c .pushLast) none)
        assembly := s.assembly.set p (.committing c entry.length t.level entry false)
        ctxs := s.ctxs.set c { x with held := x.held ++ [.commit ⟨p, entry.length, t.level,
          if x.applied.capacity ≤ x.occupied ∧ x.applied.policyCode = 1 then some x.applied.stallLimit else none,
          false⟩] } })) ∧
    ∀ (h : HeldPop) (n : Nat), x.applied.isLifo = true → x.writing = 0 → x.inCopy = 0 → s.portWriting p = false →
      x.ready = 0 → x.depth < x.applied.capacity → x.applied.emptyCode = 2 → x.held = [.pop h] → h.stall = some n →
      s.latch.get h.port = .waiting c → s.copyInFlight h.port = false →
      exec (.pushLast p) s = .next (closeEvent s { s with
        ifaces := s.ifaces.set p (.held t (.ring w c .pushLast) none)
        assembly := s.assembly.set p (.committing c entry.length t.level [] true)
        jobs := s.jobs ++ [x.writeEntry c ⟨p, entry.length, t.level, none, false⟩ entry s.tick]
        ctxs := s.ctxs.set c (x.reservedFor p s.tick) })

/-- R36, R37, R40, R44: a PUSH_LAST taken at a full context: under REFUSE, and under OVERWRITE with nothing ready, it
is answered ERROR FULL with REJECTED, the gap flag and REJECT, and the buffer is EMPTY; under STALL it joins the held
list with the stall limit as its count and the buffer stays COMMITTING. R14, R39: a PUSH_LAST taken at a full FIFO
context under OVERWRITE with an entry ready discards the head: DISCARDED, gap flag, LOSS. With no earlier slot still
held the slot is released and the commit reserves, its header carrying the gap; behind a slot in copy the commit is
held with discard made and no stall count. (That the discard leaves the stamp field of the invalid cache as it was is
the model's choice, log 10.) -/
def Obligations.PushLastAtAFullContext : Prop :=
  (∀ (s : State) (p : Port) (t : Transfer) (w : Fin 16) (c : Fin 8) (words : List Word),
     s.ToRing p t w .pushLast → c = s.windows[w].applied.winCtx →
     ((s.assembly.get p = .empty ∧ words = []) ∨ ∃ idle, s.assembly.get p = .opened c words idle) →
     words.length + t.wordData.length ≤ s.ctxs[c].applied.slotSize - 1 →
     s.commitTaken p c → s.ctxs[c].applied.capacity ≤ s.ctxs[c].occupied →
     let x := s.ctxs[c]
     let entry := words ++ t.wordData
     (x.applied.policyCode = 0 ∨ (x.applied.policyCode = 2 ∧ x.ready = 0) →
       exec (.pushLast p) s = .next (closeEvent s { s.erred p .full t (BitVec.ofNat 5 w.val) with
         ctxs := s.ctxs.set c x.rejectedOne
         attn := rejectNotices x c (s.erred p .full t (BitVec.ofNat 5 w.val)).attn
         assembly := s.assembly.set p .empty })) ∧
     (x.applied.policyCode = 1 →
       exec (.pushLast p) s = .next (closeEvent s { s with
         ifaces := s.ifaces.set p (.held t (.ring w c .pushLast) none)
         assembly := s.assembly.set p (.committing c entry.length t.level entry false)
         ctxs := s.ctxs.set c { x with
           held := x.held ++ [.commit ⟨p, entry.length, t.level, some x.applied.stallLimit, false⟩] } }))) ∧
  ∀ (s : State) (p : Port) (t : Transfer) (w : Fin 16) (c : Fin 8) (words : List Word),
    s.ToRing p t w .pushLast → c = s.windows[w].applied.winCtx →
    ((s.assembly.get p = .empty ∧ words = []) ∨ ∃ idle, s.assembly.get p = .opened c words idle) →
    words.length + t.wordData.length ≤ s.ctxs[c].applied.slotSize - 1 →
    s.commitTaken p c → s.ctxs[c].occupied = s.ctxs[c].applied.capacity →
    s.ctxs[c].applied.isLifo = false → s.ctxs[c].applied.policyCode = 2 → s.ctxs[c].ready ≠ 0 →
    let x := s.ctxs[c]
    let entry := words ++ t.wordData
    let lost := noticed x c .loss true (noticed x c .wrap (wraps x.discarded 1) s.attn)
    (x.heldRun = [] →
      exec (.pushLast p) s = .next (closeEvent s { s with
        ifaces := s.ifaces.set p (.held t (.ring w c .pushLast) none)
        assembly := s.assembly.set p (.committing c entry.length t.level [] true)
        attn := lost
        jobs := s.jobs ++ [⟨.entryWrite c x.tail (x.applied.ringBase + 4 * x.applied.slotSize * x.tail)
          (header entry.length p t.level true x.seq s.tick) entry p, .waiting, none⟩]
        ctxs := s.ctxs.set c { x with
          ready := x.ready - 1
          head := (x.head + 1) % x.applied.capacity
          release := (x.release + 1) % x.applied.capacity
          discarded := x.discarded + 1
          cache := x.cache.unknown
          tail := (x.tail + 1) % x.applied.capacity
          writingRun := x.writingRun ++ [⟨x.tail, p, s.tick, false⟩]
          seq := x.seq + 1
          gap := false } })) ∧
    (∀ q more, x.heldRun = .copying q :: more →
      exec (.pushLast p) s = .next (closeEvent s { s with
        ifaces := s.ifaces.set p (.held t (.ring w c .pushLast) none)
        assembly := s.assembly.set p (.committing c entry.length t.level entry false)
        attn := lost
        ctxs := s.ctxs.set c { x with
          ready := x.ready - 1
          head := (x.head + 1) % x.applied.capacity
          release := x.release % x.applied.capacity
          heldRun := x.heldRun ++ [.spent]
          discarded := x.discarded + 1
          gap := true
          cache := x.cache.unknown
          held := x.held ++ [.commit ⟨p, entry.length, t.level, none, true⟩] } }))

/-! ## Popping (chapter 3) -/

/-- R13, R16, R58: a POP taken with an entry ready claims the next entry: the READY slot at the head of a FIFO ring
or the top of a LIFO stack goes IN-COPY, one ENTRY_COPY joins the list, the latch is FILLING, the read stays in HELD.
(That the claim leaves the stamp field of the invalid cache as it was is the model's choice, log 10.) R57: where the
latch holds an entry of another context it is cut first, with CUT raised there. R55, R69: a POP that finds an earlier
pop of the other port in a FIFO context's held list with an entry ready, or a copy of its own port in flight, or a LIFO
context's operation running, joins the end of the held list, its latch WAITING, with a stall count only where ready is 0
under WAIT. -/
def Obligations.PopClaimsTheNextEntry : Prop :=
  (∀ (s : State) (p : Port) (t : Transfer) (w : Fin 16) (c : Fin 8) (cut : PerPort PortAttn),
    s.ToRing p t w .pop → c = s.windows[w].applied.winCtx →
    ((s.latch.get p = .empty ∧ cut = s.attn) ∨ ∃ d h payload r, d ≠ c ∧ s.latch.get p = .holding d h payload r ∧
      cut = noticed s.ctxs[d] d .cut true s.attn) →
    s.popTaken p c → s.ctxs[c].ready ≠ 0 →
    let x := s.ctxs[c]
    let slot := if x.applied.isLifo then x.ready - 1 else x.head
    exec (.pop p) s = .next (closeEvent s { s with
      ifaces := s.ifaces.set p (.held t (.ring w c .pop) none)
      latch := s.latch.set p (.filling c slot t.burst false)
      attn := cut
      jobs := s.jobs ++ [⟨.entryCopy c slot (x.applied.ringBase + 4 * x.applied.slotSize * slot)
        (x.applied.slotSize - 1) p, .waiting, none⟩]
      ctxs := s.ctxs.set c { x with
        ready := x.ready - 1
        head := if x.applied.isLifo then x.head else (x.head + 1) % x.applied.capacity
        heldRun := x.heldRun ++ [.copying p]
        cache := x.cache.unknown } })) ∧
  ∀ (s : State) (p : Port) (t : Transfer) (w : Fin 16) (c : Fin 8),
    s.ToRing p t w .pop → c = s.windows[w].applied.winCtx → s.latch.get p = .empty → s.ctxs[c].holds p = false →
    let x := s.ctxs[c]
    ((x.applied.isLifo = false ∧ (s.copyInFlight p = true ∨ (x.ready ≠ 0 ∧ heldPops x.held ≠ []))) ∨
        (x.applied.isLifo = true ∧ (0 < x.writing ∨ 0 < x.inCopy))) →
    exec (.pop p) s = .next (closeEvent s { s with
      ifaces := s.ifaces.set p (.held t (.ring w c .pop) none)
      latch := s.latch.set p (.waiting c)
      ctxs := s.ctxs.set c { x with held := x.held ++ [.pop ⟨p, t.burst,
        if x.ready = 0 ∧ x.applied.emptyCode = 2 then some x.applied.stallLimit else none⟩] } })

/-- R63: under FILL a pop taken with ready = 0 is answered OK with k fill words and its latch becomes EMPTY; no
counter moves and no notice is raised, for an arriving pop and for a held one. -/
def Obligations.EmptyPopUnderFill : Prop :=
  (∀ (s : State) (p : Port) (t : Transfer) (w : Fin 16) (c : Fin 8),
    s.ToRing p t w .pop → s.JobsPlaced → c = s.windows[w].applied.winCtx → s.latch.get p = .empty →
    s.popTaken p c → s.ctxs[c].ready = 0 → s.ctxs[c].applied.emptyCode = 0 →
    exec (.pop p) s = .next { s with
      ifaces := s.ifaces.set p (.answering (.okRead (List.replicate t.burst.words s.ctxs[c].applied.fillWord)))
      latch := s.latch.set p .empty }) ∧
  ∀ (l : Live) (c : Fin 8) (h : HeldPop) (t : Transfer) (d : Decode) (v : Option PathUnit),
    l.ctxs[c].ready = 0 → l.ctxs[c].applied.emptyCode = 0 → l.ifaces.get h.port = .held t d v →
    l.takePop c h = { l with
      ifaces := l.ifaces.set h.port
        (.answering (.okRead (List.replicate h.burst.words l.ctxs[c].applied.fillWord)))
      latch := l.latch.set h.port .empty
      ctxs := l.ctxs.set c { l.ctxs[c] with held := l.ctxs[c].held.filter fun i => i.port != h.port } }

/-- R64: under ERROR a pop taken with ready = 0 is answered ERROR EMPTY, recorded in the port's fault record, and its
latch becomes EMPTY; no counter moves, the gap flag is not set, no context notice is raised. (How many zero words the
ERROR of a read presents is the model's choice, log 33.) -/
def Obligations.EmptyPopUnderError : Prop :=
  (∀ (s : State) (p : Port) (t : Transfer) (w : Fin 16) (c : Fin 8),
    s.ToRing p t w .pop → s.JobsPlaced → c = s.windows[w].applied.winCtx → s.latch.get p = .empty →
    s.popTaken p c → s.ctxs[c].ready = 0 → s.ctxs[c].applied.emptyCode = 1 →
    exec (.pop p) s = .next (s.reported { s.erred p .empty t (BitVec.ofNat 5 w.val) with
      latch := s.latch.set p .empty })) ∧
  ∀ (l : Live) (c : Fin 8) (h : HeldPop) (t : Transfer) (d : Decode) (v : Option PathUnit),
    l.ctxs[c].ready = 0 → l.ctxs[c].applied.emptyCode = 1 → l.ifaces.get h.port = .held t d v →
    l.takePop c h = { l with
      ifaces := l.ifaces.set h.port (.answering (.error .empty t.errorWords))
      attn := l.attn.set h.port ((l.attn.get h.port).capture .empty t d.windowIndex)
      latch := l.latch.set h.port .empty
      ctxs := l.ctxs.set c { l.ctxs[c] with held := l.ctxs[c].held.filter fun i => i.port != h.port } }

/-- R65: under WAIT a pop taken with ready = 0 joins the held list with the stall limit as its count, its latch
WAITING and its read in HELD; a held pop that has a count keeps it and its place. -/
def Obligations.EmptyPopUnderWait : Prop :=
  (∀ (s : State) (p : Port) (t : Transfer) (w : Fin 16) (c : Fin 8),
    s.ToRing p t w .pop → c = s.windows[w].applied.winCtx → s.latch.get p = .empty →
    s.popTaken p c → s.ctxs[c].ready = 0 → s.ctxs[c].applied.emptyCode = 2 →
    exec (.pop p) s = .next (closeEvent s { s with
      ifaces := s.ifaces.set p (.held t (.ring w c .pop) none)
      latch := s.latch.set p (.waiting c)
      ctxs := s.ctxs.set c { s.ctxs[c] with
        held := s.ctxs[c].held ++ [.pop ⟨p, t.burst, some s.ctxs[c].applied.stallLimit⟩] } })) ∧
  ∀ (l : Live) (c : Fin 8) (h : HeldPop) (n : Nat),
    l.ctxs[c].ready = 0 → l.ctxs[c].applied.emptyCode = 2 → l.ctxs[c].held = [.pop h] → h.stall = some n →
    (l.takePop c h).ctxs[c].held = [.pop h] ∧ (l.takePop c h).latch = l.latch.set h.port (.waiting c)

/-- R56: a POP on the context the latch holds is answered OK from it at once: the next min(k, r) words of the entry,
then k − r fill words; the latch keeps r − min(k, r) words and is EMPTY at 0; nothing else changes. R57: a POP on one
context while the latch holds another cuts the latch: its words are dropped and CUT is raised at the latch's context;
no counter moves and no gap flag is set. The read is then decided at its own context, here one that answers it with
fill words. -/
def Obligations.PopFromAHoldingLatch : Prop :=
  (∀ (s : State) (p : Port) (t : Transfer) (w : Fin 16) (c : Fin 8) (h : Word) (payload : List Word) (r : Nat),
     s.ToRing p t w .pop → s.JobsPlaced → s.LatchLaw → c = s.windows[w].applied.winCtx →
     s.latch.get p = .holding c h payload r →
     let k := t.burst.words
     exec (.pop p) s = .next { s with
       ifaces := s.ifaces.set p (.answering (.okRead
         (((h :: payload).drop (payload.length + 1 - r)).take (min k r) ++
           List.replicate (k - r) s.ctxs[c].applied.fillWord)))
       latch := s.latch.set p (if r - min k r = 0 then .empty else .holding c h payload (r - min k r)) }) ∧
  ∀ (s : State) (p : Port) (t : Transfer) (w : Fin 16) (c d : Fin 8) (h : Word) (payload : List Word) (r : Nat),
    s.ToRing p t w .pop → s.JobsPlaced → c = s.windows[w].applied.winCtx → d ≠ c →
    s.latch.get p = .holding d h payload r → s.popTaken p c → s.ctxs[c].ready = 0 →
    s.ctxs[c].applied.emptyCode = 0 →
    exec (.pop p) s = .next (s.reported { s with
      ifaces := s.ifaces.set p (.answering (.okRead (List.replicate t.burst.words s.ctxs[c].applied.fillWord)))
      attn := noticed s.ctxs[d] d .cut true s.attn
      latch := s.latch.set p .empty })

/-- R52, R53: a PEEK with an entry ready passes one read of the next entry's header to the port's path; with nothing
ready it is answered with the fill word and nothing else changes. At the read's completion it is answered with the
header, damaged 0, or ERROR PARITY where a byte fails; no context changes. R73, R151, R163: the PEEK unit of a port that
was reset runs to its completion, its word is discarded whatever its parity, and a transfer that waited in HELD for the
path is handed down in that event. (How many zero words the ERROR of a read
presents is the model's choice, log 33.) -/
def Obligations.PeekReadsTheNextHeader : Prop :=
  (∀ (s : State) (p : Port) (t : Transfer) (w : Fin 16) (c : Fin 8),
    s.ToRing p t w .peek → s.JobsPlaced → c = s.windows[w].applied.winCtx →
    let x := s.ctxs[c]
    (x.ready = 0 →
      exec (.peek p) s = .next { s with ifaces := s.ifaces.set p (.answering (.okRead [x.applied.fillWord])) }) ∧
    (x.ready ≠ 0 →
      exec (.peek p) s = .next (s.handedDown p t (.ring w c .peek) ⟨.peek, x.applied.ringBase + 4 * x.applied.slotSize *
        (if x.applied.isLifo then x.ready - 1 else x.head), [allEnabled], [], true⟩))) ∧
  (∀ (s : State) (p : Port) (t : Transfer) (d : Decode) (a : Nat),
    s.WantedUnit p ⟨.peek, a, [allEnabled], [], true⟩ t d → s.JobsPlaced →
    (s.mem.wordGood a allEnabled = true →
      exec .peekReadCompletion s = .next { s.pathFreed p with
        ifaces := s.ifaces.set p (.answering (.okRead [s.mem.readWord a allEnabled &&& 0xBFFFFFFF])) }) ∧
    (s.mem.wordGood a allEnabled = false →
      exec .peekReadCompletion s = .next (s.reported ((s.pathFreed p).erred p .parity t d.windowIndex)))) ∧
  ∀ (s : State) (p : Port) (u : PathUnit), s.PortUnit p u → s.JobsPlaced → u.wanted = false → u.work = .peek →
    exec .peekReadCompletion s = .next (s.endsUnanswered p s.mem)

/-- R51: a STATE read is answered OK at once with ready, free slots, latch words remaining, watermark state and
assembly words, each in its field (section 8.7); nothing else changes. -/
def Obligations.StateReadAnswersTheQueueWord : Prop :=
  ∀ (s : State) (p : Port) (t : Transfer) (w : Fin 16) (c : Fin 8),
    s.ToRing p t w .state → s.JobsPlaced → c = s.windows[w].applied.winCtx →
    let x := s.ctxs[c]
    ∃ v : Word,
      exec (.state p) s = .next { s with ifaces := s.ifaces.set p (.answering (.okRead [v])) } ∧
      bits v 0 12 = x.ready % 4096 ∧
      bits v 12 12 = (x.applied.capacity -
        (if x.applied.isLifo then x.depth else x.ready + x.writing + x.heldCount)) % 4096 ∧
      (∀ h payload r, s.latch.get p = .holding c h payload r → bits v 24 3 = r % 8) ∧
      ((∀ h payload r, s.latch.get p ≠ .holding c h payload r) → bits v 24 3 = 0) ∧
      bits v 27 2 = (match x.watermark with
        | .calm => 0
        | .arming _ => 1
        | .raised => 2) ∧
      (∀ words idle, s.assembly.get p = .opened c words idle → bits v 29 3 = words.length % 8) ∧
      ((∀ words idle, s.assembly.get p ≠ .opened c words idle) → bits v 29 3 = 0)

/-! ## The memory port (chapter 9) -/

/-- R152: on an idle memory port the grant goes to the requester met first in the cyclic search after the pointer,
which moves to it; with no unit presented, or with a unit in progress, nothing changes. A port's unit and a job go
into progress as they are. R86, R154, R156: the grant of a SIGNAL_UPDATE takes the job off the list and fixes the
value of its bit from the ready count of its context, with the address and bit it was presented with. -/
def Obligations.ArbiterGrantsRoundRobin : Prop :=
  (∀ (s : State), s.inReset = false → s.JobsPlaced →
     (s.busy ≠ none ∨ (∀ r, s.presents r = false) → exec .arbiterGrant s = .next s) ∧
     (∀ r : Requester, s.busy = none → s.presents r = true →
       (∀ q, s.presents q = true → Requester.distance s.pointer r ≤ Requester.distance s.pointer q) →
       (∃ t, exec .arbiterGrant s = .next t ∧ t.pointer = r ∧ t.busy ≠ none ∧ t.mem = s.mem) ∧
       (r = .portA → exec .arbiterGrant s = .next { s with pointer := r, busy := some (.port .A) }) ∧
       (r = .portB → exec .arbiterGrant s = .next { s with pointer := r, busy := some (.port .B) }) ∧
       (∀ e : JobEntry, r = .engine → s.jobPresented = some e → (∀ c, e.job ≠ .signalUpdate c) →
         exec .arbiterGrant s = .next (closeEvent s { s with
           pointer := r
           busy := some .job
           jobs := s.jobs.map fun e => if e.phase == .presented then { e with phase := .inProgress } else e })) ∧
       ((∃ c address bit, r = .engine ∧ s.jobPresented = some ⟨.signalUpdate c, .presented, some (address, bit)⟩) →
         exec .arbiterGrant s = exec .signalUpdateGrant s) ∧
       (r = .mirror → exec .arbiterGrant s = exec .mirrorWrite s))) ∧
  ∀ (s : State) (c : Fin 8) (address bit : Nat), s.inReset = false → s.winner = some .engine →
    s.jobPresented = some ⟨.signalUpdate c, .presented, some (address, bit)⟩ →
    exec .signalUpdateGrant s = .next (closeEvent s { s with
      pointer := .engine
      jobs := s.jobs.eraseP fun e => e.phase == .presented
      busy := some (.signal c address bit (decide (s.ctxs[c].ready ≠ 0))) })

/-- R125, R147: the grant of the mirror writer takes the head item off the list with its value as it stands, and for
a notice word marks every kind pending there shown; at the completion the item's words are in memory at the item's
offset, with full byte enables, and the memory port is idle. R127 to R130, R145, section 8.7: the offset of every item
and what each of its words holds: the pending kinds of a notice word, each kind at its bit; the fields of the fault,
config status and engine fault records, all 0 while invalid; the counts, watermark state, init state, order, counters,
stamp cache and next sequence number of a context; bits that no field names are 0. (The summary word is
SummaryWordDrivesAttn.) -/
def Obligations.MirrorItemsAreWritten : Prop :=
  (∀ (p : Port) (c : Fin 8),
    (Item.summary p).offset = (if p = .A then 0x800 else 0x840) ∧
    (Item.notice p c).offset = (if p = .A then 0x804 else 0x844) + 4 * c.val ∧
    (Item.faultRecord p).offset = (if p = .A then 0x824 else 0x864) ∧
    Item.configStatus.offset = 0x880 ∧ Item.engineFault.offset = 0x888 ∧
    (Item.context c).offset = 0x900 + 0x10 * c.val) ∧
  [Kind.high, .low, .reject, .loss, .cut, .stale, .damaged, .wrap].map Kind.mask = [1, 2, 4, 8, 16, 32, 64, 128] ∧
  (∀ (s : State) (p : Port) (c : Fin 8),
    s.itemWords (.notice p c) = [((s.attn.get p).pending[c]).setWidth 32] ∧
    ((s.attn.get p).record = none → s.itemWords (.faultRecord p) = [0, 0]) ∧
    (∀ r, (s.attn.get p).record = some r → ∃ w : Word,
      s.itemWords (.faultRecord p) = [w, r.address.setWidth 32] ∧
      (r.kind, bits w 0 4) ∈ [(FaultKind.unmapped, 1), (.access, 2), (.shape, 3), (.parity, 4), (.full, 5), (.empty, 6),
        (.overrun, 7), (.expired, 8), (.withdrawn, 9)] ∧
      bits w 4 1 = (if r.dir = .write then 1 else 0) ∧ bits w 5 2 = r.level.toNat ∧ bits w 7 1 = 0 ∧
      bits w 8 5 = r.window.toNat ∧ bits w 13 3 = 0 ∧ bits w 16 4 = r.further % 16 ∧ bits w 20 11 = 0 ∧
      w.getLsbD 31 = true) ∧
    (s.configStatus = none → s.itemWords .configStatus = [0, 0]) ∧
    (∀ r, s.configStatus = some r → ∃ w v : Word, s.itemWords .configStatus = [w, v] ∧
      (r.table, bits w 0 2) ∈ [(Table.window, 0), (.context, 1), (.command, 2), (.global, 3)] ∧ bits w 2 2 = 0 ∧
      bits w 4 4 = r.index % 16 ∧
      (r.reason, bits w 8 3) ∈ [(Reason.range, 1), (.align, 2), (.memory, 3), (.control, 4), (.overlap, 5),
        (.binding, 6), (.bound, 7)] ∧
      bits w 11 1 = 0 ∧ bits w 12 1 = (if r.port = .A then 0 else 1) ∧ bits w 13 18 = 0 ∧ w.getLsbD 31 = true ∧
      v.toNat = r.further % 256) ∧
    (s.engineFault = none → s.itemWords .engineFault = [0, 0]) ∧
    (∀ r, s.engineFault = some r → ∃ w v : Word, s.itemWords .engineFault = [w, v] ∧
      bits w 0 1 = (if r.cause = .stamp then 0 else 1) ∧ bits w 1 3 = 0 ∧ bits w 4 3 = r.context.val ∧
      bits w 7 1 = 0 ∧ bits w 8 4 = r.further % 16 ∧ bits w 12 19 = 0 ∧ w.getLsbD 31 = true ∧
      v.toNat = r.address % 0x1000000) ∧
    let x := s.ctxs[c]
    ∃ w v : Word, s.itemWords (.context c) = [w, x.delivered ++ x.published, x.rejected ++ x.discarded, v] ∧
      bits w 0 12 = x.ready % 4096 ∧ bits w 12 12 = x.heldCount % 4096 ∧ bits w 24 2 = x.writing % 4 ∧
      bits w 26 2 = x.inCopy % 4 ∧
      bits w 28 2 = (match x.watermark with
        | .calm => 0
        | .arming _ => 1
        | .raised => 2) ∧
      w.getLsbD 30 = x.initialised ∧ w.getLsbD 31 = x.applied.isLifo ∧
      bits v 0 16 = x.cache.stamp.toNat ∧ bits v 16 8 = x.seq.toNat ∧ v.getLsbD 24 = x.cache.valid ∧
      v.getLsbD 25 = x.cache.staleRaised ∧ bits v 26 6 = 0) ∧
  (∀ (s : State) (item : Item) (rest : List Item), s.inReset = false → s.JobsPlaced → s.winner = some .mirror →
    s.mirror = item :: rest →
    (∃ t, exec .mirrorWrite s = .next t ∧ t.pointer = .mirror ∧ t.mirror = rest ∧
      t.busy = some (.mirror item (s.itemWords item)) ∧ t.ctxs = s.ctxs ∧ t.jobs = s.jobs ∧ t.mem = s.mem ∧
      t.ifaces = s.ifaces ∧ (∀ p, (t.attn.get p).pending = (s.attn.get p).pending) ∧
      (∀ p c, item = .notice p c → (t.attn.get p).shown[c] = (s.attn.get p).pending[c])) ∧
    ((∀ p c, item ≠ .notice p c) → exec .mirrorWrite s = .next { s with
      pointer := .mirror
      mirror := rest
      busy := some (.mirror item (s.itemWords item)) })) ∧
  ∀ (s : State) (item : Item) (words : List Word), s.inReset = false → s.JobsPlaced →
    s.busy = some (.mirror item words) →
    exec .mirrorUnitCompletion s = .next { s with
      mem := s.mem.applyWrites (burstWrites (s.cbBase + item.offset) (words.map fun _ => allEnabled) words)
      busy := none }

/-- R86, R157: the job presented is eligible: every older waiting job was presented before it, or is a port-owned job
of the other port where it is port-owned itself; the job of the port the command prefers is taken where one is
eligible (log 22). A SIGNAL_UPDATE found disabled leaves the list. -/
def Obligations.JobPresentationTakesAnEligibleJob : Prop :=
  (∀ (s : State) (prefer : Port), s.inReset = false → s.JobsPlaced → s.jobPresented = none →
    (∃ e ∈ s.jobs, e.phase = .waiting) →
    (∀ e ∈ s.jobs, ∀ c, e.job = .signalUpdate c → s.ctxs[c].applied.signalEnable = true) →
    ∃ (before after : List JobEntry) (e : JobEntry) (target : Option (Nat × Nat)),
      s.jobs = before ++ e :: after ∧ e.phase = .waiting ∧
      exec (.jobPresentation prefer) s =
        .next { s with jobs := before ++ ⟨e.job, .presented, target⟩ :: after } ∧
      (e.job.owner = none → ∀ o ∈ before, o.phase ≠ .waiting) ∧
      (∀ p, e.job.owner = some p → ∀ o ∈ before, o.phase = .waiting → o.job.owner = some p.other) ∧
      (∀ c, e.job = .signalUpdate c →
        target = some (s.ctxs[c].applied.signalAddress, s.ctxs[c].applied.signalBit)) ∧
      (e.job.owner ≠ some prefer → ∀ pre o post, s.jobs = pre ++ o :: post → o.phase = .waiting →
        o.job.owner = some prefer → ∃ b ∈ pre, b.phase = .waiting ∧ b.job.owner ≠ some prefer.other)) ∧
  ∀ (s : State) (prefer : Port) (c : Fin 8) (v : Option (Nat × Nat)), s.inReset = false →
    s.jobs = [⟨.signalUpdate c, .waiting, v⟩] → s.ctxs[c].applied.signalEnable = false →
    exec (.jobPresentation prefer) s = .next (closeEvent s { s with jobs := [] })

/-- R158: memory reads: an enabled lane of a word reads the byte there, a lane that is off reads 00h and is not
checked; memory writes: each enabled byte of a burst of up to eight words is stored with odd parity, every other byte
and its parity are as before. That lane i of the word at byte address a is the byte at a + i is the model's choice
(log 6). -/
def Obligations.MemoryKeepsBytesAndParity : Prop :=
  (∀ (m : Memory) (a : Nat) (be : Enables) (i : Fin 4),
    byteLane (m.readWord a be) i.val = (if be.getLsbD i.val then m.readByte (a + i.val) else 0) ∧
    (m.wordGood a be = true ↔ ∀ j : Fin 4, be.getLsbD j.val = true → m.byteGood (a + j.val) = true)) ∧
  (∀ (m : Memory) (a : Nat), m.byteGood a = true ↔
    ((List.range 8).countP (fun j => (m.readByte a).getLsbD j) + (if m.parityBit a then 1 else 0)) % 2 = 1) ∧
  ∀ (m : Memory) (a : Nat) (bes : List Enables) (ws : List Word), bes.length ≤ 8 →
    (∀ x, ¬storesTo (burstWrites a bes ws) x →
      (m.applyWrites (burstWrites a bes ws)).readByte x = m.readByte x ∧
      (m.applyWrites (burstWrites a bes ws)).parityBit x = m.parityBit x) ∧
    ∀ (n : Nat) (be : Enables) (w : Word) (i : Fin 4), bes[n]? = some be → ws[n]? = some w →
      be.getLsbD i.val = true →
      (m.applyWrites (burstWrites a bes ws)).readByte (a + 4 * n + i.val) = byteLane w i.val ∧
      (m.applyWrites (burstWrites a bes ws)).byteGood (a + 4 * n + i.val) = true

/-- R93, R134, R159: a pass-through, PLAIN or control-block read is answered at its completion with the words read, or
ERROR PARITY where an enabled byte fails; memory is unchanged and its path is free. R126: under READCLEAR a
control-block read that covers no notice word of its own port clears nothing, and one whose bytes fail clears nothing
at any word. (One that covers such a word clears as NoticeReadsClearUnderReadclear says.) R151, R163: the unit of a
port that was reset runs to its completion, its answer is discarded, nothing is cleared, and a transfer that waited in
HELD for the path is handed down in that event. (How many zero words the ERROR of a read presents is the model's
choice, log 33.) -/
def Obligations.PortReadCompletes : Prop :=
  (∀ (s : State) (p : Port) (u : PathUnit) (t : Transfer) (d : Decode), s.WantedUnit p u t d → s.JobsPlaced →
    (u.work = .read ∨ (u.work = .cbRead ∧ (readClear s.globalWord = false ∨
        (s.cbBase ≤ u.address ∧ u.address % 4 = 0 ∧ ∀ m < u.enables.length, ∀ c : Fin 8,
          u.address + 4 * m ≠ s.cbBase + (Item.notice p c).offset))) →
      s.mem.burstGood u.address u.enables = true →
      exec .portReadCompletion s = .next { s.pathFreed p with
        ifaces := s.ifaces.set p (.answering (.okRead (s.mem.readBurst u.address u.enables))) }) ∧
    (u.work = .read ∨ u.work = .cbRead → s.mem.burstGood u.address u.enables = false →
      exec .portReadCompletion s = .next (s.reported ((s.pathFreed p).erred p .parity t d.windowIndex)))) ∧
  ∀ (s : State) (p : Port) (u : PathUnit), s.PortUnit p u → s.JobsPlaced → u.wanted = false →
    (u.work = .read ∨ u.work = .cbRead) →
    ((∀ t d v, s.ifaces.get p ≠ .held t d (some v)) → exec .portReadCompletion s = .next (s.pathFreed p)) ∧
    (∀ t d v, s.ifaces.get p = .held t d (some v) →
      exec .portReadCompletion s = .next { s with
        busy := none
        paths := s.paths.set p (some v)
        ifaces := s.ifaces.set p (.held t d none) })

/-- R93, R94, R171, R172: a pass-through or PLAIN write is answered OK when its words are in memory; no queue, notice
or job changes, and every byte it does not store to is as before. R151, R163: the unit of a port that was reset runs
to its completion with its effects on memory, its answer is discarded, and a transfer that waited in HELD for the
path is handed down in that event. -/
def Obligations.PortWriteCompletes : Prop :=
  (∀ (s : State) (p : Port) (u : PathUnit) (t : Transfer) (d : Decode), s.WantedUnit p u t d → s.JobsPlaced →
     u.work = .write →
     exec .portWriteCompletion s = .next (s.writeAnswered p u) ∧
     ∀ a, ¬storesTo (burstWrites u.address u.enables u.data) a →
       (s.writeAnswered p u).mem.readByte a = s.mem.readByte a ∧
       (s.writeAnswered p u).mem.parityBit a = s.mem.parityBit a) ∧
  ∀ (s : State) (p : Port) (u : PathUnit), s.PortUnit p u → s.JobsPlaced → u.wanted = false → u.work = .write →
    let m := s.mem.applyWrites (burstWrites u.address u.enables u.data)
    ((∀ t d v, s.ifaces.get p ≠ .held t d (some v)) →
      exec .portWriteCompletion s = .next { s.pathFreed p with mem := m }) ∧
    (∀ t d v, s.ifaces.get p = .held t d (some v) →
      exec .portWriteCompletion s = .next { s with
        mem := m
        busy := none
        paths := s.paths.set p (some v)
        ifaces := s.ifaces.set p (.held t d none) })

/-- R126: under READCLEAR the completion of a port's control-block read whose bytes pass clears, at each of its own
notice words in the burst, the kinds whose bits the data carries and that are pending and shown; a context whose
notice word the burst does not cover keeps its kinds, and so does the other port. It is one event, whichever of the
rows PORT_READ_COMPLETION and NOTICE_WORD_READ_CLEAR names it; where a byte fails, and for a unit of a port that was
reset, no clear takes place and the second row names no event (log 1, log 2; their completion is PortReadCompletes). -/
def Obligations.NoticeReadsClearUnderReadclear : Prop :=
  (∀ (s : State) (p : Port) (u : PathUnit), s.PortUnit p u →
    s.mem.burstGood u.address u.enables = false ∨ u.wanted = false → exec .noticeWordReadClear s = .next s) ∧
  ∀ (s : State) (p : Port) (u : PathUnit) (t : Transfer) (d : Decode), s.WantedUnit p u t d →
    u.work = .cbRead → readClear s.globalWord = true → s.cbBase ≤ u.address → u.address % 4 = 0 →
    s.mem.burstGood u.address u.enables = true → ∀ (n : Nat) (c : Fin 8), n < u.enables.length →
    u.address + 4 * n = s.cbBase + (Item.notice p c).offset →
    ∃ t' : State, exec .noticeWordReadClear s = .next t' ∧ exec .portReadCompletion s = .next t' ∧
      t'.ifaces = s.ifaces.set p (.answering (.okRead (s.mem.readBurst u.address u.enables))) ∧
      t'.mem = s.mem ∧ (∀ e : Fin 8, t'.ctxs[e].core = s.ctxs[e].core) ∧
      t'.attn.get p.other = s.attn.get p.other ∧
      (t'.attn.get p).config = (s.attn.get p).config ∧ (t'.attn.get p).fault = (s.attn.get p).fault ∧
      (t'.attn.get p).engine = (s.attn.get p).engine ∧ (t'.attn.get p).enable = (s.attn.get p).enable ∧
      (t'.attn.get p).record = (s.attn.get p).record ∧
      ∀ e : Fin 8,
        (∀ m < u.enables.length, u.address + 4 * m = s.cbBase + (Item.notice p e).offset →
          (t'.attn.get p).pending[e] = (s.attn.get p).pending[e] &&&
            ~~~(((s.mem.readBurst u.address u.enables).getD m 0).setWidth 8 &&& (s.attn.get p).shown[e])) ∧
        ((∀ m < u.enables.length, u.address + 4 * m ≠ s.cbBase + (Item.notice p e).offset) →
          (t'.attn.get p).pending[e] = (s.attn.get p).pending[e])

/-! ## Completions of the queue engine (chapters 1 to 4) -/

/-- R12, R16, R34, R35: at the completion of an ENTRY_WRITE its words are in memory. The first WRITING slot of its
context is published: READY, PUBLISHED one more (WRAP where it wraps), the next entry's stamp known where the entry is
the next one, the waiting producer answered OK and its buffer EMPTY. R12: an ENTRY_WRITE whose slot was reserved
behind one that is still unwritten stays WRITING, its write complete, and answers nobody; when the earlier one
completes, both are published in reservation order in that event, and the producers that wait for them are answered
OK, their buffers EMPTY (R35; a producer whose port was reset no longer waits). R12, R43, R66, R70: an entry published
at a context on which a pop is held is claimed by it in that event. R41, R42: the publication of a port's entry has
the commit of that port which is held at another FIFO context reserve there. R21: a LIFO context's pending FLUSH is
performed when the publication ends its operation, the published entry included (the stamp field of the cache is log
10). -/
def Obligations.EntryWriteCompletionPublishes : Prop :=
  (∀ (s : State) (c : Fin 8) (address : Nat) (h : Word) (payload : List Word) (p : Port) (rest : List JobEntry)
     (v : WritingSlot) (later : List WritingSlot) (t : Transfer) (d : Decode) (n : Nat) (level : Level)
     (words : List Word),
     s.JobUnit (.entryWrite c v.slot address h payload p) rest → v.port = p →
     s.ctxs[c].writingRun = v :: later → (∀ o ∈ later, o.complete = false ∧ (o.slot ≠ v.slot ∨ o.port ≠ p)) →
     s.ctxs[c].held = [] → s.ctxs[c].pendingFlush = false → s.findHeld p = none →
     s.assembly.get p = .committing c n level words true → s.ifaces.get p = .held t d none →
     let x := s.ctxs[c]
     exec .entryWriteCompletion s = .next (closeEvent s { s with
       mem := s.mem.applyWrites (burstWrites address ((h :: payload).map fun _ => allEnabled) (h :: payload))
       busy := none
       jobs := rest
       ifaces := s.ifaces.set p (.answering .okWrite)
       assembly := s.assembly.set p .empty
       attn := noticed x c .wrap (wraps x.published 1) s.attn
       ctxs := s.ctxs.set c { x with
         writingRun := later
         ready := x.ready + 1
         published := x.published + 1
         cache := if x.applied.isLifo = true ∨ x.ready = 0 then .known v.stamp else x.cache } })) ∧
  (∀ (s : State) (c : Fin 8) (address : Nat) (h : Word) (payload : List Word) (rest : List JobEntry)
    (v w : WritingSlot),
    s.JobUnit (.entryWrite c w.slot address h payload w.port) rest → s.ctxs[c].writingRun = [v, w] →
    v.complete = false → v.port ≠ w.port →
    exec .entryWriteCompletion s = .next (closeEvent s { s with
      mem := s.mem.applyWrites (burstWrites address ((h :: payload).map fun _ => allEnabled) (h :: payload))
      busy := none
      jobs := rest
      ctxs := s.ctxs.set c { s.ctxs[c] with writingRun := [v, { w with complete := true }] } })) ∧
  (∀ (s : State) (c : Fin 8) (address : Nat) (h : Word) (payload : List Word) (rest : List JobEntry)
    (v w : WritingSlot),
    s.JobUnit (.entryWrite c v.slot address h payload v.port) rest → s.ctxs[c].writingRun = [v, w] →
    w.complete = true → v.port ≠ w.port → s.ctxs[c].applied.isLifo = false → s.ctxs[c].held = [] →
    s.findHeld v.port = none → s.findHeld w.port = none →
    (∀ q : Port, s.assembly.get q = .empty ∨ ((∃ n level words, s.assembly.get q = .committing c n level words true) ∧
      ∃ t d, s.ifaces.get q = .held t d none)) →
    let x := s.ctxs[c]
    exec .entryWriteCompletion s = .next (closeEvent s { s with
      mem := s.mem.applyWrites (burstWrites address ((h :: payload).map fun _ => allEnabled) (h :: payload))
      busy := none
      jobs := rest
      ifaces := .each fun q => if s.assembly.get q = .empty then s.ifaces.get q else .answering .okWrite
      assembly := ⟨.empty, .empty⟩
      attn := noticed x c .wrap (wraps (x.published + 1) 1) (noticed x c .wrap (wraps x.published 1) s.attn)
      ctxs := s.ctxs.set c { x with
        writingRun := []
        ready := x.ready + 2
        published := x.published + 1 + 1
        cache := if x.ready = 0 then .known v.stamp else x.cache } })) ∧
  ∀ (s : State) (c : Fin 8) (address : Nat) (h : Word) (payload : List Word) (p : Port) (rest : List JobEntry)
    (v : WritingSlot),
    s.JobUnit (.entryWrite c v.slot address h payload p) rest → v.port = p → s.ctxs[c].writingRun = [v] →
    let x := s.ctxs[c]
    let written : State := { s with
      mem := s.mem.applyWrites (burstWrites address ((h :: payload).map fun _ => allEnabled) (h :: payload))
      busy := none
      jobs := rest
      attn := noticed x c .wrap (wraps x.published 1) s.attn }
    let y : Ctx := { x with
      writingRun := []
      ready := x.ready + 1
      published := x.published + 1
      cache := if x.applied.isLifo = true ∨ x.ready = 0 then .known v.stamp else x.cache }
    (∀ (k : HeldPop) (t : Transfer) (d : Decode) (n : Nat) (level : Level) (words : List Word),
      (x.applied.isLifo = true → x.pendingFlush = false ∧ x.inCopy = 0) → x.held = [.pop k] → s.findHeld p = none →
      (∀ e ∈ rest, e.job.isCopyOf k.port = false) → s.assembly.get p = .committing c n level words true →
      s.ifaces.get p = .held t d none →
      exec .entryWriteCompletion s = .next (closeEvent s { written with
        ifaces := s.ifaces.set p (.answering .okWrite)
        assembly := s.assembly.set p .empty
        latch := s.latch.set k.port (.filling c (if x.applied.isLifo then x.ready else x.head) k.burst false)
        jobs := rest ++ [y.copyEntry c k.port]
        ctxs := s.ctxs.set c { y.claimedFor k.port with held := [] } })) ∧
    (∀ (e : Fin 8) (k : HeldCommit) (words : List Word), e ≠ c → x.held = [] → x.pendingFlush = false →
      s.findHeld p = some e → s.ctxs[e].held = [.commit k] → k.port = p →
      s.assembly.get p = .committing e k.length k.level words false →
      (∀ d : Fin 8, d ≠ c → ∀ o ∈ s.ctxs[d].writingRun, o.port ≠ p) → s.ctxs[e].applied.isLifo = false →
      s.ctxs[e].occupied < s.ctxs[e].applied.capacity →
      exec .entryWriteCompletion s = .next (closeEvent s { written with
        assembly := s.assembly.set p (.committing e k.length k.level [] true)
        jobs := rest ++ [s.ctxs[e].writeEntry e k words s.tick]
        ctxs := (s.ctxs.set c y).set e { s.ctxs[e].reservedFor p s.tick with held := [] } })) ∧
    ∀ (t : Transfer) (d : Decode) (n : Nat) (level : Level) (words : List Word), x.applied.isLifo = true →
      x.held = [] → x.pendingFlush = true → s.findHeld p = none → s.assembly.get p = .committing c n level words true →
      s.ifaces.get p = .held t d none →
      exec .entryWriteCompletion s = .next (closeEvent s { written with
        ifaces := s.ifaces.set p (.answering .okWrite)
        assembly := s.assembly.set p .empty
        attn := lossNotices x c (x.ready + 1) written.attn
        ctxs := s.ctxs.set c { y with
          ready := 0
          depth := x.depth - (x.ready + 1)
          discarded := x.discarded + BitVec.ofNat 16 (x.ready + 1)
          gap := true
          cache := y.cache.unknown
          pendingFlush := false } })

/-- R59: an ENTRY_COPY reads the header; where it passes, as many payload words as its length field gives, limited to
P, checking every byte; where it fails, nothing more. R15, R16, R60, R61: an ENTRY_COPY whose header passes: DELIVERED
one more, the slot spent and released in claim order (FIFO; behind an earlier claim nothing is released) or free at
once (LIFO), the read answered OK with the first k words and then fill words, the rest kept HOLDING; a failing payload
byte sets damaged in the header and raises DAMAGED. R14, R62: an ENTRY_COPY whose header fails is not delivered:
DISCARDED one more, gap flag, LOSS and DAMAGED, the slot spent alike, the read answered ERROR PARITY, the latch EMPTY.
R72: for a withdrawn latch a passing header is answered ERROR WITHDRAWN with CUT, a failing one as before. R73: a copy
dropped by a port reset only clears the dropped-copy flag beside its outcome at the context. R15, R38, R41, R43, R44:
however the copy ends, where it frees space of the context for the other port's held commit, that commit reserves in
that event. R66, R68, R70: where the port's own new pop, the one item held of it (section 2.6), waits for a dropped
copy, it claims in that event (the stamp field of the cache is log 10). (How many zero words the ERROR of a read
presents is the model's choice, log 33.) -/
def Obligations.EntryCopyCompletes : Prop :=
  (∀ (m : Memory) (a payloadMax : Nat),
     (m.wordGood a allEnabled = false → m.readEntry a payloadMax = .headerFailed) ∧
     (m.wordGood a allEnabled = true → ∃ payload good,
       m.readEntry a payloadMax = .passed (m.readWord a allEnabled) payload good ∧
       payload = (List.range (min (bits (m.readWord a allEnabled) 24 3) payloadMax)).map
         (fun i => m.readWord (a + 4 + 4 * i) allEnabled) ∧
       (good = true ↔ ∀ i < min (bits (m.readWord a allEnabled) 24 3) payloadMax,
         m.wordGood (a + 4 + 4 * i) allEnabled = true))) ∧
  ∀ (s : State) (c : Fin 8) (slot address payloadMax : Nat) (p : Port) (rest : List JobEntry) (y : Ctx),
    s.JobUnit (.entryCopy c slot address payloadMax p) rest → s.ctxs[c].copySpent p y →
    let x := s.ctxs[c]
    let r := s.mem.readEntry address payloadMax
    let z := r.counted y
    let done : State := { s with
      busy := none
      jobs := rest
      attn := r.notices x c s.attn
      ctxs := s.ctxs.set c z }
    (∀ port : State, s.CopyEndsAtPort c slot p r done port → s.findHeld p = none →
      (x.held = [] → x.pendingFlush = false → exec .entryCopyCompletion s = .next (closeEvent s port)) ∧
      ∀ (k : HeldCommit) (words : List Word),
        (x.applied.isLifo = true → x.pendingFlush = false ∧ x.writing = 0 ∧ y.inCopy = 0) → x.held = [.commit k] →
        s.assembly.get k.port = .committing c k.length k.level words false → s.portWriting k.port = false →
        y.occupied < x.occupied → x.occupied ≤ x.applied.capacity →
        exec .entryCopyCompletion s = .next (closeEvent s { port with
          assembly := s.assembly.set k.port (.committing c k.length k.level [] true)
          jobs := rest ++ [z.writeEntry c k words s.tick]
          ctxs := s.ctxs.set c { z.reservedFor k.port s.tick with held := [] } })) ∧
    ((x.applied.isLifo = true → x.pendingFlush = false ∧ x.writing = 0 ∧ y.inCopy = 0) → s.dropped.get p = true →
      s.findHeld p = some c → (∀ d : Fin 8, d ≠ c → s.ctxs[d].holds p = false) → ∀ (k : HeldPop), x.held = [.pop k] →
      k.port = p → (∀ e ∈ rest, e.job.isCopyOf p = false) → x.ready ≠ 0 →
      exec .entryCopyCompletion s = .next (closeEvent s { done with
        dropped := s.dropped.set p false
        latch := s.latch.set p (.filling c (if x.applied.isLifo then x.ready - 1 else x.head) k.burst false)
        jobs := rest ++ [z.copyEntry c p]
        ctxs := s.ctxs.set c { z.claimedFor p with held := [] } }))

/-- R81, R129: a STAMP_FETCH that is current makes the cache valid with the stamp field of the word read, or, where a
byte fails, sets fetch failed and reports an engine fault of cause STAMP, captured or counted up to 15; one that was
overtaken is dropped. -/
def Obligations.StampFetchCompletes : Prop :=
  ∀ (s : State) (c : Fin 8) (slot address : Nat) (rest : List JobEntry),
    s.JobUnit (.stampFetch c slot address) rest →
    let x := s.ctxs[c]
    (x.cache.fetchCurrent = true → s.mem.wordGood address allEnabled = true →
      exec .stampFetchCompletion s = .next (closeEvent s { s with
        busy := none
        jobs := rest
        ctxs := s.ctxs.set c { x with cache := { x.cache with
          stamp := (s.mem.readWord address allEnabled).extractLsb' 0 16
          valid := true
          fetchCurrent := false } } })) ∧
    (x.cache.fetchCurrent = true → s.mem.wordGood address allEnabled = false →
      exec .stampFetchCompletion s = .next (closeEvent s { s with
        busy := none
        jobs := rest
        engineFault := some (match s.engineFault with
          | none => ⟨.stamp, c, address, 0⟩
          | some r => { r with further := if r.further < 15 then r.further + 1 else 15 })
        attn := raiseEngine s.attn (bits s.globalWord 28 2)
        ctxs := s.ctxs.set c { x with cache := { x.cache with fetchFailed := true, fetchCurrent := false } } })) ∧
    (x.cache.fetchCurrent = false →
      exec .stampFetchCompletion s = .next (closeEvent s { s with busy := none, jobs := rest }))

/-- R86, R87, R129: a SIGNAL_UPDATE writes the word back with its one bit set as the grant fixed it and the other 31
bits as read; where a byte fails nothing is written and an engine fault of cause SIGNAL is captured, or counted up to
15. -/
def Obligations.SignalUpdateCompletes : Prop :=
  ∀ (s : State) (c : Fin 8) (address bit : Nat) (v : Bool), s.inReset = false → s.JobsPlaced →
    s.busy = some (.signal c address bit v) → bit < 32 →
    (s.mem.wordGood address allEnabled = true →
      ∃ word : Word,
        exec .signalUpdateCompletion s = .next { s with
          mem := s.mem.writeWord address allEnabled word
          busy := none } ∧
        word.getLsbD bit = v ∧
        ∀ i, i ≠ bit → word.getLsbD i = (s.mem.readWord address allEnabled).getLsbD i) ∧
    (s.mem.wordGood address allEnabled = false →
      exec .signalUpdateCompletion s = .next (s.reported { s with
        busy := none
        engineFault := some (match s.engineFault with
          | none => ⟨.signal, c, address, 0⟩
          | some r => { r with further := if r.further < 15 then r.further + 1 else 15 })
        attn := raiseEngine s.attn (bits s.globalWord 28 2) }))

/-! ## BITFIELD units (chapter 6) -/

/-- R108, R109: the open bits of a word lie in its enabled bytes and, at levels 1 to 3, are clear in the protected
mask. R110, R111, R113: what each open bit becomes; every other bit of the word is written back as read. R109: "A
write through a BITFIELD window at a level of 1 to 3 leaves every protected bit of its target word unchanged": for
every unit of up to eight words, whatever its operation and byte enables, and every whole word it covers. -/
def Obligations.BitfieldOperationsActOnOpenBits : Prop :=
  (∀ (be : Enables) (level : Level) (mask old data : Word) (i : Nat), i < 32 →
     let opened := openBits be level mask
     opened.getLsbD i = (be.getLsbD (i / 8) && (level == 0 || !mask.getLsbD i)) ∧
     (BitOp.plainWrite.newWord opened old data).getLsbD i =
       (if opened.getLsbD i then data.getLsbD i else old.getLsbD i) ∧
     (BitOp.set.newWord opened old data).getLsbD i =
       (if opened.getLsbD i && data.getLsbD i then true else old.getLsbD i) ∧
     (BitOp.clear.newWord opened old data).getLsbD i =
       (if opened.getLsbD i && data.getLsbD i then false else old.getLsbD i) ∧
     (BitOp.toggle.newWord opened old data).getLsbD i =
       (if opened.getLsbD i && data.getLsbD i then !old.getLsbD i else old.getLsbD i) ∧
     (BitOp.fetchClear.newWord opened old data).getLsbD i = (if opened.getLsbD i then false else old.getLsbD i)) ∧
  ∀ (m : Memory) (u : PathUnit) (op : BitOp) (level : Level) (mask compare : Word),
    u.work = .bitfield op level mask compare → level ≠ 0 → u.enables.length ≤ 8 →
    ∀ n < u.enables.length,
      (m.applyWrites (u.writes m)).readWord (u.address + 4 * n) allEnabled &&& mask =
        m.readWord (u.address + 4 * n) allEnabled &&& mask

/-- R110, R111, R115, R116: a BITFIELD write completes: each word of the burst is built from the word read, and is
answered OK when its enabled bytes are in memory; where a byte of the read half fails no word is written and the
answer is ERROR PARITY. A Q0 write at level 0 reads nothing and cannot fail. R118, R151, R163: the unit of a port that
was reset performs its whole write half or is aborted whole alike, its answer is discarded and no fault recorded, and a
transfer that waited in HELD for the path is handed down in that event. -/
def Obligations.BitfieldWritesComplete : Prop :=
  ∀ (s : State) (p : Port) (u : PathUnit) (op : BitOp) (level : Level)
    (mask compare : Word) (i : Instr), s.PortUnit p u → s.JobsPlaced →
    u.work = .bitfield op level mask compare → u.data.length = u.enables.length →
    (op, i) ∈ [(BitOp.plainWrite, Instr.bitfieldPlainWrite), (.set, .set), (.clear, .clear), (.toggle, .toggle)] →
    let reads := ¬(op = .plainWrite ∧ level = 0)
    let old := s.mem.readBurst u.address u.enables
    let words := (List.range u.enables.length).map fun n =>
      op.newWord (openBits (u.enables.getD n 0) level mask) (if reads then old.getD n 0 else 0) (u.data.getD n 0)
    let written := s.mem.applyWrites (burstWrites u.address u.enables words)
    (¬reads ∨ s.mem.burstGood u.address u.enables = true →
      (∀ t d, s.WantedUnit p u t d → exec i s = .next { s.pathFreed p with
        mem := written
        ifaces := s.ifaces.set p (.answering .okWrite) }) ∧
      (u.wanted = false → exec i s = .next (s.endsUnanswered p written))) ∧
    (reads → s.mem.burstGood u.address u.enables = false →
      (∀ t d, s.WantedUnit p u t d →
        exec i s = .next (s.reported ((s.pathFreed p).erred p .parity t d.windowIndex))) ∧
      (u.wanted = false → exec i s = .next (s.endsUnanswered p s.mem)))

/-- R108, R112, R113, R114, R116: a BITFIELD read completes: the plain read answers the words as read, the compare
read a 1 where a bit of an enabled byte equals the compare word, the fetch-and-clear the words as read while memory
has their open bits cleared; bytes that are off are 00h; where a byte fails the answer is ERROR PARITY and nothing is
written. R118, R151, R163: the unit of a port that was reset ends alike, a fetch-and-clear with its bits cleared or
aborted whole, its answer discarded and no fault recorded, and a transfer that waited in HELD for the path is handed
down in that event. (How many zero words the ERROR of a read presents is the model's choice, log 33.) -/
def Obligations.BitfieldReadsComplete : Prop :=
  ∀ (s : State) (p : Port) (u : PathUnit) (op : BitOp) (level : Level)
    (mask compare : Word) (i : Instr), s.PortUnit p u → s.JobsPlaced →
    u.work = .bitfield op level mask compare →
    (op, i) ∈ [(BitOp.plainRead, Instr.bitfieldPlainRead), (.fetchClear, .fetchAndClear), (.compare, .compareRead)] →
    let old := s.mem.readBurst u.address u.enables
    let answer := (List.range u.enables.length).map fun n =>
      if op = .compare then ~~~(old.getD n 0 ^^^ compare) &&& laneMask (u.enables.getD n 0) else old.getD n 0
    let cleared := (List.range u.enables.length).map fun n =>
      old.getD n 0 &&& ~~~openBits (u.enables.getD n 0) level mask
    let left := if op = .fetchClear then s.mem.applyWrites (burstWrites u.address u.enables cleared) else s.mem
    (s.mem.burstGood u.address u.enables = true →
      (∀ t d, s.WantedUnit p u t d → exec i s = .next { s.pathFreed p with
        mem := left
        ifaces := s.ifaces.set p (.answering (.okRead answer)) }) ∧
      (u.wanted = false → exec i s = .next (s.endsUnanswered p left))) ∧
    (s.mem.burstGood u.address u.enables = false →
      (∀ t d, s.WantedUnit p u t d →
        exec i s = .next (s.reported ((s.pathFreed p).erred p .parity t d.windowIndex))) ∧
      (u.wanted = false → exec i s = .next (s.endsUnanswered p s.mem)))

/-! ## The control-block monitor (chapters 7 and 8) -/

/-- R123: the own global acknowledge word of port `p`: each bit written 1 clears its kind at `p` and its record, for
the rows ACK_CONFIG, ACK_FAULT and ACK_ENGINE alike; a bit written 0 leaves both; the other port keeps its kinds. A
write to the other port's word acts on nothing. R122, R124: under ACKWRITE a write of a port's own acknowledge word
for context `c` clears each kind written 1 in the enabled bytes, and no other, at that port alone; the other port's
words, and under READCLEAR the own ones, act on nothing. -/
def Obligations.AcknowledgeWordsClear : Prop :=
  ((∀ (s : State) (p : Port) (be : Enables) (v : Word) (t : Transfer) (i : Instr) (b : Nat),
     s.CbWordUnit p (if p = .A then 0x040 else 0x080) be v t → s.JobsPlaced →
     (i, b) ∈ [(Instr.ackConfig, 8), (.ackFault, 9), (.ackEngine, 10)] → (v &&& laneMask be).getLsbD b = true →
     let w := v &&& laneMask be
     let a := s.attn.get p
     exec i s = .next (s.reported { s.writeAnswered p ⟨.cbWrite, s.cbBase + (if p = .A then 0x040 else 0x080), [be], [v],
         true⟩ with
       configStatus := if w.getLsbD 8 then none else s.configStatus
       engineFault := if w.getLsbD 10 then none else s.engineFault
       attn := s.attn.set p { a with
         config := if w.getLsbD 8 then false else a.config
         fault := if w.getLsbD 9 then false else a.fault
         record := if w.getLsbD 9 then none else a.record
         engine := if w.getLsbD 10 then false else a.engine } })) ∧
   ∀ (s : State) (p : Port) (be : Enables) (v : Word) (t : Transfer),
     s.CbWordUnit p (if p = .A then 0x080 else 0x040) be v t → s.JobsPlaced →
     exec .cbPlainWrite s =
       .next (s.writeAnswered p ⟨.cbWrite, s.cbBase + (if p = .A then 0x080 else 0x040), [be], [v], true⟩)) ∧
  ∀ (s : State) (p q : Port) (c : Fin 8) (be : Enables) (v : Word) (t : Transfer),
    s.CbWordUnit p ((if q = .A then 0x044 else 0x084) + 4 * c.val) be v t → s.JobsPlaced →
    let done := s.writeAnswered p
      ⟨.cbWrite, s.cbBase + ((if q = .A then 0x044 else 0x084) + 4 * c.val), [be], [v], true⟩
    let a := s.attn.get p
    let kinds := (v &&& laneMask be).setWidth 8
    (q = p → s.globalWord.getLsbD 24 = false →
      exec .contextAck s = .next (s.reported { done with
        attn := s.attn.set p { a with
          pending := a.pending.set c (a.pending[c] &&& ~~~kinds)
          shown := a.shown.set c (a.shown[c] &&& ~~~kinds) } })) ∧
    (q ≠ p ∨ s.globalWord.getLsbD 24 = true → exec .cbPlainWrite s = .next done)

/-- R30, R75, R122, R144: a write of the global word forms a candidate from its enabled bytes; a clock frequency of 1
to 100 applies it, restarts the prescaler where the tick changes and acts on open assemblies where the idle limit
changes; any other is refused with RANGE, table GLOBAL, index 0, and the applied word is kept whole. R121: a level 0
write of either port to a port's enable word is applied as that port's enable word, byte by byte, bits outside the
eleven ignored. The fields of the global word are those of section 8.7, and T clock periods to a tick are the clock
frequency times the tick period (R74). -/
def Obligations.GlobalAndEnableWordsAreApplied : Prop :=
  (∀ g : Word, (bits g 0 2, tickMicros g) ∈ [(0, 1), (1, 10), (2, 100), (3, 1000)] ∧ clockMHz g = bits g 8 7 ∧
    tickClocks g = clockMHz g * tickMicros g ∧ idleLimit g = bits g 16 8 ∧ readClear g = g.getLsbD 24 ∧
    engineRoute g = bits g 28 2) ∧
  (∀ (s : State) (p : Port) (be : Enables) (v : Word) (t : Transfer), s.CbWordUnit p 0 be v t → s.JobsPlaced →
     let done := s.writeAnswered p ⟨.cbWrite, s.cbBase + 0, [be], [v], true⟩
     let g := (s.globalWord &&& ~~~laneMask be) ||| (v &&& laneMask be)
     let limit := fun (x : Assembly) => match x with
       | .opened c words idle =>
         Assembly.opened c words (if idleLimit g = 0 then none
           else if idleLimit s.globalWord = 0 then some (idleLimit g) else idle)
       | x => x
     (1 ≤ bits g 8 7 ∧ bits g 8 7 ≤ 100 →
       exec .globalWord s = .next { done with
         globalWord := g
         prescaler := if bits g 0 2 = bits s.globalWord 0 2 ∧ bits g 8 7 = bits s.globalWord 8 7 then s.prescaler
           else 0
         assembly := if idleLimit g = idleLimit s.globalWord then s.assembly
           else ⟨limit s.assembly.a, limit s.assembly.b⟩ }) ∧
     (bits g 8 7 = 0 ∨ 100 < bits g 8 7 →
       exec .globalWord s = .next (s.reported (done.refuseConfig p .global 0 .range)))) ∧
  ∀ (s : State) (p q : Port) (be : Enables) (v : Word) (t : Transfer),
    s.CbWordUnit p (if q = .A then 0x004 else 0x008) be v t → s.JobsPlaced →
    exec .enableWord s = .next (s.reported { s.writeAnswered p
        ⟨.cbWrite, s.cbBase + (if q = .A then 0x004 else 0x008), [be], [v], true⟩ with
      attn := s.attn.set q { s.attn.get q with
        enable := ((((s.attn.get q).enable.setWidth 32) &&& ~~~laneMask be) ||| (v &&& laneMask be)).setWidth 11 } })

/-- R137, R138: a word of a window record replaces its enabled bytes in the staged copy; words 1 to 7 act no further;
word 0 applies the whole staged record where it passes, and otherwise leaves the applied record, withdraws nothing and
is refused with the first failing check's reason. R102: at a window that binds no context, and at an enabled RING window
whose new record is an enabled RING record of the same context, nothing is withdrawn; where the new record is disabled,
PLAIN or BITFIELD, or names another context, the old context is withdrawn in that event (R103: what the withdrawal does
is stated below, WithdrawalEndsTheContextsOperations). -/
def Obligations.WindowRecordsAreStagedAndApplied : Prop :=
  ∀ (s : State) (p : Port) (w : Fin 16) (n : Nat) (be : Enables) (v : Word) (t : Transfer), n < 8 →
    s.CbWordUnit p (0x200 + 0x20 * w.val + 4 * n) be v t → s.JobsPlaced →
    let old := s.windows[w].applied
    let r := s.windows[w].staged.setWord n
      ((s.windows[w].staged.word n &&& ~~~laneMask be) ||| (v &&& laneMask be))
    let done := s.writeAnswered p ⟨.cbWrite, s.cbBase + (0x200 + 0x20 * w.val + 4 * n), [be], [v], true⟩
    let stagedOnly : State := { done with windows := s.windows.set w { s.windows[w] with staged := r } }
    (n ≠ 0 → exec .stageRecordWord s = .next stagedOnly) ∧
    (n = 0 → s.windowReason w r = none →
      ((old.winEnable = false ∨ old.kind ≠ .ring) ∨
        (r.winEnable = true ∧ r.kind = .ring ∧ r.winCtx = old.winCtx)) →
      exec .windowRecordApply s = .next { done with windows := s.windows.set w ⟨r, r⟩ }) ∧
    (n = 0 → s.windowReason w r = none → old.winEnable = true → old.kind = .ring →
      (r.winEnable = false ∨ r.kind ≠ .ring ∨ r.winCtx ≠ old.winCtx) →
      exec .windowRecordApply s = .next (closeEvent s { done with
        windows := s.windows.set w ⟨r, r⟩
        toLive := done.toLive.withdraw old.winCtx })) ∧
    (∀ reason, n = 0 → s.windowReason w r = some reason →
      exec .windowRecordApply s = .next (s.reported (stagedOnly.refuseConfig p .window w.val reason))) ∧
    (n = 0 → exec .stageRecordWord s = exec .windowRecordApply s)

/-- R103: what the withdrawal of a context does, whole. R45: each held commit is answered ERROR WITHDRAWN, its buffer
is EMPTY, and it counts in REJECTED with the gap flag and REJECT. R46: so does each OPEN assembly on the context, its
buffer EMPTY, with no answer. R71: each held pop is answered ERROR WITHDRAWN, its latch EMPTY, with no count and no
notice; each latch HOLDING an entry of the context is EMPTY with CUT raised. R72: a latch FILLING from the context has
its withdrawn flag set. The held list is empty; each WITHDRAWN answer reaches its port's fault record (R127); WRAP
where REJECTED wraps (R19). The ring, the other counters, the jobs, the dropped-copy flags and every other context
stand as they were. (How many zero words the ERROR of a read presents is the model's choice, log 33.) -/
def Obligations.WithdrawalEndsTheContextsOperations : Prop :=
  ∀ (l : Live) (c : Fin 8),
    let x := l.ctxs[c]
    let commit := fun (q : Port) => (heldCommits x.held).any fun h => h.port == q
    let pop := fun (q : Port) => (heldPops x.held).any fun h => h.port == q
    let opened := fun (q : Port) => !commit q && match l.assembly.get q with
      | .opened d _ _ => d == c
      | _ => false
    let cut := fun (q : Port) => !pop q && match l.latch.get q with
      | .holding d _ _ _ => d == c
      | _ => false
    let n := (heldCommits x.held).length + (if opened .A then 1 else 0) + (if opened .B then 1 else 0)
    let answered : PerPort PortAttn := .each fun q => match l.ifaces.get q with
      | .held t d _ => if commit q || pop q then (l.attn.get q).capture .withdrawn t d.windowIndex else l.attn.get q
      | _ => l.attn.get q
    l.withdraw c = { l with
      ctxs := l.ctxs.set c { x with
        held := []
        rejected := x.rejected + BitVec.ofNat 16 n
        gap := x.gap || decide (0 < n) }
      assembly := .each fun q => if commit q || opened q then .empty else l.assembly.get q
      latch := .each fun q => if pop q || cut q then .empty else match l.latch.get q with
        | .filling d slot burst withdrawn => .filling d slot burst (withdrawn || d == c)
        | latch => latch
      ifaces := .each fun q => match l.ifaces.get q with
        | .held t d v => if commit q || pop q then .answering (.error .withdrawn t.errorWords) else .held t d v
        | iface => iface
      attn := noticed x c .cut (cut .A || cut .B) (noticed x c .reject (decide (0 < n))
        (noticed x c .wrap (decide (65535 < x.rejected.toNat + n)) answered)) }

/-- R20, R137, R139, R140, R141, R142: word 0 of a context record applies the staged record where it passes: an
unbound context is initialised and its status item is on the mirror list (that the stamp field of its invalid cache is
kept is the model's choice, log 10; so is that the item joins also where its words are as they were, as R20 says and
R146 does not, log 28), a bound one takes the soft fields and keeps its live state, with one SIGNAL_UPDATE where the
signal word changed; otherwise the applied record stays and the refusal is recorded. R78: where the high or low
watermark or the holdoff of a bound context changed, its watermark state is CALM, its holdoff count dropped, and
evaluated against the ready count and the new values: RAISED with HIGH at a holdoff of 0, ARMING at another, with no
LOW; where none of the three changed the state stays as it is. -/
def Obligations.ContextRecordsAreStagedAndApplied : Prop :=
  ∀ (s : State) (p : Port) (c : Fin 8) (n : Nat) (be : Enables) (v : Word) (t : Transfer), n < 8 →
    s.CbWordUnit p (0x400 + 0x20 * c.val + 4 * n) be v t →
    let x := s.ctxs[c]
    let r := x.staged.setWord n ((x.staged.word n &&& ~~~laneMask be) ||| (v &&& laneMask be))
    let done := s.writeAnswered p ⟨.cbWrite, s.cbBase + (0x400 + 0x20 * c.val + 4 * n), [be], [v], true⟩
    let stagedOnly : State := { done with ctxs := s.ctxs.set c { x with staged := r } }
    (n ≠ 0 → exec .stageRecordWord s = .next (closeEvent s stagedOnly)) ∧
    (n = 0 → s.contextReason c r = none → s.bound c = false →
      exec .contextRecordApply s = .next (closeEvent s { done with
        ctxs := s.ctxs.set c {
          applied := r, staged := r, initialised := true, ready := 0, release := 0, head := 0, tail := 0, depth := 0,
          writingRun := [], heldRun := [], seq := 0, gap := false, published := 0, delivered := 0, discarded := 0,
          rejected := 0, watermark := .calm, cache := x.cache.unknown, held := [], pendingFlush := false,
          signalDue := r.signalEnable, statusDue := true } })) ∧
    (n = 0 → s.contextReason c r = none → s.bound c = false →
      ∃ u : State, exec .contextRecordApply s = .next u ∧ Item.context c ∈ u.mirror) ∧
    (n = 0 → s.contextReason c r = none → s.bound c = true → r.sameWatermarks x.applied = true →
      exec .contextRecordApply s = .next (closeEvent s { done with
        ctxs := s.ctxs.set c { x with
          applied := r
          staged := r
          signalDue := r.signalEnable && !r.sameSignal x.applied } })) ∧
    (n = 0 → s.contextReason c r = none → s.bound c = true →
      (r.high ≠ x.applied.high ∨ r.low ≠ x.applied.low ∨ r.holdoff ≠ x.applied.holdoff) →
      exec .contextRecordApply s = .next (closeEvent s { done with
        attn := if r.high ≤ x.ready ∧ r.holdoff = 0 then raiseRouted s.attn (r.route .high) c .high else s.attn
        ctxs := s.ctxs.set c { x with
          applied := r
          staged := r
          watermark := if x.ready < r.high then .calm else if r.holdoff = 0 then .raised else .arming r.holdoff
          signalDue := r.signalEnable && !r.sameSignal x.applied } })) ∧
    (∀ reason, n = 0 → s.contextReason c r = some reason →
      exec .contextRecordApply s = .next (closeEvent s (stagedOnly.refuseConfig p .context c.val reason)))

/-- R90, R138: a window record passes exactly when it is disabled or meets every check of R90's table; otherwise the
first check that fails, in the order of the table, gives the reason. R1, R139: a context record passes exactly when it
meets every check of R139's table; otherwise the first that fails gives the reason. Section 8.7, R2, R88, R89: each
field of a record is at its place in its word, and what equal geometry fields and an equal signal word are. -/
def Obligations.RecordChecks : Prop :=
  (∀ r : Record,
    r.winEnable = r.w0.getLsbD 0 ∧ r.kindCode = bits r.w0 1 2 ∧
    (r.kindCode ≠ 3 → (r.kindCode, r.kind) ∈ [(0, WindowKind.plain), (1, .ring), (2, .bitfield)]) ∧
    r.winCtx.val = bits r.w0 4 3 ∧ r.rights .A = bits r.w0 8 2 ∧ r.rights .B = bits r.w0 10 2 ∧
    r.minLevel .A = bits r.w0 12 2 ∧ r.minLevel .B = bits r.w0 14 2 ∧ r.sizeCode = bits r.w0 16 4 ∧
    r.apertureSize = 4096 * 2 ^ r.sizeCode ∧ r.apertureBase = r.w1.toNat ∧ r.targetBase = r.w2.toNat ∧
    r.protectedMask = r.w3 ∧ r.compareWord = r.w4) ∧
  (∀ r : Record,
    r.isLifo = r.w0.getLsbD 0 ∧ r.slotSize = bits r.w0 4 4 ∧ r.policyCode = bits r.w0 8 2 ∧
    r.emptyCode = bits r.w0 10 2 ∧ r.staleDiscard = r.w0.getLsbD 12 ∧ r.holdoff = bits r.w0 16 4 ∧
    r.stallLimit = bits r.w0 24 8 ∧ r.ringBase = r.w1.toNat ∧ r.capacity = bits r.w2 0 12 ∧ r.high = bits r.w2 16 12 ∧
    r.low = bits r.w3 0 12 ∧ r.ageLimit = bits r.w3 16 8 ∧ r.fillWord = r.w4 ∧ r.signalAddress = r.w5.toNat ∧
    r.signalBit = bits r.w6 0 5 ∧ r.signalEnable = r.w6.getLsbD 31 ∧ r.ringBytes = 4 * r.slotSize * r.capacity ∧
    [Kind.high, .low, .reject, .loss, .cut, .stale, .damaged, .wrap].map r.route =
      (List.range 8).map fun k => bits r.w7 (2 * k) 2) ∧
  (∀ r a : Record,
    (r.sameGeometry a = true ↔ r.isLifo = a.isLifo ∧ r.slotSize = a.slotSize ∧ r.ringBase = a.ringBase ∧
      r.capacity = a.capacity ∧ r.policyCode = a.policyCode) ∧
    (r.sameSignal a = true ↔ r.signalEnable = a.signalEnable ∧ r.signalAddress = a.signalAddress ∧
      r.signalBit = a.signalBit)) ∧
  (∀ (s : State) (w : Fin 16) (r : Record), s.windowReason w r = none ↔
     (r.winEnable = false ∨
       (r.kindCode ≠ 3 ∧ r.sizeCode ≤ 12 ∧ (r.kind = .ring → r.sizeCode = 0) ∧ r.apertureBase < 67108864 ∧
         r.apertureBase % (4096 * 2 ^ r.sizeCode) = 0 ∧
         (r.kind = .plain → r.targetBase % (4096 * 2 ^ r.sizeCode) = 0 ∧
           r.targetBase + 4096 * 2 ^ r.sizeCode ≤ s.installed ∧
           (r.targetBase + 4096 * 2 ^ r.sizeCode ≤ s.cbBase ∨ s.cbBase + 4096 ≤ r.targetBase)) ∧
         (r.kind = .bitfield → r.targetBase % (1024 * 2 ^ r.sizeCode) = 0 ∧
           r.targetBase + 1024 * 2 ^ r.sizeCode ≤ s.installed ∧
           (r.targetBase + 1024 * 2 ^ r.sizeCode ≤ s.cbBase ∨ s.cbBase + 4096 ≤ r.targetBase)) ∧
         (r.kind = .ring → s.ctxs[r.winCtx].initialised = true ∧
           ∀ v : Fin 16, v ≠ w → s.windows[v].applied.isRing = true → s.windows[v].applied.winCtx ≠ r.winCtx)))) ∧
  (∀ (s : State) (w : Fin 16) (r : Record), r.winEnable = true →
    let size := 4096 * 2 ^ r.sizeCode
    let target := if r.kind = .bitfield then size / 4 else size
    s.windowReason w r = firstFailing [
      (r.kindCode ≠ 3, .range), (r.sizeCode ≤ 12, .range), (r.kind = .ring → r.sizeCode = 0, .range),
      (r.apertureBase < 67108864, .range), (r.apertureBase % size = 0, .align),
      (r.kind = .plain → r.targetBase % size = 0, .align), (r.kind = .bitfield → r.targetBase % (size / 4) = 0, .align),
      (r.kind ≠ .ring → r.targetBase + target ≤ s.installed, .memory),
      (r.kind ≠ .ring → r.targetBase + target ≤ s.cbBase ∨ s.cbBase + 4096 ≤ r.targetBase, .control),
      (r.kind = .ring → s.ctxs[r.winCtx].initialised = true, .binding),
      (r.kind = .ring → ∀ v : Fin 16, v ≠ w → s.windows[v].applied.isRing = true →
        s.windows[v].applied.winCtx ≠ r.winCtx, .binding)]) ∧
  (∀ (s : State) (c : Fin 8) (r : Record),
    let ring := 4 * r.slotSize * r.capacity
    s.contextReason c r = firstFailing [
      (2 ≤ r.slotSize ∧ r.slotSize ≤ 8 ∧ r.policyCode ≠ 3 ∧ r.emptyCode ≠ 3, .range),
      (r.isLifo = true → r.policyCode ≠ 2, .range), (r.stallLimit ≠ 0, .range), (2 ≤ r.capacity, .range),
      (1 ≤ r.high ∧ r.high ≤ r.capacity ∧ r.low < r.high, .range),
      (r.ringBase % 4 = 0 ∧ (r.signalEnable = true → r.signalAddress % 4 = 0), .align),
      (r.ringBase + ring ≤ s.installed ∧ (r.signalEnable = true → r.signalAddress + 4 ≤ s.installed), .memory),
      ((r.ringBase + ring ≤ s.cbBase ∨ s.cbBase + 4096 ≤ r.ringBase) ∧
        (r.signalEnable = true → r.signalAddress + 4 ≤ s.cbBase ∨ s.cbBase + 4096 ≤ r.signalAddress), .control),
      (∀ d : Fin 8, d ≠ c → s.ctxs[d].initialised = true →
        r.ringBase + ring ≤ s.ctxs[d].applied.ringBase ∨
          s.ctxs[d].applied.ringBase + s.ctxs[d].applied.ringBytes ≤ r.ringBase, .overlap),
      (s.bound c = true → r.sameGeometry s.ctxs[c].applied = true, .bound),
      (s.bound c = false → s.ctxs[c].writing = 0 ∧ s.ctxs[c].inCopy = 0, .bound)]) ∧
  ∀ (s : State) (c : Fin 8) (r : Record), s.contextReason c r = none ↔
    (2 ≤ r.slotSize ∧ r.slotSize ≤ 8 ∧ r.policyCode ≠ 3 ∧ r.emptyCode ≠ 3 ∧
      (r.isLifo = true → r.policyCode ≠ 2) ∧ r.stallLimit ≠ 0 ∧ 2 ≤ r.capacity ∧ 1 ≤ r.high ∧ r.high ≤ r.capacity ∧
      r.low < r.high ∧ r.ringBase % 4 = 0 ∧ r.ringBase + 4 * r.slotSize * r.capacity ≤ s.installed ∧
      (r.ringBase + 4 * r.slotSize * r.capacity ≤ s.cbBase ∨ s.cbBase + 4096 ≤ r.ringBase) ∧
      (r.signalEnable = true → r.signalAddress % 4 = 0 ∧ r.signalAddress + 4 ≤ s.installed ∧
        (r.signalAddress + 4 ≤ s.cbBase ∨ s.cbBase + 4096 ≤ r.signalAddress)) ∧
      (∀ d : Fin 8, d ≠ c → s.ctxs[d].initialised = true →
        r.ringBase + r.ringBytes ≤ s.ctxs[d].applied.ringBase ∨
          s.ctxs[d].applied.ringBase + s.ctxs[d].applied.ringBytes ≤ r.ringBase) ∧
      (s.bound c = true → r.sameGeometry s.ctxs[c].applied = true) ∧
      (s.bound c = false → s.ctxs[c].writing = 0 ∧ s.ctxs[c].inCopy = 0))

/-- R21, R143: code 1 in byte 0 of a context command word flushes: an INITIALISED FIFO context discards every ready
entry in one event, with the gap flag and LOSS once, and with nothing ready changes nothing; its slots are released
where none is held before them, are spent behind a slot in copy, which stays in copy, and where they are freed the held
commit of a full context reserves (R15, R41); a LIFO context with an operation running keeps the FLUSH pending; an
UNINITIALISED context refuses it with BINDING. (That the stamp field of the invalid cache is kept is the model's choice,
log 10.) -/
def Obligations.FlushDiscardsTheReadyEntries : Prop :=
  ∀ (s : State) (p : Port) (c : Fin 8) (be : Enables) (v : Word) (t : Transfer),
    s.CbWordUnit p (0x500 + 4 * c.val) be v t → bits (v &&& laneMask be) 0 8 = 1 →
    let x := s.ctxs[c]
    let done := s.writeAnswered p ⟨.cbWrite, s.cbBase + (0x500 + 4 * c.val), [be], [v], true⟩
    let lost := noticed x c .loss true (noticed x c .wrap (wraps x.discarded x.ready) s.attn)
    (x.initialised = false →
      exec .flush s = .next (closeEvent s (done.refuseConfig p .command c.val .binding))) ∧
    (x.initialised = true → x.applied.isLifo = false ∨ (x.writing = 0 ∧ x.inCopy = 0) → x.ready = 0 →
      exec .flush s = .next (closeEvent s done)) ∧
    (x.initialised = true → x.applied.isLifo = false → x.ready ≠ 0 → x.heldRun = [] → x.held = [] →
      exec .flush s = .next (closeEvent s { done with
        attn := lost
        ctxs := s.ctxs.set c { x with
          ready := 0
          head := (x.head + x.ready) % x.applied.capacity
          release := (x.release + x.ready) % x.applied.capacity
          discarded := x.discarded + BitVec.ofNat 16 x.ready
          gap := true
          cache := x.cache.unknown } })) ∧
    (∀ q more, x.initialised = true → x.applied.isLifo = false → x.ready ≠ 0 → x.heldRun = .copying q :: more →
      (∀ i ∈ x.held, i.isCommit = false) →
      exec .flush s = .next (closeEvent s { done with
        attn := lost
        ctxs := s.ctxs.set c { x with
          ready := 0
          head := (x.head + x.ready) % x.applied.capacity
          release := x.release % x.applied.capacity
          heldRun := x.heldRun ++ List.replicate x.ready .spent
          discarded := x.discarded + BitVec.ofNat 16 x.ready
          gap := true
          cache := x.cache.unknown } })) ∧
    (∀ (k : HeldCommit) (words : List Word), x.initialised = true → x.applied.isLifo = false → x.ready ≠ 0 →
      x.heldRun = [] → x.held = [.commit k] → x.occupied ≤ x.applied.capacity → s.portWriting k.port = false →
      s.assembly.get k.port = .committing c k.length k.level words false →
      let flushed : Ctx := { x with
        ready := 0
        head := (x.head + x.ready) % x.applied.capacity
        release := (x.release + x.ready) % x.applied.capacity
        discarded := x.discarded + BitVec.ofNat 16 x.ready
        gap := true
        cache := x.cache.unknown }
      exec .flush s = .next (closeEvent s { done with
        attn := lost
        assembly := s.assembly.set k.port (.committing c k.length k.level [] true)
        jobs := s.jobs ++ [flushed.writeEntry c k words s.tick]
        ctxs := s.ctxs.set c { flushed.reservedFor k.port s.tick with held := [] } })) ∧
    (x.initialised = true → x.applied.isLifo = true → 0 < x.writing ∨ 0 < x.inCopy →
      exec .flush s = .next (closeEvent s { done with ctxs := s.ctxs.set c { x with pendingFlush := true } })) ∧
    (x.initialised = true → x.applied.isLifo = true → x.writing = 0 → x.inCopy = 0 → x.ready ≠ 0 → x.held = [] →
      exec .flush s = .next (closeEvent s { done with
        attn := lost
        ctxs := s.ctxs.set c { x with
          ready := 0
          depth := x.depth - x.ready
          discarded := x.discarded + BitVec.ofNat 16 x.ready
          gap := true
          cache := x.cache.unknown } }))

/-- R135, R136, R143: a permitted write to a word without a function, or of command code 0, or with every byte enable
off, is in memory and answered OK, and the monitor acts on nothing; a command code above 1 is refused with RANGE.
R136, R151: a permitted control-block write of any number of words, at its completion, has the monitor act on every
word, answered or of a port that was reset: every staged record word first, then every word with its own function in
increasing offset order. -/
def Obligations.PlainWritesAndBurstsOfTheConfiguration : Prop :=
  ((∀ (s : State) (p : Port) (u : PathUnit) (t : Transfer), s.WantedUnit p u t .cb → s.JobsPlaced →
     u.work = .cbWrite →
     (∃ offset be v, u = ⟨.cbWrite, s.cbBase + offset, [be], [v], true⟩ ∧
       (be = 0 ∨ cbFunction offset = .plain ∨
         ∃ c, cbFunction offset = .command c ∧ bits (v &&& laneMask be) 0 8 = 0)) →
     exec .cbPlainWrite s = .next (s.writeAnswered p u)) ∧
   ∀ (s : State) (p : Port) (c : Fin 8) (be : Enables) (v : Word) (t : Transfer),
     s.CbWordUnit p (0x500 + 4 * c.val) be v t → s.JobsPlaced → 2 ≤ bits (v &&& laneMask be) 0 8 →
     exec .cbPlainWrite s = .next (s.reported
       ((s.writeAnswered p ⟨.cbWrite, s.cbBase + (0x500 + 4 * c.val), [be], [v], true⟩).refuseConfig p .command
         c.val .range))) ∧
  ∀ (s : State) (p : Port) (u : PathUnit) (row : CbRow) (i : Instr), s.PortUnit p u → u.work = .cbWrite →
    s.cbWriteHas row = true →
    (row, i) ∈ [(CbRow.globalWord, Instr.globalWord), (.enableWord, .enableWord), (.ackConfig, .ackConfig),
      (.ackFault, .ackFault), (.ackEngine, .ackEngine), (.contextAck, .contextAck), (.stage, .stageRecordWord),
      (.windowApply, .windowRecordApply), (.contextApply, .contextRecordApply), (.flush, .flush),
      (.plain, .cbPlainWrite)] →
    let words := u.cbWords s.cbBase
    let acted := fun (done : State) => words.foldl (State.actWord p) (words.foldl State.stageWord done)
    (∀ t d, u.wanted = true → s.ifaces.get p = .held t d none →
      exec i s = .next (closeEvent s (acted (s.writeAnswered p u)))) ∧
    (u.wanted = false → (∀ t d v, s.ifaces.get p ≠ .held t d (some v)) →
      exec i s = .next (closeEvent s (acted { s.pathFreed p with
        mem := s.mem.applyWrites (burstWrites u.address u.enables u.data) })))

/-! ## Ticks (chapter 4) -/

/-- R74: a tick advances the counter, restarts the prescaler and takes one from every count that runs in ticks; where
no part of it is due nothing else changes, in whatever order the parts are taken (log 3, log 4). R82, R83: in the
tick that finds the next entry older than the age limit, and with no other part due: under NOTIFY STALE is raised and
marked raised; under DISCARD the next entry is discarded too, with DISCARDED, gap flag and LOSS: the head of a FIFO
context, its slot released where none is held before it and spent behind a slot in copy, or the top of a LIFO context
with no operation running; with one running the tick discards nothing and raises nothing. (That a discard leaves the
stamp field of the invalid cache as it was is the model's choice, log 10.) -/
def Obligations.TickCountsAndJudgesAges : Prop :=
  (∀ (s : State) (order : List TickPart), s.inReset = false →
     (∃ t, exec (.tick order) s = .next t ∧ t.outer = { s with tick := s.tick + 1, prescaler := 0 }.outer) ∧
     ((∀ x, s.partDue x = false) → exec (.tick order) s = .next (closeEvent s s.ticked))) ∧
  ∀ (s : State) (c : Fin 8), s.inReset = false → s.ctxs[c].applied.ageLimit ≠ 0 → s.ctxs[c].ready ≠ 0 →
    s.ctxs[c].cache.valid = true → s.ctxs[c].cache.staleRaised = false →
    s.ctxs[c].applied.ageLimit < (s.tick + 1 - s.ctxs[c].cache.stamp).toNat →
    (∀ x, x ≠ .stale c → s.partDue x = false) →
    let x := s.ticked.ctxs[c]
    let stale := noticed x c .stale true s.attn
    (x.applied.staleDiscard = false →
      exec (.stale c) s = .next (closeEvent s { s.ticked with
        ctxs := s.ticked.ctxs.set c { x with cache := { x.cache with staleRaised := true } }
        attn := stale })) ∧
    (x.applied.staleDiscard = true → x.applied.isLifo = false → x.heldRun = [] → x.held = [] →
      exec (.stale c) s = .next (closeEvent s { s.ticked with
        ctxs := s.ticked.ctxs.set c { x with
          ready := x.ready - 1
          head := (x.head + 1) % x.applied.capacity
          release := (x.release + 1) % x.applied.capacity
          discarded := x.discarded + 1
          gap := true
          cache := x.cache.unknown }
        attn := noticed x c .loss true (noticed x c .wrap (wraps x.discarded 1) stale) })) ∧
    (∀ q more, x.applied.staleDiscard = true → x.applied.isLifo = false → x.heldRun = .copying q :: more →
      (∀ i ∈ x.held, i.isCommit = false) →
      exec (.stale c) s = .next (closeEvent s { s.ticked with
        ctxs := s.ticked.ctxs.set c { x with
          ready := x.ready - 1
          head := (x.head + 1) % x.applied.capacity
          release := x.release % x.applied.capacity
          heldRun := x.heldRun ++ [.spent]
          discarded := x.discarded + 1
          gap := true
          cache := x.cache.unknown }
        attn := noticed x c .loss true (noticed x c .wrap (wraps x.discarded 1) stale) })) ∧
    (∀ order, x.applied.staleDiscard = true → x.applied.isLifo = true → 0 < x.writing ∨ 0 < x.inCopy →
      exec (.tick order) s = .next (closeEvent s s.ticked)) ∧
    (x.applied.staleDiscard = true → x.applied.isLifo = true → x.writing = 0 → x.inCopy = 0 → x.held = [] →
      exec (.stale c) s = .next (closeEvent s { s.ticked with
        ctxs := s.ticked.ctxs.set c { x with
          ready := x.ready - 1
          depth := x.depth - 1
          discarded := x.discarded + 1
          gap := true
          cache := x.cache.unknown }
        attn := noticed x c .loss true (noticed x c .wrap (wraps x.discarded 1) stale) }))

/-- R29, R38, R67, R77: in the tick that brings a count to 0, and with no other part due: an open assembly is
discarded with REJECTED, gap flag and REJECT (under an idle limit of 1 also in the first tick after its last append,
where R29 says two things: the model's choice, log 32); a held commit is answered ERROR EXPIRED with the same counts
and its buffer EMPTY; a held pop is answered ERROR EXPIRED, its latch EMPTY and no count moved; an ARMING context is
RAISED with HIGH. (How many zero words the ERROR of a read presents is the model's choice, log 33.) -/
def Obligations.CountsExpireInTheTick : Prop :=
  ∀ (s : State), s.inReset = false →
    (∀ p c words idle, s.assembly.get p = .opened c words (some idle) → idle ≤ 1 →
      (∀ x, x ≠ .idle p → s.partDue x = false) →
      exec (.idleExpiry p) s = .next (closeEvent s { s.ticked with
        assembly := s.ticked.assembly.set p .empty
        ctxs := s.ticked.ctxs.set c s.ticked.ctxs[c].rejectedOne
        attn := rejectNotices s.ctxs[c] c s.attn })) ∧
    (∀ p c h n t d v, s.ctxs[c].held = [.commit h] → h.port = p → h.stall = some n → n ≤ 1 →
      s.findHeld p = some c → s.ifaces.get p = .held t d v → (∀ x, x ≠ .held p → s.partDue x = false) →
      exec (.stallExpiry p) s = .next (closeEvent s { s.ticked with
        ifaces := (s.erred p .expired t d.windowIndex).ifaces
        assembly := s.ticked.assembly.set p .empty
        ctxs := s.ticked.ctxs.set c { s.ticked.ctxs[c].rejectedOne with held := [] }
        attn := rejectNotices s.ctxs[c] c (s.erred p .expired t d.windowIndex).attn })) ∧
    (∀ p c h n t d v, s.ctxs[c].held = [.pop h] → h.port = p → h.stall = some n → n ≤ 1 →
      s.findHeld p = some c → s.ifaces.get p = .held t d v → (∀ x, x ≠ .held p → s.partDue x = false) →
      exec (.waitExpiry p) s = .next (closeEvent s { s.ticked with
        ifaces := (s.erred p .expired t d.windowIndex).ifaces
        latch := s.latch.set p .empty
        ctxs := s.ticked.ctxs.set c { s.ticked.ctxs[c] with held := [] }
        attn := (s.erred p .expired t d.windowIndex).attn })) ∧
    (∀ c n, s.ctxs[c].watermark = .arming n → n ≤ 1 → (∀ x, x ≠ .holdoff c → s.partDue x = false) →
      exec (.holdoffExpiry c) s = .next (closeEvent s { s.ticked with
        ctxs := s.ticked.ctxs.set c { s.ticked.ctxs[c] with watermark := .raised }
        attn := noticed s.ctxs[c] c .high true s.attn }))

/-! ## Resets (R23, R47, R73, R132, R160, R168-R170) -/

/-- R47, R73, R132, R151, R168: the assertion of a port's reset line, the port's held commit or pop alone in its held
list: the interface is IDLE, the buffer and the latch EMPTY; an open assembly, and a commit held at a context, which
leaves the held list, count in REJECTED with the gap flag and no REJECT notice; a held pop leaves its list and no
counter moves; a copy in flight is dropped, a unit on the path left there unwanted; the attention state of the port is
cleared, but for a WRAP of the same event that the attention unit takes after the reset (log 13); the other port and
everything else stand. (That a context status item which the event changes joins the mirror list, though R148 says
that none is marked by a port reset, is the model's choice, log 29.) R41, R47: the other port's commit behind the
port's own in the list of a FIFO context that is not full reserves in that event (that its header carries the gap is
log 30). R132: whatever the event raised, nothing stays of the port's attention state but kinds of that event whose
raise came late. A line asserted already is not asserted again (log 18). -/
def Obligations.PortResetDropsThePortsWork : Prop :=
  (∀ (s : State) (p : Port) (late : Vector (BitVec 8) 8), s.inReset = false → s.portReset.get p = false →
     (∀ c n level words, s.assembly.get p = .committing c n level words false →
       ∃ h, s.ctxs[c].held = [.commit h] ∧ h.port = p) →
     (∀ c, s.latch.get p = .waiting c → ∃ h, s.ctxs[c].held = [.pop h] ∧ h.port = p) →
     let wrapped := fun (a : PerPort PortAttn) => match s.assembly.get p with
       | .opened c _ _ => noticed s.ctxs[c] c .wrap (wraps s.ctxs[c].rejected 1) a
       | .committing c _ _ _ false => noticed s.ctxs[c] c .wrap (wraps s.ctxs[c].rejected 1) a
       | _ => a
     let pushEnded := match s.assembly.get p with
       | .opened c _ _ => s.ctxs.set c s.ctxs[c].rejectedOne
       | .committing c _ _ _ false => s.ctxs.set c { s.ctxs[c].rejectedOne with held := [] }
       | _ => s.ctxs
     exec (.portReset p late) s = .next (closeEvent s { s with
       portReset := s.portReset.set p true
       ifaces := s.ifaces.set p .idle
       paths := s.paths.set p ((s.paths.get p).map fun u => { u with wanted := false })
       assembly := s.assembly.set p .empty
       latch := s.latch.set p .empty
       dropped := (match s.latch.get p with
         | .filling _ _ _ _ => s.dropped.set p true
         | _ => s.dropped)
       ctxs := (match s.latch.get p with
         | .waiting c => pushEnded.set c { pushEnded[c] with held := [] }
         | _ => pushEnded)
       attn := lateOnly p late (wrapped (s.attn.set p PortAttn.clear)) })) ∧
  (∀ (s : State) (p : Port) (late : Vector (BitVec 8) 8) (c : Fin 8) (h k : HeldCommit) (words later : List Word),
     s.inReset = false → s.portReset.get p = false → s.ctxs[c].held = [.commit h, .commit k] → h.port = p →
     k.port = p.other → s.assembly.get p = .committing c h.length h.level words false → s.latch.get p = .empty →
     s.assembly.get p.other = .committing c k.length k.level later false → s.portWriting p.other = false →
     s.ctxs[c].applied.isLifo = false → s.ctxs[c].occupied < s.ctxs[c].applied.capacity →
     let x := s.ctxs[c].rejectedOne
     let wrapped := noticed s.ctxs[c] c .wrap (wraps s.ctxs[c].rejected 1)
     exec (.portReset p late) s = .next (closeEvent s { s with
       portReset := s.portReset.set p true
       ifaces := s.ifaces.set p .idle
       paths := s.paths.set p ((s.paths.get p).map fun u => { u with wanted := false })
       assembly := (s.assembly.set p .empty).set p.other (.committing c k.length k.level [] true)
       jobs := s.jobs ++ [x.writeEntry c k later s.tick]
       ctxs := s.ctxs.set c { x.reservedFor p.other s.tick with held := [] }
       attn := lateOnly p late (wrapped (s.attn.set p PortAttn.clear)) })) ∧
  ∀ (s : State) (p : Port), s.inReset = false →
    (s.portReset.get p = false → ∀ late, ∃ t : State, exec (.portReset p late) s = .next t ∧
      t.portReset = s.portReset.set p true ∧ t.mem = s.mem ∧ t.windows = s.windows ∧
      t.attn.get p = { PortAttn.clear with pending := (t.attn.get p).pending } ∧
      ∀ c : Fin 8, (t.attn.get p).pending[c] &&& ~~~late[c] = 0) ∧
    (s.portReset.get p = true → ∀ late, exec (.portReset p late) s = .next s)

/-- R22, R89, R131, R148, R160, R163, R170: power-on reset puts every block into its reset state, samples the straps,
and holds both ATTN lines deasserted; the port reset lines keep their levels. The words of an interrupted unit are
each old or new (log 8), and no other byte of memory changes. The queue of commands that wait is the model's own and
stands (log 17). R133, R149: the base of the control block and the installed size that the sampled straps select, which
every other rule uses, for each level of the straps. -/
def Obligations.PowerOnResetResetsEveryBlock : Prop :=
  (∀ s : State,
    (s.memsz, s.installed) ∈ [(0#2, 0x200000), (1#2, 0x400000), (2#2, 0x800000), (3#2, 0x1000000)] ∧
    (s.cbsel, s.cbBase) ∈ [(0#2, 0x000000), (1#2, 0x001000), (2#2, 0x100000), (3#2, s.installed - 0x1000)]) ∧
  ∀ (s : State) (cbsel memsz : BitVec 2), ∃ t : State, exec (.powerOnReset cbsel memsz) s = .next t ∧
    t.cbsel = cbsel ∧ t.memsz = memsz ∧ t.inReset = true ∧ t.portReset = s.portReset ∧ t.pending = s.pending ∧
    (∀ c : Fin 8, t.ctxs[c].initialised = false ∧ t.ctxs[c].applied = Record.zero ∧ t.ctxs[c].staged = Record.zero ∧
      t.ctxs[c].ready = 0 ∧ t.ctxs[c].writing = 0 ∧ t.ctxs[c].inCopy = 0 ∧ t.ctxs[c].spent = 0 ∧
      t.ctxs[c].heldCount = 0 ∧ t.ctxs[c].occupied = 0 ∧ t.ctxs[c].release = 0 ∧ t.ctxs[c].head = 0 ∧
      t.ctxs[c].tail = 0 ∧ t.ctxs[c].depth = 0 ∧ t.ctxs[c].seq = 0 ∧ t.ctxs[c].gap = false ∧
      t.ctxs[c].watermark = .calm ∧ t.ctxs[c].cache.valid = false ∧ t.ctxs[c].cache.staleRaised = false ∧
      t.ctxs[c].published = 0 ∧ t.ctxs[c].delivered = 0 ∧ t.ctxs[c].discarded = 0 ∧ t.ctxs[c].rejected = 0 ∧
      t.ctxs[c].held = [] ∧ t.ctxs[c].pendingFlush = false ∧ t.bound c = false) ∧
    (∀ w : Fin 16, t.windows[w].applied = Record.zero ∧ t.windows[w].staged = Record.zero) ∧
    (∀ p : Port, t.ifaces.get p = .idle ∧ t.assembly.get p = .empty ∧ t.latch.get p = .empty ∧
      t.dropped.get p = false ∧ t.paths.get p = none ∧ (t.attn.get p).enable = 0 ∧ (t.attn.get p).summary = 0 ∧
      (t.attn.get p).record = none ∧ t.attnLine p = false ∧
      ∀ c : Fin 8, (t.attn.get p).pending[c] = 0 ∧ (t.attn.get p).shown[c] = 0) ∧
    t.engineFault = none ∧ t.configStatus = none ∧ t.tick = 0 ∧ t.prescaler = 0 ∧
    readClear t.globalWord = false ∧ engineRoute t.globalWord = 0 ∧ idleLimit t.globalWord = 0 ∧
    clockMHz t.globalWord = 25 ∧ tickMicros t.globalWord = 1000 ∧
    t.mirror = Item.all ∧ t.pointer = .mirror ∧ t.busy = none ∧ t.jobs = [] ∧
    (∃ landed, t.mem = s.mem.applyLanded landed 0 s.busyWrites) ∧
    ∀ a, ¬storesTo s.busyWrites a → t.mem.readByte a = s.mem.readByte a ∧ t.mem.parityBit a = s.mem.parityBit a

/-- R169: the release of a port's reset line readies the interface; a request standing at the lines is taken as an
arrival. (The standing request is the command's operand, log 19.) R170: at the release of RESET_N the ports take
arrivals, a standing request at once, but for a port whose own reset line is asserted; nothing else changes, and the
mirror writer presents its first item. A line that is released already is not released again (log 18). While RESET_N is
asserted a port reset line has no effect but its level (log 18), and no command but those of the four reset rows changes
the state (log 1). -/
def Obligations.ResetReleasesReadyThePorts : Prop :=
  (∀ (s : State) (p : Port), s.inReset = false →
     (s.portReset.get p = true → s.ifaces.get p = .idle →
       exec (.portResetRelease p none) s = .next { s with portReset := s.portReset.set p false } ∧
       ∀ t : Transfer, exec (.portResetRelease p (some t)) s = .next { s with
         portReset := s.portReset.set p false
         ifaces := s.ifaces.set p (.decoding t) }) ∧
     (s.portReset.get p = false → ∀ r, exec (.portResetRelease p r) s = .next s) ∧
     ∀ a b, exec (.powerOnResetRelease a b) s = .next s) ∧
  ∀ (s : State), s.inReset = true →
    (∀ a b : Option Transfer,
      let taken := fun (p : Port) (r : Option Transfer) => match r with
        | some t => if s.ifaces.get p = .idle ∧ s.portReset.get p = false then .decoding t else s.ifaces.get p
        | none => s.ifaces.get p
      let released : State := { s with inReset := false, ifaces := ⟨taken .A a, taken .B b⟩ }
      exec (.powerOnResetRelease a b) s = .next released ∧
        ∀ item rest, s.mirror = item :: rest → released.presents .mirror = true ∧ released.mirror = item :: rest) ∧
    (∀ p late, exec (.portReset p late) s = .next { s with portReset := s.portReset.set p true }) ∧
    (∀ p r, exec (.portResetRelease p r) s = .next { s with portReset := s.portReset.set p false }) ∧
    ∀ i : Instr, (∀ p late, i ≠ .portReset p late) → (∀ p r, i ≠ .portResetRelease p r) →
      (∀ cbsel memsz, i ≠ .powerOnReset cbsel memsz) → (∀ a b, i ≠ .powerOnResetRelease a b) →
      exec i s = .next s
end

