-- ==== Sys2Proof/Laws/State.lean ====
section
/-! SUPPORT. One lemma for each field and each update of the state, so that no later proof unfolds a record update. -/

namespace Sys2Proof.Machine

/-! ## Per-port pairs -/

@[simp] theorem PerPort.get_set_self {α : Type} (x : PerPort α) (p : Port) (v : α) : (x.set p v).get p = v := by
  cases p <;> rfl

theorem PerPort.get_set_ne {α : Type} (x : PerPort α) {p q : Port} (v : α) (h : q ≠ p) :
    (x.set p v).get q = x.get q := by
  cases p <;> cases q <;> first | rfl | exact absurd rfl h

@[simp] theorem PerPort.get_set_other {α : Type} (x : PerPort α) (p : Port) (v : α) :
    (x.set p v).get p.other = x.get p.other := by
  cases p <;> rfl

@[simp] theorem PerPort.set_get_self {α : Type} (x : PerPort α) (p : Port) : x.set p (x.get p) = x := by
  cases p <;> rfl

@[simp] theorem PerPort.set_set {α : Type} (x : PerPort α) (p : Port) (v w : α) :
    (x.set p v).set p w = x.set p w := by
  cases p <;> rfl

theorem Port.eq_or_eq_other (p q : Port) : q = p ∨ q = p.other := by
  cases p <;> cases q <;> first | exact .inl rfl | exact .inr rfl

@[simp] theorem Port.other_ne (p : Port) : p.other ≠ p := by cases p <;> decide

/-! ## Updates of the live state -/

section modCtx
variable (l : Live) (c d : Fin 8) (f : Ctx → Ctx)

@[simp] theorem Live.modCtx_ctxs_self : (l.modCtx c f).ctxs[c.val] = f l.ctxs[c.val] := by simp [Live.modCtx]

theorem Live.modCtx_ctxs_ne (h : d ≠ c) : (l.modCtx c f).ctxs[d.val] = l.ctxs[d.val] := by
  have hv : c.val ≠ d.val := fun e => h (Fin.ext e.symm)
  simp [Live.modCtx, hv]

theorem Live.modCtx_ctxs : (l.modCtx c f).ctxs[d.val] = if d = c then f l.ctxs[c.val] else l.ctxs[d.val] := by
  by_cases h : d = c
  · subst h
    simp
  · rw [if_neg h, Live.modCtx_ctxs_ne l c d f h]

@[simp] theorem Live.modCtx_assembly : (l.modCtx c f).assembly = l.assembly := rfl
@[simp] theorem Live.modCtx_latch : (l.modCtx c f).latch = l.latch := rfl
@[simp] theorem Live.modCtx_dropped : (l.modCtx c f).dropped = l.dropped := rfl
@[simp] theorem Live.modCtx_jobs : (l.modCtx c f).jobs = l.jobs := rfl
@[simp] theorem Live.modCtx_ifaces : (l.modCtx c f).ifaces = l.ifaces := rfl
@[simp] theorem Live.modCtx_attn : (l.modCtx c f).attn = l.attn := rfl
end modCtx

section setters
variable (l : Live) (p : Port) (c : Fin 8) (k : Kind) (j : Job)

@[simp] theorem Live.setAssembly_ctxs (x : Assembly) : (l.setAssembly p x).ctxs = l.ctxs := rfl
@[simp] theorem Live.setAssembly_assembly (x : Assembly) : (l.setAssembly p x).assembly = l.assembly.set p x := rfl
@[simp] theorem Live.setAssembly_latch (x : Assembly) : (l.setAssembly p x).latch = l.latch := rfl
@[simp] theorem Live.setAssembly_dropped (x : Assembly) : (l.setAssembly p x).dropped = l.dropped := rfl
@[simp] theorem Live.setAssembly_jobs (x : Assembly) : (l.setAssembly p x).jobs = l.jobs := rfl
@[simp] theorem Live.setAssembly_ifaces (x : Assembly) : (l.setAssembly p x).ifaces = l.ifaces := rfl
@[simp] theorem Live.setAssembly_attn (x : Assembly) : (l.setAssembly p x).attn = l.attn := rfl

@[simp] theorem Live.setLatch_ctxs (x : Latch) : (l.setLatch p x).ctxs = l.ctxs := rfl
@[simp] theorem Live.setLatch_assembly (x : Latch) : (l.setLatch p x).assembly = l.assembly := rfl
@[simp] theorem Live.setLatch_latch (x : Latch) : (l.setLatch p x).latch = l.latch.set p x := rfl
@[simp] theorem Live.setLatch_dropped (x : Latch) : (l.setLatch p x).dropped = l.dropped := rfl
@[simp] theorem Live.setLatch_jobs (x : Latch) : (l.setLatch p x).jobs = l.jobs := rfl
@[simp] theorem Live.setLatch_ifaces (x : Latch) : (l.setLatch p x).ifaces = l.ifaces := rfl
@[simp] theorem Live.setLatch_attn (x : Latch) : (l.setLatch p x).attn = l.attn := rfl

@[simp] theorem Live.setIface_ctxs (x : Iface) : (l.setIface p x).ctxs = l.ctxs := rfl
@[simp] theorem Live.setIface_assembly (x : Iface) : (l.setIface p x).assembly = l.assembly := rfl
@[simp] theorem Live.setIface_latch (x : Iface) : (l.setIface p x).latch = l.latch := rfl
@[simp] theorem Live.setIface_dropped (x : Iface) : (l.setIface p x).dropped = l.dropped := rfl
@[simp] theorem Live.setIface_jobs (x : Iface) : (l.setIface p x).jobs = l.jobs := rfl
@[simp] theorem Live.setIface_ifaces (x : Iface) : (l.setIface p x).ifaces = l.ifaces.set p x := rfl
@[simp] theorem Live.setIface_attn (x : Iface) : (l.setIface p x).attn = l.attn := rfl

@[simp] theorem Live.addJob_ctxs : (l.addJob j).ctxs = l.ctxs := rfl
@[simp] theorem Live.addJob_assembly : (l.addJob j).assembly = l.assembly := rfl
@[simp] theorem Live.addJob_latch : (l.addJob j).latch = l.latch := rfl
@[simp] theorem Live.addJob_dropped : (l.addJob j).dropped = l.dropped := rfl
@[simp] theorem Live.addJob_jobs : (l.addJob j).jobs = l.jobs ++ [⟨j, .waiting, none⟩] := rfl
@[simp] theorem Live.addJob_ifaces : (l.addJob j).ifaces = l.ifaces := rfl
@[simp] theorem Live.addJob_attn : (l.addJob j).attn = l.attn := rfl

@[simp] theorem Live.raise_ctxs : (l.raise c k).ctxs = l.ctxs := rfl
@[simp] theorem Live.raise_assembly : (l.raise c k).assembly = l.assembly := rfl
@[simp] theorem Live.raise_latch : (l.raise c k).latch = l.latch := rfl
@[simp] theorem Live.raise_dropped : (l.raise c k).dropped = l.dropped := rfl
@[simp] theorem Live.raise_jobs : (l.raise c k).jobs = l.jobs := rfl
@[simp] theorem Live.raise_ifaces : (l.raise c k).ifaces = l.ifaces := rfl
@[simp] theorem Live.raise_attn :
    (l.raise c k).attn = raiseRouted l.attn (l.ctxs[c].applied.route k) c k := rfl
end setters

/-! ## Operations on the queues, seen from the whole state -/

section onLive
variable (s : State) (f : Live → Live)

@[simp] theorem State.onLive_toLive : (s.onLive f).toLive = f s.toLive := rfl
@[simp] theorem State.onLive_pending : (s.onLive f).pending = s.pending := rfl
@[simp] theorem State.onLive_mem : (s.onLive f).mem = s.mem := rfl
@[simp] theorem State.onLive_cbsel : (s.onLive f).cbsel = s.cbsel := rfl
@[simp] theorem State.onLive_memsz : (s.onLive f).memsz = s.memsz := rfl
@[simp] theorem State.onLive_inReset : (s.onLive f).inReset = s.inReset := rfl
@[simp] theorem State.onLive_portReset : (s.onLive f).portReset = s.portReset := rfl
@[simp] theorem State.onLive_windows : (s.onLive f).windows = s.windows := rfl
@[simp] theorem State.onLive_globalWord : (s.onLive f).globalWord = s.globalWord := rfl
@[simp] theorem State.onLive_tick : (s.onLive f).tick = s.tick := rfl
@[simp] theorem State.onLive_prescaler : (s.onLive f).prescaler = s.prescaler := rfl
@[simp] theorem State.onLive_engineFault : (s.onLive f).engineFault = s.engineFault := rfl
@[simp] theorem State.onLive_configStatus : (s.onLive f).configStatus = s.configStatus := rfl
@[simp] theorem State.onLive_mirror : (s.onLive f).mirror = s.mirror := rfl
@[simp] theorem State.onLive_pointer : (s.onLive f).pointer = s.pointer := rfl
@[simp] theorem State.onLive_paths : (s.onLive f).paths = s.paths := rfl
@[simp] theorem State.onLive_busy : (s.onLive f).busy = s.busy := rfl
@[simp] theorem State.onLive_free : (s.onLive f).free = s.free := rfl
end onLive

/-! ## Answers -/

/-- What an OK answer does: nothing but the port's interface, and there only a transfer in HELD is answered. -/
theorem Live.answerOk_cases (l : Live) (p : Port) (a : Answer) :
    (∃ t d w, l.ifaces.get p = .held t d w ∧ l.answerOk p a = l.setIface p (.answering a)) ∨
      ((∀ t d w, l.ifaces.get p ≠ .held t d w) ∧ l.answerOk p a = l) := by
  unfold Live.answerOk
  split
  · next t d w h => exact .inl ⟨t, d, w, h, rfl⟩
  · next h => exact .inr ⟨h, rfl⟩

theorem Live.answerOk_held {l : Live} {p : Port} {t : Transfer} {d : Decode} {w : Option PathUnit} (a : Answer)
    (h : l.ifaces.get p = .held t d w) : l.answerOk p a = l.setIface p (.answering a) := by
  simp only [Live.answerOk, h]

theorem Live.answerError_held {l : Live} {p : Port} {t : Transfer} {d : Decode} {w : Option PathUnit} (k : FaultKind)
    (h : l.ifaces.get p = .held t d w) :
    l.answerError p k =
      { l with
        ifaces := l.ifaces.set p (.answering (.error k t.errorWords))
        attn := l.attn.set p ((l.attn.get p).capture k t d.windowIndex) } := by
  simp only [Live.answerError, h]

section answers
variable (l : Live) (p : Port) (a : Answer) (k : FaultKind)

@[simp] theorem Live.answerOk_ctxs : (l.answerOk p a).ctxs = l.ctxs := by unfold Live.answerOk; split <;> rfl
@[simp] theorem Live.answerOk_assembly : (l.answerOk p a).assembly = l.assembly := by
  unfold Live.answerOk; split <;> rfl
@[simp] theorem Live.answerOk_latch : (l.answerOk p a).latch = l.latch := by unfold Live.answerOk; split <;> rfl
@[simp] theorem Live.answerOk_dropped : (l.answerOk p a).dropped = l.dropped := by
  unfold Live.answerOk; split <;> rfl
@[simp] theorem Live.answerOk_jobs : (l.answerOk p a).jobs = l.jobs := by unfold Live.answerOk; split <;> rfl
@[simp] theorem Live.answerOk_attn : (l.answerOk p a).attn = l.attn := by unfold Live.answerOk; split <;> rfl

@[simp] theorem Live.answerError_ctxs : (l.answerError p k).ctxs = l.ctxs := by
  unfold Live.answerError; split <;> rfl
@[simp] theorem Live.answerError_assembly : (l.answerError p k).assembly = l.assembly := by
  unfold Live.answerError; split <;> rfl
@[simp] theorem Live.answerError_latch : (l.answerError p k).latch = l.latch := by
  unfold Live.answerError; split <;> rfl
@[simp] theorem Live.answerError_dropped : (l.answerError p k).dropped = l.dropped := by
  unfold Live.answerError; split <;> rfl
@[simp] theorem Live.answerError_jobs : (l.answerError p k).jobs = l.jobs := by
  unfold Live.answerError; split <;> rfl
end answers

/-! ## Counters -/

section counters
variable (l : Live) (c : Fin 8) (b : Bool) (n : Nat)

@[simp] theorem Live.raiseWrap_ctxs : (l.raiseWrap c b).ctxs = l.ctxs := by unfold Live.raiseWrap; split <;> rfl
@[simp] theorem Live.raiseWrap_assembly : (l.raiseWrap c b).assembly = l.assembly := by
  unfold Live.raiseWrap; split <;> rfl
@[simp] theorem Live.raiseWrap_latch : (l.raiseWrap c b).latch = l.latch := by unfold Live.raiseWrap; split <;> rfl
@[simp] theorem Live.raiseWrap_dropped : (l.raiseWrap c b).dropped = l.dropped := by
  unfold Live.raiseWrap; split <;> rfl
@[simp] theorem Live.raiseWrap_jobs : (l.raiseWrap c b).jobs = l.jobs := by unfold Live.raiseWrap; split <;> rfl
@[simp] theorem Live.raiseWrap_ifaces : (l.raiseWrap c b).ifaces = l.ifaces := by
  unfold Live.raiseWrap; split <;> rfl

@[simp] theorem Live.countRejected_ctxs : (l.countRejected c).ctxs =
    (l.modCtx c fun x => { x with rejected := x.rejected + 1, gap := true }).ctxs := by simp [Live.countRejected]
@[simp] theorem Live.countRejected_assembly : (l.countRejected c).assembly = l.assembly := by
  simp [Live.countRejected]
@[simp] theorem Live.countRejected_latch : (l.countRejected c).latch = l.latch := by simp [Live.countRejected]
@[simp] theorem Live.countRejected_dropped : (l.countRejected c).dropped = l.dropped := by simp [Live.countRejected]
@[simp] theorem Live.countRejected_jobs : (l.countRejected c).jobs = l.jobs := by simp [Live.countRejected]
@[simp] theorem Live.countRejected_ifaces : (l.countRejected c).ifaces = l.ifaces := by simp [Live.countRejected]

@[simp] theorem Live.reject_ctxs : (l.reject c).ctxs =
    (l.modCtx c fun x => { x with rejected := x.rejected + 1, gap := true }).ctxs := by simp [Live.reject]
@[simp] theorem Live.reject_assembly : (l.reject c).assembly = l.assembly := by simp [Live.reject]
@[simp] theorem Live.reject_latch : (l.reject c).latch = l.latch := by simp [Live.reject]
@[simp] theorem Live.reject_dropped : (l.reject c).dropped = l.dropped := by simp [Live.reject]
@[simp] theorem Live.reject_jobs : (l.reject c).jobs = l.jobs := by simp [Live.reject]
@[simp] theorem Live.reject_ifaces : (l.reject c).ifaces = l.ifaces := by simp [Live.reject]

@[simp] theorem Live.countDiscarded_ctxs : (l.countDiscarded c n).ctxs =
    (l.modCtx c fun x => { x with discarded := x.discarded + BitVec.ofNat 16 n, gap := true }).ctxs := by
  simp [Live.countDiscarded]
@[simp] theorem Live.countDiscarded_assembly : (l.countDiscarded c n).assembly = l.assembly := by
  simp [Live.countDiscarded]
@[simp] theorem Live.countDiscarded_latch : (l.countDiscarded c n).latch = l.latch := by simp [Live.countDiscarded]
@[simp] theorem Live.countDiscarded_dropped : (l.countDiscarded c n).dropped = l.dropped := by
  simp [Live.countDiscarded]
@[simp] theorem Live.countDiscarded_jobs : (l.countDiscarded c n).jobs = l.jobs := by simp [Live.countDiscarded]
@[simp] theorem Live.countDiscarded_ifaces : (l.countDiscarded c n).ifaces = l.ifaces := by
  simp [Live.countDiscarded]

@[simp] theorem Live.countPublished_ctxs : (l.countPublished c).ctxs =
    (l.modCtx c fun x => { x with published := x.published + 1 }).ctxs := by simp [Live.countPublished]
@[simp] theorem Live.countPublished_assembly : (l.countPublished c).assembly = l.assembly := by
  simp [Live.countPublished]
@[simp] theorem Live.countPublished_latch : (l.countPublished c).latch = l.latch := by simp [Live.countPublished]
@[simp] theorem Live.countPublished_dropped : (l.countPublished c).dropped = l.dropped := by
  simp [Live.countPublished]
@[simp] theorem Live.countPublished_jobs : (l.countPublished c).jobs = l.jobs := by simp [Live.countPublished]
@[simp] theorem Live.countPublished_ifaces : (l.countPublished c).ifaces = l.ifaces := by simp [Live.countPublished]

@[simp] theorem Live.countDelivered_ctxs : (l.countDelivered c).ctxs =
    (l.modCtx c fun x => { x with delivered := x.delivered + 1 }).ctxs := by simp [Live.countDelivered]
@[simp] theorem Live.countDelivered_assembly : (l.countDelivered c).assembly = l.assembly := by
  simp [Live.countDelivered]
@[simp] theorem Live.countDelivered_latch : (l.countDelivered c).latch = l.latch := by simp [Live.countDelivered]
@[simp] theorem Live.countDelivered_dropped : (l.countDelivered c).dropped = l.dropped := by
  simp [Live.countDelivered]
@[simp] theorem Live.countDelivered_jobs : (l.countDelivered c).jobs = l.jobs := by simp [Live.countDelivered]
@[simp] theorem Live.countDelivered_ifaces : (l.countDelivered c).ifaces = l.ifaces := by simp [Live.countDelivered]
end counters

end Sys2Proof.Machine
end

