-- ==== Sys2Proof/Laws/Close.lean ====
section
/-! SUPPORT. What the close of an event can do: nothing outside the queues and the mirror list, to a context only its
watermark, its fetch current flag and its marks, to the job list only context jobs at its end, to the attention
state only HIGH and LOW, and that only where a ready count changed. -/

namespace Sys2Proof.Machine

theorem foldl_preserves {α β : Type} (P : β → Prop) (f : β → α → β) (h : ∀ b a, P b → P (f b a)) :
    ∀ (xs : List α) (b : β), P b → P (xs.foldl f b)
  | [], _, hb => hb
  | a :: rest, b, hb => foldl_preserves P f h rest (f b a) (h b a hb)

/-! ## Events -/

theorem event_possible {possible : Bool} {s : State} {f : State → State} (h : possible = true)
    (hr : s.inReset = false) : event possible s f = .next (closeEvent s (f s)) := by
  simp [event, h, hr]

theorem event_impossible {possible : Bool} {s : State} {f : State → State} (h : possible = false) :
    event possible s f = .next s := by
  simp [event, h]

/-- An event answers the closed state or leaves the state as it is. -/
theorem event_cases {possible : Bool} {s t : State} {f : State → State} (h : event possible s f = .next t) :
    (possible = true ∧ s.inReset = false ∧ t = closeEvent s (f s)) ∨ t = s := by
  simp only [event, Host.Outcome.next.injEq] at h
  by_cases hp : possible && !s.inReset
  · simp only [hp, if_true] at h
    simp only [Bool.and_eq_true, Bool.not_eq_true'] at hp
    exact .inl ⟨hp.1, hp.2, h.symm⟩
  · simp only [hp] at h
    exact .inr h.symm

/-! ## Outside the queues -/

section closeEvent
variable (s t : State)

@[simp] theorem closeEvent_outer : (closeEvent s t).outer = t.outer := rfl
@[simp] theorem closeEvent_pending : (closeEvent s t).pending = t.pending := rfl
@[simp] theorem closeEvent_mem : (closeEvent s t).mem = t.mem := rfl
@[simp] theorem closeEvent_cbsel : (closeEvent s t).cbsel = t.cbsel := rfl
@[simp] theorem closeEvent_memsz : (closeEvent s t).memsz = t.memsz := rfl
@[simp] theorem closeEvent_inReset : (closeEvent s t).inReset = t.inReset := rfl
@[simp] theorem closeEvent_portReset : (closeEvent s t).portReset = t.portReset := rfl
@[simp] theorem closeEvent_windows : (closeEvent s t).windows = t.windows := rfl
@[simp] theorem closeEvent_globalWord : (closeEvent s t).globalWord = t.globalWord := rfl
@[simp] theorem closeEvent_tick : (closeEvent s t).tick = t.tick := rfl
@[simp] theorem closeEvent_prescaler : (closeEvent s t).prescaler = t.prescaler := rfl
@[simp] theorem closeEvent_engineFault : (closeEvent s t).engineFault = t.engineFault := rfl
@[simp] theorem closeEvent_configStatus : (closeEvent s t).configStatus = t.configStatus := rfl
@[simp] theorem closeEvent_pointer : (closeEvent s t).pointer = t.pointer := rfl
@[simp] theorem closeEvent_paths : (closeEvent s t).paths = t.paths := rfl
@[simp] theorem closeEvent_busy : (closeEvent s t).busy = t.busy := rfl
@[simp] theorem closeEvent_free : (closeEvent s t).free = t.free := rfl

theorem closeEvent_toLive :
    (closeEvent s t).toLive = closeJobs s.toLive (closeWatermarks s.toLive t.toLive) := rfl

/-- The items that the event dirtied join the end of the mirror list (R146). -/
theorem closeEvent_mirror : ∃ u : State, u.mirror = t.mirror ∧ u.toLive = (closeEvent s t).toLive ∧
    u.configStatus = t.configStatus ∧ u.engineFault = t.engineFault ∧
    (closeEvent s t).mirror = t.mirror ++ dirtied s (closeWatermarks s.toLive t.toLive) u :=
  ⟨{ t with toLive := closeJobs s.toLive (closeWatermarks s.toLive t.toLive) }, rfl, rfl, rfl, rfl, rfl⟩

end closeEvent

theorem State.onLive_outer (s : State) (f : Live → Live) : (s.onLive f).outer = s.outer := rfl

/-! ## Watermarks -/

section closeWatermarks
variable (b l : Live) (c : Fin 8)

@[simp] theorem closeWatermarks_assembly : (closeWatermarks b l).assembly = l.assembly := rfl
@[simp] theorem closeWatermarks_latch : (closeWatermarks b l).latch = l.latch := rfl
@[simp] theorem closeWatermarks_dropped : (closeWatermarks b l).dropped = l.dropped := rfl
@[simp] theorem closeWatermarks_jobs : (closeWatermarks b l).jobs = l.jobs := rfl
@[simp] theorem closeWatermarks_ifaces : (closeWatermarks b l).ifaces = l.ifaces := rfl

@[simp] theorem closeWatermarks_ctxs : (closeWatermarks b l).ctxs[c.val] =
    { l.ctxs[c.val] with watermark := (closeWatermark b.ctxs[c.val] l.ctxs[c.val]).1 } := by
  simp [closeWatermarks]

/-- The watermarks leave the marks of the event as they are. -/
@[simp] theorem closeWatermarks_marksItem (i : Item) : (closeWatermarks b l).marksItem i = l.marksItem i := by
  cases i <;> simp [Live.marksItem]

/-- Where no ready count changed, no watermark is evaluated and nothing is raised (R76, log 20). -/
theorem closeWatermarks_of_ready (h : ∀ d : Fin 8, b.ctxs[d.val].ready = l.ctxs[d.val].ready) :
    closeWatermarks b l = l := by
  have hw : ∀ d : Fin 8, closeWatermark b.ctxs[d.val] l.ctxs[d.val] = (l.ctxs[d.val].watermark, none) := by
    intro d
    simp [closeWatermark, h d]
  have h1 : (closeWatermarks b l).ctxs = l.ctxs := by
    apply Vector.ext
    intro i hi
    have := closeWatermarks_ctxs b l ⟨i, hi⟩
    simp only [hw ⟨i, hi⟩] at this
    exact this
  have h2 : (closeWatermarks b l).attn = l.attn := by
    simp only [closeWatermarks]
    apply foldl_preserves (fun a => a = l.attn)
    · intro a d ha
      have := hw d
      simp only [Fin.getElem_fin, this]
      exact ha
    · rfl
  calc closeWatermarks b l
      = { l with ctxs := (closeWatermarks b l).ctxs, attn := (closeWatermarks b l).attn } := rfl
    _ = l := by rw [h1, h2]

end closeWatermarks

/-! ## Jobs -/

/-- What placing a context's jobs can do. -/
structure Live.Placed (l m : Live) : Prop where
  core      : ∀ d : Fin 8, m.ctxs[d.val].core = l.ctxs[d.val].core
  watermark : ∀ d : Fin 8, m.ctxs[d.val].watermark = l.ctxs[d.val].watermark
  assembly  : m.assembly = l.assembly
  latch     : m.latch = l.latch
  dropped   : m.dropped = l.dropped
  ifaces    : m.ifaces = l.ifaces
  attn      : m.attn = l.attn
  jobs      : ∃ new, m.jobs = l.jobs ++ new ∧ ∀ e ∈ new, e.job.owner = none ∧ e.phase = .waiting ∧ e.target = none

theorem Live.Placed.refl (l : Live) : l.Placed l :=
  ⟨fun _ => rfl, fun _ => rfl, rfl, rfl, rfl, rfl, rfl, [], by simp, by simp⟩

theorem Live.Placed.trans {l m n : Live} (h : l.Placed m) (k : m.Placed n) : l.Placed n := by
  obtain ⟨n1, e1, p1⟩ := h.jobs
  obtain ⟨n2, e2, p2⟩ := k.jobs
  refine ⟨fun d => (k.core d).trans (h.core d), fun d => (k.watermark d).trans (h.watermark d),
    k.assembly.trans h.assembly, k.latch.trans h.latch, k.dropped.trans h.dropped, k.ifaces.trans h.ifaces,
    k.attn.trans h.attn, n1 ++ n2, by rw [e2, e1, List.append_assoc], ?_⟩
  intro e he
  rcases List.mem_append.mp he with he | he
  · exact p1 e he
  · exact p2 e he

theorem Live.placed_addJob (l : Live) (j : Job) (h : j.owner = none) : l.Placed (l.addJob j) :=
  ⟨fun _ => rfl, fun _ => rfl, rfl, rfl, rfl, rfl, rfl, [⟨j, .waiting, none⟩], rfl, by simp [h]⟩

theorem Live.placed_modCtx (l : Live) (c : Fin 8) (f : Ctx → Ctx) (hc : ∀ x, (f x).core = x.core)
    (hw : ∀ x, (f x).watermark = x.watermark) : l.Placed (l.modCtx c f) := by
  refine ⟨?_, ?_, rfl, rfl, rfl, rfl, rfl, [], by simp, by simp⟩
  · intro d
    rw [Live.modCtx_ctxs]
    split
    · next h => rw [hc, h]
    · rfl
  · intro d
    rw [Live.modCtx_ctxs]
    split
    · next h => rw [hw, h]
    · rfl

theorem Live.placed_placeFetch (l : Live) (c : Fin 8) : l.Placed (l.placeFetch c) := by
  unfold Live.placeFetch
  split
  · exact (l.placed_addJob _ rfl).trans (Live.placed_modCtx _ _ _ (fun _ => rfl) fun _ => rfl)
  · exact .refl l

theorem Live.placed_placeSignal (b l : Live) (c : Fin 8) : l.Placed (Live.placeSignal b l c) := by
  unfold Live.placeSignal
  split
  · exact (l.placed_addJob _ rfl).trans (Live.placed_modCtx _ _ _ (fun _ => rfl) fun _ => rfl)
  · exact Live.placed_modCtx _ _ _ (fun _ => rfl) fun _ => rfl

/-- Everything that placing the jobs of an event can do (R80, R85, R156). -/
theorem placed_closeJobs (b l : Live) : l.Placed (closeJobs b l) := by
  unfold closeJobs
  apply foldl_preserves (fun m => l.Placed m)
  · intro m c hm
    exact (hm.trans (m.placed_placeFetch c)).trans (Live.placed_placeSignal b _ c)
  · exact .refl l

/-! ## After the watermarks -/

section settle
variable (s t : State)

@[simp] theorem settle_outer : (settle s t).outer = t.outer := rfl

theorem settle_toLive : (settle s t).toLive = closeJobs s.toLive t.toLive := rfl

/-- Everything that comes after the watermarks can do to the live state. -/
theorem settle_placed : t.toLive.Placed (settle s t).toLive := placed_closeJobs _ _

/-- The items that the event dirtied join the end of the mirror list (R146). -/
theorem settle_mirror : ∃ u : State, u.mirror = t.mirror ∧ u.toLive = (settle s t).toLive ∧
    u.configStatus = t.configStatus ∧ u.engineFault = t.engineFault ∧
    (settle s t).mirror = t.mirror ++ dirtied s t.toLive u :=
  ⟨{ t with toLive := closeJobs s.toLive t.toLive }, rfl, rfl, rfl, rfl, rfl⟩

theorem closeEvent_eq_settle : closeEvent s t = settle s (t.onLive fun l => closeWatermarks s.toLive l) := rfl

/-- Where the event changed no ready count, what comes after the watermarks is the whole close. -/
theorem settle_eq_closeEvent (h : ∀ c : Fin 8, s.ctxs[c.val].ready = t.ctxs[c.val].ready) :
    settle s t = closeEvent s t := by
  unfold closeEvent
  rw [closeWatermarks_of_ready _ _ h]

end settle

/-! ## The whole close -/

section close
variable (s t : State)

@[simp] theorem closeEvent_assembly : (closeEvent s t).assembly = t.assembly := by
  rw [closeEvent_toLive, (placed_closeJobs _ _).assembly, closeWatermarks_assembly]

@[simp] theorem closeEvent_latch : (closeEvent s t).latch = t.latch := by
  rw [closeEvent_toLive, (placed_closeJobs _ _).latch, closeWatermarks_latch]

@[simp] theorem closeEvent_dropped : (closeEvent s t).dropped = t.dropped := by
  rw [closeEvent_toLive, (placed_closeJobs _ _).dropped, closeWatermarks_dropped]

@[simp] theorem closeEvent_ifaces : (closeEvent s t).ifaces = t.ifaces := by
  rw [closeEvent_toLive, (placed_closeJobs _ _).ifaces, closeWatermarks_ifaces]

@[simp] theorem closeEvent_core (c : Fin 8) : (closeEvent s t).ctxs[c.val].core = t.ctxs[c.val].core := by
  rw [closeEvent_toLive, (placed_closeJobs _ _).core, closeWatermarks_ctxs]
  rfl

/-- The watermark a context is left with (R76). -/
theorem closeEvent_watermark (c : Fin 8) :
    (closeEvent s t).ctxs[c.val].watermark = (closeWatermark s.ctxs[c.val] t.ctxs[c.val]).1 := by
  rw [closeEvent_toLive, (placed_closeJobs _ _).watermark, closeWatermarks_ctxs]

theorem closeEvent_jobs : ∃ new, (closeEvent s t).jobs = t.jobs ++ new ∧
    ∀ e ∈ new, e.job.owner = none ∧ e.phase = .waiting ∧ e.target = none := by
  rw [closeEvent_toLive]
  exact (placed_closeJobs _ _).jobs

@[simp] theorem closeEvent_portJobs : (closeEvent s t).portJobs = t.portJobs := by
  obtain ⟨new, h, hn⟩ := closeEvent_jobs s t
  have hz : new.filter (fun e => e.job.owner.isSome) = [] := by
    rw [List.filter_eq_nil_iff]
    intro e he
    simp [(hn e he).1]
  simp [Live.portJobs, h, hz]

theorem closeEvent_attn_of_ready (h : ∀ c : Fin 8, s.ctxs[c.val].ready = t.ctxs[c.val].ready) :
    (closeEvent s t).attn = t.attn := by
  rw [closeEvent_toLive, (placed_closeJobs _ _).attn, closeWatermarks_of_ready _ _ h]

theorem closeEvent_watermark_of_ready (c : Fin 8) (h : s.ctxs[c.val].ready = t.ctxs[c.val].ready) :
    (closeEvent s t).ctxs[c.val].watermark = t.ctxs[c.val].watermark := by
  rw [closeEvent_watermark]
  simp [closeWatermark, h]

theorem closeEvent_sameQueues (h : s.toLive.SameQueues t.toLive) :
    s.toLive.SameQueues (closeEvent s t).toLive :=
  ⟨fun c => (closeEvent_core s t c).trans (h.ctxs c), (closeEvent_assembly s t).trans h.assembly,
    (closeEvent_latch s t).trans h.latch, (closeEvent_dropped s t).trans h.dropped⟩

end close

/-! ## Fields read off the core of a context -/

section core
variable {x y : Ctx}

theorem Ctx.core_ready (h : x.core = y.core) : x.ready = y.ready := (Ctx.mk.inj h).2.2.2.1
theorem Ctx.core_eq_fields (h : x.core = y.core) :
    x.applied = y.applied ∧ x.staged = y.staged ∧ x.initialised = y.initialised ∧ x.release = y.release ∧
      x.head = y.head ∧ x.tail = y.tail ∧ x.depth = y.depth ∧ x.writingRun = y.writingRun ∧ x.heldRun = y.heldRun ∧
      x.seq = y.seq ∧ x.gap = y.gap ∧ x.published = y.published ∧ x.delivered = y.delivered ∧
      x.discarded = y.discarded ∧ x.rejected = y.rejected ∧ x.held = y.held ∧ x.pendingFlush = y.pendingFlush ∧
      x.cache.stamp = y.cache.stamp ∧ x.cache.valid = y.cache.valid ∧ x.cache.staleRaised = y.cache.staleRaised ∧
      x.cache.fetchFailed = y.cache.fetchFailed := by
  obtain ⟨h1, h2, h3, _, h5, h6, h7, h8, h9, h10, h11, h12, h13, h14, h15, h16, _, h18, h19, h20, _⟩ := Ctx.mk.inj h
  obtain ⟨k1, k2, k3, _, k5⟩ := StampCache.mk.inj h18
  exact ⟨h1, h2, h3, h5, h6, h7, h8, h9, h10, h11, h12, h13, h14, h15, h16, h19, h20, k1, k2, k3, k5⟩

/-- The four status words of a context depend on its core and its watermark alone (R145). -/
theorem Ctx.statusWords_eq (h : x.core = y.core) (hw : x.watermark = y.watermark) : x.statusWords = y.statusWords := by
  obtain ⟨h1, _, h3, _, _, _, _, h8, h9, h10, _, h12, h13, h14, h15, _, _, k1, k2, k3, _⟩ := Ctx.core_eq_fields h
  have hr := Ctx.core_ready h
  simp only [Ctx.statusWords, Ctx.heldCount, Ctx.writing, Ctx.inCopy, Ctx.isLifo, h1, h3, h8, h9, h10, h12, h13, h14,
    h15, k1, k2, k3, hr, hw]

end core

/-- An item is marked where its context's mark is set, and no other is (R20). -/
theorem Live.marksItem_eq_true {l : Live} {i : Item} :
    l.marksItem i = true ↔ ∃ c : Fin 8, i = .context c ∧ l.ctxs[c.val].statusDue = true := by
  cases i <;> simp [Live.marksItem]

/-- Where nothing is marked and the attention state, the shared records, the contexts' cores and their watermarks are
unchanged, no item is dirtied (R146). -/
theorem dirtied_eq_nil (s u : State) (l : Live) (hl : ∀ c : Fin 8, l.ctxs[c.val].statusDue = false)
    (ha : u.attn = s.attn) (hc : u.configStatus = s.configStatus)
    (he : u.engineFault = s.engineFault) (hx : ∀ c : Fin 8, u.ctxs[c.val].core = s.ctxs[c.val].core)
    (hw : ∀ c : Fin 8, u.ctxs[c.val].watermark = s.ctxs[c.val].watermark) : dirtied s l u = [] := by
  have hm : ∀ i : Item, l.marksItem i = false := by
    intro i
    rw [← Bool.not_eq_true, Live.marksItem_eq_true]
    rintro ⟨c, -, h⟩
    simp [hl c] at h
  have hi : ∀ i : Item, s.itemWords i = u.itemWords i := by
    intro i
    cases i with
    | summary p => simp only [State.itemWords, ha]
    | notice p c => simp only [State.itemWords, ha]
    | faultRecord p => simp only [State.itemWords, ha]
    | configStatus => simp only [State.itemWords, hc]
    | engineFault => simp only [State.itemWords, he]
    | context c =>
      simp only [State.itemWords, Fin.getElem_fin]
      exact (Ctx.statusWords_eq (hx c) (hw c)).symm
  simp [dirtied, hi, hm]

/-- An event that moves no ready count and leaves attention state, shared records and contexts as they were reports
nothing: no notice, no watermark, no dirty item. -/
theorem closeEvent_sameReports (s t : State) (ha : t.attn = s.attn) (hc : t.configStatus = s.configStatus)
    (he : t.engineFault = s.engineFault) (hm : t.mirror = s.mirror)
    (hd : ∀ c : Fin 8, t.ctxs[c.val].statusDue = false) (hx : ∀ c : Fin 8, t.ctxs[c.val].core = s.ctxs[c.val].core)
    (hw : ∀ c : Fin 8, t.ctxs[c.val].watermark = s.ctxs[c.val].watermark) : s.SameReports (closeEvent s t) := by
  have hr : ∀ c : Fin 8, s.ctxs[c.val].ready = t.ctxs[c.val].ready := fun c => (Ctx.core_ready (hx c)).symm
  have h1 : (closeEvent s t).attn = s.attn := (closeEvent_attn_of_ready s t hr).trans ha
  have h2 : ∀ c : Fin 8, (closeEvent s t).ctxs[c.val].watermark = s.ctxs[c.val].watermark :=
    fun c => (closeEvent_watermark_of_ready s t c (hr c)).trans (hw c)
  refine ⟨h1, h2, ?_⟩
  obtain ⟨u, hu1, hu2, hu3, hu4, hu5⟩ := closeEvent_mirror s t
  rw [hu5, dirtied_eq_nil s u, hm, List.append_nil]
  · intro c
    rw [closeWatermarks_ctxs]
    exact hd c
  · rw [hu2]; exact h1
  · rw [hu3, hc]
  · rw [hu4, he]
  · intro c
    rw [hu2]
    exact (closeEvent_core s t c).trans (hx c)
  · intro c
    rw [hu2]
    exact h2 c

/-! ## Events that leave the contexts alone -/

theorem Live.modCtx_eq_self (l : Live) (c : Fin 8) (f : Ctx → Ctx) (h : f l.ctxs[c.val] = l.ctxs[c.val]) :
    l.modCtx c f = l := by
  have hs : l.ctxs.set c (f l.ctxs[c]) = l.ctxs := by
    simp only [Fin.getElem_fin, h]
    exact Vector.set_getElem_self (i := c.val) c.isLt
  calc l.modCtx c f = { l with ctxs := l.ctxs.set c (f l.ctxs[c]) } := rfl
    _ = l := by rw [hs]

theorem State.JobsPlaced.of_eq {s t : State} (h : s.JobsPlaced) (hc : t.ctxs = s.ctxs) (hj : t.jobs = s.jobs) :
    t.JobsPlaced := by
  intro c
  have := h c
  simpa only [Live.needsFetch, hc, hj] using this

/-- An event that changes no context and owes no job places none: its close only lets the dirty items join (R146). -/
theorem closeEvent_contexts {s t : State} (hc : t.ctxs = s.ctxs) (hj : t.JobsPlaced) :
    closeEvent s t = { t with mirror := t.mirror ++ dirtied s t.toLive t } := by
  have hw : closeWatermarks s.toLive t.toLive = t.toLive :=
    closeWatermarks_of_ready _ _ fun d => by rw [hc]
  have hk : closeJobs s.toLive t.toLive = t.toLive := by
    unfold closeJobs
    apply foldl_preserves (fun m => m = t.toLive)
    · intro m c hm
      subst hm
      have h1 : t.toLive.placeFetch c = t.toLive := by simp [Live.placeFetch, (hj c).1]
      have h2 : t.toLive.ctxs[c.val].signalDue = false := (hj c).2.1
      have h5 : t.toLive.ctxs[c.val].statusDue = false := (hj c).2.2
      have h3 : Live.needsSignal s.toLive t.toLive c = false := by
        have h4 : s.toLive.ctxs[c.val].signalDue = false := hc ▸ h2
        simp [Live.needsSignal, h4, hc]
      rw [h1]
      simp only [Live.placeSignal, h3, Bool.false_eq_true, if_false]
      refine Live.modCtx_eq_self _ _ _ ?_
      calc ({ t.toLive.ctxs[c.val] with signalDue := false, statusDue := false } : Ctx)
          = { t.toLive.ctxs[c.val] with
              signalDue := t.toLive.ctxs[c.val].signalDue
              statusDue := t.toLive.ctxs[c.val].statusDue } := by rw [h2, h5]
        _ = t.toLive.ctxs[c.val] := rfl
    · rfl
  unfold closeEvent settle
  simp only [hw, hk]

/-- An event that changes no context, no attention state and no shared record changes nothing at its close. -/
theorem closeEvent_quiet {s t : State} (h : s.JobsPlaced) (hc : t.ctxs = s.ctxs) (hj : t.jobs = s.jobs)
    (ha : t.attn = s.attn) (hs : t.configStatus = s.configStatus) (he : t.engineFault = s.engineFault) :
    closeEvent s t = t := by
  rw [closeEvent_contexts hc (h.of_eq hc hj), dirtied_eq_nil s t t.toLive (fun c => ((h.of_eq hc hj) c).2.2) ha hs he (fun c => by rw [hc])
    fun c => by rw [hc]]
  simp

end Sys2Proof.Machine
end

