-- ==== Sys2Proof/Laws/Exec.lean ====
section
/-! SUPPORT. What exec answers for each command: its meaning, one lemma a command, so that no proof unfolds the
dispatch. -/

namespace Sys2Proof.Machine

section exec
variable (s : State)

theorem exec_transferArrival (p : Port) (t : Transfer) :
    exec (.transferArrival p t) s = execTransferArrival p t s := rfl
theorem exec_requestWithdrawal (p : Port) : exec (.requestWithdrawal p) s = execRequestWithdrawal p s := rfl
theorem exec_passThrough (p : Port) : exec (.passThrough p) s = execPassThrough p s := rfl
theorem exec_plainWindowTransfer (p : Port) : exec (.plainWindowTransfer p) s = execPlainWindowTransfer p s := rfl
theorem exec_unmapped (p : Port) : exec (.unmapped p) s = execUnmapped p s := rfl
theorem exec_cbRead (p : Port) : exec (.cbRead p) s = execCbRead p s := rfl
theorem exec_cbWrite (p : Port) : exec (.cbWrite p) s = execCbWrite p s := rfl
theorem exec_push (p : Port) : exec (.push p) s = execPush p s := rfl
theorem exec_pushLast (p : Port) : exec (.pushLast p) s = execPushLast p s := rfl
theorem exec_pop (p : Port) : exec (.pop p) s = execPop p s := rfl
theorem exec_peek (p : Port) : exec (.peek p) s = execPeek p s := rfl
theorem exec_state (p : Port) : exec (.state p) s = execState p s := rfl
theorem exec_bitfieldTransfer (p : Port) : exec (.bitfieldTransfer p) s = execBitfieldTransfer p s := rfl
theorem exec_bitfieldPlainWrite : exec .bitfieldPlainWrite s = execBitfieldPlainWrite s := rfl
theorem exec_set : exec .set s = execSet s := rfl
theorem exec_clear : exec .clear s = execClear s := rfl
theorem exec_toggle : exec .toggle s = execToggle s := rfl
theorem exec_bitfieldPlainRead : exec .bitfieldPlainRead s = execBitfieldPlainRead s := rfl
theorem exec_fetchAndClear : exec .fetchAndClear s = execFetchAndClear s := rfl
theorem exec_compareRead : exec .compareRead s = execCompareRead s := rfl
theorem exec_arbiterGrant : exec .arbiterGrant s = execArbiterGrant s := rfl
theorem exec_jobPresentation (prefer : Port) : exec (.jobPresentation prefer) s = execJobPresentation prefer s := rfl
theorem exec_portReadCompletion : exec .portReadCompletion s = execPortReadCompletion s := rfl
theorem exec_portWriteCompletion : exec .portWriteCompletion s = execPortWriteCompletion s := rfl
theorem exec_noticeWordReadClear : exec .noticeWordReadClear s = execNoticeWordReadClear s := rfl
theorem exec_peekReadCompletion : exec .peekReadCompletion s = execPeekReadCompletion s := rfl
theorem exec_entryWriteCompletion : exec .entryWriteCompletion s = execEntryWriteCompletion s := rfl
theorem exec_entryCopyCompletion : exec .entryCopyCompletion s = execEntryCopyCompletion s := rfl
theorem exec_stampFetchCompletion : exec .stampFetchCompletion s = execStampFetchCompletion s := rfl
theorem exec_signalUpdateGrant : exec .signalUpdateGrant s = execSignalUpdateGrant s := rfl
theorem exec_signalUpdateCompletion : exec .signalUpdateCompletion s = execSignalUpdateCompletion s := rfl
theorem exec_mirrorWrite : exec .mirrorWrite s = execMirrorWrite s := rfl
theorem exec_globalWord : exec .globalWord s = execGlobalWord s := rfl
theorem exec_enableWord : exec .enableWord s = execEnableWord s := rfl
theorem exec_ackConfig : exec .ackConfig s = execAckConfig s := rfl
theorem exec_ackFault : exec .ackFault s = execAckFault s := rfl
theorem exec_ackEngine : exec .ackEngine s = execAckEngine s := rfl
theorem exec_contextAck : exec .contextAck s = execContextAck s := rfl
theorem exec_stageRecordWord : exec .stageRecordWord s = execStageRecordWord s := rfl
theorem exec_windowRecordApply : exec .windowRecordApply s = execWindowRecordApply s := rfl
theorem exec_contextRecordApply : exec .contextRecordApply s = execContextRecordApply s := rfl
theorem exec_flush : exec .flush s = execFlush s := rfl
theorem exec_cbPlainWrite : exec .cbPlainWrite s = execCbPlainWrite s := rfl
theorem exec_tick (order : List TickPart) : exec (.tick order) s = execTick order s := rfl
theorem exec_idleExpiry (p : Port) : exec (.idleExpiry p) s = execIdleExpiry p s := rfl
theorem exec_stallExpiry (p : Port) : exec (.stallExpiry p) s = execStallExpiry p s := rfl
theorem exec_waitExpiry (p : Port) : exec (.waitExpiry p) s = execWaitExpiry p s := rfl
theorem exec_holdoffExpiry (c : Fin 8) : exec (.holdoffExpiry c) s = execHoldoffExpiry c s := rfl
theorem exec_stale (c : Fin 8) : exec (.stale c) s = execStale c s := rfl
theorem exec_portReset (p : Port) (late : Vector (BitVec 8) 8) :
    exec (.portReset p late) s = execPortReset p late s := rfl
theorem exec_portResetRelease (p : Port) (standing : Option Transfer) :
    exec (.portResetRelease p standing) s = execPortResetRelease p standing s := rfl
theorem exec_powerOnReset (cbsel memsz : BitVec 2) :
    exec (.powerOnReset cbsel memsz) s = execPowerOnReset cbsel memsz s := rfl
theorem exec_powerOnResetRelease (standingA standingB : Option Transfer) :
    exec (.powerOnResetRelease standingA standingB) s = execPowerOnResetRelease standingA standingB s := rfl
theorem exec_mirrorUnitCompletion : exec .mirrorUnitCompletion s = execMirrorUnitCompletion s := rfl

end exec

end Sys2Proof.Machine
end

