-- ==== Sys2Proof/Laws/Complete.lean ====
section
/-! SUPPORT. The unit in progress at its completion: which unit it is, and what leaves the path or the job list. -/

namespace Sys2Proof.Machine

/-! ## Units on a port path (R151) -/

section unit
variable {s : State} {p : Port} {u : PathUnit} {t : Transfer} {d : Decode}

theorem State.PortUnit.currentUnit (h : s.PortUnit p u) : s.currentUnit = some (p, u) := by
  unfold State.currentUnit
  rw [h.busy]
  simp [h.path]

theorem State.PortUnit.unitIs (h : s.PortUnit p u) {f : UnitWork → Bool} (hf : f u.work = true) :
    s.unitIs f = true := by
  unfold State.unitIs
  rw [h.currentUnit]
  exact hf

theorem State.PortUnit.busyWrites (h : s.PortUnit p u) : s.busyWrites = u.writes s.mem := by
  unfold State.busyWrites
  rw [h.busy]
  simp only [h.path]

/-- The unit of a port that waits for its answer leaves the path, its words written, and the port is answered. -/
theorem State.WantedUnit.completeUnit (h : s.WantedUnit p u t d) (answer : Live → Live) :
    s.completeUnit p u answer =
      ({ s.pathFreed p with mem := s.mem.applyWrites (u.writes s.mem) }).onLive answer := by
  unfold State.completeUnit State.leavePath
  simp only [h.wanted, if_true]
  have hi : s.finishUnit.ifaces.get p = .held t d none := h.held
  rw [hi]
  simp only [State.finishUnit, h.toPortUnit.busyWrites, State.pathFreed]

/-- The unit of a port that was reset leaves the path, its words written, and nobody is answered (R151). -/
theorem State.PortUnit.completeUnit_unwanted (h : s.PortUnit p u) (hw : u.wanted = false)
    (hi : ∀ t d v, s.ifaces.get p ≠ .held t d (some v)) (answer : Live → Live) :
    s.completeUnit p u answer = { s.pathFreed p with mem := s.mem.applyWrites (u.writes s.mem) } := by
  unfold State.completeUnit State.leavePath
  simp only [hw, Bool.false_eq_true, if_false]
  split
  · next t d v e => exact absurd e (hi t d v)
  · simp only [State.finishUnit, h.busyWrites, State.pathFreed]

/-- As above, where a transfer waits in HELD for the path: it is handed down in that event (R163). -/
theorem State.PortUnit.completeUnit_waiting (h : s.PortUnit p u) (hw : u.wanted = false) {v : PathUnit}
    (hi : s.ifaces.get p = .held t d (some v)) (answer : Live → Live) :
    s.completeUnit p u answer = { s with
      mem := s.mem.applyWrites (u.writes s.mem)
      busy := none
      paths := s.paths.set p (some v)
      ifaces := s.ifaces.set p (.held t d none) } := by
  unfold State.completeUnit State.leavePath
  simp only [hw, Bool.false_eq_true, if_false]
  have hi' : s.finishUnit.ifaces.get p = .held t d (some v) := hi
  rw [hi']
  simp only [State.finishUnit, h.busyWrites]
  rfl

/-- The end of a unit whose port was reset, as one state: with a transfer that waits for the path, or without. -/
theorem State.PortUnit.completeUnit_dropped (h : s.PortUnit p u) (hw : u.wanted = false) (answer : Live → Live) :
    s.completeUnit p u answer = s.endsUnanswered p (s.mem.applyWrites (u.writes s.mem)) := by
  unfold State.endsUnanswered
  split
  · next t d v e => exact h.completeUnit_waiting hw e answer
  · next e => exact h.completeUnit_unwanted hw e answer

/-- What the end of a unit whose port was reset leaves of the queues and the reports (R151). -/
theorem State.endsUnanswered_same (s : State) (p : Port) (m : Memory) :
    (s.endsUnanswered p m).ctxs = s.ctxs ∧ (s.endsUnanswered p m).jobs = s.jobs ∧
      (s.endsUnanswered p m).attn = s.attn ∧ (s.endsUnanswered p m).configStatus = s.configStatus ∧
      (s.endsUnanswered p m).engineFault = s.engineFault ∧ (s.endsUnanswered p m).mem = m := by
  unfold State.endsUnanswered
  split <;> exact ⟨rfl, rfl, rfl, rfl, rfl, rfl⟩

/-- So the event of such an end closes with nothing to report. -/
theorem closeEvent_endsUnanswered (hj : s.JobsPlaced) (m : Memory) :
    closeEvent s (s.endsUnanswered p m) = s.endsUnanswered p m := by
  obtain ⟨hc, h1, h2, h3, h4, _⟩ := s.endsUnanswered_same p m
  exact closeEvent_quiet hj hc h1 h2 h3 h4

/-- The OK answer of a unit whose transfer waits in HELD. -/
theorem State.WantedUnit.answerOk (h : s.WantedUnit p u t d) (m : Memory) (a : Answer) :
    ({ s.pathFreed p with mem := m }).onLive (fun l => l.answerOk p a) =
      { s.pathFreed p with mem := m, ifaces := s.ifaces.set p (.answering a) } :=
  congrArg (fun l => ({ s.pathFreed p with mem := m, toLive := l } : State)) (Live.answerOk_held (l := s.toLive) a h.held)

/-- The ERROR answer of a unit whose transfer waits in HELD. -/
theorem State.WantedUnit.answerError (h : s.WantedUnit p u t d) (m : Memory) (k : FaultKind) :
    ({ s.pathFreed p with mem := m }).onLive (fun l => l.answerError p k) =
      ({ s.pathFreed p with mem := m }).erred p k t d.windowIndex :=
  congrArg (fun l => ({ s.pathFreed p with mem := m, toLive := l } : State)) (Live.answerError_held (l := s.toLive) k h.held)

end unit

/-! ## Jobs of the list (R156, R157) -/

section job
variable {s : State} {j : Job} {rest : List JobEntry}

theorem State.JobUnit.currentJob (h : s.JobUnit j rest) : s.currentJob = some j := by
  unfold State.currentJob
  rw [h.busy]
  exact h.job

/-- The job in progress leaves the list, its words written, and the memory port is idle. -/
theorem State.JobUnit.leaveJob (h : s.JobUnit j rest) :
    s.leaveJob = { s with mem := s.mem.applyWrites s.busyWrites, busy := none, jobs := rest } := by
  have hr := h.rest
  simp only [State.leaveJob, State.onLive, State.finishUnit, hr]

theorem State.JobUnit.busyWrites_entryWrite {c : Fin 8} {slot address : Nat} {head : Word} {payload : List Word}
    {p : Port} (h : s.JobUnit (.entryWrite c slot address head payload p) rest) :
    s.busyWrites =
      burstWrites address ((head :: payload).map fun _ => allEnabled) (head :: payload) := by
  unfold State.busyWrites
  rw [h.busy]
  simp only [h.job, fullEnables]

theorem State.JobUnit.busyWrites_entryCopy {c : Fin 8} {slot address payloadMax : Nat} {p : Port}
    (h : s.JobUnit (.entryCopy c slot address payloadMax p) rest) : s.busyWrites = [] := by
  unfold State.busyWrites
  rw [h.busy]
  simp only [h.job]

theorem State.JobUnit.busyWrites_stampFetch {c : Fin 8} {slot address : Nat}
    (h : s.JobUnit (.stampFetch c slot address) rest) : s.busyWrites = [] := by
  unfold State.busyWrites
  rw [h.busy]
  simp only [h.job]

end job

end Sys2Proof.Machine
end

