-- ==== Sys2Proof/Laws/Bitfield.lean ====
section
/-! SUPPORT. The words that a BITFIELD unit stores and answers, word by word, and its completion as one event. -/

namespace Sys2Proof.Machine

theorem map_range_succ {α : Type} (f : Nat → α) (n : Nat) :
    (List.range (n + 1)).map f = f 0 :: (List.range n).map fun i => f (i + 1) := by
  rw [List.range_succ_eq_map]
  simp [Function.comp]

theorem PathUnit.writes_of_read (u : PathUnit) (m : Memory) (h : u.work = .read ∨ u.work = .cbRead ∨ u.work = .peek) :
    u.writes m = [] := by
  unfold PathUnit.writes
  rcases h with h | h | h <;> rw [h]

theorem Memory.readBurst_length (m : Memory) (bes : List Enables) (a : Nat) :
    (m.readBurst a bes).length = bes.length := by
  induction bes generalizing a with
  | nil => rfl
  | cons b r ih => simp [Memory.readBurst, ih]

/-- Word `n` of the write half is built from word `n` of the read half and of the data (R110, R111, R115). -/
theorem BitOp.writes_eq (op : BitOp) (level : Level) (mask : Word) (m : Memory) (bes : List Enables) (a : Nat)
    (data : List Word) (h : data.length = bes.length) :
    op.writes level mask m a bes data = burstWrites a bes ((List.range bes.length).map fun n =>
      op.newWord (openBits (bes.getD n 0) level mask) (if op.reads level then (m.readBurst a bes).getD n 0 else 0)
        (data.getD n 0)) := by
  induction bes generalizing a data with
  | nil => simp [BitOp.writes, burstWrites]
  | cons be rest ih =>
    cases data with
    | nil => simp at h
    | cons w ws =>
      simp only [BitOp.writes, List.length_cons, map_range_succ, burstWrites, List.headD, List.tail]
      rw [ih _ _ (by simpa using h)]
      simp [Memory.readBurst]

/-- A fetch-and-clear stores each word read with its open bits cleared, whatever data it has (R113). -/
theorem BitOp.writes_fetchClear (level : Level) (mask : Word) (m : Memory) (bes : List Enables) (a : Nat)
    (data : List Word) :
    BitOp.fetchClear.writes level mask m a bes data = burstWrites a bes ((List.range bes.length).map fun n =>
      (m.readBurst a bes).getD n 0 &&& ~~~openBits (bes.getD n 0) level mask) := by
  induction bes generalizing a data with
  | nil => simp [BitOp.writes, burstWrites]
  | cons be rest ih =>
    simp only [BitOp.writes, List.length_cons, map_range_succ, burstWrites]
    rw [ih]
    simp [Memory.readBurst, BitOp.newWord, BitOp.reads]

/-- The answer of a BITFIELD read, word by word (R112-R114). -/
theorem BitOp.answerWords_eq (op : BitOp) (compare : Word) (bes : List Enables) (ws : List Word)
    (h : ws.length = bes.length) :
    op.answerWords compare bes ws = (List.range bes.length).map fun n =>
      match op with
      | .compare => ~~~(ws.getD n 0 ^^^ compare) &&& laneMask (bes.getD n 0)
      | _ => ws.getD n 0 := by
  induction bes generalizing ws with
  | nil => cases ws <;> simp [BitOp.answerWords]
  | cons be rest ih =>
    cases ws with
    | nil => simp at h
    | cons w ws =>
      simp only [BitOp.answerWords, List.length_cons, map_range_succ]
      rw [ih _ (by simpa using h)]
      rfl

/-- The completion of a wanted BITFIELD unit (R107). -/
theorem State.WantedUnit.bitfield_event {s : State} {p : Port} {u : PathUnit} {t : Transfer} {d : Decode}
    (h : s.WantedUnit p u t d) {op : BitOp} {level : Level} {mask compare : Word}
    (hw : u.work = .bitfield op level mask compare) :
    event (s.bitfieldIs op) s (fun s => s.completeBitfield) =
      .next (closeEvent s
        (({ s.pathFreed p with mem := s.mem.applyWrites (u.writes s.mem) }).onLive (s.bitAnswer p u op level compare))) :=
  by
  rw [event_possible _ h.running]
  · unfold State.completeBitfield
    simp only [h.toPortUnit.currentUnit, hw]
    rw [h.completeUnit]
  · exact h.toPortUnit.unitIs (by rw [hw]; simp)

/-- The completion of a BITFIELD unit whose port was reset: its words in memory, nobody answered (R118). -/
theorem State.PortUnit.bitfield_event_dropped {s : State} {p : Port} {u : PathUnit} (h : s.PortUnit p u)
    (hj : s.JobsPlaced) (hd : u.wanted = false) {op : BitOp} {level : Level} {mask compare : Word}
    (hw : u.work = .bitfield op level mask compare) :
    event (s.bitfieldIs op) s (fun s => s.completeBitfield) =
      .next (s.endsUnanswered p (s.mem.applyWrites (u.writes s.mem))) := by
  rw [event_possible _ h.running]
  · unfold State.completeBitfield
    simp only [h.currentUnit, hw]
    rw [h.completeUnit_dropped hd, closeEvent_endsUnanswered hj]
  · exact h.unitIs (by rw [hw]; simp)

end Sys2Proof.Machine
end

