-- ==== Sys2Proof/Laws/Decode.lean ====
section
/-! SUPPORT. A transfer in DECODING: which row takes it, what its event hands on, and a transfer that the decoder
refuses. -/

namespace Sys2Proof

theorem Transfer.address_mem (t : Transfer) : t.address ∈ t.addresses := by
  simp only [Transfer.addresses, List.mem_map, List.mem_range]
  refine ⟨0, ?_, by simp⟩
  unfold Transfer.k
  cases t.burst <;> decide

theorem Transfer.wordData_length (t : Transfer) : t.wordData.length = t.burst.words := by
  simp [Transfer.wordData, Transfer.k]

end Sys2Proof

namespace Sys2Proof.Machine

/-! ## Decisions (R92) -/

/-- A burst whose words are all of one class has the decision of that class. -/
theorem State.decision_of_all (s : State) (t : Transfer) (k : WordClass)
    (h : ∀ a ∈ t.addresses, s.classify a = k) :
    s.decision t = (match k with
      | .cb => .cb
      | .window w => .window w
      | .pass => .pass
      | .unmapped => .unmapped) := by
  have hf : s.firstClass t = k := h _ t.address_mem
  have hall : (t.addresses.map s.classify).all (· == s.firstClass t) = true := by
    simp only [List.all_map, List.all_eq_true, Function.comp, beq_iff_eq, hf]
    exact h
  unfold State.decision decisionOf
  rw [if_pos hall, hf]
  cases k <;> rfl

/-- A decision that names a window is the class of the first word. -/
theorem State.firstClass_of_window {s : State} {t : Transfer} {w : Fin 16} (h : s.decision t = .window w) :
    s.firstClass t = .window w := by
  unfold State.decision decisionOf at h
  split at h
  · split at h <;> simp_all
  · split at h <;> simp_all

theorem State.firstClass_of_pass {s : State} {t : Transfer} (h : s.decision t = .pass) : s.firstClass t = .pass := by
  unfold State.decision decisionOf at h
  split at h
  · split at h <;> simp_all
  · split at h <;> simp_all

theorem State.firstClass_of_cb {s : State} {t : Transfer} (h : s.decision t = .cb) : s.firstClass t = .cb := by
  unfold State.decision decisionOf at h
  split at h
  · split at h <;> simp_all
  · split at h <;> simp_all

/-! ## The event of a transfer in DECODING -/

section decoding
variable {s : State} {p : Port} {t : Transfer}

theorem State.Decoding.takeTransfer (h : s.Decoding p t) (f : Transfer → State → State) : s.takeTransfer p f = f t s := by
  unfold State.takeTransfer
  rw [h.arrived]

theorem State.Decoding.decodes (h : s.Decoding p t) {row : DecodeRow} (hr : s.decodeRow t = row) :
    s.decodes p row = true := by
  unfold State.decodes
  rw [h.arrived]
  simp [hr]

/-- The event of the row that takes the transfer. -/
theorem State.Decoding.event (h : s.Decoding p t) {row : DecodeRow} (hr : s.decodeRow t = row)
    (f : Transfer → State → State) :
    Machine.event (s.decodes p row) s (fun u => u.takeTransfer p f) = .next (closeEvent s (f t s)) := by
  rw [event_possible (h.decodes hr) h.running, h.takeTransfer]

/-- The event of another row leaves the state as it is (log 1). -/
theorem State.Decoding.other_row (h : s.Decoding p t) {row : DecodeRow} (hr : s.decodeRow t ≠ row)
    (f : State → State) : Machine.event (s.decodes p row) s f = .next s := by
  refine event_impossible ?_
  unfold State.decodes
  rw [h.arrived]
  simpa using hr

end decoding

/-! ## RING windows -/

section ring
variable {s : State} {p : Port} {t : Transfer} {w : Fin 16} {sub : SubRange}

theorem Record.subRange_of_shape {r : Record} (h : r.ringShape t sub = true) :
    subRangeOf (r.offsetOf t) = sub := by
  simp only [Record.ringShape, Bool.and_eq_true, List.all_eq_true, beq_iff_eq] at h
  exact h.1.2 _ t.address_mem

theorem State.ToRing.decodeRow (h : s.ToRing p t w sub) : s.decodeRow t = sub.row := by
  have hk := h.kind
  simp only [Fin.getElem_fin] at hk
  have hs := Record.subRange_of_shape h.shape
  simp only [Fin.getElem_fin] at hs
  simp [State.decodeRow, h.decided, State.firstClass_of_window h.decided, Record.row, hk, hs]

theorem State.ToRing.takeRing (h : s.ToRing p t w sub) (act : Decode → Fin 8 → State → State) :
    s.takeRing p t sub act = act (.ring w s.windows[w].applied.winCtx sub) s.windows[w].applied.winCtx
      (s.handOn p t (.ring w s.windows[w].applied.winCtx sub)) := by
  have ha := h.admitted
  have hs := h.shape
  simp only [Fin.getElem_fin] at ha hs
  simp [State.takeRing, h.decided, ha, hs]

/-- The event of a transfer that reaches the context of a RING window, from the transfer in HELD. -/
theorem State.ToRing.event (h : s.ToRing p t w sub) (act : Transfer → Decode → Fin 8 → State → State) :
    Machine.event (s.decodes p sub.row) s (fun u => u.takeTransfer p fun v u => u.takeRing p v sub (act v)) =
      .next (closeEvent s (act t (.ring w s.windows[w].applied.winCtx sub) s.windows[w].applied.winCtx
        (s.handOn p t (.ring w s.windows[w].applied.winCtx sub)))) := by
  rw [h.toDecoding.event h.decodeRow, h.takeRing]

/-- PUSH at the context of its window (R26). -/
theorem State.ToRing.exec_push (h : s.ToRing p t w .push) :
    exec (.push p) s = .next (closeEvent s (s.onLive fun l =>
      (l.setIface p (.held t (.ring w s.windows[w].applied.winCtx .push) none)).append s.tick
        (idleCountOf s.globalWord) p s.windows[w].applied.winCtx t false)) :=
  h.event fun t _ c s => s.onLive fun l => l.append s.tick (idleCountOf s.globalWord) p c t false

/-- PUSH_LAST at the context of its window (R31). -/
theorem State.ToRing.exec_pushLast (h : s.ToRing p t w .pushLast) :
    exec (.pushLast p) s = .next (closeEvent s (s.onLive fun l =>
      (l.setIface p (.held t (.ring w s.windows[w].applied.winCtx .pushLast) none)).append s.tick
        (idleCountOf s.globalWord) p s.windows[w].applied.winCtx t true)) :=
  h.event fun t _ c s => s.onLive fun l => l.append s.tick (idleCountOf s.globalWord) p c t true

/-- POP at the context of its window (R55). -/
theorem State.ToRing.exec_pop (h : s.ToRing p t w .pop) :
    exec (.pop p) s = .next (closeEvent s (s.onLive fun l =>
      (l.setIface p (.held t (.ring w s.windows[w].applied.winCtx .pop) none)).popRead s.tick p
        s.windows[w].applied.winCtx t.burst)) :=
  h.event fun t _ c s => s.onLive fun l => l.popRead s.tick p c t.burst

/-- PEEK at the context of its window (R52). -/
theorem State.ToRing.exec_peek (h : s.ToRing p t w .peek) :
    exec (.peek p) s = .next (closeEvent s
      ((s.handOn p t (.ring w s.windows[w].applied.winCtx .peek)).takePeek p t
        (.ring w s.windows[w].applied.winCtx .peek) s.windows[w].applied.winCtx)) :=
  h.event fun t d c s => s.takePeek p t d c

/-- STATE at the context of its window (R51). -/
theorem State.ToRing.exec_state (h : s.ToRing p t w .state) :
    exec (.state p) s = .next (closeEvent s (s.onLive fun l =>
      (l.setIface p (.held t (.ring w s.windows[w].applied.winCtx .state) none)).answerOk p
        (.okRead [(l.setIface p (.held t (.ring w s.windows[w].applied.winCtx .state) none)).queueState p
          s.windows[w].applied.winCtx]))) :=
  h.event fun _ _ c s => s.onLive fun l => l.answerOk p (.okRead [l.queueState p c])

end ring

/-! ## Refusals and units handed down -/

/-- The window index that a refusal at the decoder records: the window that decided the first word, or 31 (R99). -/
theorem State.refused_windowIndex (s : State) (t : Transfer) :
    (Decode.refused (s.firstWindow t)).windowIndex = (match s.classify t.address with
      | .window w => BitVec.ofNat 5 w.val
      | _ => 31) := by
  unfold State.firstWindow State.firstClass
  cases s.classify t.address <;> rfl

/-- A refused transfer is answered ERROR, with its fault record, and nothing else changes (R99). -/
theorem State.refuseTransfer_eq (s : State) (p : Port) (t : Transfer) (k : FaultKind) :
    s.refuseTransfer p t k = s.erred p k t (match s.classify t.address with
      | .window w => BitVec.ofNat 5 w.val
      | _ => 31) := by
  rw [← State.refused_windowIndex]
  unfold State.refuseTransfer State.onLive
  simp only
  rw [Live.answerError_held k (t := t) (d := .refused (s.firstWindow t)) (w := none) (by simp)]
  simp [State.erred]

theorem State.handDown_eq (s : State) (p : Port) (t : Transfer) (d : Decode) (u : PathUnit) :
    s.handDown p t d u = s.handedDown p t d u := by
  unfold State.handDown State.handedDown
  cases s.paths.get p <;> rfl

/-- The close of an event that changes no context and no job lets the dirty items join the mirror list (R146). -/
theorem closeEvent_reported {s t : State} (h : s.JobsPlaced) (hc : t.ctxs = s.ctxs) (hj : t.jobs = s.jobs) :
    closeEvent s t = s.reported t := closeEvent_contexts hc (h.of_eq hc hj)

/-- A unit handed down reports nothing. -/
theorem closeEvent_handedDown {s : State} (h : s.JobsPlaced) (p : Port) (t : Transfer) (d : Decode) (u : PathUnit) :
    closeEvent s (s.handedDown p t d u) = s.handedDown p t d u := by
  have hx : (s.handedDown p t d u).ctxs = s.ctxs ∧ (s.handedDown p t d u).jobs = s.jobs ∧
      (s.handedDown p t d u).attn = s.attn ∧ (s.handedDown p t d u).configStatus = s.configStatus ∧
      (s.handedDown p t d u).engineFault = s.engineFault := by
    unfold State.handedDown
    cases s.paths.get p <;> exact ⟨rfl, rfl, rfl, rfl, rfl⟩
  exact closeEvent_quiet h hx.1 hx.2.1 hx.2.2.1 hx.2.2.2.1 hx.2.2.2.2

end Sys2Proof.Machine
end

