-- ==== Sys2Proof/Laws/Notices.lean ====
section
/-! SUPPORT. Each operation that counts an end of an entry and raises its notices, as one record update of the live
state. -/

namespace Sys2Proof.Machine

variable (l : Live) (c : Fin 8)

theorem Live.modCtx_eq (f : Ctx → Ctx) : l.modCtx c f = { l with ctxs := l.ctxs.set c (f l.ctxs[c]) } := rfl

/-- A notice at a context, as an update of the attention state (R119). -/
theorem Live.raise_eq (k : Kind) : l.raise c k = { l with attn := noticed l.ctxs[c] c k true l.attn } := rfl

/-- A notice depends on the applied record of its context alone (R119). -/
theorem noticed_congr {x y : Ctx} (h : x.applied = y.applied) (k : Kind) (b : Bool) (a : PerPort PortAttn) :
    noticed x c k b a = noticed y c k b a := by
  simp only [noticed, h]

theorem Live.raiseWrap_eq (b : Bool) : l.raiseWrap c b = { l with attn := noticed l.ctxs[c] c .wrap b l.attn } := by
  cases b <;> rfl

/-- REJECTED and the gap flag, with WRAP (R18, R19). -/
theorem Live.countRejected_eq : l.countRejected c = { l with
    ctxs := l.ctxs.set c l.ctxs[c].rejectedOne
    attn := noticed l.ctxs[c] c .wrap (wraps l.ctxs[c].rejected 1) l.attn } := by
  rw [Live.countRejected, Live.raiseWrap_eq]
  simp only [Live.modCtx_eq, Fin.getElem_fin, Vector.getElem_set_self]
  rfl

/-- REJECTED, gap flag, WRAP and REJECT (R48). -/
theorem Live.reject_eq : l.reject c = { l with
    ctxs := l.ctxs.set c l.ctxs[c].rejectedOne
    attn := rejectNotices l.ctxs[c] c l.attn } := by
  rw [Live.reject, Live.raise_eq, Live.countRejected_eq]
  simp only [Fin.getElem_fin, Vector.getElem_set_self]
  rfl

/-- DISCARDED, gap flag and WRAP (R14, R18, R19). -/
theorem Live.countDiscarded_eq (n : Nat) : l.countDiscarded c n = { l with
    ctxs := l.ctxs.set c { l.ctxs[c] with discarded := l.ctxs[c].discarded + BitVec.ofNat 16 n, gap := true }
    attn := noticed l.ctxs[c] c .wrap (wraps l.ctxs[c].discarded n) l.attn } := by
  rw [Live.countDiscarded, Live.raiseWrap_eq]
  simp only [Live.modCtx_eq, Fin.getElem_fin, Vector.getElem_set_self]
  rfl

/-- PUBLISHED and WRAP (R12, R19). -/
theorem Live.countPublished_eq : l.countPublished c = { l with
    ctxs := l.ctxs.set c { l.ctxs[c] with published := l.ctxs[c].published + 1 }
    attn := noticed l.ctxs[c] c .wrap (wraps l.ctxs[c].published 1) l.attn } := by
  rw [Live.countPublished, Live.raiseWrap_eq]
  simp only [Live.modCtx_eq, Fin.getElem_fin, Vector.getElem_set_self]
  rfl

/-- DELIVERED and WRAP (R15, R19). -/
theorem Live.countDelivered_eq : l.countDelivered c = { l with
    ctxs := l.ctxs.set c { l.ctxs[c] with delivered := l.ctxs[c].delivered + 1 }
    attn := noticed l.ctxs[c] c .wrap (wraps l.ctxs[c].delivered 1) l.attn } := by
  rw [Live.countDelivered, Live.raiseWrap_eq]
  simp only [Live.modCtx_eq, Fin.getElem_fin, Vector.getElem_set_self]
  rfl

theorem Ctx.dropReady_applied (x : Ctx) (n : Nat) : (x.dropReady n).applied = x.applied := by
  unfold Ctx.dropReady
  split <;> rfl

theorem Ctx.dropReady_discarded (x : Ctx) (n : Nat) : (x.dropReady n).discarded = x.discarded := by
  unfold Ctx.dropReady
  split <;> rfl

/-- A discard: the entries leave the ring, DISCARDED, gap flag, WRAP and LOSS (R14, R16, R21). -/
theorem Live.discard_eq (n : Nat) : l.discard c n = { l with
    ctxs := l.ctxs.set c { l.ctxs[c].dropReady n with
      discarded := l.ctxs[c].discarded + BitVec.ofNat 16 n, gap := true }
    attn := noticed l.ctxs[c] c .loss true (noticed l.ctxs[c] c .wrap (wraps l.ctxs[c].discarded n) l.attn) } := by
  rw [Live.discard, Live.raise_eq, Live.countDiscarded_eq]
  simp only [Live.modCtx_eq, Fin.getElem_fin, Vector.getElem_set_self, Vector.set_set, Ctx.dropReady_discarded]
  rw [noticed_congr c (y := l.ctxs[c.val]) (Ctx.dropReady_applied _ _) .wrap]
  exact congrArg (fun a => ({ l with attn := a, ctxs := _ } : Live))
    (noticed_congr c (Ctx.dropReady_applied l.ctxs[c.val] n) .loss true _)

end Sys2Proof.Machine
end

