-- ==== Sys2Proof/Laws/HeldList.lean ====
section
/-! SUPPORT. What the operations of the held list do where nothing is held, and what a commit or pop that is taken at
once amounts to. -/

namespace Sys2Proof.Machine

/-! ## Items of a port that has none -/

theorem Ctx.filter_of_not_holds (x : Ctx) {p : Port} (h : x.holds p = false) :
    x.held.filter (fun i => i.port != p) = x.held := by
  rw [List.filter_eq_self]
  intro i hi
  simp only [Ctx.holds, List.any_eq_false] at h
  simpa using h i hi

theorem Live.removeHeld_of_not_holds (l : Live) (c : Fin 8) {p : Port} (h : l.ctxs[c].holds p = false) :
    l.removeHeld c p = l := by
  refine Live.modCtx_eq_self _ _ _ ?_
  simp only [Fin.getElem_fin] at h
  rw [Ctx.filter_of_not_holds _ h]

/-- An item of a port that has none joins the end of the list. -/
theorem Live.holdItem_of_not_holds (l : Live) (c : Fin 8) (i : HeldItem) (h : l.ctxs[c].holds i.port = false) :
    l.holdItem c i =
      { l with ctxs := l.ctxs.set c { l.ctxs[c] with held := l.ctxs[c].held ++ [i] } } := by
  simp only [Fin.getElem_fin] at h
  simp [Live.holdItem, Live.modCtx, h]

/-- The search for a port's item reads the held lists alone. -/
theorem Live.findHeld_congr (l m : Live) (p : Port) (h : ∀ c : Fin 8, m.ctxs[c].held = l.ctxs[c].held) :
    m.findHeld p = l.findHeld p := by
  unfold Live.findHeld Ctx.holds
  congr 1
  funext c
  rw [h c]

/-! ## Taken at once -/

theorem Live.arriveCommit_taken (l : Live) (now : BitVec 16) (c : Fin 8) (h : HeldCommit)
    (ht : l.commitTaken h.port c) : l.arriveCommit now c h = l.takeCommit now c h := by
  obtain ⟨h1, h2, h3⟩ := ht
  unfold Live.arriveCommit
  by_cases hl : l.ctxs[c].isLifo = true
  · simp only [hl, if_true] at h3 ⊢
    simp only [h3.1, h3.2, h1, List.isEmpty_nil, Bool.not_false, Bool.and_self, if_true]
  · simp only [hl] at h3 ⊢
    simp only [Bool.false_eq_true, if_false] at h3 ⊢
    simp only [h3, h1, List.isEmpty_nil, Bool.not_false, Bool.and_self, if_true]

theorem Live.arrivePop_taken (l : Live) (now : BitVec 16) (c : Fin 8) (h : HeldPop) (ht : l.popTaken h.port c) :
    l.arrivePop now c h = l.takePop c h := by
  obtain ⟨h1, h2, h3⟩ := ht
  unfold Live.arrivePop
  by_cases hl : l.ctxs[c].isLifo = true
  · simp only [hl, if_true] at h3 ⊢
    simp only [h3.1, h3.2, h1, List.isEmpty_nil, Bool.not_false, Bool.and_self, if_true]
  · simp only [hl] at h3 ⊢
    simp only [Bool.false_eq_true, if_false] at h3 ⊢
    simp only [h1, Bool.false_eq_true, if_false]
    unfold Live.takePop
    by_cases hr : l.ctxs[c].ready = 0
    · simp only [hr, if_true]
    · simp only [hr, if_false, h3 hr, List.isEmpty_nil, if_true]

/-- A POP read whose latch holds no entry, taken at once. -/
theorem Live.popRead_taken (l : Live) (now : BitVec 16) (p : Port) (c : Fin 8) (burst : Burst)
    (hl : ∀ d h q r, l.latch.get p ≠ .holding d h q r) (ht : l.popTaken p c) :
    l.popRead now p c burst = l.takePop c { port := p, burst := burst, stall := none } := by
  unfold Live.popRead
  split
  · next d h q r e => exact absurd e (hl d h q r)
  · exact Live.arrivePop_taken _ _ _ _ ht

/-! ## Examinations of an empty list -/

theorem Live.examineCommitOf_none (l : Live) (now : BitVec 16) {p : Port} (h : l.findHeld p = none) :
    l.examineCommitOf now p = l := by
  unfold Live.examineCommitOf
  rw [h]

theorem Live.examinePopOf_none (l : Live) (now : BitVec 16) {p : Port} (h : l.findHeld p = none) :
    l.examinePopOf now p = l := by
  unfold Live.examinePopOf
  rw [h]

theorem Live.examineStack_nil (l : Live) (now : BitVec 16) (c : Fin 8) (h : l.ctxs[c].held = []) :
    l.examineStack now c = l := by
  unfold Live.examineStack
  rw [h]
  simp [examineStackList]

theorem Live.examinePops_nil (l : Live) (now : BitVec 16) (c : Fin 8) (h : l.ctxs[c].held = []) :
    l.examinePops now c = l := by
  unfold Live.examinePops Live.examineStack
  rw [h]
  simp [heldPops, examinePopList, examineStackList]

theorem Live.examineCommits_nil (l : Live) (now : BitVec 16) (c : Fin 8) (h : l.ctxs[c].held = []) :
    l.examineCommits now c = l := by
  unfold Live.examineCommits Live.examineStack
  rw [h]
  simp [heldCommits, examineCommitList, examineStackList]

theorem Live.operationEnds_nil (l : Live) (now : BitVec 16) (c : Fin 8) (h : l.ctxs[c].held = [])
    (hf : l.ctxs[c].pendingFlush = false) : l.operationEnds now c = l := by
  unfold Live.operationEnds
  simp only [hf, Bool.false_eq_true, if_false]
  exact Live.examineStack_nil _ _ _ h

theorem Live.offerSpace_nil (b l : Live) (now : BitVec 16) (c : Fin 8) (h : l.ctxs[c].held = []) :
    Live.offerSpace b l now c = l := by
  unfold Live.offerSpace
  split
  · exact Live.examineStack_nil _ _ _ h
  · split
    · exact Live.examineCommits_nil _ _ _ h
    · rfl

/-! ## OVERWRITE at a full FIFO context (R39) -/

/-- The discard freed a slot: the commit reserves it. -/
theorem Live.overwrite_free (l : Live) (now : BitVec 16) (c : Fin 8) (h : HeldCommit) (hl : l.ctxs[c].isLifo = false)
    (hh : l.ctxs[c].heldRun = [])
    (hocc : l.ctxs[c].ready - 1 + l.ctxs[c].writing < l.ctxs[c].applied.capacity)
    (hn : l.ctxs[c].holds h.port = false) :
    l.overwrite now c h = { l with
      assembly := l.assembly.set h.port (.committing c h.length h.level [] true)
      attn := noticed l.ctxs[c] c .loss true (noticed l.ctxs[c] c .wrap (wraps l.ctxs[c].discarded 1) l.attn)
      jobs := l.jobs ++ [⟨.entryWrite c l.ctxs[c].tail (l.ctxs[c].applied.slotAddress l.ctxs[c].tail)
        (header h.length h.port h.level true l.ctxs[c].seq now) (l.assembly.get h.port).commitWords h.port, .waiting,
        none⟩]
      ctxs := l.ctxs.set c { l.ctxs[c] with
        ready := l.ctxs[c].ready - 1
        head := (l.ctxs[c].head + 1) % l.ctxs[c].applied.capacity
        release := (l.ctxs[c].release + 1) % l.ctxs[c].applied.capacity
        discarded := l.ctxs[c].discarded + 1
        cache := l.ctxs[c].cache.unknown
        tail := (l.ctxs[c].tail + 1) % l.ctxs[c].applied.capacity
        writingRun := l.ctxs[c].writingRun ++ [⟨l.ctxs[c].tail, h.port, now, false⟩]
        seq := l.ctxs[c].seq + 1
        gap := false } } := by
  unfold Live.overwrite
  have hdrop : l.ctxs[c].dropReady 1 = { l.ctxs[c] with
      ready := l.ctxs[c].ready - 1
      head := (l.ctxs[c].head + 1) % l.ctxs[c].applied.capacity
      release := (l.ctxs[c].release + 1) % l.ctxs[c].applied.capacity
      cache := l.ctxs[c].cache.unknown } := by
    unfold Ctx.dropReady
    rw [if_neg (by rw [hl]; decide)]
    simp only [Fin.getElem_fin] at hh
    simp [Ctx.releaseStep, hh, Ctx.cacheInvalid, StampCache.unknown, Ctx.capacity, List.takeWhile, List.dropWhile,
      HeldSlot.isSpent]
  rw [Live.discard_eq, hdrop]
  simp only [Fin.getElem_fin] at *
  have hl2 : l.ctxs[c.val].applied.isLifo = false := hl
  rw [if_neg]
  · unfold Live.reserve
    rw [Live.removeHeld_of_not_holds]
    · simp [Live.setAssembly, Live.addJob, Live.modCtx, Live.entryWriteJob, Ctx.reserve, Ctx.reserveSlot, Ctx.isLifo,
        Ctx.capacity, hl2]
    · simpa [Live.addJob, Live.modCtx, Ctx.reserve, Ctx.holds] using hn
  · simp [Ctx.full, Ctx.occupied, Ctx.isLifo, hl2, Ctx.capacity, Ctx.heldCount, hh, Ctx.writing] at hocc ⊢
    exact hocc

/-- The discarded slot waits behind one in copy: the commit is held, discard made, without a stall count. -/
theorem Live.overwrite_behind (l : Live) (now : BitVec 16) (c : Fin 8) (h : HeldCommit) {q : Port}
    {more : List HeldSlot} (hl : l.ctxs[c].isLifo = false) (hh : l.ctxs[c].heldRun = .copying q :: more)
    (hocc : l.ctxs[c].applied.capacity ≤ l.ctxs[c].ready - 1 + l.ctxs[c].writing + (l.ctxs[c].heldRun.length + 1))
    (hn : l.ctxs[c].holds h.port = false) :
    l.overwrite now c h = { l with
      attn := noticed l.ctxs[c] c .loss true (noticed l.ctxs[c] c .wrap (wraps l.ctxs[c].discarded 1) l.attn)
      ctxs := l.ctxs.set c { l.ctxs[c] with
        ready := l.ctxs[c].ready - 1
        head := (l.ctxs[c].head + 1) % l.ctxs[c].applied.capacity
        release := l.ctxs[c].release % l.ctxs[c].applied.capacity
        heldRun := l.ctxs[c].heldRun ++ [.spent]
        discarded := l.ctxs[c].discarded + 1
        gap := true
        cache := l.ctxs[c].cache.unknown
        held := l.ctxs[c].held ++ [.commit { h with discardMade := true, stall := none }] } } := by
  unfold Live.overwrite
  have hdrop : l.ctxs[c].dropReady 1 = { l.ctxs[c] with
      ready := l.ctxs[c].ready - 1
      head := (l.ctxs[c].head + 1) % l.ctxs[c].applied.capacity
      release := l.ctxs[c].release % l.ctxs[c].applied.capacity
      heldRun := l.ctxs[c].heldRun ++ [.spent]
      cache := l.ctxs[c].cache.unknown } := by
    unfold Ctx.dropReady
    rw [if_neg (by rw [hl]; decide)]
    simp only [Fin.getElem_fin] at hh
    simp [Ctx.releaseStep, hh, Ctx.cacheInvalid, StampCache.unknown, Ctx.capacity, HeldSlot.isSpent]
  rw [Live.discard_eq, hdrop]
  simp only [Fin.getElem_fin] at *
  have hl2 : l.ctxs[c.val].applied.isLifo = false := hl
  rw [if_pos]
  · rw [Live.holdItem_of_not_holds]
    · simp
    · simpa [Ctx.holds, HeldItem.port] using hn
  · simp [Ctx.full, Ctx.occupied, Ctx.isLifo, hl2, Ctx.capacity, Ctx.heldCount, Ctx.writing] at hocc ⊢
    exact hocc

/-! ## One item held (R33, R41, R58, R66) -/

/-- Whether a port has an entry WRITING depends on the writing runs alone. -/
theorem Live.portWriting_congr (l m : Live) (p : Port) (h : ∀ c : Fin 8, m.ctxs[c].writingRun = l.ctxs[c].writingRun) :
    m.portWriting p = l.portWriting p := by
  unfold Live.portWriting
  congr 1
  funext c
  rw [h c]

/-- The reservation of the one item held. -/
theorem Live.reserve_alone (l : Live) (now : BitVec 16) (c : Fin 8) (k : HeldCommit)
    (hh : l.ctxs[c].held = [.commit k]) :
    l.reserve now c k = { l with
      assembly := l.assembly.set k.port (.committing c k.length k.level [] true)
      jobs := l.jobs ++ [l.ctxs[c].writeEntry c k (l.assembly.get k.port).commitWords now]
      ctxs := l.ctxs.set c { l.ctxs[c].reservedFor k.port now with held := [] } } := by
  simp only [Fin.getElem_fin] at hh
  by_cases hl : l.ctxs[c.val].applied.isLifo = true <;>
    simp [Live.reserve, Live.removeHeld, Live.addJob, Live.modCtx, Live.setAssembly, HeldItem.port, Ctx.reserve,
      Ctx.reservedFor, Ctx.isLifo, hl, hh, Ctx.capacity, Live.entryWriteJob, Ctx.writeEntry, Ctx.reserveSlot,
      Record.slotAddress]

/-- The one commit held at a FIFO context that is not full reserves at an examination. -/
theorem Live.examineCommits_alone (l : Live) (now : BitVec 16) (c : Fin 8) (k : HeldCommit)
    (hh : l.ctxs[c].held = [.commit k]) (hl : l.ctxs[c].applied.isLifo = false)
    (hw : l.portWriting k.port = false) (hf : l.ctxs[c].full = false) :
    l.examineCommits now c = { l with
      assembly := l.assembly.set k.port (.committing c k.length k.level [] true)
      jobs := l.jobs ++ [l.ctxs[c].writeEntry c k (l.assembly.get k.port).commitWords now]
      ctxs := l.ctxs.set c { l.ctxs[c].reservedFor k.port now with held := [] } } := by
  have ht : l.takeCommit now c k = l.reserve now c k := by
    unfold Live.takeCommit
    rw [hf]
    rfl
  unfold Live.examineCommits
  rw [if_neg (by rw [Ctx.isLifo, hl]; decide), hh]
  simp only [heldCommits]
  unfold examineCommitList
  rw [hw, ht, Live.reserve_alone l now c k hh]
  simp [Ctx.holds, examineCommitList]

/-- The claim of the one item held. -/
theorem Live.claim_alone (l : Live) (c : Fin 8) (k : HeldPop) (hh : l.ctxs[c].held = [.pop k]) :
    l.claim c k = { l with
      latch := l.latch.set k.port (.filling c l.ctxs[c].nextSlot k.burst false)
      jobs := l.jobs ++ [l.ctxs[c].copyEntry c k.port]
      ctxs := l.ctxs.set c { l.ctxs[c].claimedFor k.port with held := [] } } := by
  simp only [Fin.getElem_fin] at hh
  by_cases hl : l.ctxs[c.val].applied.isLifo = true <;>
    simp [Live.claim, Live.removeHeld, Live.addJob, Live.modCtx, Live.setLatch, HeldItem.port, Ctx.claim,
      Ctx.claimedFor, Ctx.isLifo, hl, hh, Ctx.capacity, Ctx.copyEntry, Ctx.nextSlot, Record.slotAddress,
      Record.payloadCap, Ctx.cacheInvalid, StampCache.unknown]

/-- The one pop held at a FIFO context with an entry ready claims it at an examination. -/
theorem Live.examinePops_alone (l : Live) (now : BitVec 16) (c : Fin 8) (k : HeldPop)
    (hh : l.ctxs[c].held = [.pop k]) (hl : l.ctxs[c].applied.isLifo = false)
    (hw : l.copyInFlight k.port = false) (hr : l.ctxs[c].ready ≠ 0) :
    l.examinePops now c = { l with
      latch := l.latch.set k.port (.filling c l.ctxs[c].nextSlot k.burst false)
      jobs := l.jobs ++ [l.ctxs[c].copyEntry c k.port]
      ctxs := l.ctxs.set c { l.ctxs[c].claimedFor k.port with held := [] } } := by
  have ht : l.takePop c k = l.claim c k := by
    unfold Live.takePop
    rw [if_neg hr]
  unfold Live.examinePops
  rw [if_neg (by rw [Ctx.isLifo, hl]; decide), hh]
  simp only [heldPops]
  unfold examinePopList
  rw [hw, ht, Live.claim_alone l c k hh]
  simp [examinePopList]

/-! ## Completions with nothing held (R12, R15, R16) -/

/-- The write of the oldest WRITING slot marks that slot alone. -/
theorem Ctx.writeComplete_front (x : Ctx) (v : WritingSlot) (later : List WritingSlot)
    (hrun : x.writingRun = v :: later) (hl : ∀ o ∈ later, o.slot ≠ v.slot ∨ o.port ≠ v.port) :
    x.writeComplete v.slot v.port = { x with writingRun := { v with complete := true } :: later } := by
  unfold Ctx.writeComplete
  rw [hrun]
  congr 1
  simp only [List.map_cons, beq_self_eq_true, Bool.and_self, if_true]
  congr 1
  conv => rhs; rw [← List.map_id later]
  apply List.map_congr_left
  intro o ho
  rw [if_neg]
  · rfl
  · have := hl o ho
    simp
    intro e
    rcases this with h | h
    · exact absurd e h
    · exact h

theorem takeWhile_complete_one (v : WritingSlot) (later : List WritingSlot) (hv : v.complete = true)
    (hl : ∀ o ∈ later, o.complete = false) : (v :: later).takeWhile WritingSlot.complete = [v] := by
  cases later with
  | nil => simp [List.takeWhile, hv]
  | cons o r => simp [List.takeWhile, hv, hl o (by simp)]

theorem Live.publishOne_no_pops (l : Live) (c : Fin 8) (w : WritingSlot) (k : Live)
    (hk : ((l.modCtx c fun x => x.publish w).countPublished c).answerProducer c w.port = k)
    (h : heldPops k.ctxs[c].held = []) : l.publishOne c w = k := by
  subst hk
  unfold Live.publishOne
  simp only
  split
  · next e =>
    rw [h] at e
    cases e
  · rfl

theorem Live.entryWritten_run (l : Live) (now : BitVec 16) (c : Fin 8) (slot : Nat) (p : Port) (m : Live)
    (run : List WritingSlot) (hm : (l.modCtx c fun x => x.writeComplete slot p) = m)
    (hr : m.ctxs[c].publishable = run) (hne : run.isEmpty = false) (k : Live) (hk : Live.publishRun run c m = k) :
    l.entryWritten now c slot p = run.foldl (fun l w => l.examineCommitOf now w.port)
      (if k.ctxs[c].isLifo then k.operationEnds now c else k.examinePops now c) := by
  subst hm hr hk
  unfold Live.entryWritten
  simp only [hne]
  rfl

/-- With nothing held an ENTRY_WRITE that publishes does nothing but the publications of its run. -/
theorem Live.entryWritten_quiet (l : Live) (now : BitVec 16) (c : Fin 8) (slot : Nat) (p : Port) (m : Live)
    (run : List WritingSlot) (hm : (l.modCtx c fun x => x.writeComplete slot p) = m)
    (hr : m.ctxs[c].publishable = run) (hne : run.isEmpty = false) (k : Live) (hk : Live.publishRun run c m = k)
    (h1 : k.ctxs[c].held = []) (h2 : k.ctxs[c].pendingFlush = false) (h3 : ∀ w ∈ run, k.findHeld w.port = none) :
    l.entryWritten now c slot p = k := by
  rw [Live.entryWritten_run l now c slot p m run hm hr hne k hk]
  have : (if k.ctxs[c].isLifo then k.operationEnds now c else k.examinePops now c) = k := by
    split
    · exact Live.operationEnds_nil _ _ _ h1 h2
    · exact Live.examinePops_nil _ _ _ h1
  rw [this]
  clear hr hne hk this
  induction run with
  | nil => rfl
  | cons w r ih =>
    rw [List.foldl_cons, Live.examineCommitOf_none _ _ (h3 w (by simp))]
    exact ih (fun w hw => h3 w (by simp [hw]))

/-- With nothing held an ENTRY_COPY does nothing but its outcomes at the context and at the port. -/
theorem Live.copyCompleted_quiet (l : Live) (now : BitVec 16) (c : Fin 8) (p : Port) (r : CopyRead) (k : Live)
    (hk : (l.accountCopy c p r).deliverCopy c p r = k) (h1 : k.ctxs[c].held = [])
    (h2 : k.ctxs[c].pendingFlush = false) (h3 : k.findHeld p = none) : l.copyCompleted now c p r = k := by
  subst hk
  unfold Live.copyCompleted
  simp only
  generalize ((l.accountCopy c p r).deliverCopy c p r) = k at *
  have hs : ∀ u : Live, u = k → u.examinePopOf now p = k := by
    intro u hu
    subst hu
    exact Live.examinePopOf_none _ _ h3
  refine hs _ ?_
  rw [Live.operationEnds_nil _ _ _ h1 h2, Live.offerSpace_nil _ _ _ _ h1]
  split <;> rfl

/-- The oldest copy of a context completes at the ring. -/
theorem Ctx.copyDone_front (x : Ctx) (p : Port) (more : List HeldSlot) (h : x.heldRun = .copying p :: more) :
    x.copyDone p = { x with
      heldRun := if x.applied.isLifo then more else more.dropWhile HeldSlot.isSpent
      release := if x.applied.isLifo then x.release
        else (x.release + ((more.takeWhile HeldSlot.isSpent).length + 1)) % x.applied.capacity
      depth := if x.applied.isLifo then x.depth - 1 else x.depth } := by
  unfold Ctx.copyDone
  by_cases hl : x.isLifo = true
  · have hl2 : x.applied.isLifo = true := hl
    simp only [hl, hl2, if_true, h]
    simp
  · have hl2 : x.applied.isLifo = false := by simpa [Ctx.isLifo] using hl
    simp only [hl, hl2]
    simp [Ctx.releaseStep, h, spendCopy, HeldSlot.isSpent, List.takeWhile, List.dropWhile, Ctx.capacity]

end Sys2Proof.Machine
end

