-- ==== Sys2Proof/Laws/Memory.lean ====
section
/-! SUPPORT. Memory: a read after a write, a write leaves other bytes alone, every byte written has odd parity, and every
memory operation keeps the canonical form. -/

namespace Sys2Proof.Machine

/-! ## The address-keyed lists -/

section cells
variable {β : Type}

theorem cellLookup_insert_self (l : List (Nat × β)) (x : Nat) (v : β) : cellLookup (cellInsert l x v) x = some v := by
  induction l with
  | nil => simp [cellInsert, cellLookup]
  | cons e rest ih =>
    obtain ⟨a, w⟩ := e
    simp only [cellInsert]
    split
    · simp [cellLookup]
    · split
      · simp [cellLookup]
      · next h1 h2 => simp [cellLookup, h2, ih]

theorem cellLookup_insert_ne (l : List (Nat × β)) {x y : Nat} (v : β) (h : y ≠ x) :
    cellLookup (cellInsert l x v) y = cellLookup l y := by
  induction l with
  | nil => simp [cellInsert, cellLookup, h]
  | cons e rest ih =>
    obtain ⟨a, w⟩ := e
    simp only [cellInsert]
    split
    · simp [cellLookup, h]
    · split
      · next h1 h2 =>
        subst h2
        simp [cellLookup, h]
      · simp [cellLookup, ih]

theorem cellInsert_keys_mem (l : List (Nat × β)) (x : Nat) (v : β) (y : Nat) :
    y ∈ (cellInsert l x v).map Prod.fst ↔ y = x ∨ y ∈ l.map Prod.fst := by
  induction l with
  | nil => simp [cellInsert]
  | cons e rest ih =>
    obtain ⟨a, w⟩ := e
    simp only [cellInsert]
    split
    · simp
    · split
      · next h1 h2 =>
        subst h2
        simp
      · simp only [List.map_cons, List.mem_cons, ih]
        constructor
        · rintro (h | h | h) <;> simp [h]
        · rintro (h | h | h) <;> simp [h]

theorem cellInsert_rising (l : List (Nat × β)) (lo x : Nat) (v : β) (hlo : lo ≤ x)
    (h : keysRisingFrom lo (l.map Prod.fst) = true) : keysRisingFrom lo ((cellInsert l x v).map Prod.fst) = true := by
  induction l generalizing lo with
  | nil => simp [cellInsert, keysRisingFrom, hlo]
  | cons e rest ih =>
    obtain ⟨a, w⟩ := e
    simp only [List.map_cons, keysRisingFrom, Bool.and_eq_true, decide_eq_true_eq] at h
    simp only [cellInsert]
    split
    · next h1 =>
      simp only [List.map_cons, keysRisingFrom, Bool.and_eq_true, decide_eq_true_eq]
      exact ⟨hlo, h1, h.2⟩
    · split
      · next h1 h2 =>
        subst h2
        simp only [List.map_cons, keysRisingFrom, Bool.and_eq_true, decide_eq_true_eq]
        exact h
      · next h1 h2 =>
        simp only [List.map_cons, keysRisingFrom, Bool.and_eq_true, decide_eq_true_eq]
        exact ⟨h.1, ih (a + 1) (by omega) h.2⟩

/-- Two lists with the same keys keep the same keys when the same address is written. -/
theorem cellInsert_same_keys {γ : Type} (l : List (Nat × β)) (m : List (Nat × γ)) (x : Nat) (v : β) (w : γ)
    (h : l.map Prod.fst = m.map Prod.fst) :
    (cellInsert l x v).map Prod.fst = (cellInsert m x w).map Prod.fst := by
  induction l generalizing m with
  | nil =>
    cases m with
    | nil => rfl
    | cons e rest => simp at h
  | cons e rest ih =>
    cases m with
    | nil => simp at h
    | cons e' rest' =>
      obtain ⟨a, u⟩ := e
      obtain ⟨a', u'⟩ := e'
      simp only [List.map_cons, List.cons.injEq] at h
      obtain ⟨h1, h2⟩ := h
      subst h1
      simp only [cellInsert]
      split
      · simp [h2]
      · split
        · simp [h2]
        · simp [ih rest' h2]

end cells

/-! ## One byte -/

theorem Memory.readByte_writeByte (m : Memory) (a b : Nat) (v : Byte) :
    (m.writeByte a v).readByte b = if memIndex b = memIndex a then v else m.readByte b := by
  by_cases h : memIndex b = memIndex a
  · simp [Memory.readByte, Memory.writeByte, h, cellLookup_insert_self]
  · simp [Memory.readByte, Memory.writeByte, h, cellLookup_insert_ne _ _ h]

theorem Memory.parityBit_writeByte (m : Memory) (a b : Nat) (v : Byte) :
    (m.writeByte a v).parityBit b = if memIndex b = memIndex a then !oddOnes v else m.parityBit b := by
  by_cases h : memIndex b = memIndex a
  · simp [Memory.parityBit, Memory.writeByte, h, cellLookup_insert_self]
  · simp [Memory.parityBit, Memory.writeByte, h, cellLookup_insert_ne _ _ h]

/-- A byte just written passes parity (R158). -/
theorem Memory.byteGood_writeByte (m : Memory) (a b : Nat) (v : Byte) (h : memIndex b = memIndex a) :
    (m.writeByte a v).byteGood b = true := by
  simp only [Memory.byteGood, Memory.readByte_writeByte, Memory.parityBit_writeByte, h, if_true]
  cases oddOnes v <;> rfl

theorem Memory.byteGood_writeByte_ne (m : Memory) (a b : Nat) (v : Byte) (h : memIndex b ≠ memIndex a) :
    (m.writeByte a v).byteGood b = m.byteGood b := by
  simp only [Memory.byteGood, Memory.readByte_writeByte, Memory.parityBit_writeByte, h, if_false]

theorem memIndex_lt (a : Nat) : memIndex a < 16777216 := Nat.mod_lt _ (by decide)

theorem Memory.wf_writeByte (m : Memory) (a : Nat) (v : Byte) (h : m.wf = true) : (m.writeByte a v).wf = true := by
  simp only [Memory.wf, Bool.and_eq_true, beq_iff_eq, List.all_eq_true, decide_eq_true_eq] at h ⊢
  obtain ⟨⟨h1, h2⟩, h3⟩ := h
  refine ⟨⟨cellInsert_rising _ 0 _ _ (Nat.zero_le _) h1, ?_⟩, cellInsert_same_keys _ _ _ _ _ h3⟩
  intro x hx
  rcases (cellInsert_keys_mem _ _ _ _).mp hx with hx | hx
  · subst hx
    exact memIndex_lt a
  · exact h2 x hx

/-! ## Words and units -/

theorem Memory.wf_writeLane (m : Memory) (a : Nat) (be : Enables) (w : Word) (i : Nat) (h : m.wf = true) :
    (m.writeLane a be w i).wf = true := by
  unfold Memory.writeLane
  split
  · exact m.wf_writeByte _ _ h
  · exact h

theorem Memory.wf_writeWord (m : Memory) (a : Nat) (be : Enables) (w : Word) (h : m.wf = true) :
    (m.writeWord a be w).wf = true := by
  simp only [Memory.writeWord]
  exact Memory.wf_writeLane _ _ _ _ _ (Memory.wf_writeLane _ _ _ _ _ (Memory.wf_writeLane _ _ _ _ _
    (Memory.wf_writeLane _ _ _ _ _ h)))

/-- The writes of a unit keep the canonical form. -/
theorem Memory.wf_applyWrites (m : Memory) (ws : List WordWrite) (h : m.wf = true) : (m.applyWrites ws).wf = true := by
  induction ws generalizing m with
  | nil => exact h
  | cons w rest ih => exact ih _ (m.wf_writeWord _ _ _ h)

/-- So does what an interrupted unit leaves. -/
theorem Memory.wf_applyLanded (m : Memory) (landed : Nat → Bool) (i : Nat) (ws : List WordWrite) (h : m.wf = true) :
    (m.applyLanded landed i ws).wf = true := by
  induction ws generalizing m i with
  | nil => exact h
  | cons w rest ih =>
    simp only [Memory.applyLanded]
    apply ih
    split
    · exact m.wf_writeWord _ _ _ h
    · exact h

/-- A lane that is enabled and lies at the address decides the byte; every other lane leaves it (R150). -/
theorem Memory.readByte_writeLane (m : Memory) (a : Nat) (be : Enables) (w : Word) (i b : Nat) :
    (m.writeLane a be w i).readByte b =
      if be.getLsbD i = true ∧ memIndex b = memIndex (a + i) then byteLane w i else m.readByte b := by
  unfold Memory.writeLane
  by_cases h : be.getLsbD i = true
  · simp [h, Memory.readByte_writeByte]
  · simp [h]

theorem Memory.parityBit_writeLane (m : Memory) (a : Nat) (be : Enables) (w : Word) (i b : Nat) :
    (m.writeLane a be w i).parityBit b =
      if be.getLsbD i = true ∧ memIndex b = memIndex (a + i) then !oddOnes (byteLane w i) else m.parityBit b := by
  unfold Memory.writeLane
  by_cases h : be.getLsbD i = true
  · simp [h, Memory.parityBit_writeByte]
  · simp [h]

theorem Memory.byteGood_writeLane_of (m : Memory) (a : Nat) (be : Enables) (w : Word) (i b : Nat)
    (h : (be.getLsbD i = true ∧ memIndex b = memIndex (a + i)) ∨ m.byteGood b = true) :
    (m.writeLane a be w i).byteGood b = true := by
  by_cases h' : be.getLsbD i = true ∧ memIndex b = memIndex (a + i)
  · simp only [Memory.byteGood, Memory.readByte_writeLane, Memory.parityBit_writeLane, h', and_self, if_true]
    cases oddOnes (byteLane w i) <;> rfl
  · rcases h with h | h
    · exact absurd h h'
    · simp only [Memory.byteGood, Memory.readByte_writeLane, Memory.parityBit_writeLane, h', if_false]
      exact h

/-- A byte outside the enabled bytes of a word write reads as before, with its parity. -/
theorem Memory.writeWord_outside (m : Memory) (a : Nat) (be : Enables) (w : Word) (b : Nat)
    (h : ∀ i < 4, be.getLsbD i = true → memIndex (a + i) ≠ memIndex b) :
    (m.writeWord a be w).readByte b = m.readByte b ∧ (m.writeWord a be w).parityBit b = m.parityBit b := by
  have hh : ∀ i < 4, ¬(be.getLsbD i = true ∧ memIndex b = memIndex (a + i)) :=
    fun i hi ⟨h1, h2⟩ => h i hi h1 h2.symm
  simp only [Memory.writeWord, Memory.readByte_writeLane, Memory.parityBit_writeLane, if_neg (hh 0 (by decide)),
    if_neg (hh 1 (by decide)), if_neg (hh 2 (by decide)), if_neg (hh 3 (by decide)), and_self]

/-- An enabled byte of a word write passes parity afterwards, and any byte that passed before still passes. -/
theorem Memory.writeWord_good (m : Memory) (a : Nat) (be : Enables) (w : Word) (b : Nat)
    (h : (∃ i < 4, be.getLsbD i = true ∧ memIndex (a + i) = memIndex b) ∨ m.byteGood b = true) :
    (m.writeWord a be w).byteGood b = true := by
  simp only [Memory.writeWord]
  rcases h with ⟨i, hi, h1, h2⟩ | h
  · have h3 : be.getLsbD i = true ∧ memIndex b = memIndex (a + i) := ⟨h1, h2.symm⟩
    have hc : i = 0 ∨ i = 1 ∨ i = 2 ∨ i = 3 := by omega
    rcases hc with hc | hc | hc | hc <;> subst hc
    · exact byteGood_writeLane_of _ _ _ _ _ _ (.inr (byteGood_writeLane_of _ _ _ _ _ _ (.inr
        (byteGood_writeLane_of _ _ _ _ _ _ (.inr (byteGood_writeLane_of _ _ _ _ _ _ (.inl h3)))))))
    · exact byteGood_writeLane_of _ _ _ _ _ _ (.inr (byteGood_writeLane_of _ _ _ _ _ _ (.inr
        (byteGood_writeLane_of _ _ _ _ _ _ (.inl h3)))))
    · exact byteGood_writeLane_of _ _ _ _ _ _ (.inr (byteGood_writeLane_of _ _ _ _ _ _ (.inl h3)))
    · exact byteGood_writeLane_of _ _ _ _ _ _ (.inl h3)
  · exact byteGood_writeLane_of _ _ _ _ _ _ (.inr (byteGood_writeLane_of _ _ _ _ _ _ (.inr
      (byteGood_writeLane_of _ _ _ _ _ _ (.inr (byteGood_writeLane_of _ _ _ _ _ _ (.inr h)))))))

/-- A byte that no write of a unit stores to reads as before, with its parity. -/
theorem Memory.applyWrites_outside (m : Memory) (ws : List WordWrite) (b : Nat)
    (h : ∀ w ∈ ws, ∀ i < 4, w.enables.getLsbD i = true → memIndex (w.address + i) ≠ memIndex b) :
    (m.applyWrites ws).readByte b = m.readByte b ∧ (m.applyWrites ws).parityBit b = m.parityBit b := by
  induction ws generalizing m with
  | nil => exact ⟨rfl, rfl⟩
  | cons w rest ih =>
    have h1 := m.writeWord_outside w.address w.enables w.word b (h w (by simp))
    have h2 := ih (m.writeWord w.address w.enables w.word) fun w' hw' => h w' (by simp [hw'])
    exact ⟨h2.1.trans h1.1, h2.2.trans h1.2⟩

theorem Memory.applyWrites_good_of_good (m : Memory) (ws : List WordWrite) (b : Nat) (h : m.byteGood b = true) :
    (m.applyWrites ws).byteGood b = true := by
  induction ws generalizing m with
  | nil => exact h
  | cons w rest ih => exact ih _ (m.writeWord_good _ _ _ _ (.inr h))

/-- "Parity is generated on every byte written by every unit" (R158): a byte the unit stores to passes. -/
theorem Memory.applyWrites_good (m : Memory) (ws : List WordWrite) (b : Nat)
    (h : ∃ w ∈ ws, ∃ i < 4, w.enables.getLsbD i = true ∧ memIndex (w.address + i) = memIndex b) :
    (m.applyWrites ws).byteGood b = true := by
  induction ws generalizing m with
  | nil =>
    obtain ⟨w, hw, _⟩ := h
    simp at hw
  | cons w rest ih =>
    obtain ⟨w', hw', i, hi, h1, h2⟩ := h
    simp only [Memory.applyWrites]
    rcases List.mem_cons.mp hw' with hw' | hw'
    · subst hw'
      have hg : (m.writeWord w'.address w'.enables w'.word).byteGood b = true :=
        m.writeWord_good _ _ _ _ (.inl ⟨i, hi, h1, h2⟩)
      exact Memory.applyWrites_good_of_good _ rest b hg
    · have hr : ∃ w ∈ rest, ∃ i < 4, w.enables.getLsbD i = true ∧ memIndex (w.address + i) = memIndex b :=
        ⟨w', hw', i, hi, h1, h2⟩
      exact ih _ hr

/-! ## Units of the block -/

theorem State.finishUnit_mem (s : State) : s.finishUnit.mem = s.mem.applyWrites s.busyWrites := rfl

theorem State.finishUnit_wf (s : State) (h : s.mem.wf = true) : s.finishUnit.mem.wf = true :=
  s.mem.wf_applyWrites _ h

theorem State.reset_mem_wf : State.reset.mem.wf = true := by decide

end Sys2Proof.Machine
end

