-- ==== Sys2Proof/Laws/Monitor.lean ====
section
/-! SUPPORT. The control-block map at the offsets of its tables, the completion of a permitted write of one word, what
record checks read, and the arbiter's winner. -/

namespace Sys2Proof.Machine

/-! ## The map (R133) -/

theorem cbFunction_contextAck (q : Port) (c : Fin 8) :
    cbFunction ((if q = .A then 0x044 else 0x084) + 4 * c.val) = .contextAck q c := by
  revert c
  cases q <;> decide

theorem cbFunction_window (w : Fin 16) (n : Fin 8) :
    cbFunction (0x200 + 0x20 * w.val + 4 * n.val) = .window w n.val := by
  revert w n
  decide

theorem cbFunction_context (c n : Fin 8) : cbFunction (0x400 + 0x20 * c.val + 4 * n.val) = .context c n.val := by
  revert c n
  decide

theorem cbFunction_command (c : Fin 8) : cbFunction (0x500 + 4 * c.val) = .command c := by
  revert c
  decide

/-! ## The completion of one word (R136) -/

theorem CbWord.acts_of_enabled (offset : Nat) {be : Enables} (v : Word) (h : be ≠ 0) :
    (⟨offset, be, v⟩ : CbWord).acts = true := by
  unfold CbWord.acts
  simpa using h

variable {s : State} {p : Port} {offset : Nat} {be : Enables} {v : Word} {t : Transfer}

theorem State.CbWordUnit.completeCbWrite (h : s.CbWordUnit p offset be v t) :
    s.completeCbWrite = ((s.writeAnswered p ⟨.cbWrite, s.cbBase + offset, [be], [v], true⟩).stageWord
      ⟨offset, be, v⟩).actWord p ⟨offset, be, v⟩ := by
  have hw : (PathUnit.mk .cbWrite (s.cbBase + offset) [be] [v] true).cbWords s.cbBase = [⟨offset, be, v⟩] := by
    simp [PathUnit.cbWords, cbWords]
  unfold State.completeCbWrite
  rw [h.toPortUnit.currentUnit]
  simp only
  rw [h.completeUnit, h.answerOk, hw]
  rfl

theorem State.CbWordUnit.cbWriteHas (h : s.CbWordUnit p offset be v t) {row : CbRow}
    (hrow : row ∈ (⟨offset, be, v⟩ : CbWord).rows p (readClear s.globalWord)) : s.cbWriteHas row = true := by
  have hw : (PathUnit.mk .cbWrite (s.cbBase + offset) [be] [v] true).cbWords s.cbBase = [⟨offset, be, v⟩] := by
    simp [PathUnit.cbWords, cbWords]
  unfold State.cbWriteHas
  rw [h.toPortUnit.currentUnit]
  simp only [hw]
  simp [hrow]

/-- The completion of a permitted write of one word, by any row that the word stands for. -/
theorem State.CbWordUnit.event (h : s.CbWordUnit p offset be v t) {row : CbRow}
    (hrow : row ∈ (⟨offset, be, v⟩ : CbWord).rows p (readClear s.globalWord)) :
    Sys2Proof.Machine.event (s.cbWriteHas row) s (fun s => s.completeCbWrite) =
      .next (closeEvent s (((s.writeAnswered p ⟨.cbWrite, s.cbBase + offset, [be], [v], true⟩).stageWord
        ⟨offset, be, v⟩).actWord p ⟨offset, be, v⟩)) := by
  rw [event_possible (h.cbWriteHas hrow) h.running, h.completeCbWrite]

theorem State.actWord_window (s : State) (p : Port) (offset : Nat) (v : Word) {be : Enables} {w : Fin 16} {n : Nat}
    (hb : be ≠ 0) (hf : cbFunction offset = .window w n) :
    s.actWord p ⟨offset, be, v⟩ = if n = 0 then s.applyWindow p w else s := by
  unfold State.actWord
  simp only [CbWord.acts_of_enabled _ _ hb, hf, if_true]
  cases n with
  | zero => rfl
  | succ n => rfl

theorem State.actWord_context (s : State) (p : Port) (offset : Nat) (v : Word) {be : Enables} {c : Fin 8} {n : Nat}
    (hb : be ≠ 0) (hf : cbFunction offset = .context c n) :
    s.actWord p ⟨offset, be, v⟩ = if n = 0 then s.applyContext p c else s := by
  unfold State.actWord
  simp only [CbWord.acts_of_enabled _ _ hb, hf, if_true]
  cases n with
  | zero => rfl
  | succ n => rfl

/-! ## What record checks read (R90, R139) -/

theorem State.windowReason_congr (s u : State) (w : Fin 16) (r : Record) (h1 : u.memsz = s.memsz)
    (h2 : u.cbsel = s.cbsel) (h3 : u.ctxs = s.ctxs) (h4 : ∀ v : Fin 16, u.windows[v].applied = s.windows[v].applied) :
    u.windowReason w r = s.windowReason w r := by
  unfold State.windowReason State.windowCheck State.boundElsewhere State.meetsCb State.installed State.cbBase
  simp only [h1, h2, h3, h4]

theorem State.contextReason_congr (s u : State) (c : Fin 8) (r : Record) (h1 : u.memsz = s.memsz)
    (h2 : u.cbsel = s.cbsel) (h3 : u.windows = s.windows)
    (h4 : ∀ d : Fin 8, u.ctxs[d].applied = s.ctxs[d].applied ∧ u.ctxs[d].initialised = s.ctxs[d].initialised ∧
      u.ctxs[d].writingRun = s.ctxs[d].writingRun ∧ u.ctxs[d].heldRun = s.ctxs[d].heldRun) :
    u.contextReason c r = s.contextReason c r := by
  unfold State.contextReason State.bound State.ringOverlaps State.meetsCb State.installed State.cbBase Ctx.writing
    Ctx.inCopy
  simp only [h1, h2, h3, fun d => (h4 d).1, fun d => (h4 d).2.1, fun d => (h4 d).2.2.1, fun d => (h4 d).2.2.2]

theorem State.meetsCb_eq_false (s : State) (base size : Nat) :
    s.meetsCb base size = false ↔ (base + size ≤ s.cbBase ∨ s.cbBase + 4096 ≤ base) := by
  unfold State.meetsCb
  simp only [Bool.and_eq_false_iff, decide_eq_false_iff_not]
  omega

theorem State.boundElsewhere_eq_false (s : State) (w : Fin 16) (c : Fin 8) :
    s.boundElsewhere w c = false ↔
      ∀ v : Fin 16, v ≠ w → s.windows[v].applied.isRing = true → s.windows[v].applied.winCtx ≠ c := by
  have hall : ∀ v : Fin 16, v ∈ allWindows := by decide
  unfold State.boundElsewhere
  rw [List.any_eq_false]
  constructor
  · intro h v hv hr hc
    have := h v (hall v)
    simp only [Fin.getElem_fin] at *
    simp [hv, hr, hc] at this
  · intro h v _
    have := h v
    simp only [Fin.getElem_fin] at *
    simp
    intro a b c
    exact this a b c

theorem ite_some_eq_none {α : Type} {q : Prop} [Decidable q] {a : α} {x : Option α} :
    (if q then some a else x) = none ↔ ¬q ∧ x = none := by
  split <;> simp_all

/-! ## The arbiter's winner (R152) -/

theorem State.winner_of_nearest (s : State) (r : Requester) (hb : s.busy = none) (hp : s.presents r = true)
    (h : ∀ q, s.presents q = true → Requester.distance s.pointer r ≤ Requester.distance s.pointer q) :
    s.winner = some r := by
  unfold State.winner
  rw [hb]
  simp only [Option.isSome_none, Bool.false_eq_true, if_false]
  have hA := h .portA
  have hB := h .portB
  have hE := h .engine
  have hM := h .mirror
  generalize s.presents = f at *
  cases hpt : s.pointer <;> cases r <;>
    simp only [hpt, Requester.distance, Requester.rank, Requester.searchOrder, List.find?] at * <;>
    cases ha : f .portA <;> cases hb : f .portB <;> cases he : f .engine <;> cases hm : f .mirror <;> simp_all

end Sys2Proof.Machine
end

