-- ==== Sys2Proof/Laws/Ring.lean ====
section
/-! SUPPORT. The events of a ring keep the counter law of R19 and the run law of R9 and R16, context by context. -/

namespace Sys2Proof.Machine

/-- A context keeps both laws. -/
def Ctx.Lawful (x : Ctx) : Prop := x.CounterLaw ∧ x.RingLaw

/-! ## The law of the runs, by order -/

theorem Ctx.ringLaw_lifo {x : Ctx} (h : x.isLifo = true) :
    x.RingLaw ↔ x.depth ≤ x.capacity ∧ x.depth = x.ready + x.writing + x.inCopy := by
  simp [Ctx.RingLaw, Ctx.occupied, h]

theorem Ctx.ringLaw_fifo {x : Ctx} (h : x.isLifo = false) :
    x.RingLaw ↔ x.ready + x.writing + x.heldCount ≤ x.capacity ∧ x.head = (x.release + x.heldCount) % x.capacity ∧
      x.tail = (x.release + (x.ready + x.writing + x.heldCount)) % x.capacity := by
  simp [Ctx.RingLaw, Ctx.occupied, h]

theorem Ctx.ringLaw_of_lifo {x : Ctx} (h : x.isLifo = true)
    (k : x.depth ≤ x.capacity ∧ x.depth = x.ready + x.writing + x.inCopy) : x.RingLaw := (Ctx.ringLaw_lifo h).mpr k

theorem Ctx.ringLaw_of_fifo {x : Ctx} (h : x.isLifo = false)
    (k : x.ready + x.writing + x.heldCount ≤ x.capacity ∧ x.head = (x.release + x.heldCount) % x.capacity ∧
      x.tail = (x.release + (x.ready + x.writing + x.heldCount)) % x.capacity) : x.RingLaw :=
  (Ctx.ringLaw_fifo h).mpr k

theorem Ctx.isLifo_cases (x : Ctx) : x.isLifo = true ∨ x.isLifo = false := by
  cases x.isLifo <;> simp

/-- The laws speak of the applied geometry, the counts, the indices and three counters alone. -/
theorem Ctx.Lawful.congr {x y : Ctx} (h : x.Lawful) (hl : y.isLifo = x.isLifo) (hc : y.capacity = x.capacity)
    (hr : y.ready = x.ready) (h1 : y.release = x.release) (h2 : y.head = x.head) (h3 : y.tail = x.tail)
    (h4 : y.depth = x.depth) (hw : y.writing = x.writing) (hh : y.heldRun = x.heldRun)
    (hp : y.published = x.published) (hd : y.delivered = x.delivered) (hx : y.discarded = x.discarded) :
    y.Lawful := by
  obtain ⟨h5, h6⟩ := h
  have hi : y.inCopy = x.inCopy := by simp only [Ctx.inCopy, hh]
  have hk : y.heldCount = x.heldCount := by simp only [Ctx.heldCount, hh]
  refine ⟨?_, ?_⟩
  · simpa only [Ctx.CounterLaw, hi, hr, hp, hd, hx] using h5
  · rcases x.isLifo_cases with hb | hb
    · rw [Ctx.ringLaw_lifo hb] at h6
      rw [Ctx.ringLaw_lifo (hl.trans hb), hc, h4, hr, hw, hi]
      exact h6
    · rw [Ctx.ringLaw_fifo hb] at h6
      rw [Ctx.ringLaw_fifo (hl.trans hb), hc, h1, h2, h3, hr, hw, hk]
      exact h6

/-! ## Reservation -/

theorem Ctx.lawful_reserve {x : Ctx} (h : x.Lawful) (p : Port) (now : BitVec 16) (hf : x.full = false) :
    (x.reserve p now).Lawful := by
  obtain ⟨h1, h2⟩ := h
  have hf' : x.occupied < x.capacity := by simpa [Ctx.full] using hf
  have hw : (x.reserve p now).writing = x.writing + 1 := by simp [Ctx.reserve, Ctx.writing]
  refine ⟨h1, ?_⟩
  rcases x.isLifo_cases with hb | hb
  · rw [Ctx.ringLaw_lifo hb] at h2
    simp only [Ctx.occupied, hb, if_true] at hf'
    have hd : (x.reserve p now).depth = x.depth + 1 := by simp [Ctx.reserve, hb]
    rw [Ctx.ringLaw_lifo (x := x.reserve p now) hb, hw, hd]
    refine ⟨hf', ?_⟩
    change x.depth + 1 = x.ready + (x.writing + 1) + x.inCopy
    omega
  · rw [Ctx.ringLaw_fifo hb] at h2
    simp only [Ctx.occupied, hb, Bool.false_eq_true, if_false] at hf'
    have ht : (x.reserve p now).tail = (x.tail + 1) % x.capacity := by simp [Ctx.reserve, hb]
    rw [Ctx.ringLaw_fifo (x := x.reserve p now) hb, hw, ht]
    obtain ⟨h3, h4, h5⟩ := h2
    refine ⟨?_, h4, ?_⟩
    · change x.ready + (x.writing + 1) + x.heldCount ≤ x.capacity
      omega
    · change (x.tail + 1) % x.capacity = (x.release + (x.ready + (x.writing + 1) + x.heldCount)) % x.capacity
      rw [h5, Nat.mod_add_mod]
      congr 1
      omega

/-! ## Publication -/

theorem BitVec.ofNat16_succ (n : Nat) : BitVec.ofNat 16 (n + 1) = BitVec.ofNat 16 n + 1#16 := by
  rw [BitVec.ofNat_add]

theorem Ctx.lawful_publish {x : Ctx} (h : x.Lawful) (w : WritingSlot) (hw : 0 < x.writing) :
    Ctx.Lawful { x.publish w with published := (x.publish w).published + 1 } := by
  obtain ⟨h1, h2⟩ := h
  have main : Ctx.Lawful { x with writingRun := x.writingRun.drop 1, ready := x.ready + 1,
                                  published := x.published + 1 } := by
    refine ⟨?_, ?_⟩
    · simp only [Ctx.CounterLaw, Ctx.inCopy] at h1 ⊢
      rw [h1, show x.ready + 1 + x.heldRun.countP HeldSlot.isCopying =
        x.ready + x.heldRun.countP HeldSlot.isCopying + 1 by omega, BitVec.ofNat16_succ, BitVec.add_assoc]
      rfl
    · rcases x.isLifo_cases with hb | hb
      · rw [Ctx.ringLaw_lifo hb] at h2
        refine Ctx.ringLaw_of_lifo ?_ ?_
        · exact hb
        simp only [Ctx.writing, Ctx.capacity, Ctx.inCopy, List.length_drop] at h2 hw ⊢
        omega
      · rw [Ctx.ringLaw_fifo hb] at h2
        refine Ctx.ringLaw_of_fifo ?_ ?_
        · exact hb
        simp only [Ctx.writing, Ctx.capacity, Ctx.heldCount, List.length_drop] at h2 hw ⊢
        refine ⟨by omega, h2.2.1, ?_⟩
        rw [h2.2.2]
        congr 1
        omega
  unfold Ctx.publish
  simp only
  split
  · exact main.congr rfl rfl rfl rfl rfl rfl rfl rfl rfl rfl rfl rfl
  · exact main

/-! ## Claim -/

theorem Ctx.lawful_claim {x : Ctx} (h : x.Lawful) (p : Port) (hr : x.ready ≠ 0) : (x.claim p).Lawful := by
  obtain ⟨h1, h2⟩ := h
  have main : Ctx.Lawful { x with ready := x.ready - 1,
                                  head := if x.isLifo then x.head else (x.head + 1) % x.capacity,
                                  heldRun := x.heldRun ++ [HeldSlot.copying p] } := by
    refine ⟨?_, ?_⟩
    · simp only [Ctx.CounterLaw, Ctx.inCopy, List.countP_append, List.countP_singleton, HeldSlot.isCopying,
        if_true] at h1 ⊢
      rw [h1]
      congr 2
      omega
    · rcases x.isLifo_cases with hb | hb
      · rw [Ctx.ringLaw_lifo hb] at h2
        refine Ctx.ringLaw_of_lifo ?_ ?_
        · exact hb
        simp only [Ctx.writing, Ctx.capacity, Ctx.inCopy, List.countP_append, List.countP_singleton,
          HeldSlot.isCopying, if_true] at h2 ⊢
        omega
      · rw [Ctx.ringLaw_fifo hb] at h2
        refine Ctx.ringLaw_of_fifo ?_ ?_
        · exact hb
        simp only [hb, Ctx.writing, Ctx.capacity, Ctx.heldCount, List.length_append, List.length_singleton,
          Bool.false_eq_true, if_false] at h2 ⊢
        refine ⟨by omega, ?_, ?_⟩
        · rw [h2.2.1, Nat.mod_add_mod]
          congr 1
        · rw [h2.2.2]
          congr 1
          omega
  unfold Ctx.claim
  exact main.congr rfl rfl rfl rfl rfl rfl rfl rfl rfl rfl rfl rfl

/-! ## Release -/

theorem countP_dropWhile_spent (l : List HeldSlot) :
    (l.dropWhile HeldSlot.isSpent).countP HeldSlot.isCopying = l.countP HeldSlot.isCopying := by
  induction l with
  | nil => rfl
  | cons a rest ih =>
    cases a with
    | copying p => simp [List.dropWhile, HeldSlot.isSpent]
    | spent => simp [List.dropWhile, HeldSlot.isSpent, HeldSlot.isCopying, ih]

theorem length_dropWhile_takeWhile {α : Type} (p : α → Bool) (l : List α) :
    (l.takeWhile p).length + (l.dropWhile p).length = l.length := by
  rw [← List.length_append, List.takeWhile_append_dropWhile]

/-- The release step of R15 keeps the laws of a FIFO context. -/
theorem Ctx.lawful_releaseStep {x : Ctx} (h : x.Lawful) (hl : x.isLifo = false) : x.releaseStep.Lawful := by
  obtain ⟨h1, h2⟩ := h
  have hlen := length_dropWhile_takeWhile HeldSlot.isSpent x.heldRun
  refine ⟨?_, ?_⟩
  · simpa only [Ctx.CounterLaw, Ctx.inCopy, Ctx.releaseStep, countP_dropWhile_spent] using h1
  · rw [Ctx.ringLaw_fifo hl] at h2
    rw [Ctx.ringLaw_fifo (x := x.releaseStep) hl]
    simp only [Ctx.writing, Ctx.capacity, Ctx.heldCount, Ctx.releaseStep] at h2 ⊢
    refine ⟨by omega, ?_, ?_⟩
    · rw [h2.2.1, Nat.mod_add_mod]
      congr 1
      omega
    · rw [h2.2.2, Nat.mod_add_mod]
      congr 1
      omega

/-! ## Discard -/

theorem countP_replicate_spent (n : Nat) : (List.replicate n HeldSlot.spent).countP HeldSlot.isCopying = 0 := by
  simp [List.countP_replicate, HeldSlot.isCopying]

theorem Ctx.lawful_dropReady {x : Ctx} (h : x.Lawful) (n : Nat) (hn : n ≤ x.ready) :
    Ctx.Lawful { x.dropReady n with
      discarded := (x.dropReady n).discarded + BitVec.ofNat 16 n, gap := true } := by
  obtain ⟨h1, h2⟩ := h
  have hc : ∀ k, x.published = x.delivered + x.discarded + BitVec.ofNat 16 (x.ready + k) →
      x.published = x.delivered + (x.discarded + BitVec.ofNat 16 n) + BitVec.ofNat 16 (x.ready - n + k) := by
    intro k hk
    rw [hk, show x.ready + k = n + (x.ready - n + k) by omega, BitVec.ofNat_add, ← BitVec.add_assoc,
      ← BitVec.add_assoc]
  unfold Ctx.dropReady
  rcases x.isLifo_cases with hb | hb
  · rw [if_pos hb]
    rw [Ctx.ringLaw_lifo hb] at h2
    refine ⟨hc _ h1, Ctx.ringLaw_of_lifo ?_ ?_⟩
    · exact hb
    simp only [Ctx.writing, Ctx.capacity, Ctx.inCopy, Ctx.cacheInvalid] at h2 ⊢
    omega
  · rw [if_neg (by simp [hb])]
    rw [Ctx.ringLaw_fifo hb] at h2
    have main : Ctx.Lawful { x with ready := x.ready - n, head := (x.head + n) % x.capacity,
                                    heldRun := x.heldRun ++ List.replicate n HeldSlot.spent,
                                    discarded := x.discarded + BitVec.ofNat 16 n } := by
      refine ⟨?_, Ctx.ringLaw_of_fifo ?_ ?_⟩
      · simpa only [Ctx.CounterLaw, Ctx.inCopy, List.countP_append, countP_replicate_spent, Nat.add_zero]
          using hc _ h1
      · exact hb
      · simp only [Ctx.writing, Ctx.capacity, Ctx.heldCount, List.length_append, List.length_replicate] at h2 ⊢
        refine ⟨by omega, ?_, ?_⟩
        · rw [h2.2.1, Nat.mod_add_mod]
          congr 1
          omega
        · rw [h2.2.2]
          congr 1
          omega
    exact (Ctx.lawful_releaseStep main hb).congr rfl rfl rfl rfl rfl rfl rfl rfl rfl rfl rfl rfl

/-! ## End of a copy -/

theorem spendCopy_length (p : Port) (l : List HeldSlot) : (spendCopy p l).length = l.length := by
  induction l with
  | nil => rfl
  | cons a rest ih =>
    cases a with
    | copying q =>
      simp only [spendCopy]
      split <;> simp [ih]
    | spent => simp [spendCopy, ih]

theorem HeldSlot.isCopying_copying (p : Port) : HeldSlot.isCopying (.copying p) = true := rfl

theorem HeldSlot.isCopying_spent : HeldSlot.isCopying .spent = false := rfl

theorem spendCopy_countP (p : Port) (l : List HeldSlot) (h : HeldSlot.copying p ∈ l) :
    (spendCopy p l).countP HeldSlot.isCopying + 1 = l.countP HeldSlot.isCopying := by
  induction l with
  | nil => simp at h
  | cons a rest ih =>
    cases a with
    | copying q =>
      simp only [spendCopy]
      by_cases hq : p = q
      · subst hq
        simp only [if_true, List.countP_cons, HeldSlot.isCopying_spent, HeldSlot.isCopying_copying,
          Bool.false_eq_true, if_false]
      · have hm : HeldSlot.copying p ∈ rest := by simpa [hq] using h
        simp only [if_neg hq, List.countP_cons]
        have := ih hm
        omega
    | spent =>
      have hm : HeldSlot.copying p ∈ rest := by simpa using h
      simp only [spendCopy, List.countP_cons]
      have := ih hm
      omega

theorem countP_erase_copying (p : Port) (l : List HeldSlot) (h : HeldSlot.copying p ∈ l) :
    (l.erase (.copying p)).countP HeldSlot.isCopying + 1 = l.countP HeldSlot.isCopying := by
  induction l with
  | nil => simp at h
  | cons a rest ih =>
    by_cases ha : a = .copying p
    · subst ha
      simp only [List.erase_cons_head, List.countP_cons, HeldSlot.isCopying_copying, if_true]
    · have hm : HeldSlot.copying p ∈ rest := by
        rcases List.mem_cons.mp h with h | h
        · exact absurd h.symm ha
        · exact h
      rw [List.erase_cons_tail (by simpa using ha)]
      simp only [List.countP_cons]
      have := ih hm
      omega

/-- The end of a copy moves one from in-copy to the counter it adds to (R15, R16, R19). -/
theorem Ctx.lawful_copyDone {x : Ctx} (h : x.Lawful) (p : Port) (hc : HeldSlot.copying p ∈ x.heldRun)
    (d e : BitVec 16) (g : Bool) (hde : d + e = x.delivered + x.discarded + 1#16) :
    Ctx.Lawful { x.copyDone p with delivered := d, discarded := e, gap := g } := by
  obtain ⟨h1, h2⟩ := h
  have hcount : ∀ k : Nat, k + 1 = x.heldRun.countP HeldSlot.isCopying →
      x.published = d + e + BitVec.ofNat 16 (x.ready + k) := by
    intro k hk
    have h1' := h1
    simp only [Ctx.CounterLaw, Ctx.inCopy, ← hk] at h1'
    rw [h1', hde, show x.ready + (k + 1) = 1 + (x.ready + k) by omega, BitVec.ofNat_add, ← BitVec.add_assoc]
  unfold Ctx.copyDone
  rcases x.isLifo_cases with hb | hb
  · rw [if_pos hb]
    have hk := countP_erase_copying p x.heldRun hc
    rw [Ctx.ringLaw_lifo hb] at h2
    refine ⟨hcount _ hk, Ctx.ringLaw_of_lifo ?_ ?_⟩
    · exact hb
    simp only [Ctx.writing, Ctx.capacity, Ctx.inCopy] at h2 ⊢
    omega
  · rw [if_neg (by simp [hb])]
    have hk := spendCopy_countP p x.heldRun hc
    have main : Ctx.Lawful { x with heldRun := spendCopy p x.heldRun, delivered := d, discarded := e } := by
      rw [Ctx.ringLaw_fifo hb] at h2
      refine ⟨hcount _ hk, Ctx.ringLaw_of_fifo ?_ ?_⟩
      · exact hb
      simpa only [Ctx.writing, Ctx.capacity, Ctx.heldCount, spendCopy_length] using h2
    exact (Ctx.lawful_releaseStep main hb).congr rfl rfl rfl rfl rfl rfl rfl rfl rfl rfl rfl rfl

/-! ## Initialisation and soft fields -/

theorem Ctx.lawful_initialise (x : Ctx) (r : Record) : (x.initialise r).Lawful := by
  refine ⟨by simp [Ctx.CounterLaw, Ctx.initialise, Ctx.cacheInvalid, Ctx.inCopy], ?_⟩
  rcases (x.initialise r).isLifo_cases with hb | hb
  · rw [Ctx.ringLaw_lifo hb]
    simp [Ctx.initialise, Ctx.cacheInvalid, Ctx.writing, Ctx.inCopy]
  · rw [Ctx.ringLaw_fifo hb]
    simp [Ctx.initialise, Ctx.cacheInvalid, Ctx.writing, Ctx.heldCount]

theorem Ctx.lawful_softApply {x : Ctx} (h : x.Lawful) (r : Record) (hg : r.sameGeometry x.applied = true) :
    (x.softApply r).Lawful := by
  simp only [Record.sameGeometry, Bool.and_eq_true, beq_iff_eq] at hg
  obtain ⟨⟨⟨⟨h1, _⟩, _⟩, h4⟩, _⟩ := hg
  exact h.congr h1 h4 rfl rfl rfl rfl rfl rfl rfl rfl rfl rfl

theorem Ctx.lawful_reset : Ctx.reset.Lawful := by
  refine ⟨rfl, ?_⟩
  rw [Ctx.ringLaw_fifo rfl]
  decide

end Sys2Proof.Machine
end

