-- ==== Sys2Proof/Laws/Queue.lean ====
section
/-! SUPPORT. Every shared operation on the queues keeps the counter law (R19) and the run law (R9, R16) of every
context. -/

namespace Sys2Proof.Machine

/-- Every context keeps the counter law and the run law. -/
def Live.Lawful (l : Live) : Prop := ∀ c : Fin 8, l.ctxs[c.val].Lawful

theorem State.lawful_iff (s : State) : s.toLive.Lawful ↔ s.CounterLaw ∧ s.RingLaw :=
  ⟨fun h => ⟨fun c => (h c).1, fun c => (h c).2⟩, fun h c => ⟨h.1 c, h.2 c⟩⟩

/-! ## Changes of one context -/

theorem Live.Lawful.of_ctxs {l m : Live} (h : l.Lawful) (e : m.ctxs = l.ctxs) : m.Lawful := fun c => by
  rw [e]
  exact h c

theorem Live.Lawful.modCtx {l : Live} (h : l.Lawful) (c : Fin 8) (f : Ctx → Ctx)
    (hf : l.ctxs[c.val].Lawful → (f l.ctxs[c.val]).Lawful) : (l.modCtx c f).Lawful := by
  intro d
  rw [Live.modCtx_ctxs]
  split
  · exact hf (h c)
  · exact h d

/-- A change of a context that touches neither its geometry, counts, indices nor counters. -/
theorem Live.Lawful.modCtx_same {l : Live} (h : l.Lawful) (c : Fin 8) (f : Ctx → Ctx)
    (hf : ∀ x : Ctx, x.Lawful → (f x).Lawful) : (l.modCtx c f).Lawful := h.modCtx c f (hf _)

theorem Ctx.Lawful.withHeld {x : Ctx} (h : x.Lawful) (v : List HeldItem) : Ctx.Lawful { x with held := v } :=
  h.congr rfl rfl rfl rfl rfl rfl rfl rfl rfl rfl rfl rfl

theorem Ctx.Lawful.withRejected {x : Ctx} (h : x.Lawful) (n : BitVec 16) (g : Bool) :
    Ctx.Lawful { x with rejected := n, gap := g } :=
  h.congr rfl rfl rfl rfl rfl rfl rfl rfl rfl rfl rfl rfl

theorem Ctx.Lawful.withWatermark {x : Ctx} (h : x.Lawful) (w : Watermark) : Ctx.Lawful { x with watermark := w } :=
  h.congr rfl rfl rfl rfl rfl rfl rfl rfl rfl rfl rfl rfl

section small
variable {l : Live} (h : l.Lawful) (c : Fin 8) (p : Port)
include h

theorem Live.lawful_raise (k : Kind) : (l.raise c k).Lawful := h.of_ctxs rfl

theorem Live.lawful_setAssembly (x : Assembly) : (l.setAssembly p x).Lawful := h.of_ctxs rfl

theorem Live.lawful_setLatch (x : Latch) : (l.setLatch p x).Lawful := h.of_ctxs rfl

theorem Live.lawful_setIface (x : Iface) : (l.setIface p x).Lawful := h.of_ctxs rfl

theorem Live.lawful_addJob (j : Job) : (l.addJob j).Lawful := h.of_ctxs rfl

theorem Live.lawful_answerOk (a : Answer) : (l.answerOk p a).Lawful := h.of_ctxs (by simp)

theorem Live.lawful_answerError (k : FaultKind) : (l.answerError p k).Lawful := h.of_ctxs (by simp)

theorem Live.lawful_removeHeld : (l.removeHeld c p).Lawful := h.modCtx_same c _ fun _ hx => hx.withHeld _

theorem Live.lawful_holdItem (i : HeldItem) : (l.holdItem c i).Lawful := h.modCtx_same c _ fun _ hx => hx.withHeld _

theorem Live.lawful_countRejected : (l.countRejected c).Lawful :=
  (h.modCtx_same c (fun x => { x with rejected := x.rejected + 1, gap := true }) fun _ hx =>
    hx.withRejected _ _).of_ctxs (by simp)

theorem Live.lawful_reject : (l.reject c).Lawful :=
  (h.modCtx_same c (fun x => { x with rejected := x.rejected + 1, gap := true }) fun _ hx =>
    hx.withRejected _ _).of_ctxs (by simp)

end small

/-! ## Ring events -/

theorem Live.modCtx_modCtx (l : Live) (c : Fin 8) (f g : Ctx → Ctx) :
    (l.modCtx c f).modCtx c g = l.modCtx c fun x => g (f x) := by
  simp [Live.modCtx]

/-- A discard of `n` entries, as one change of the context. -/
theorem Live.discard_ctxs (l : Live) (c : Fin 8) (n : Nat) : (l.discard c n).ctxs =
    (l.modCtx c fun x => { x.dropReady n with
      discarded := (x.dropReady n).discarded + BitVec.ofNat 16 n, gap := true }).ctxs := by
  simp only [Live.discard, Live.raise_ctxs, Live.countDiscarded_ctxs, Live.modCtx_modCtx]

section ring
variable {l : Live} (h : l.Lawful) (c : Fin 8)
include h

theorem Live.lawful_discard (n : Nat) (hn : n ≤ l.ctxs[c.val].ready) : (l.discard c n).Lawful :=
  (h.modCtx c _ fun hx => Ctx.lawful_dropReady hx n hn).of_ctxs (l.discard_ctxs c n)

theorem Live.lawful_discardAll : (l.discardAll c).Lawful := by
  unfold Live.discardAll
  split
  · exact h
  · exact Live.lawful_discard h c _ (Nat.le_refl _)

theorem Live.lawful_reserve (now : BitVec 16) (k : HeldCommit) (hf : l.ctxs[c.val].full = false) :
    (l.reserve now c k).Lawful := by
  unfold Live.reserve
  refine Live.lawful_setAssembly (Live.lawful_removeHeld ?_ _ _) _ _
  exact (Live.lawful_addJob h _).modCtx c _ fun hx => Ctx.lawful_reserve hx _ _ hf

theorem Live.lawful_refuseFull (k : HeldCommit) : (l.refuseFull c k).Lawful :=
  Live.lawful_setAssembly (Live.lawful_reject (Live.lawful_answerError (Live.lawful_removeHeld h _ _) _ _) _) _ _

theorem Live.lawful_claim (k : HeldPop) (hr : l.ctxs[c.val].ready ≠ 0) : (l.claim c k).Lawful := by
  unfold Live.claim
  refine Live.lawful_setLatch (Live.lawful_removeHeld ?_ _ _) _ _
  exact (Live.lawful_addJob h _).modCtx c _ fun hx => Ctx.lawful_claim hx _ hr

theorem Live.lawful_answerProducer (p : Port) : (l.answerProducer c p).Lawful := by
  unfold Live.answerProducer
  split
  · exact Live.lawful_setAssembly (Live.lawful_answerOk h _ _) _ _
  · exact h

end ring

/-! ## Publication -/

theorem Live.answerProducer_ctxs (l : Live) (c : Fin 8) (p : Port) : (l.answerProducer c p).ctxs = l.ctxs := by
  unfold Live.answerProducer
  split <;> simp

theorem Live.countPublished_modCtx_ctxs (l : Live) (c : Fin 8) (f : Ctx → Ctx) :
    ((l.modCtx c f).countPublished c).ctxs =
      (l.modCtx c fun x => { f x with published := (f x).published + 1 }).ctxs := by
  simp only [Live.countPublished_ctxs, Live.modCtx_modCtx]

theorem Live.claim_writing (l : Live) (c : Fin 8) (k : HeldPop) :
    (l.claim c k).ctxs[c.val].writing = l.ctxs[c.val].writing := by
  simp [Live.claim, Live.removeHeld, Ctx.claim, Ctx.writing, Ctx.cacheInvalid]

theorem Ctx.publish_writing (x : Ctx) (w : WritingSlot) : (x.publish w).writing = x.writing - 1 := by
  unfold Ctx.publish
  simp only
  split <;> simp [Ctx.writing, Ctx.cacheValid]

/-- One publication takes one slot of the WRITING run. -/
theorem Live.publishOne_writing (l : Live) (c : Fin 8) (w : WritingSlot) :
    (l.publishOne c w).ctxs[c.val].writing = l.ctxs[c.val].writing - 1 := by
  have base : (((l.modCtx c fun x => x.publish w).countPublished c).answerProducer c w.port).ctxs[c.val].writing =
      l.ctxs[c.val].writing - 1 := by
    rw [Live.answerProducer_ctxs, Live.countPublished_modCtx_ctxs, Live.modCtx_ctxs_self]
    exact Ctx.publish_writing _ _
  unfold Live.publishOne
  dsimp only
  split
  · split
    · exact base
    · rw [Live.claim_writing]
      exact base
  · exact base

theorem Live.lawful_publishOne {l : Live} (h : l.Lawful) (c : Fin 8) (w : WritingSlot)
    (hw : 0 < l.ctxs[c.val].writing) : (l.publishOne c w).Lawful := by
  have base : (((l.modCtx c fun x => x.publish w).countPublished c).answerProducer c w.port).Lawful := by
    refine Live.lawful_answerProducer ?_ _ _
    exact (h.modCtx c _ fun hx => Ctx.lawful_publish hx w hw).of_ctxs (l.countPublished_modCtx_ctxs c _)
  unfold Live.publishOne
  dsimp only
  split
  · split
    · exact base
    · next hc =>
      simp only [Bool.or_eq_true, beq_iff_eq, not_or] at hc
      exact Live.lawful_claim base c _ hc.2
  · exact base

theorem Live.lawful_publishRun (c : Fin 8) : ∀ (run : List WritingSlot) (l : Live), l.Lawful →
    run.length ≤ l.ctxs[c.val].writing → (Live.publishRun run c l).Lawful
  | [], _, h, _ => h
  | w :: rest, l, h, hr => by
    have hr' : rest.length + 1 ≤ l.ctxs[c.val].writing := hr
    refine Live.lawful_publishRun c rest _ (Live.lawful_publishOne h c w (by omega)) ?_
    rw [Live.publishOne_writing]
    omega

theorem Ctx.writeComplete_writing (x : Ctx) (slot : Nat) (p : Port) : (x.writeComplete slot p).writing = x.writing := by
  simp [Ctx.writeComplete, Ctx.writing]

theorem Ctx.lawful_writeComplete {x : Ctx} (h : x.Lawful) (slot : Nat) (p : Port) : (x.writeComplete slot p).Lawful :=
  h.congr rfl rfl rfl rfl rfl rfl rfl (x.writeComplete_writing slot p) rfl rfl rfl rfl

theorem Ctx.publishable_le (x : Ctx) : x.publishable.length ≤ x.writing :=
  List.Sublist.length_le (List.takeWhile_sublist _)

/-! ## Held lists -/

section held
variable {l : Live} (h : l.Lawful) (now : BitVec 16) (c : Fin 8)
include h

theorem Live.lawful_takeCommit (k : HeldCommit) : (l.takeCommit now c k).Lawful := by
  unfold Live.takeCommit
  split
  · split
    · exact Live.lawful_refuseFull h c k
    · exact Live.lawful_holdItem h c _
    · split
      · exact Live.lawful_holdItem h c _
      · split
        · exact Live.lawful_refuseFull h c k
        · next hr =>
          unfold Live.overwrite
          have hd : (l.discard c 1).Lawful :=
            Live.lawful_discard h c 1 (Nat.one_le_iff_ne_zero.mpr hr)
          dsimp only
          split
          · exact Live.lawful_holdItem hd c _
          · next hf => exact Live.lawful_reserve hd c now k (by simpa using hf)
  · next hf => exact Live.lawful_reserve h c now k (by simpa using hf)

theorem Live.lawful_takeEmpty (k : HeldPop) : (l.takeEmpty c k).Lawful := by
  unfold Live.takeEmpty
  split
  · exact Live.lawful_setLatch (Live.lawful_answerOk (Live.lawful_removeHeld h _ _) _ _) _ _
  · exact Live.lawful_setLatch (Live.lawful_answerError (Live.lawful_removeHeld h _ _) _ _) _ _
  · exact Live.lawful_setLatch (Live.lawful_holdItem h _ _) _ _

theorem Live.lawful_takePop (k : HeldPop) : (l.takePop c k).Lawful := by
  unfold Live.takePop
  split
  · exact Live.lawful_takeEmpty h c k
  · next hr => exact Live.lawful_claim h c k hr

end held

theorem lawful_examineCommitList (now : BitVec 16) (c : Fin 8) : ∀ (ks : List HeldCommit) (l : Live), l.Lawful →
    (examineCommitList now c ks l).Lawful
  | [], _, h => h
  | k :: rest, l, h => by
    unfold examineCommitList
    split
    · exact h
    · simp only
      split
      · exact Live.lawful_takeCommit h now c k
      · exact lawful_examineCommitList now c rest _ (Live.lawful_takeCommit h now c k)

theorem lawful_examinePopList (c : Fin 8) : ∀ (ks : List HeldPop) (l : Live), l.Lawful →
    (examinePopList c ks l).Lawful
  | [], _, h => h
  | k :: rest, l, h => by
    unfold examinePopList
    split
    · exact h
    · exact lawful_examinePopList c rest _ (Live.lawful_takePop h c k)

theorem lawful_examineStackList (now : BitVec 16) (c : Fin 8) : ∀ (ks : List HeldItem) (l : Live), l.Lawful →
    (examineStackList now c ks l).Lawful
  | [], _, h => h
  | k :: rest, l, h => by
    unfold examineStackList
    split
    · exact h
    · split
      · split
        · exact h
        · exact lawful_examineStackList now c rest _ (Live.lawful_takeCommit h now c _)
      · split
        · exact h
        · exact lawful_examineStackList now c rest _ (Live.lawful_takePop h c _)

section lists
variable {l : Live} (h : l.Lawful) (now : BitVec 16) (c : Fin 8) (p : Port)
include h

theorem Live.lawful_examineStack : (l.examineStack now c).Lawful := lawful_examineStackList now c _ l h

theorem Live.lawful_examineCommits : (l.examineCommits now c).Lawful := by
  unfold Live.examineCommits
  split
  · exact Live.lawful_examineStack h now c
  · exact lawful_examineCommitList now c _ l h

theorem Live.lawful_examinePops : (l.examinePops now c).Lawful := by
  unfold Live.examinePops
  split
  · exact Live.lawful_examineStack h now c
  · exact lawful_examinePopList c _ l h

theorem Live.lawful_examineCommitOf : (l.examineCommitOf now p).Lawful := by
  unfold Live.examineCommitOf
  split
  · exact h
  · split
    · exact Live.lawful_examineCommits h now _
    · exact h

theorem Live.lawful_examinePopOf : (l.examinePopOf now p).Lawful := by
  unfold Live.examinePopOf
  split
  · exact h
  · split
    · exact Live.lawful_examinePops h now _
    · exact h

theorem Live.lawful_offerSpace (before : Live) : (Live.offerSpace before l now c).Lawful := by
  unfold Live.offerSpace
  split
  · exact Live.lawful_examineStack h now c
  · split
    · exact Live.lawful_examineCommits h now c
    · exact h

theorem Live.lawful_operationEnds : (l.operationEnds now c).Lawful := by
  unfold Live.operationEnds
  refine Live.lawful_examineStack ?_ now c
  split
  · refine Live.lawful_discardAll ?_ c
    exact h.modCtx_same c _ fun _ hx => hx.congr rfl rfl rfl rfl rfl rfl rfl rfl rfl rfl rfl rfl
  · exact h

theorem Live.lawful_arriveCommit (k : HeldCommit) : (l.arriveCommit now c k).Lawful := by
  have hj : (l.joinCommit c k).Lawful := Live.lawful_holdItem h c _
  unfold Live.arriveCommit
  split
  · split
    · exact Live.lawful_takeCommit h now c k
    · exact Live.lawful_examineStack hj now c
  · split
    · exact Live.lawful_takeCommit h now c k
    · exact hj

theorem Live.lawful_arrivePop (k : HeldPop) : (l.arrivePop now c k).Lawful := by
  have hj : (l.joinPop c k).Lawful := Live.lawful_setLatch (Live.lawful_holdItem h c _) _ _
  unfold Live.arrivePop
  split
  · split
    · exact Live.lawful_takePop h c k
    · exact Live.lawful_examineStack hj now c
  · split
    · exact hj
    · split
      · exact Live.lawful_takeEmpty h c k
      · split
        · next hr _ => exact Live.lawful_claim h c k hr
        · exact hj

end lists

/-! ## Pushing and popping -/

section ports
variable {l : Live} (h : l.Lawful) (now : BitVec 16) (c : Fin 8) (p : Port)
include h

theorem Live.lawful_cutAssembly : (l.cutAssembly p c).Lawful := by
  unfold Live.cutAssembly
  split
  · split
    · exact h
    · exact Live.lawful_setAssembly (Live.lawful_reject h _) _ _
  · exact h

theorem Live.lawful_append (idle : Option Nat) (t : Transfer) (last : Bool) :
    (l.append now idle p c t last).Lawful := by
  have hc := Live.lawful_cutAssembly h c p
  unfold Live.append
  simp only
  split
  · exact Live.lawful_setAssembly (Live.lawful_reject (Live.lawful_answerError hc _ _) _) _ _
  · split
    · exact Live.lawful_arriveCommit (Live.lawful_setAssembly (Live.lawful_setAssembly hc _ _) _ _) now c _
    · exact Live.lawful_answerOk (Live.lawful_setAssembly hc _ _) _ _

theorem Live.lawful_cutLatch : (l.cutLatch p c).Lawful := Live.lawful_setLatch (Live.lawful_raise h _ _) _ _

theorem Live.lawful_popRead (burst : Burst) : (l.popRead now p c burst).Lawful := by
  unfold Live.popRead
  split
  · split
    · exact Live.lawful_setLatch (Live.lawful_answerOk h _ _) _ _
    · exact Live.lawful_arrivePop (Live.lawful_cutLatch h _ _) now c _
  · exact Live.lawful_arrivePop h now c _

end ports

/-! ## Completions -/

theorem foldl_lawful {α : Type} (f : Live → α → Live) (hf : ∀ l a, l.Lawful → (f l a).Lawful) (xs : List α) {l : Live}
    (h : l.Lawful) : (xs.foldl f l).Lawful := foldl_preserves Live.Lawful f hf xs l h

theorem Live.lawful_entryWritten {l : Live} (h : l.Lawful) (now : BitVec 16) (c : Fin 8) (slot : Nat) (p : Port) :
    (l.entryWritten now c slot p).Lawful := by
  have h1 : (l.modCtx c fun x => x.writeComplete slot p).Lawful :=
    h.modCtx_same c _ fun _ hx => Ctx.lawful_writeComplete hx slot p
  unfold Live.entryWritten
  simp only
  split
  · exact h1
  · refine foldl_lawful _ (fun m w hm => Live.lawful_examineCommitOf hm now w.port) _ ?_
    have h2 := Live.lawful_publishRun c _ _ h1 (Ctx.publishable_le _)
    split
    · exact Live.lawful_operationEnds h2 now c
    · exact Live.lawful_examinePops h2 now c

/-- The account of a copy, as one change of the context (R60-R62). -/
theorem Live.lawful_accountCopy {l : Live} (h : l.Lawful) (c : Fin 8) (p : Port) (r : CopyRead) :
    (l.accountCopy c p r).Lawful := by
  unfold Live.accountCopy
  split
  · next hc =>
    have hm : HeldSlot.copying p ∈ l.ctxs[c.val].heldRun := by simpa using hc
    have hcd : ∀ x : Ctx, (x.copyDone p).delivered = x.delivered ∧ (x.copyDone p).discarded = x.discarded ∧
        (x.copyDone p).gap = x.gap := by
      intro x
      unfold Ctx.copyDone
      split <;> exact ⟨rfl, rfl, rfl⟩
    have delivered : ((l.modCtx c fun x => x.copyDone p).countDelivered c).Lawful := by
      refine Live.Lawful.of_ctxs (l := l.modCtx c fun x =>
        { x.copyDone p with delivered := (x.copyDone p).delivered + 1 }) ?_ ?_
      · refine h.modCtx c _ fun hx => ?_
        have := Ctx.lawful_copyDone hx p hm (l.ctxs[c.val].delivered + 1) l.ctxs[c.val].discarded l.ctxs[c.val].gap
          (by rw [BitVec.add_assoc, BitVec.add_comm 1, ← BitVec.add_assoc]; rfl)
        exact this.congr rfl rfl rfl rfl rfl rfl rfl rfl rfl rfl (by rw [(hcd _).1]) ((hcd _).2.1)
      · simp only [Live.countDelivered_ctxs, Live.modCtx_modCtx]
    simp only
    split
    · refine Live.lawful_raise (Live.lawful_raise ?_ _ _) _ _
      refine Live.Lawful.of_ctxs (l := l.modCtx c fun x =>
        { x.copyDone p with discarded := (x.copyDone p).discarded + BitVec.ofNat 16 1, gap := true }) ?_ ?_
      · refine h.modCtx c _ fun hx => ?_
        have := Ctx.lawful_copyDone hx p hm l.ctxs[c.val].delivered (l.ctxs[c.val].discarded + 1) true
          (by rw [← BitVec.add_assoc]; rfl)
        exact this.congr rfl rfl rfl rfl rfl rfl rfl rfl rfl rfl ((hcd _).1) (by rw [(hcd _).2.1]; rfl)
      · simp only [Live.countDiscarded_ctxs, Live.modCtx_modCtx]
    · exact delivered
    · exact Live.lawful_raise delivered _ _
  · exact h

theorem Live.lawful_deliverCopy {l : Live} (h : l.Lawful) (c : Fin 8) (p : Port) (r : CopyRead) :
    (l.deliverCopy c p r).Lawful := by
  unfold Live.deliverCopy
  split
  · exact h.of_ctxs rfl
  · split
    · unfold Live.fillLatch
      split
      · exact Live.lawful_setLatch (Live.lawful_answerError h _ _) _ _
      · split
        · exact Live.lawful_setLatch (Live.lawful_raise (Live.lawful_answerError h _ _) _ _) _ _
        · exact Live.lawful_setLatch (Live.lawful_answerOk h _ _) _ _
    · exact h

theorem Live.lawful_copyCompleted {l : Live} (h : l.Lawful) (now : BitVec 16) (c : Fin 8) (p : Port) (r : CopyRead) :
    (l.copyCompleted now c p r).Lawful := by
  have hd := Live.lawful_deliverCopy (Live.lawful_accountCopy h c p r) c p r
  unfold Live.copyCompleted
  refine Live.lawful_examinePopOf ?_ now p
  split
  · exact Live.lawful_operationEnds hd now c
  · exact Live.lawful_offerSpace hd now c l

/-! ## Withdrawal, FLUSH, soft fields -/

section records
variable {l : Live} (h : l.Lawful) (now : BitVec 16) (c : Fin 8)
include h

theorem Live.lawful_withdrawItem (i : HeldItem) : (Live.withdrawItem c l i).Lawful := by
  cases i with
  | commit k => exact Live.lawful_setAssembly (Live.lawful_reject (Live.lawful_answerError h _ _) _) _ _
  | pop k => exact Live.lawful_setLatch (Live.lawful_answerError h _ _) _ _

theorem Live.lawful_withdrawAssembly (p : Port) : (l.withdrawAssembly c p).Lawful := by
  unfold Live.withdrawAssembly
  split
  · split
    · exact Live.lawful_setAssembly (Live.lawful_reject h _) _ _
    · exact h
  · exact h

theorem Live.lawful_withdrawLatch (p : Port) : (l.withdrawLatch c p).Lawful := by
  unfold Live.withdrawLatch
  split
  · split
    · exact Live.lawful_cutLatch h _ _
    · exact h
  · split
    · exact Live.lawful_setLatch h _ _
    · exact h
  · exact h

theorem Live.lawful_withdraw : (l.withdraw c).Lawful := by
  unfold Live.withdraw
  have h1 : (l.modCtx c fun x => { x with held := [] }).Lawful := h.modCtx_same c _ fun _ hx => hx.withHeld _
  have h2 := foldl_lawful (Live.withdrawItem c) (fun m i hm => Live.lawful_withdrawItem hm c i)
    l.ctxs[c.val].held h1
  exact Live.lawful_withdrawLatch (Live.lawful_withdrawLatch (Live.lawful_withdrawAssembly
    (Live.lawful_withdrawAssembly h2 c .A) c .B) c .A) c .B

theorem Live.lawful_flush : (l.flush now c).Lawful := by
  unfold Live.flush
  split
  · exact h.modCtx_same c _ fun _ hx => hx.congr rfl rfl rfl rfl rfl rfl rfl rfl rfl rfl rfl rfl
  · split
    · exact h
    · exact Live.lawful_offerSpace (Live.lawful_discardAll h c) now c l

theorem Live.lawful_rearm : (l.rearm c).Lawful := by
  unfold Live.rearm
  have h1 := h.modCtx_same c (fun x => { x with watermark := (Ctx.evaluate { l.ctxs[c] with watermark := .calm }).1 })
    fun _ hx => hx.withWatermark _
  simp only
  split
  · exact h1
  · exact h1.of_ctxs rfl

/-- A record is installed: on a bound context only where its geometry is the applied one (R139, R140). -/
theorem Live.lawful_installContext (bound : Bool) (r : Record)
    (hg : bound = true → r.sameGeometry l.ctxs[c.val].applied = true) : (l.installContext c bound r).Lawful := by
  unfold Live.installContext
  split
  · next hb =>
    have h1 : (l.modCtx c fun x => x.softApply r).Lawful := h.modCtx c _ fun hx => Ctx.lawful_softApply hx r (hg hb)
    simp only
    split
    · exact h1
    · exact Live.lawful_rearm h1 c
  · exact h.modCtx_same c _ fun x _ => Ctx.lawful_initialise x r

end records

/-! ## Ticks and resets -/

theorem Live.lawful_countDown {l : Live} (h : l.Lawful) : l.countDown.Lawful := by
  intro c
  have e : l.countDown.ctxs[c.val] = l.ctxs[c.val].countDown := by simp [Live.countDown]
  rw [e]
  exact (h c).congr rfl rfl rfl rfl rfl rfl rfl rfl rfl rfl rfl rfl

theorem Live.lawful_tickPart {l : Live} (h : l.Lawful) (now : BitVec 16) (part : TickPart) :
    (Live.tickPart now l part).Lawful := by
  cases part with
  | holdoff c =>
    change (l.holdoffPart c).Lawful
    unfold Live.holdoffPart
    split
    · exact Live.lawful_raise (h.modCtx_same c _ fun _ hx => hx.withWatermark _) _ _
    · exact h
  | idle p =>
    change (l.idlePart p).Lawful
    unfold Live.idlePart
    split
    · exact Live.lawful_setAssembly (Live.lawful_reject h _) _ _
    · exact h
  | held p =>
    change (l.heldPart now p).Lawful
    unfold Live.heldPart
    split
    · exact h
    · split
      · split
        · exact Live.lawful_examineCommits (Live.lawful_setAssembly (Live.lawful_reject
            (Live.lawful_answerError (Live.lawful_removeHeld h _ _) _ _) _) _ _) now _
        · exact h
      · split
        · exact Live.lawful_examinePops (Live.lawful_setLatch
            (Live.lawful_answerError (Live.lawful_removeHeld h _ _) _ _) _ _) now _
        · exact h
      · exact h
  | stale c =>
    change (l.stalePart now c).Lawful
    unfold Live.stalePart
    split
    · next hj =>
      have hr : 1 ≤ l.ctxs[c.val].ready := by
        simp only [Ctx.judgedStale, Bool.and_eq_true, decide_eq_true_eq] at hj
        exact hj.1.1.1.1.2
      split
      · exact Live.lawful_offerSpace (Live.lawful_discard (Live.lawful_raise h c .stale) c 1 hr) now c l
      · exact (Live.lawful_raise h c .stale).modCtx_same c _ fun _ hx =>
          hx.congr rfl rfl rfl rfl rfl rfl rfl rfl rfl rfl rfl rfl
    · exact h

theorem Live.lawful_resetQueues {l : Live} (h : l.Lawful) (now : BitVec 16) (p : Port) :
    (l.resetQueues now p).Lawful := by
  have h1 : (l.resetPush now p).Lawful := by
    unfold Live.resetPush
    split
    · exact h
    · exact Live.lawful_setAssembly (Live.lawful_countRejected h _) _ _
    · exact Live.lawful_setAssembly h _ _
    · exact Live.lawful_examineCommits (Live.lawful_setAssembly (Live.lawful_countRejected
        (Live.lawful_removeHeld h _ _) _) _ _) now _
  unfold Live.resetQueues Live.resetPop
  split
  · exact h1
  · exact Live.lawful_examinePops (Live.lawful_setLatch (Live.lawful_removeHeld h1 _ _) _ _) now _
  · exact h1.of_ctxs rfl
  · exact Live.lawful_setLatch h1 _ _

/-! ## The close of an event -/

theorem Ctx.Lawful.of_core {x y : Ctx} (h : x.Lawful) (hc : y.core = x.core) : y.Lawful := by
  obtain ⟨h1, _, _, h4, h5, h6, h7, h8, h9, _, _, h12, h13, h14, _⟩ := Ctx.core_eq_fields hc
  exact h.congr (by simp only [Ctx.isLifo, h1]) (by simp only [Ctx.capacity, h1]) (Ctx.core_ready hc) h4 h5 h6 h7
    (by simp only [Ctx.writing, h8]) h9 h12 h13 h14

/-- What comes after the watermarks keeps the laws. -/
theorem settle_lawful (s t : State) (h : t.toLive.Lawful) : (settle s t).toLive.Lawful := fun c =>
  (h c).of_core ((settle_placed s t).core c)

/-- The close of an event keeps the laws. -/
theorem closeEvent_lawful (s t : State) (h : t.toLive.Lawful) : (closeEvent s t).toLive.Lawful := fun c =>
  (h c).of_core (closeEvent_core s t c)

theorem closeWatermarks_lawful (b : Live) {l : Live} (h : l.Lawful) : (closeWatermarks b l).Lawful := by
  intro c
  refine (h c).of_core ?_
  rw [closeWatermarks_ctxs]
  rfl

theorem State.resetWork_lawful (s : State) (h : s.toLive.Lawful) (p : Port) : (s.resetWork p).toLive.Lawful :=
  Live.lawful_resetQueues (l := s.toLive.resetIface p) (h.of_ctxs rfl) s.tick p

/-- The event of a port reset keeps the laws, whichever of its notices the attention unit takes after the reset. -/
theorem State.resetPort_lawful (s : State) (h : s.toLive.Lawful) (p : Port) (late : Vector (BitVec 8) 8) :
    (s.resetPort p late).toLive.Lawful :=
  Live.Lawful.of_ctxs
    (l := closeWatermarks s.toLive ((s.onLive fun l => l.resetAttn p).resetWork p).toLive)
    (closeWatermarks_lawful s.toLive (State.resetWork_lawful (s.onLive fun l => l.resetAttn p) (h.of_ctxs rfl) p)) rfl

theorem Live.lawful_reset : Live.reset.Lawful := by
  intro c
  have e : Live.reset.ctxs[c.val] = Ctx.reset := by simp [Live.reset]
  rw [e]
  exact Ctx.lawful_reset

end Sys2Proof.Machine
end

