-- ==== Sys2Proof/Laws/Reset.lean ====
section
/-! SUPPORT. What a port reset does: its close, what the attention unit keeps of it, the ends of a push and of a pop that
are alone in their held lists, and what a release takes from the lines. -/

namespace Sys2Proof.Machine

section reset
variable (s : State) (p : Port)

/-- A port reset that moves no ready count is a whole event on its work, of whose notices the late ones are kept (R132). -/
theorem settle_resetPort (late : Vector (BitVec 8) 8)
    (h : ∀ c : Fin 8, s.ctxs[c.val].ready = ((s.onLive fun l => l.resetAttn p).resetWork p).ctxs[c.val].ready) :
    settle s (s.resetPort p late) =
      closeEvent s (((s.onLive fun l => l.resetAttn p).resetWork p).onLive fun l => l.keepLate p late) := by
  have hw := closeWatermarks_of_ready s.toLive ((s.onLive fun l => l.resetAttn p).resetWork p).toLive h
  unfold State.resetPort
  simp only [State.onLive] at hw ⊢
  rw [hw]
  exact settle_eq_closeEvent _ _ h

/-- After a port reset the port's attention state is cleared but for the late kinds of the event (R132). -/
theorem settle_resetPort_attn (late : Vector (BitVec 8) 8) :
    ∃ raised : Vector (BitVec 8) 8, (settle s (s.resetPort p late)).attn.get p =
      { PortAttn.clear with pending := Vector.ofFn fun c : Fin 8 => raised[c] &&& late[c] } := by
  rw [settle_toLive, (placed_closeJobs _ _).attn]
  exact ⟨_, PerPort.get_set_self _ _ _⟩

end reset

section queues
variable (l : Live) (now : BitVec 16) (p : Port)

/-- The held list of the context named has one item, of port `p`. -/
theorem Live.removeHeld_alone (c : Fin 8) {i : HeldItem} (h : l.ctxs[c].held = [i]) (hp : i.port = p) :
    l.removeHeld c p = { l with ctxs := l.ctxs.set c { l.ctxs[c] with held := [] } } := by
  simp only [Fin.getElem_fin] at h
  simp [Live.removeHeld, Live.modCtx, h, hp]

/-- A push held alone at its context ends (R47). -/
theorem Live.resetPush_alone {c : Fin 8} {n : Nat} {level : Level} {words : List Word} {i : HeldItem}
    (ha : l.assembly.get p = .committing c n level words false) (h : l.ctxs[c].held = [i]) (hp : i.port = p) :
    l.resetPush now p = { l with
      ctxs := l.ctxs.set c { l.ctxs[c].rejectedOne with held := [] }
      attn := noticed l.ctxs[c] c .wrap (wraps l.ctxs[c].rejected 1) l.attn
      assembly := l.assembly.set p .empty } := by
  unfold Live.resetPush
  rw [ha]
  simp only
  rw [Live.removeHeld_alone l p c h hp, Live.countRejected_eq, Live.examineCommits_nil]
  · simp [Live.setAssembly, Ctx.rejectedOne, noticed]
  · simp [Live.setAssembly, Ctx.rejectedOne]

/-- A pop held alone at its context ends (R73). -/
theorem Live.resetPop_alone {c : Fin 8} {i : HeldItem} (hl : l.latch.get p = .waiting c)
    (h : l.ctxs[c].held = [i]) (hp : i.port = p) :
    l.resetPop now p = { l with
      ctxs := l.ctxs.set c { l.ctxs[c] with held := [] }
      latch := l.latch.set p .empty } := by
  unfold Live.resetPop
  rw [hl]
  simp only
  rw [Live.removeHeld_alone l p c h hp, Live.examinePops_nil]
  · rfl
  · simp [Live.setLatch]

end queues

/-! ## Releases (R169, R170) -/

/-- A request standing at the lines is taken where the interface is IDLE and its reset line released. -/
theorem State.takeStanding_eq (s : State) (p : Port) (standing : Option Transfer) :
    s.takeStanding p standing = { s with ifaces := s.ifaces.set p (match standing with
      | some t => if s.ifaces.get p = .idle ∧ s.portReset.get p = false then .decoding t else s.ifaces.get p
      | none => s.ifaces.get p) } := by
  cases standing with
  | none => simp [State.takeStanding]
  | some t =>
    by_cases h : s.ifaces.get p = .idle ∧ s.portReset.get p = false
    · simp [State.takeStanding, State.takesArrival, h, State.onLive, Live.setIface]
    · rw [not_and, Bool.not_eq_false] at h
      by_cases hi : s.ifaces.get p = .idle
      · simp [State.takeStanding, State.takesArrival, hi, h hi]
        rw [← hi, PerPort.set_get_self]
      · simp [State.takeStanding, State.takesArrival, hi]

end Sys2Proof.Machine
end

