-- ==== Sys2Proof/Laws/Words.lean ====
section
/-! SUPPORT. Bit fields of a word, bit by bit (section 8.7): what `field` holds, and what `bits` reads of a word given by
its bits. -/

namespace Sys2Proof.Machine

/-- Bit `i` of a word that holds `n` in one field. -/
theorem getLsbD_field (lo len n i : Nat) :
    (field lo len n).getLsbD i =
      (decide (i < 32) && decide (lo ≤ i) && decide (i - lo < len) && n.testBit (i - lo)) := by
  unfold field
  simp only [BitVec.getLsbD_shiftLeft, BitVec.getLsbD_setWidth, BitVec.getLsbD_ofNat]
  by_cases h1 : i < 32 <;> by_cases h2 : lo ≤ i <;> by_cases h3 : i - lo < len
  case pos =>
    have h4 : ¬i < lo := by omega
    have h5 : i - lo < 32 := by omega
    simp [h1, h2, h3, h4, h5]
  all_goals simp [h1, h2, h3]

/-- A field whose bits are those of `n` reads as `n`, reduced to its width. -/
theorem bits_eq_mod (w : Word) (lo len n : Nat) (h : ∀ i < len, w.getLsbD (lo + i) = n.testBit i) :
    bits w lo len = n % 2 ^ len := by
  unfold bits
  apply Nat.eq_of_testBit_eq
  intro i
  rw [Nat.testBit_mod_two_pow, BitVec.testBit_toNat, BitVec.getLsbD_extractLsb']
  by_cases hi : i < len
  · simp [hi, h i hi]
  · simp [hi]

/-- Two counters in the halves of a word. -/
theorem field_halves (a b : BitVec 16) : field 0 16 a.toNat ||| field 16 16 b.toNat = b ++ a := by
  apply BitVec.eq_of_getLsbD_eq
  intro i hi
  simp only [BitVec.getLsbD_or, getLsbD_field, BitVec.getLsbD_append]
  by_cases h : i < 16
  · have h1 : ¬16 ≤ i := by omega
    have h2 : i < 32 := by omega
    simp [h, h1, h2, BitVec.testBit_toNat]
  · have h1 : 16 ≤ i := by omega
    have h2 : i - 16 < 16 := by omega
    simp [h, h1, hi, h2, BitVec.testBit_toNat]

end Sys2Proof.Machine
end

