-- ==== Sys2Proof/Laws/Work.lean ====
section
/-! SUPPORT. Every shared operation on the queues keeps the law of the running work (R10, R155): what that law reads of
the live state, the operations that leave it as it is, and the few that change it. -/

namespace Sys2Proof.Machine

/-! ## What the law reads -/

/-- What the law of the running work reads of a context: its order, its WRITING run, its slots IN-COPY, and on a LIFO
stack how many slots are SPENT. -/
def Ctx.work (x : Ctx) : Bool × List WritingSlot × List HeldSlot × Nat :=
  (x.isLifo, x.writingRun, x.heldRun.filter HeldSlot.isCopying, if x.isLifo then x.spent else 0)

theorem Ctx.work_congr {x y : Ctx} (hl : y.isLifo = x.isLifo) (hw : y.writingRun = x.writingRun)
    (hc : y.heldRun.filter HeldSlot.isCopying = x.heldRun.filter HeldSlot.isCopying)
    (hs : x.isLifo = true → y.spent = x.spent) : y.work = x.work := by
  unfold Ctx.work
  rw [hl, hw, hc]
  split
  · next h => rw [hs h]
  · rfl

/-- The port-owned jobs on the list, without how far they have come. -/
def Live.workJobs (l : Live) : List Job := (l.jobs.map JobEntry.job).filter fun j => j.owner.isSome

/-- What the law of the running work reads of the live state. -/
def Live.work (l : Live) : (Fin 8 → Bool × List WritingSlot × List HeldSlot × Nat) × List Job :=
  (fun c => l.ctxs[c.val].work, l.workJobs)

theorem Live.work_eq {l m : Live} (hc : ∀ c : Fin 8, m.ctxs[c.val].work = l.ctxs[c.val].work)
    (hj : m.workJobs = l.workJobs) : m.work = l.work := by
  simp only [Live.work, hj, hc]

theorem Live.work_of_eq {l m : Live} (hc : m.ctxs = l.ctxs) (hj : m.jobs = l.jobs) : m.work = l.work :=
  Live.work_eq (fun c => by rw [hc]) (by simp only [Live.workJobs, hj])

theorem Live.work_modCtx {l : Live} (c : Fin 8) (f : Ctx → Ctx) (hf : (f l.ctxs[c.val]).work = l.ctxs[c.val].work) :
    (l.modCtx c f).work = l.work := by
  refine Live.work_eq (fun d => ?_) rfl
  rw [Live.modCtx_ctxs]
  split
  · next e => rw [e, hf]
  · rfl

section reads
variable {l m : Live} (h : m.work = l.work)
include h

theorem Live.work_ctx (c : Fin 8) : m.ctxs[c.val].work = l.ctxs[c.val].work := congrFun (congrArg Prod.fst h) c

theorem Live.work_jobs : m.workJobs = l.workJobs := congrArg Prod.snd h

theorem Live.work_isLifo (c : Fin 8) : m.ctxs[c.val].isLifo = l.ctxs[c.val].isLifo :=
  congrArg Prod.fst (Live.work_ctx h c)

theorem Live.work_writingRun (c : Fin 8) : m.ctxs[c.val].writingRun = l.ctxs[c.val].writingRun :=
  congrArg (fun x => x.2.1) (Live.work_ctx h c)

theorem Live.work_copying (c : Fin 8) :
    m.ctxs[c.val].heldRun.filter HeldSlot.isCopying = l.ctxs[c.val].heldRun.filter HeldSlot.isCopying :=
  congrArg (fun x => x.2.2.1) (Live.work_ctx h c)

theorem Live.work_inCopy (c : Fin 8) : m.ctxs[c.val].inCopy = l.ctxs[c.val].inCopy := by
  simp only [Ctx.inCopy, List.countP_eq_length_filter, Live.work_copying h c]

theorem Live.work_spent (c : Fin 8) (hl : l.ctxs[c.val].isLifo = true) : m.ctxs[c.val].spent = l.ctxs[c.val].spent := by
  have e := congrArg (fun x => x.2.2.2) (Live.work_ctx h c)
  simpa only [Ctx.work, Live.work_isLifo h c, hl, if_true] using e

theorem Live.work_opRunning (c : Fin 8) : m.ctxs[c.val].opRunning = l.ctxs[c.val].opRunning := by
  unfold Ctx.opRunning Ctx.writing
  rw [Live.work_writingRun h c, Live.work_inCopy h c]

theorem Live.work_portWriting (p : Port) : m.portWriting p = l.portWriting p := by
  unfold Live.portWriting
  congr 1
  funext c
  rw [Fin.getElem_fin, Fin.getElem_fin, Live.work_writingRun h c]

end reads

theorem Ctx.mem_copying (x : Ctx) (p : Port) :
    .copying p ∈ x.heldRun.filter HeldSlot.isCopying ↔ .copying p ∈ x.heldRun := by
  simp [List.mem_filter, HeldSlot.isCopying]

theorem Ctx.count_copying (x : Ctx) (p : Port) :
    (x.heldRun.filter HeldSlot.isCopying).count (.copying p) = x.heldRun.count (.copying p) :=
  List.count_filter rfl

theorem Job.isSome_of_isWriteOf {p : Port} {j : Job} (h : j.isWriteOf p = true) : j.owner.isSome = true := by
  cases j <;> first | rfl | cases h

theorem Job.isSome_of_isCopyOf {p : Port} {j : Job} (h : j.isCopyOf p = true) : j.owner.isSome = true := by
  cases j <;> first | rfl | cases h

/-- A test that only a port-owned job passes counts the same among the port-owned jobs. -/
theorem Live.countP_workJobs (l : Live) (q : Job → Bool) (hq : ∀ j, q j = true → j.owner.isSome = true) :
    l.workJobs.countP q = l.jobs.countP fun e => q e.job := by
  simp only [Live.workJobs, List.countP_filter, List.countP_map]
  congr 1
  funext e
  cases hb : q e.job with
  | false => simp [hb]
  | true => simp [hb, hq e.job hb]

theorem Live.mem_workJobs (l : Live) (j : Job) (hj : j.owner.isSome = true) :
    j ∈ l.workJobs ↔ ∃ e ∈ l.jobs, e.job = j := by
  simp only [Live.workJobs, List.mem_filter, List.mem_map, hj, and_true]

theorem mem_allCtxs : ∀ c : Fin 8, c ∈ allCtxs := by decide

theorem Live.copyInFlight_iff (l : Live) (p : Port) :
    l.copyInFlight p = false ↔ ∀ e ∈ l.jobs, e.job.isCopyOf p = false := by
  simp only [Live.copyInFlight, List.any_eq_false, Bool.not_eq_true]

theorem Live.portWriting_iff (l : Live) (p : Port) :
    l.portWriting p = false ↔ ∀ c : Fin 8, ∀ w ∈ l.ctxs[c.val].writingRun, w.port ≠ p := by
  simp only [Live.portWriting, List.any_eq_false, List.any_eq_true, not_exists, not_and, beq_iff_eq, Fin.getElem_fin]
  exact ⟨fun h c => h c (mem_allCtxs c), fun h c _ => h c⟩

section reads
variable {l m : Live} (h : m.work = l.work)
include h

theorem Live.work_copyInFlight (p : Port) : m.copyInFlight p = l.copyInFlight p := by
  have key : ∀ n : Live, n.copyInFlight p = decide (0 < n.workJobs.countP (Job.isCopyOf p)) := fun n => by
    rw [n.countP_workJobs _ fun j => Job.isSome_of_isCopyOf, Bool.eq_iff_iff, decide_eq_true_iff, List.countP_pos_iff]
    simp only [Live.copyInFlight, List.any_eq_true]
  rw [key, key, Live.work_jobs h]

/-- What leaves the work as it is keeps its law. -/
theorem Live.WorkLaw.of_work (hl : l.WorkLaw) : m.WorkLaw := by
  have hw : ∀ c : Fin 8, m.ctxs[c].writingRun = l.ctxs[c].writingRun := fun c => Live.work_writingRun h c
  have hcount : ∀ q : Job → Bool, (∀ j, q j = true → j.owner.isSome = true) →
      m.jobs.countP (fun e => q e.job) = l.jobs.countP fun e => q e.job := fun q hq => by
    rw [← m.countP_workJobs q hq, ← l.countP_workJobs q hq, Live.work_jobs h]
  have hmem : ∀ j : Job, j.owner.isSome = true → ((∃ e ∈ m.jobs, e.job = j) ↔ ∃ e ∈ l.jobs, e.job = j) := fun j hj => by
    rw [← m.mem_workJobs j hj, ← l.mem_workJobs j hj, Live.work_jobs h]
  have hmc : ∀ (c : Fin 8) (p : Port), .copying p ∈ m.ctxs[c].heldRun ↔ .copying p ∈ l.ctxs[c].heldRun := fun c p => by
    rw [← Ctx.mem_copying, ← Ctx.mem_copying, Fin.getElem_fin, Fin.getElem_fin, Live.work_copying h c]
  refine ⟨fun p => ?_, fun p => ?_, fun c p => ?_, fun c d => ?_, ?_, fun c p => ?_, fun c p hp => ?_, fun c hc => ?_⟩
  · rw [hcount _ fun j => Job.isSome_of_isWriteOf]
    exact hl.writes p
  · rw [hcount _ fun j => Job.isSome_of_isCopyOf]
    exact hl.copies p
  · rw [hw]
    exact hl.writing c p
  · rw [hw, hw]
    exact hl.oneRing c d
  · intro e he c slot address hd payload p hj
    obtain ⟨e', he', hj'⟩ := (hmem (.entryWrite c slot address hd payload p) rfl).1 ⟨e, he, hj⟩
    rw [hw]
    exact hl.unwritten e' he' c slot address hd payload p hj'
  · rw [← Ctx.count_copying, Fin.getElem_fin, Live.work_copying h c, Ctx.count_copying]
    exact hl.inCopy c p
  · obtain ⟨e, he, slot, address, payloadMax, hj⟩ := hl.copied c p ((hmc c p).1 hp)
    obtain ⟨e', he', hj'⟩ := (hmem (.entryCopy c slot address payloadMax p) rfl).2 ⟨e, he, hj⟩
    exact ⟨e', he', slot, address, payloadMax, hj'⟩
  · rw [Fin.getElem_fin, Live.work_isLifo h c] at hc
    have e := hl.stack c hc
    rw [Fin.getElem_fin, Ctx.writing, Live.work_writingRun h c, Live.work_inCopy h c, Live.work_spent h c hc]
    exact e

end reads

/-! ## The law bounds what runs -/

theorem length_eq_ports (w : List WritingSlot) :
    w.length = w.countP (fun x => x.port == .A) + w.countP fun x => x.port == .B := by
  induction w with
  | nil => rfl
  | cons a rest ih =>
    rw [List.length_cons, List.countP_cons, List.countP_cons, ih]
    cases a.port <;> simp <;> omega

theorem copying_eq_ports (w : List HeldSlot) :
    w.countP HeldSlot.isCopying = w.count (.copying .A) + w.count (.copying .B) := by
  induction w with
  | nil => rfl
  | cons a rest ih =>
    rw [List.countP_cons, List.count_cons, List.count_cons, ih]
    rcases a with p | _
    · cases p <;> simp [HeldSlot.isCopying] <;> omega
    · simp [HeldSlot.isCopying]

/-- R10's bounds follow from the law. -/
theorem Live.WorkLaw.bounded {l : Live} (h : l.WorkLaw) (c : Fin 8) : l.ctxs[c].WorkBounded :=
  ⟨fun _ => by
      have := h.writing c .A
      have := h.writing c .B
      have := h.inCopy c .A
      have := h.inCopy c .B
      have := length_eq_ports l.ctxs[c].writingRun
      have := copying_eq_ports l.ctxs[c].heldRun
      simp only [Ctx.writing, Ctx.inCopy]
      omega,
    h.stack c⟩

/-! ## Operations that leave the work as it is -/

section same
variable (l : Live) (c : Fin 8) (p : Port)

@[simp] theorem Live.work_raise (k : Kind) : (l.raise c k).work = l.work := rfl
@[simp] theorem Live.work_setAssembly (x : Assembly) : (l.setAssembly p x).work = l.work := rfl
@[simp] theorem Live.work_setLatch (x : Latch) : (l.setLatch p x).work = l.work := rfl
@[simp] theorem Live.work_setIface (x : Iface) : (l.setIface p x).work = l.work := rfl
@[simp] theorem Live.work_answerOk (a : Answer) : (l.answerOk p a).work = l.work := Live.work_of_eq (by simp) (by simp)
@[simp] theorem Live.work_answerError (k : FaultKind) : (l.answerError p k).work = l.work :=
  Live.work_of_eq (by simp) (by simp)
@[simp] theorem Live.work_removeHeld : (l.removeHeld c p).work = l.work := Live.work_modCtx c _ rfl
@[simp] theorem Live.work_holdItem (i : HeldItem) : (l.holdItem c i).work = l.work := Live.work_modCtx c _ rfl
@[simp] theorem Live.work_countRejected : (l.countRejected c).work = l.work :=
  (Live.work_of_eq (by simp) (by simp)).trans
    (Live.work_modCtx c (fun x => { x with rejected := x.rejected + 1, gap := true }) rfl)
@[simp] theorem Live.work_reject : (l.reject c).work = l.work := l.work_countRejected c
@[simp] theorem Live.work_countDiscarded (n : Nat) : (l.countDiscarded c n).work = l.work :=
  (Live.work_of_eq (by simp) (by simp)).trans
    (Live.work_modCtx c (fun x => { x with discarded := x.discarded + BitVec.ofNat 16 n, gap := true }) rfl)
@[simp] theorem Live.work_countDelivered : (l.countDelivered c).work = l.work :=
  (Live.work_of_eq (by simp) (by simp)).trans
    (Live.work_modCtx c (fun x => { x with delivered := x.delivered + 1 }) rfl)
@[simp] theorem Live.work_countPublished : (l.countPublished c).work = l.work :=
  (Live.work_of_eq (by simp) (by simp)).trans
    (Live.work_modCtx c (fun x => { x with published := x.published + 1 }) rfl)

theorem filter_dropWhile_spent (w : List HeldSlot) :
    (w.dropWhile HeldSlot.isSpent).filter HeldSlot.isCopying = w.filter HeldSlot.isCopying := by
  induction w with
  | nil => rfl
  | cons a rest ih =>
    cases a with
    | copying p => rfl
    | spent => exact ih

theorem Ctx.work_releaseStep (x : Ctx) (hl : x.isLifo = false) : x.releaseStep.work = x.work :=
  Ctx.work_congr rfl rfl (filter_dropWhile_spent _) fun h => absurd h (by simp [hl])

/-- A discard spends slots of a FIFO ring, which the law does not read; a LIFO stack has none (R14, R16). -/
theorem Ctx.work_dropReady (x : Ctx) (n : Nat) : (x.dropReady n).work = x.work := by
  unfold Ctx.dropReady
  rcases x.isLifo_cases with hl | hl
  · rw [if_pos hl]
    rfl
  · rw [if_neg (by simp [hl])]
    refine Ctx.work_congr rfl rfl ?_ fun h => absurd h (by simp [hl])
    refine (filter_dropWhile_spent _).trans ?_
    simp [HeldSlot.isCopying]

@[simp] theorem Live.work_discard (n : Nat) : (l.discard c n).work = l.work := by
  simp only [Live.discard, Live.work_raise, Live.work_countDiscarded]
  exact Live.work_modCtx c _ (Ctx.work_dropReady _ n)

@[simp] theorem Live.work_discardAll : (l.discardAll c).work = l.work := by
  unfold Live.discardAll
  split
  · rfl
  · exact l.work_discard c _

@[simp] theorem Live.work_answerProducer : (l.answerProducer c p).work = l.work := by
  unfold Live.answerProducer
  split <;> simp

@[simp] theorem Live.work_refuseFull (k : HeldCommit) : (l.refuseFull c k).work = l.work := by simp [Live.refuseFull]

@[simp] theorem Live.work_holdForSpace (k : HeldCommit) : (l.holdForSpace c k).work = l.work := l.work_holdItem c _

@[simp] theorem Live.work_takeEmpty (k : HeldPop) : (l.takeEmpty c k).work = l.work := by
  unfold Live.takeEmpty
  split <;> simp

@[simp] theorem Live.work_joinCommit (k : HeldCommit) : (l.joinCommit c k).work = l.work := l.work_holdItem c _

@[simp] theorem Live.work_joinPop (k : HeldPop) : (l.joinPop c k).work = l.work := by simp [Live.joinPop]

@[simp] theorem Live.work_cutAssembly : (l.cutAssembly p c).work = l.work := by
  unfold Live.cutAssembly
  split
  · split <;> simp
  · rfl

@[simp] theorem Live.work_overrun : (l.overrun p c).work = l.work := by simp [Live.overrun]

@[simp] theorem Live.work_cutLatch : (l.cutLatch p c).work = l.work := by simp [Live.cutLatch]

@[simp] theorem Live.work_withdrawItem (i : HeldItem) : (Live.withdrawItem c l i).work = l.work := by
  cases i <;> simp [Live.withdrawItem]

@[simp] theorem Live.work_withdrawAssembly : (l.withdrawAssembly c p).work = l.work := by
  unfold Live.withdrawAssembly
  split
  · split <;> simp
  · rfl

@[simp] theorem Live.work_withdrawLatch : (l.withdrawLatch c p).work = l.work := by
  unfold Live.withdrawLatch
  split
  · split <;> simp
  · split <;> simp
  · rfl

@[simp] theorem Live.work_withdraw : (l.withdraw c).work = l.work := by
  simp only [Live.withdraw, Live.work_withdrawLatch, Live.work_withdrawAssembly]
  exact foldl_preserves (fun m => m.work = l.work) (Live.withdrawItem c)
    (fun m i hm => (m.work_withdrawItem c i).trans hm) _ _ (Live.work_modCtx c (fun x => { x with held := [] }) rfl)

@[simp] theorem Live.work_rearm : (l.rearm c).work = l.work := by
  have h : ∀ w : Watermark, (l.modCtx c fun x => { x with watermark := w }).work = l.work := fun _ =>
    Live.work_modCtx c _ (Ctx.work_congr rfl rfl rfl fun _ => rfl)
  unfold Live.rearm
  simp only
  split
  · exact h _
  · exact (Live.work_raise _ c _).trans (h _)

/-- A record of the applied geometry leaves the work as it is (R140, R141). -/
theorem Live.work_softApply (r : Record) (hg : r.sameGeometry l.ctxs[c.val].applied = true) :
    (l.modCtx c fun x => x.softApply r).work = l.work := by
  simp only [Record.sameGeometry, Bool.and_eq_true, beq_iff_eq] at hg
  have hl : Ctx.isLifo (l.ctxs[c.val].softApply r) = l.ctxs[c.val].isLifo := hg.1.1.1.1
  exact Live.work_modCtx c _ (by simp only [Ctx.work, hl]; rfl)

@[simp] theorem Live.work_countDown : l.countDown.work = l.work := by
  refine Live.work_eq (fun d => ?_) rfl
  have e : l.countDown.ctxs[d.val] = l.ctxs[d.val].countDown := by simp [Live.countDown]
  rw [e]
  rfl

/-- The close of an event leaves the work as it is: it adds no port-owned job. -/
theorem Live.Placed.work {m : Live} (h : l.Placed m) : m.work = l.work := by
  obtain ⟨new, e, hn⟩ := h.jobs
  refine Live.work_eq (fun d => ?_) ?_
  · obtain ⟨h1, _, _, _, _, _, _, h8, h9, _⟩ := Ctx.core_eq_fields (h.core d)
    exact Ctx.work_congr (by simp only [Ctx.isLifo, h1]) h8 (by rw [h9]) fun _ => by simp only [Ctx.spent, h9]
  · have : (new.map JobEntry.job).filter (fun j => j.owner.isSome) = [] := by
      rw [List.filter_eq_nil_iff]
      intro j hj
      obtain ⟨e, he, rfl⟩ := List.mem_map.1 hj
      simp [(hn e he).1]
    simp only [Live.workJobs, e, List.map_append, List.filter_append, this, List.append_nil]

@[simp] theorem closeWatermarks_work (b : Live) : (closeWatermarks b l).work = l.work := by
  refine Live.work_eq (fun d => ?_) rfl
  rw [closeWatermarks_ctxs]
  rfl

end same

/-! ## Reservation and claim -/

theorem Ctx.opRunning_iff (x : Ctx) : x.opRunning = false ↔ x.writingRun = [] ∧ x.inCopy = 0 := by
  have : x.writing = 0 ↔ x.writingRun = [] := List.length_eq_zero_iff
  simp [Ctx.opRunning, this]

/-- A reservation of a port with no entry WRITING, at a LIFO context where no operation runs (R11, R32, R43). -/
theorem Live.WorkLaw.reserve {l : Live} (h : l.WorkLaw) (now : BitVec 16) (c : Fin 8) (k : HeldCommit)
    (hw : l.portWriting k.port = false) (ho : l.ctxs[c.val].isLifo = true → l.ctxs[c.val].opRunning = false) :
    (l.reserve now c k).WorkLaw := by
  rw [Live.portWriting_iff] at hw
  have none : ∀ e ∈ l.jobs, e.job.isWriteOf k.port = false := fun e he => by
    cases hj : e.job <;> try rfl
    next d slot address hd payload q =>
      obtain ⟨w, hm, _, hp, _⟩ := h.unwritten e he d slot address hd payload q hj
      simpa [Job.isWriteOf, hp] using fun e => hw d w hm (by rw [hp, e])
  have key : ((l.addJob (l.entryWriteJob now c k)).modCtx c fun x => x.reserve k.port now).WorkLaw := by
    have run : ∀ d : Fin 8,
        ((l.addJob (l.entryWriteJob now c k)).modCtx c fun x => x.reserve k.port now).ctxs[d].writingRun =
          if d = c then l.ctxs[c.val].writingRun ++ [⟨l.ctxs[c.val].reserveSlot, k.port, now, false⟩]
          else l.ctxs[d.val].writingRun := fun d => by
      rw [Fin.getElem_fin, Live.modCtx_ctxs]
      split <;> rfl
    have held : ∀ d : Fin 8,
        ((l.addJob (l.entryWriteJob now c k)).modCtx c fun x => x.reserve k.port now).ctxs[d].heldRun =
          l.ctxs[d.val].heldRun := fun d => by
      rw [Fin.getElem_fin, Live.modCtx_ctxs]
      split
      · next e => rw [e]; rfl
      · rfl
    have mem : ∀ (d : Fin 8) (w : WritingSlot), w ∈
        ((l.addJob (l.entryWriteJob now c k)).modCtx c fun x => x.reserve k.port now).ctxs[d].writingRun →
          w ∈ l.ctxs[d.val].writingRun ∨ (d = c ∧ w.port = k.port) := fun d w hm => by
      rw [run] at hm
      split at hm
      · next e =>
        subst e
        rcases List.mem_append.1 hm with hm | hm
        · exact .inl hm
        · exact .inr ⟨rfl, by rw [List.mem_singleton.1 hm]⟩
      · exact .inl hm
    refine ⟨fun p => ?_, fun p => ?_, fun d p => ?_, fun d d' v hv w hm e => ?_, ?_, fun d p => ?_, fun d p hp => ?_,
      fun d hd => ?_⟩
    · simp only [Live.modCtx_jobs, Live.addJob_jobs, List.countP_append, List.countP_singleton]
      split
      · next e =>
        have e' : p = k.port := by simpa [Job.isWriteOf, Live.entryWriteJob] using e
        rw [e', List.countP_eq_zero.2 fun e he => by simp [none e he]]
      · exact h.writes p
    · simp only [Live.modCtx_jobs, Live.addJob_jobs, List.countP_append, List.countP_singleton]
      exact h.copies p
    · rw [run]
      split
      · next e =>
        subst e
        simp only [List.countP_append, List.countP_singleton]
        split
        · next e =>
          rw [List.countP_eq_zero.2 fun w hm => by simpa [← beq_iff_eq.1 e] using hw d w hm]
        · exact h.writing d p
      · exact h.writing d p
    · rcases mem d v hv with hv | ⟨hv, ev⟩ <;> rcases mem d' w hm with hm | ⟨hm, ew⟩
      · exact h.oneRing d d' v hv w hm e
      · exact absurd (e.trans ew) (hw d v hv)
      · exact absurd (e.symm.trans ev) (hw d' w hm)
      · rw [hv, hm]
    · intro e he d slot address hd payload p hj
      rw [run]
      simp only [Live.modCtx_jobs, Live.addJob_jobs] at he
      rcases List.mem_append.1 he with he | he
      · obtain ⟨w, hm, hrest⟩ := h.unwritten e he d slot address hd payload p hj
        refine ⟨w, ?_, hrest⟩
        split
        · next e' =>
          subst e'
          exact List.mem_append_left _ hm
        · exact hm
      · rw [List.mem_singleton.1 he] at hj
        simp only [Live.entryWriteJob, Job.entryWrite.injEq] at hj
        obtain ⟨rfl, rfl, _, _, _, rfl⟩ := hj
        rw [if_pos rfl]
        exact ⟨_, List.mem_append_right _ (List.mem_singleton.2 rfl), rfl, rfl, rfl⟩
    · rw [held]
      exact h.inCopy d p
    · rw [held] at hp
      obtain ⟨e, he, hj⟩ := h.copied d p hp
      exact ⟨e, List.mem_append_left _ he, hj⟩
    · simp only [Ctx.writing, Ctx.inCopy, Ctx.spent, held, run]
      rw [Fin.getElem_fin, Live.modCtx_ctxs] at hd
      split at hd
      · next e =>
        subst e
        have hl : l.ctxs[d.val].isLifo = true := hd
        obtain ⟨h1, h2⟩ := (Ctx.opRunning_iff _).1 (ho hl)
        rw [if_pos rfl, h1]
        exact ⟨by simp only [Ctx.inCopy] at h2; simp [h2], (h.stack d hl).2⟩
      · next e =>
        rw [if_neg e]
        exact h.stack d hd
  exact Live.WorkLaw.of_work (by simp [Live.reserve]) key

theorem countP_append_copying (w : List HeldSlot) (p : Port) :
    (w ++ [HeldSlot.copying p]).countP HeldSlot.isCopying = w.countP HeldSlot.isCopying + 1 := by
  simp [HeldSlot.isCopying]

/-- A claim of a port with no copy in flight, at a LIFO context where no operation runs (R13, R43, R55). -/
theorem Live.WorkLaw.claim {l : Live} (h : l.WorkLaw) (c : Fin 8) (k : HeldPop) (hc : l.copyInFlight k.port = false)
    (ho : l.ctxs[c.val].isLifo = true → l.ctxs[c.val].opRunning = false) : (l.claim c k).WorkLaw := by
  rw [Live.copyInFlight_iff] at hc
  have none : ∀ d : Fin 8, .copying k.port ∉ l.ctxs[d.val].heldRun := fun d hm => by
    obtain ⟨e, he, slot, address, payloadMax, hj⟩ := h.copied d k.port hm
    have := hc e he
    simp [hj, Job.isCopyOf] at this
  let j : Job := .entryCopy c l.ctxs[c].nextSlot (l.ctxs[c].applied.slotAddress l.ctxs[c].nextSlot)
    l.ctxs[c].applied.payloadCap k.port
  have key : ((l.addJob j).modCtx c fun x => x.claim k.port).WorkLaw := by
    have run : ∀ d : Fin 8, ((l.addJob j).modCtx c fun x => x.claim k.port).ctxs[d].writingRun =
        l.ctxs[d.val].writingRun := fun d => by
      rw [Fin.getElem_fin, Live.modCtx_ctxs]
      split
      · next e => rw [e]; rfl
      · rfl
    have held : ∀ d : Fin 8, ((l.addJob j).modCtx c fun x => x.claim k.port).ctxs[d].heldRun =
        if d = c then l.ctxs[c.val].heldRun ++ [.copying k.port] else l.ctxs[d.val].heldRun := fun d => by
      rw [Fin.getElem_fin, Live.modCtx_ctxs]
      split <;> rfl
    refine ⟨fun p => ?_, fun p => ?_, fun d p => ?_, fun d d' => ?_, ?_, fun d p => ?_, fun d p hp => ?_,
      fun d hd => ?_⟩
    · simp only [Live.modCtx_jobs, Live.addJob_jobs, List.countP_append, List.countP_singleton]
      exact h.writes p
    · simp only [Live.modCtx_jobs, Live.addJob_jobs, List.countP_append, List.countP_singleton]
      split
      · next e =>
        have e' : p = k.port := by simpa [Job.isCopyOf, j] using e
        rw [e', List.countP_eq_zero.2 fun e he => by simp [hc e he]]
      · exact h.copies p
    · rw [run]
      exact h.writing d p
    · rw [run, run]
      exact h.oneRing d d'
    · intro e he d slot address hd payload p hj
      rw [run]
      simp only [Live.modCtx_jobs, Live.addJob_jobs] at he
      rcases List.mem_append.1 he with he | he
      · exact h.unwritten e he d slot address hd payload p hj
      · rw [List.mem_singleton.1 he] at hj
        cases hj
    · rw [held]
      split
      · next e =>
        subst e
        rw [List.count_append, List.count_singleton]
        split
        · next e =>
          rw [← eq_of_beq e, List.count_eq_zero.2 (none d)]
        · exact h.inCopy d p
      · exact h.inCopy d p
    · have old : .copying p ∈ l.ctxs[d.val].heldRun → ∃ e ∈ ((l.addJob j).modCtx c fun x => x.claim k.port).jobs,
          ∃ slot address payloadMax : Nat, e.job = .entryCopy d slot address payloadMax p := fun hm => by
        obtain ⟨e, he, hj⟩ := h.copied d p hm
        exact ⟨e, List.mem_append_left _ he, hj⟩
      rw [held] at hp
      split at hp
      · next e =>
        subst e
        rcases List.mem_append.1 hp with hp | hp
        · exact old hp
        · cases List.mem_singleton.1 hp
          exact ⟨_, List.mem_append_right _ (List.mem_singleton.2 rfl), _, _, _, rfl⟩
      · exact old hp
    · simp only [Ctx.writing, Ctx.inCopy, Ctx.spent, held, run]
      rw [Fin.getElem_fin, Live.modCtx_ctxs] at hd
      split at hd
      · next e =>
        subst e
        have hl : l.ctxs[d.val].isLifo = true := hd
        obtain ⟨h1, h2⟩ := (Ctx.opRunning_iff _).1 (ho hl)
        rw [if_pos rfl, h1, countP_append_copying, List.countP_append]
        simp only [Ctx.inCopy] at h2
        exact ⟨by simp [h2], (h.stack d hl).2⟩
      · next e =>
        rw [if_neg e]
        exact h.stack d hd
  exact Live.WorkLaw.of_work (by simp [Live.claim, j]) key

/-! ## Less work -/

/-- Where nothing is added, the law asks of the new state only that a job left on the list has the slot it names, that a
slot IN-COPY has its job, and that a LIFO stack has nothing SPENT. -/
theorem Live.WorkLaw.less {l m : Live} (h : l.WorkLaw) (jobs : m.jobs.Sublist l.jobs)
    (writing : ∀ (d : Fin 8) (p : Port), m.ctxs[d.val].writingRun.countP (fun w => w.port == p) ≤
      l.ctxs[d.val].writingRun.countP fun w => w.port == p)
    (copying : ∀ (d : Fin 8) (p : Port), m.ctxs[d.val].heldRun.count (.copying p) ≤
      l.ctxs[d.val].heldRun.count (.copying p))
    (named : ∀ e ∈ m.jobs, ∀ (d : Fin 8) (slot address : Nat) (hd : Word) (payload : List Word) (p : Port),
      e.job = .entryWrite d slot address hd payload p → ∀ w ∈ l.ctxs[d.val].writingRun, w.slot = slot → w.port = p →
        w.complete = false → w ∈ m.ctxs[d.val].writingRun)
    (copied : ∀ (d : Fin 8) (p : Port), .copying p ∈ m.ctxs[d.val].heldRun →
      ∃ e ∈ m.jobs, ∃ slot address payloadMax : Nat, e.job = .entryCopy d slot address payloadMax p)
    (stack : ∀ d : Fin 8, m.ctxs[d.val].isLifo = true → (l.ctxs[d.val].isLifo = true ∧ m.ctxs[d.val].spent = 0) ∨
      (m.ctxs[d.val].writingRun = [] ∧ m.ctxs[d.val].heldRun = [])) : m.WorkLaw := by
  refine ⟨fun p => (jobs.countP_le).trans (h.writes p), fun p => (jobs.countP_le).trans (h.copies p),
    fun d p => (writing d p).trans (h.writing d p), fun d d' v hv w hw e => ?_,
    fun e he d slot address hd payload p hj => ?_, fun d p => (copying d p).trans (h.inCopy d p), copied, fun d hd => ?_⟩
  · have pos : ∀ (x : Fin 8) (u : WritingSlot), u ∈ m.ctxs[x.val].writingRun →
        ∃ u' ∈ l.ctxs[x.val].writingRun, u'.port = u.port := fun x u hu => by
      have := Nat.lt_of_lt_of_le (List.countP_pos_iff.2 ⟨u, hu, beq_self_eq_true u.port⟩) (writing x u.port)
      simpa using List.countP_pos_iff.1 this
    obtain ⟨v', hv', ev⟩ := pos d v hv
    obtain ⟨w', hw', ew⟩ := pos d' w hw
    exact h.oneRing d d' v' hv' w' hw' (by rw [ev, ew, e])
  · obtain ⟨w, hw, h1, h2, h3⟩ := h.unwritten e (jobs.subset he) d slot address hd payload p hj
    exact ⟨w, named e he d slot address hd payload p hj w hw h1 h2 h3, h1, h2, h3⟩
  · rcases stack d hd with ⟨hl, hs⟩ | ⟨h1, h2⟩
    · refine ⟨?_, hs⟩
      have hb := (h.stack d hl).1
      have := writing d .A
      have := writing d .B
      have := copying d .A
      have := copying d .B
      have := length_eq_ports m.ctxs[d.val].writingRun
      have := length_eq_ports l.ctxs[d.val].writingRun
      have := copying_eq_ports m.ctxs[d.val].heldRun
      have := copying_eq_ports l.ctxs[d.val].heldRun
      simp only [Ctx.writing, Ctx.inCopy, Fin.getElem_fin] at hb ⊢
      omega
    · simp [Ctx.writing, Ctx.inCopy, Ctx.spent, h1, h2]

/-- The same for a change of context `c` that leaves its WRITING run or takes from it slots that are written. -/
theorem Live.WorkLaw.modCtx {l : Live} (h : l.WorkLaw) (c : Fin 8) (f : Ctx → Ctx)
    (hl : (f l.ctxs[c.val]).isLifo = l.ctxs[c.val].isLifo)
    (hw : (f l.ctxs[c.val]).writingRun.Sublist l.ctxs[c.val].writingRun)
    (hh : (f l.ctxs[c.val]).heldRun = l.ctxs[c.val].heldRun)
    (hv : ∀ w ∈ l.ctxs[c.val].writingRun, w.complete = false → w ∈ (f l.ctxs[c.val]).writingRun) :
    (l.modCtx c f).WorkLaw := by
  refine h.less (List.Sublist.refl _) (fun d p => ?_) (fun d p => ?_) (fun e _ d _ _ _ _ p _ w hm _ _ hc => ?_)
    (fun d p hp => ?_) fun d hd => .inl ?_
  · rw [Live.modCtx_ctxs]
    split
    · next e => subst e; exact hw.countP_le
    · exact Nat.le_refl _
  · rw [Live.modCtx_ctxs]
    split
    · next e => subst e; rw [hh]
    · exact Nat.le_refl _
  · rw [Live.modCtx_ctxs]
    split
    · next e => subst e; exact hv w hm hc
    · exact hm
  · refine h.copied d p ?_
    rw [Live.modCtx_ctxs] at hp
    split at hp
    · next e => subst e; rwa [hh] at hp
    · exact hp
  · rw [Live.modCtx_ctxs] at hd ⊢
    split at hd
    · next e =>
      subst e
      rw [if_pos rfl]
      rw [hl] at hd
      exact ⟨hd, by simp only [Ctx.spent, hh]; exact (h.stack d hd).2⟩
    · next e =>
      rw [if_neg e]
      exact ⟨hd, (h.stack d hd).2⟩

/-! ## Publication -/

theorem Ctx.publish_fields (x : Ctx) (w : WritingSlot) : (x.publish w).isLifo = x.isLifo ∧
    (x.publish w).writingRun = x.writingRun.drop 1 ∧ (x.publish w).heldRun = x.heldRun := by
  unfold Ctx.publish
  simp only
  split <;> exact ⟨rfl, rfl, rfl⟩

/-- The oldest slot of the WRITING run is written and is published, with its offer (R12). -/
theorem Live.WorkLaw.publishOne {l : Live} (h : l.WorkLaw) (c : Fin 8) (w : WritingSlot) {v : WritingSlot}
    {later : List WritingSlot} (hr : l.ctxs[c.val].writingRun = v :: later) (hv : v.complete = true) :
    (l.publishOne c w).WorkLaw ∧ (l.publishOne c w).ctxs[c.val].writingRun = later ∧
      (l.publishOne c w).ctxs[c.val].isLifo = l.ctxs[c.val].isLifo := by
  obtain ⟨h1, h2, h3⟩ := l.ctxs[c.val].publish_fields w
  have base : (l.modCtx c fun x => x.publish w).WorkLaw := by
    refine h.modCtx c _ h1 ?_ h3 fun u hu hc => ?_
    · rw [h2]
      exact List.drop_sublist _ _
    · rw [h2, hr]
      rw [hr] at hu
      rcases List.mem_cons.1 hu with e | hu
      · rw [e, hv] at hc
        cases hc
      · exact hu
  let m := ((l.modCtx c fun x => x.publish w).countPublished c).answerProducer c w.port
  have hm : m.work = (l.modCtx c fun x => x.publish w).work := by simp [m]
  have run : m.ctxs[c.val].writingRun = later := by
    rw [Live.work_writingRun hm, Live.modCtx_ctxs_self, h2, hr]
    rfl
  have lifo : m.ctxs[c.val].isLifo = l.ctxs[c.val].isLifo := by
    rw [Live.work_isLifo hm, Live.modCtx_ctxs_self, h1]
  unfold Live.publishOne
  dsimp only
  split
  · next hl _ =>
    split
    · exact ⟨.of_work hm base, run, lifo⟩
    · next k hc =>
      simp only [Bool.or_eq_true, not_or, Bool.not_eq_true] at hc
      refine ⟨Live.WorkLaw.claim (.of_work hm base) c _ hc.1 fun hl' => absurd (hl.symm.trans hl') (by simp), ?_, ?_⟩
      · rw [← run]
        simp [Live.claim, Live.removeHeld, Ctx.claim, Ctx.cacheInvalid, m]
      · rw [← lifo]
        simp [Live.claim, Live.removeHeld, Ctx.claim, Ctx.cacheInvalid, Ctx.isLifo, m]
  · exact ⟨.of_work hm base, run, lifo⟩

theorem Live.WorkLaw.publishRun (c : Fin 8) (more : List WritingSlot) : ∀ (run : List WritingSlot) (l : Live),
    l.WorkLaw → l.ctxs[c.val].writingRun = run ++ more → (∀ w ∈ run, w.complete = true) →
      (Live.publishRun run c l).WorkLaw ∧ (Live.publishRun run c l).ctxs[c.val].writingRun = more ∧
        (Live.publishRun run c l).ctxs[c.val].isLifo = l.ctxs[c.val].isLifo
  | [], _, h, hr, _ => ⟨h, hr, rfl⟩
  | w :: rest, l, h, hr, hc => by
    obtain ⟨h1, h2, h3⟩ := h.publishOne c w hr (hc w (by simp))
    obtain ⟨k1, k2, k3⟩ := Live.WorkLaw.publishRun c more rest _ h1 h2 fun w hw => hc w (by simp [hw])
    exact ⟨k1, k2, k3.trans h3⟩

/-! ## Held lists -/

section held
variable {l : Live} (h : l.WorkLaw) (now : BitVec 16) (c : Fin 8)
include h

/-- A commit is taken where its port has no entry WRITING and no operation of a LIFO context runs. -/
theorem Live.WorkLaw.takeCommit (k : HeldCommit) (hw : l.portWriting k.port = false)
    (ho : l.ctxs[c.val].isLifo = true → l.ctxs[c.val].opRunning = false) : (l.takeCommit now c k).WorkLaw := by
  unfold Live.takeCommit
  split
  · split
    · exact h.of_work (l.work_refuseFull c k)
    · exact h.of_work (l.work_holdForSpace c k)
    · split
      · exact h.of_work (l.work_holdItem c _)
      · split
        · exact h.of_work (l.work_refuseFull c k)
        · have hd := l.work_discard c 1
          unfold Live.overwrite
          dsimp only
          split
          · exact h.of_work (by simp)
          · refine (h.of_work hd).reserve now c k (by rw [Live.work_portWriting hd, hw]) fun hl => ?_
            rw [Live.work_opRunning hd]
            exact ho (by rwa [← Live.work_isLifo hd])
  · exact h.reserve now c k hw ho

/-- A pop is taken where its port has no copy in flight and no operation of a LIFO context runs. -/
theorem Live.WorkLaw.takePop (k : HeldPop) (hc : l.copyInFlight k.port = false)
    (ho : l.ctxs[c.val].isLifo = true → l.ctxs[c.val].opRunning = false) : (l.takePop c k).WorkLaw := by
  unfold Live.takePop
  split
  · exact h.of_work (l.work_takeEmpty c k)
  · exact h.claim c k hc ho

end held

theorem Live.reserve_isLifo (l : Live) (now : BitVec 16) (c : Fin 8) (k : HeldCommit) :
    (l.reserve now c k).ctxs[c.val].isLifo = l.ctxs[c.val].isLifo := by
  simp [Live.reserve, Live.removeHeld, Ctx.reserve, Ctx.isLifo]

theorem Live.claim_isLifo (l : Live) (c : Fin 8) (k : HeldPop) :
    (l.claim c k).ctxs[c.val].isLifo = l.ctxs[c.val].isLifo := by
  simp [Live.claim, Live.removeHeld, Ctx.claim, Ctx.cacheInvalid, Ctx.isLifo]

theorem Live.takeCommit_isLifo (l : Live) (now : BitVec 16) (c : Fin 8) (k : HeldCommit) :
    (l.takeCommit now c k).ctxs[c.val].isLifo = l.ctxs[c.val].isLifo := by
  unfold Live.takeCommit
  split
  · split
    · exact Live.work_isLifo (l.work_refuseFull c k) c
    · exact Live.work_isLifo (l.work_holdForSpace c k) c
    · split
      · exact Live.work_isLifo (l.work_holdItem c _) c
      · split
        · exact Live.work_isLifo (l.work_refuseFull c k) c
        · unfold Live.overwrite
          dsimp only
          split
          · exact Live.work_isLifo (by simp) c
          · exact (Live.reserve_isLifo _ now c k).trans (Live.work_isLifo (l.work_discard c 1) c)
  · exact l.reserve_isLifo now c k

theorem Live.takePop_isLifo (l : Live) (c : Fin 8) (k : HeldPop) :
    (l.takePop c k).ctxs[c.val].isLifo = l.ctxs[c.val].isLifo := by
  unfold Live.takePop
  split
  · exact Live.work_isLifo (l.work_takeEmpty c k) c
  · exact l.claim_isLifo c k

theorem workLaw_examineCommitList (now : BitVec 16) (c : Fin 8) : ∀ (ks : List HeldCommit) (l : Live), l.WorkLaw →
    l.ctxs[c.val].isLifo = false → (examineCommitList now c ks l).WorkLaw
  | [], _, h, _ => h
  | k :: rest, l, h, hl => by
    unfold examineCommitList
    split
    · exact h
    · next hw =>
      have ht := h.takeCommit now c k (by simpa using hw) fun e => absurd (hl.symm.trans e) (by simp)
      dsimp only
      split
      · exact ht
      · exact workLaw_examineCommitList now c rest _ ht ((l.takeCommit_isLifo now c k).trans hl)

theorem workLaw_examinePopList (c : Fin 8) : ∀ (ks : List HeldPop) (l : Live), l.WorkLaw →
    l.ctxs[c.val].isLifo = false → (examinePopList c ks l).WorkLaw
  | [], _, h, _ => h
  | k :: rest, l, h, hl => by
    unfold examinePopList
    split
    · exact h
    · next hc =>
      exact workLaw_examinePopList c rest _
        (h.takePop c k (by simpa using hc) fun e => absurd (hl.symm.trans e) (by simp))
        ((l.takePop_isLifo c k).trans hl)

theorem workLaw_examineStackList (now : BitVec 16) (c : Fin 8) : ∀ (ks : List HeldItem) (l : Live), l.WorkLaw →
    (examineStackList now c ks l).WorkLaw
  | [], _, h => h
  | k :: rest, l, h => by
    unfold examineStackList
    split
    · exact h
    · next ho =>
      have ho' : l.ctxs[c.val].opRunning = false := by simpa using ho
      split
      · split
        · exact h
        · next hw => exact workLaw_examineStackList now c rest _ (h.takeCommit now c _ (by simpa using hw) fun _ => ho')
      · split
        · exact h
        · next hc => exact workLaw_examineStackList now c rest _ (h.takePop c _ (by simpa using hc) fun _ => ho')

section lists
variable {l : Live} (h : l.WorkLaw) (now : BitVec 16) (c : Fin 8) (p : Port)
include h

theorem Live.WorkLaw.examineStack : (l.examineStack now c).WorkLaw := workLaw_examineStackList now c _ l h

theorem Live.WorkLaw.examineCommits : (l.examineCommits now c).WorkLaw := by
  unfold Live.examineCommits
  split
  · exact h.examineStack now c
  · next hl => exact workLaw_examineCommitList now c _ l h (by simpa using hl)

theorem Live.WorkLaw.examinePops : (l.examinePops now c).WorkLaw := by
  unfold Live.examinePops
  split
  · exact h.examineStack now c
  · next hl => exact workLaw_examinePopList c _ l h (by simpa using hl)

theorem Live.WorkLaw.examineCommitOf : (l.examineCommitOf now p).WorkLaw := by
  unfold Live.examineCommitOf
  split
  · exact h
  · split
    · exact h.examineCommits now _
    · exact h

theorem Live.WorkLaw.examinePopOf : (l.examinePopOf now p).WorkLaw := by
  unfold Live.examinePopOf
  split
  · exact h
  · split
    · exact h.examinePops now _
    · exact h

theorem Live.WorkLaw.offerSpace (before : Live) : (Live.offerSpace before l now c).WorkLaw := by
  unfold Live.offerSpace
  split
  · exact h.examineStack now c
  · split
    · exact h.examineCommits now c
    · exact h

theorem Live.WorkLaw.operationEnds : (l.operationEnds now c).WorkLaw := by
  unfold Live.operationEnds
  refine Live.WorkLaw.examineStack ?_ now c
  split
  · exact h.of_work ((Live.work_discardAll _ c).trans
      (Live.work_modCtx c (fun x => { x with pendingFlush := false }) rfl))
  · exact h

theorem Live.WorkLaw.arriveCommit (k : HeldCommit) : (l.arriveCommit now c k).WorkLaw := by
  have hj := h.of_work (l.work_joinCommit c k)
  unfold Live.arriveCommit
  split
  · split
    · next hg =>
      simp only [Bool.and_eq_true, Bool.not_eq_true'] at hg
      exact h.takeCommit now c k hg.2 fun _ => hg.1.1
    · exact hj.examineStack now c
  · next hl =>
    split
    · next hg =>
      simp only [Bool.and_eq_true, Bool.not_eq_true'] at hg
      exact h.takeCommit now c k hg.2 fun e => absurd e hl
    · exact hj

theorem Live.WorkLaw.arrivePop (k : HeldPop) : (l.arrivePop now c k).WorkLaw := by
  have hj := h.of_work (l.work_joinPop c k)
  unfold Live.arrivePop
  split
  · split
    · next hg =>
      simp only [Bool.and_eq_true, Bool.not_eq_true'] at hg
      exact h.takePop c k hg.2 fun _ => hg.1.1
    · exact hj.examineStack now c
  · next hl =>
    split
    · exact hj
    · next hc =>
      split
      · exact h.of_work (l.work_takeEmpty c k)
      · split
        · exact h.claim c k (by simpa using hc) fun e => absurd e hl
        · exact hj

/-! ## Pushing and popping -/

theorem Live.WorkLaw.append (idle : Option Nat) (t : Transfer) (last : Bool) :
    (l.append now idle p c t last).WorkLaw := by
  unfold Live.append
  simp only
  split
  · exact h.of_work (by simp)
  · split
    · exact Live.WorkLaw.arriveCommit (h.of_work (by simp)) now c _
    · exact h.of_work (by simp)

theorem Live.WorkLaw.popRead (burst : Burst) : (l.popRead now p c burst).WorkLaw := by
  unfold Live.popRead
  split
  · split
    · exact h.of_work (by simp [Live.serveLatch])
    · exact Live.WorkLaw.arrivePop (h.of_work (by simp)) now c _
  · exact h.arrivePop now c _

end lists

/-! ## Completions -/

/-- The job in progress and the list without it. -/
theorem Live.jobInProgress_split {l : Live} {j : Job} (hj : l.jobInProgress = some j) :
    ∃ before after : List JobEntry, ∃ e : JobEntry, e.job = j ∧ l.jobs = before ++ e :: after ∧
      l.jobs.eraseP (fun e => e.phase == .inProgress) = before ++ after := by
  simp only [Live.jobInProgress, Option.map_eq_some_iff] at hj
  obtain ⟨e, he, hj⟩ := hj
  obtain ⟨hp, before, after, hl, hb⟩ := List.find?_eq_some_iff_append.1 he
  refine ⟨before, after, e, hj, hl, ?_⟩
  rw [hl, List.eraseP_append_right _ (by simpa using hb), List.eraseP_cons, hp]
  rfl

/-- The port has no other job of the kind of the one in progress. -/
theorem countP_split {before after : List JobEntry} {e : JobEntry} (q : Job → Bool) (hq : q e.job = true)
    (h : (before ++ e :: after).countP (fun e => q e.job) ≤ 1) : ∀ e' ∈ before ++ after, q e'.job = false := by
  intro e' he'
  rw [List.countP_append, List.countP_cons, if_pos hq] at h
  have h0 : (before ++ after).countP (fun e => q e.job) = 0 := by
    rw [List.countP_append]
    omega
  simpa using List.countP_eq_zero.1 h0 e' he'

/-- The port's ENTRY_WRITE is done: it leaves the list and its slot is marked written (R12, R156). -/
theorem Live.WorkLaw.writeDone {l : Live} (h : l.WorkLaw) {c : Fin 8} {slot address : Nat} {head : Word}
    {payload : List Word} {p : Port} (hj : l.jobInProgress = some (.entryWrite c slot address head payload p)) :
    (Live.modCtx { l with jobs := l.jobs.eraseP fun e => e.phase == .inProgress } c
      fun x => x.writeComplete slot p).WorkLaw := by
  obtain ⟨before, after, e, he, hl, hrest⟩ := Live.jobInProgress_split hj
  have other := countP_split (before := before) (after := after) (Job.isWriteOf p) (by simp [he, Job.isWriteOf])
    (hl ▸ h.writes p)
  have same : ∀ d : Fin 8, (Live.modCtx { l with jobs := l.jobs.eraseP fun e => e.phase == .inProgress } c
      fun x => x.writeComplete slot p).ctxs[d.val].heldRun = l.ctxs[d.val].heldRun ∧
      (Live.modCtx { l with jobs := l.jobs.eraseP fun e => e.phase == .inProgress } c
        fun x => x.writeComplete slot p).ctxs[d.val].isLifo = l.ctxs[d.val].isLifo := fun d => by
    rw [Live.modCtx_ctxs]
    split
    · next e => subst e; exact ⟨rfl, rfl⟩
    · exact ⟨rfl, rfl⟩
  refine h.less ?_ (fun d q => ?_) (fun d q => by rw [(same d).1])
    (fun e' he' d slot' address' hd payload' q hj' w hm _ hp _ => ?_) (fun d q hq => ?_) fun d hd => .inl ⟨by rwa [(same d).2] at hd, ?_⟩
  · exact List.eraseP_sublist
  · rw [Live.modCtx_ctxs]
    split
    · next e =>
      subst e
      simp only [Ctx.writeComplete, List.countP_map]
      refine Nat.le_of_eq (List.countP_congr fun w _ => ?_)
      simp only [Function.comp_apply]
      split <;> rfl
    · exact Nat.le_refl _
  · have hne : p ≠ q := fun e => by
      have := other e' (hrest ▸ he')
      simp [hj', Job.isWriteOf, e] at this
    rw [Live.modCtx_ctxs]
    split
    · next e =>
      subst e
      refine List.mem_map.2 ⟨w, hm, ?_⟩
      rw [if_neg]
      simp [hp, hne.symm]
    · exact hm
  · rw [(same d).1] at hq
    obtain ⟨e', he', slot', address', m, hj'⟩ := h.copied d q hq
    refine ⟨e', ?_, slot', address', m, hj'⟩
    simp only [Live.modCtx_jobs, hrest]
    rw [hl] at he'
    rcases List.mem_append.1 he' with he' | he'
    · exact List.mem_append_left _ he'
    · rcases List.mem_cons.1 he' with e' | he'
      · rw [e', he] at hj'
        cases hj'
      · exact List.mem_append_right _ he'
  · rw [(same d).2] at hd
    simp only [Ctx.spent, (same d).1]
    exact (h.stack d hd).2

theorem foldl_workLaw {α : Type} (f : Live → α → Live) (hf : ∀ l a, l.WorkLaw → (f l a).WorkLaw) (xs : List α)
    {l : Live} (h : l.WorkLaw) : (xs.foldl f l).WorkLaw := foldl_preserves Live.WorkLaw f hf xs l h

/-- The completion of an ENTRY_WRITE (R12, R16). -/
theorem Live.WorkLaw.entryWritten {l : Live} (h : l.WorkLaw) (now : BitVec 16) {c : Fin 8} {slot address : Nat}
    {head : Word} {payload : List Word} {p : Port}
    (hj : l.jobInProgress = some (.entryWrite c slot address head payload p)) :
    (Live.entryWritten { l with jobs := l.jobs.eraseP fun e => e.phase == .inProgress } now c slot p).WorkLaw := by
  have h1 := h.writeDone hj
  unfold Live.entryWritten
  simp only
  split
  · exact h1
  · refine foldl_workLaw _ (fun m w hm => Live.WorkLaw.examineCommitOf hm now w.port) _ ?_
    have h2 := (Live.WorkLaw.publishRun c _ _ _ h1 (List.takeWhile_append_dropWhile (p := WritingSlot.complete)).symm
      fun w hw => List.mem_takeWhile_imp hw).1
    split
    · exact h2.operationEnds now c
    · exact h2.examinePops now c

theorem spendCopy_count_le (p q : Port) (w : List HeldSlot) :
    (spendCopy p w).count (.copying q) ≤ w.count (.copying q) := by
  induction w with
  | nil => exact Nat.le_refl _
  | cons a rest ih =>
    cases a with
    | copying r =>
      simp only [spendCopy]
      split
      · rw [List.count_cons, List.count_cons]
        simp
      · rw [List.count_cons, List.count_cons]
        omega
    | spent =>
      simp only [spendCopy, List.count_cons]
      omega

theorem spendCopy_count_self (p : Port) (w : List HeldSlot) :
    (spendCopy p w).count (.copying p) = w.count (.copying p) - 1 := by
  induction w with
  | nil => rfl
  | cons a rest ih =>
    cases a with
    | copying r =>
      simp only [spendCopy]
      split
      · next e => subst e; simp
      · next e =>
        have e' : r ≠ p := fun x => e x.symm
        simp [e', ih]
    | spent =>
      simp [spendCopy, ih]

/-- The copy's end leaves no slot IN-COPY for the port where there was one, and adds none (R15, R16). -/
theorem Ctx.copyDone_counts (x : Ctx) (p q : Port) :
    (x.copyDone p).heldRun.count (.copying q) ≤ x.heldRun.count (.copying q) ∧
      (x.copyDone p).heldRun.count (.copying p) ≤ x.heldRun.count (.copying p) - 1 ∧
      (x.copyDone p).writingRun = x.writingRun ∧ (x.copyDone p).isLifo = x.isLifo ∧
      (x.isLifo = true → (x.copyDone p).spent ≤ x.spent) := by
  unfold Ctx.copyDone
  rcases x.isLifo_cases with hl | hl
  · rw [if_pos hl]
    exact ⟨List.erase_sublist.count_le _, by simp, rfl, rfl, fun _ => List.erase_sublist.countP_le⟩
  · rw [if_neg (by simp [hl])]
    refine ⟨?_, ?_, rfl, rfl, fun e => absurd (hl.symm.trans e) (by simp)⟩
    · exact ((List.dropWhile_sublist _).count_le _).trans (spendCopy_count_le p q _)
    · exact ((List.dropWhile_sublist _).count_le _).trans (Nat.le_of_eq (spendCopy_count_self p _))

/-- The port's ENTRY_COPY is done: it leaves the list, and its slot is SPENT or FREE (R15, R16, R156). -/
theorem Live.WorkLaw.copyDone {l m : Live} (h : l.WorkLaw) {c : Fin 8} {slot address payloadMax : Nat} {p : Port}
    (hj : l.jobInProgress = some (.entryCopy c slot address payloadMax p))
    (jobs : m.jobs = l.jobs.eraseP fun e => e.phase == .inProgress)
    (ctx : m.ctxs[c.val] = l.ctxs[c.val].copyDone p ∨
      (m.ctxs[c.val] = l.ctxs[c.val] ∧ .copying p ∉ l.ctxs[c.val].heldRun))
    (others : ∀ d : Fin 8, d ≠ c → m.ctxs[d.val] = l.ctxs[d.val]) : m.WorkLaw := by
  obtain ⟨before, after, e, he, hl, hrest⟩ := Live.jobInProgress_split hj
  have facts : ∀ d : Fin 8, (∀ q, m.ctxs[d.val].heldRun.count (.copying q) ≤ l.ctxs[d.val].heldRun.count (.copying q)) ∧
      m.ctxs[d.val].writingRun = l.ctxs[d.val].writingRun ∧ m.ctxs[d.val].isLifo = l.ctxs[d.val].isLifo ∧
      (l.ctxs[d.val].isLifo = true → m.ctxs[d.val].spent ≤ l.ctxs[d.val].spent) := fun d => by
    have done := fun q => l.ctxs[d.val].copyDone_counts p q
    have cases : m.ctxs[d.val] = l.ctxs[d.val].copyDone p ∨ m.ctxs[d.val] = l.ctxs[d.val] := by
      by_cases e : d = c
      · subst e
        exact ctx.imp_right And.left
      · exact .inr (others d e)
    rcases cases with e | e <;> rw [e]
    · exact ⟨fun q => (done q).1, (done p).2.2.1, (done p).2.2.2.1, (done p).2.2.2.2⟩
    · exact ⟨fun _ => Nat.le_refl _, rfl, rfl, fun _ => Nat.le_refl _⟩
  have gone : .copying p ∉ m.ctxs[c.val].heldRun := by
    rcases ctx with ctx | ctx
    · rw [ctx]
      have h1 := (l.ctxs[c.val].copyDone_counts p p).2.1
      have h2 := h.inCopy c p
      simp only [Fin.getElem_fin] at h2
      exact List.count_eq_zero.1 (by omega)
    · rw [ctx.1]
      exact ctx.2
  refine h.less ?_ (fun d q => by rw [(facts d).2.1]) (fun d q => (facts d).1 q)
    (fun _ _ d _ _ _ _ _ _ w hm _ _ _ => by rwa [(facts d).2.1]) (fun d q hq => ?_) fun d hd => .inl ?_
  · rw [jobs]
    exact List.eraseP_sublist
  · have hm : .copying q ∈ l.ctxs[d.val].heldRun :=
      List.count_pos_iff.1 (Nat.lt_of_lt_of_le (List.count_pos_iff.2 hq) ((facts d).1 q))
    obtain ⟨e', he', slot', address', n, hj'⟩ := h.copied d q hm
    refine ⟨e', ?_, slot', address', n, hj'⟩
    rw [jobs, hrest]
    rw [hl] at he'
    rcases List.mem_append.1 he' with he' | he'
    · exact List.mem_append_left _ he'
    · rcases List.mem_cons.1 he' with e' | he'
      · rw [e', he] at hj'
        cases hj'
        exact absurd hq gone
      · exact List.mem_append_right _ he'
  · have hd' := hd
    rw [(facts d).2.2.1] at hd'
    have h1 := (facts d).2.2.2 hd'
    have h2 := (h.stack d hd').2
    simp only [Fin.getElem_fin] at h2
    exact ⟨hd', by omega⟩

theorem Live.work_fillLatch (l : Live) (c : Fin 8) (p : Port) (burst : Burst) (withdrawn : Bool) (r : CopyRead) :
    (l.fillLatch c p burst withdrawn r).work = l.work := by
  unfold Live.fillLatch
  split
  · simp
  · split <;> simp

theorem Live.work_deliverCopy (l : Live) (c : Fin 8) (p : Port) (r : CopyRead) :
    (l.deliverCopy c p r).work = l.work := by
  unfold Live.deliverCopy
  split
  · rfl
  · split
    · exact l.work_fillLatch c p _ _ r
    · rfl

/-- The completion of an ENTRY_COPY (R15, R16, R60-R62). -/
theorem Live.WorkLaw.copyCompleted {l : Live} (h : l.WorkLaw) (now : BitVec 16) {c : Fin 8}
    {slot address payloadMax : Nat} {p : Port} (hj : l.jobInProgress = some (.entryCopy c slot address payloadMax p))
    (r : CopyRead) :
    (Live.copyCompleted { l with jobs := l.jobs.eraseP fun e => e.phase == .inProgress } now c p r).WorkLaw := by
  have acc : (Live.accountCopy { l with jobs := l.jobs.eraseP fun e => e.phase == .inProgress } c p r).WorkLaw := by
    unfold Live.accountCopy
    split
    · have base : (Live.modCtx { l with jobs := l.jobs.eraseP fun e => e.phase == .inProgress } c
          fun x => x.copyDone p).WorkLaw :=
        h.copyDone hj rfl (.inl (by simp)) fun d hd => Live.modCtx_ctxs_ne _ _ _ _ hd
      simp only
      split <;> exact base.of_work (by simp)
    · next hc => exact h.copyDone hj rfl (.inr ⟨rfl, by simpa using hc⟩) fun _ _ => rfl
  have hd := acc.of_work (Live.work_deliverCopy _ c p r)
  unfold Live.copyCompleted
  refine Live.WorkLaw.examinePopOf ?_ now p
  split
  · exact hd.operationEnds now c
  · exact hd.offerSpace now c _

/-! ## FLUSH, records, ticks, resets -/

section records
variable {l : Live} (h : l.WorkLaw) (now : BitVec 16) (c : Fin 8)
include h

theorem Live.WorkLaw.flush : (l.flush now c).WorkLaw := by
  unfold Live.flush
  split
  · exact h.of_work (Live.work_modCtx c (fun x => { x with pendingFlush := true }) rfl)
  · split
    · exact h
    · exact (h.of_work (l.work_discardAll c)).offerSpace now c l

/-- A record is installed on a bound context only where its geometry is the applied one, on an unbound one only where
nothing is WRITING or IN-COPY (R20, R139, R140). -/
theorem Live.WorkLaw.installContext (bound : Bool) (r : Record)
    (hg : bound = true → r.sameGeometry l.ctxs[c.val].applied = true)
    (hn : bound = false → l.ctxs[c.val].writing = 0 ∧ l.ctxs[c.val].inCopy = 0) :
    (l.installContext c bound r).WorkLaw := by
  unfold Live.installContext
  split
  · next hb =>
    have h1 := h.of_work (l.work_softApply c r (hg hb))
    simp only
    split
    · exact h1
    · exact h1.of_work (Live.work_rearm _ c)
  · next hb =>
    obtain ⟨h1, h2⟩ := hn (by simpa using hb)
    have empty : l.ctxs[c.val].writingRun = [] := List.length_eq_zero_iff.1 h1
    refine h.less (List.Sublist.refl _) (fun d p => ?_) (fun d p => ?_) (fun e _ d _ _ _ _ p _ w hm _ _ _ => ?_)
      (fun d p hp => h.copied d p ?_) fun d hd => ?_
    · rw [Live.modCtx_ctxs]
      split
      · exact Nat.zero_le _
      · exact Nat.le_refl _
    · rw [Live.modCtx_ctxs]
      split
      · exact Nat.zero_le _
      · exact Nat.le_refl _
    · rw [Live.modCtx_ctxs]
      split
      · next e => subst e; rw [empty] at hm; cases hm
      · exact hm
    · rw [Live.modCtx_ctxs] at hp
      split at hp
      · cases hp
      · exact hp
    · rw [Live.modCtx_ctxs] at hd ⊢
      split at hd
      · next e =>
        rw [if_pos e]
        exact .inr ⟨rfl, rfl⟩
      · next e =>
        rw [if_neg e]
        exact .inl ⟨hd, (h.stack d hd).2⟩

theorem Live.WorkLaw.tickPart (part : TickPart) : (Live.tickPart now l part).WorkLaw := by
  cases part with
  | holdoff c =>
    change (l.holdoffPart c).WorkLaw
    unfold Live.holdoffPart
    split
    · exact h.of_work ((Live.work_raise _ _ _).trans
        (Live.work_modCtx c (fun x => { x with watermark := .raised }) rfl))
    · exact h
  | idle p =>
    change (l.idlePart p).WorkLaw
    unfold Live.idlePart
    split
    · exact h.of_work (by simp)
    · exact h
  | held p =>
    change (l.heldPart now p).WorkLaw
    unfold Live.heldPart
    split
    · exact h
    · split
      · split
        · exact Live.WorkLaw.examineCommits (h.of_work (by simp)) now _
        · exact h
      · split
        · exact Live.WorkLaw.examinePops (h.of_work (by simp)) now _
        · exact h
      · exact h
  | stale c =>
    change (l.stalePart now c).WorkLaw
    unfold Live.stalePart
    split
    · split
      · exact Live.WorkLaw.offerSpace (h.of_work (by simp)) now c l
      · exact h.of_work ((Live.work_modCtx c (fun x => { x with cache := { x.cache with staleRaised := true } })
          rfl).trans (l.work_raise c .stale))
    · exact h

theorem Live.WorkLaw.resetQueues (p : Port) : (l.resetQueues now p).WorkLaw := by
  have h1 : (l.resetPush now p).WorkLaw := by
    unfold Live.resetPush
    split
    · exact h
    · exact h.of_work (by simp)
    · exact h.of_work (by simp)
    · exact Live.WorkLaw.examineCommits (h.of_work (by simp)) now _
  unfold Live.resetQueues Live.resetPop
  split
  · exact h1
  · exact Live.WorkLaw.examinePops (h1.of_work (by simp)) now _
  · exact Live.WorkLaw.of_work (l := l.resetPush now p) rfl h1
  · exact h1.of_work (by simp)

end records

theorem State.resetPort_workLaw (s : State) (h : s.toLive.WorkLaw) (p : Port) (late : Vector (BitVec 8) 8) :
    (s.resetPort p late).toLive.WorkLaw := by
  have h1 : ((s.onLive fun l => l.resetAttn p).resetWork p).toLive.WorkLaw :=
    Live.WorkLaw.resetQueues (l := (s.toLive.resetAttn p).resetIface p) (Live.WorkLaw.of_work (l := s.toLive) rfl h)
      s.tick p
  have h2 := h1.of_work (closeWatermarks_work _ s.toLive)
  exact Live.WorkLaw.of_work
    (l := closeWatermarks s.toLive ((s.onLive fun l => l.resetAttn p).resetWork p).toLive) rfl h2

/-! ## Presentation and grant of a job -/

theorem eligibleJobs_mem : ∀ (jobs : List JobEntry) (n : Nat) (older : List Job) (i : Nat) (j : Job),
    (i, j) ∈ eligibleJobs jobs n older → ∃ e, n ≤ i ∧ jobs[i - n]? = some e ∧ e.job = j
  | [], _, _, _, _, h => by cases h
  | e :: rest, n, older, i, j, h => by
    have tail : ∀ older', (i, j) ∈ eligibleJobs rest (n + 1) older' →
        ∃ e', n ≤ i ∧ (e :: rest)[i - n]? = some e' ∧ e'.job = j := fun older' h => by
      obtain ⟨e', hn, he, hj⟩ := eligibleJobs_mem rest (n + 1) older' i j h
      refine ⟨e', by omega, ?_, hj⟩
      rw [show i - n = (i - (n + 1)) + 1 by omega, List.getElem?_cons_succ]
      exact he
    unfold eligibleJobs at h
    split at h
    · rcases List.mem_append.1 h with h | h
      · split at h
        · cases List.mem_singleton.1 h
          exact ⟨e, Nat.le_refl _, by simp, rfl⟩
        · cases h
      · exact tail _ h
    · exact tail _ h

/-- The job chosen stands on the list at the place given with it (R157). -/
theorem chooseJob_spec {prefer : Port} {jobs : List JobEntry} {i : Nat} {j : Job}
    (h : chooseJob prefer jobs = some (i, j)) :
    ∃ before after e, jobs = before ++ e :: after ∧ before.length = i ∧ e.job = j := by
  have hm : (i, j) ∈ eligibleJobs jobs 0 [] := by
    unfold chooseJob at h
    rcases Option.or_eq_some_iff.1 h with h | ⟨_, h⟩
    · exact List.mem_of_find?_eq_some h
    · exact List.mem_of_mem_head? h
  obtain ⟨e, _, he, hj⟩ := eligibleJobs_mem jobs 0 [] i j hm
  obtain ⟨hlt, he⟩ := List.getElem?_eq_some_iff.1 he
  exact ⟨jobs.take i, jobs.drop (i + 1), e, by simp [← he], by simp; omega, hj⟩

/-- A job is presented as it stands; one that leaves the list is no port's (R86, R157). -/
theorem Live.work_presentJob (prefer : Port) : ∀ (n : Nat) (l : Live), (Live.presentJob prefer n l).work = l.work
  | 0, _ => rfl
  | n + 1, l => by
    have stays : ∀ {i : Nat} {j : Job} (e : JobEntry), chooseJob prefer l.jobs = some (i, j) → e.job = j →
        Live.work { l with jobs := l.jobs.set i e } = l.work := fun {i j} e hc he => by
      obtain ⟨before, after, e', hl, rfl, hj⟩ := chooseJob_spec hc
      refine Live.work_eq (fun _ => rfl) ?_
      simp [Live.workJobs, hl, he, hj]
    unfold Live.presentJob
    split
    · rfl
    · next i c hc =>
      split
      · exact stays _ hc rfl
      · refine (Live.work_presentJob prefer n _).trans (Live.work_eq (fun _ => rfl) ?_)
        obtain ⟨before, after, e, hl, rfl, hj⟩ := chooseJob_spec hc
        simp [Live.workJobs, hl, List.eraseIdx_append_of_length_le, hj, Job.owner]
    · next hc => exact stays _ hc rfl

/-- The grant of a job takes none of a port's off the list (R152, R156). -/
theorem State.grantJob_work (s : State) : s.grantJob.toLive.work = s.toLive.work := by
  unfold State.grantJob
  split
  · rfl
  · next e he =>
    obtain ⟨hp, before, after, hl, hb⟩ := List.find?_eq_some_iff_append.1 he
    split
    · next hj _ =>
      refine Live.work_eq (fun _ => rfl) ?_
      simp only [Live.workJobs, hl]
      rw [List.eraseP_append_right _ (by simpa using hb), List.eraseP_cons, hp]
      simp [hj, Job.owner]
    · refine Live.work_eq (fun _ => rfl) ?_
      simp only [Live.workJobs, List.map_map]
      congr 1
      refine List.map_congr_left fun e _ => ?_
      simp only [Function.comp_apply]
      split <;> rfl

/-! ## The close of an event -/

theorem settle_workLaw (s t : State) (h : t.toLive.WorkLaw) : (settle s t).toLive.WorkLaw :=
  h.of_work (settle_placed s t).work

/-- The close of an event keeps the law. -/
theorem closeEvent_workLaw (s t : State) (h : t.toLive.WorkLaw) : (closeEvent s t).toLive.WorkLaw :=
  settle_workLaw s _ (h.of_work (closeWatermarks_work t.toLive s.toLive))

theorem Live.workLaw_reset : Live.reset.WorkLaw := by
  have e : ∀ c : Fin 8, Live.reset.ctxs[c] = Ctx.reset := fun c => by simp [Live.reset]
  refine ⟨fun _ => Nat.zero_le _, fun _ => Nat.zero_le _, fun c _ => ?_, fun c d v hv => ?_, fun _ he => ?_,
    fun c _ => ?_, fun c p hp => ?_, fun c _ => ?_⟩
  · rw [e]; exact Nat.zero_le _
  · rw [e] at hv; cases hv
  · cases he
  · rw [e]; exact Nat.zero_le _
  · rw [e] at hp; cases hp
  · rw [e]; exact ⟨Nat.zero_le _, rfl⟩

end Sys2Proof.Machine
end

