-- ==== Sys2Proof/WellFormed.lean ====
section
/-! DEFINITION. Which commands are well formed: a transfer carries `k` sets of byte enables and, for a write, `k` data
words (R162); the order of a tick names no part twice (log 3). What exec does with an ill-formed transfer is in
log 23. -/

namespace Sys2Proof

/-- The lines of a port carry four byte enables for each word of the burst, and `k` words of data for a write and
none for a read (R162). -/
def Transfer.wf (t : Transfer) : Bool :=
  t.enables.length == t.burst.words &&
    t.data.length == (match t.dir with
      | .write => t.burst.words
      | .read => 0)

/-- A standing request, where there is one, is well formed. -/
def standingWf : Option Transfer → Bool
  | none => true
  | some t => t.wf

/-- No part of a tick is named twice. -/
def orderWf : List TickPart → Bool
  | [] => true
  | x :: xs => !xs.contains x && orderWf xs

/-- Well-formed commands. -/
def Instr.wf : Instr → Bool
  | .transferArrival _ t => t.wf
  | .requestWithdrawal _ => true
  | .passThrough _ => true
  | .plainWindowTransfer _ => true
  | .unmapped _ => true
  | .cbRead _ => true
  | .cbWrite _ => true
  | .push _ => true
  | .pushLast _ => true
  | .pop _ => true
  | .peek _ => true
  | .state _ => true
  | .bitfieldTransfer _ => true
  | .bitfieldPlainWrite => true
  | .set => true
  | .clear => true
  | .toggle => true
  | .bitfieldPlainRead => true
  | .fetchAndClear => true
  | .compareRead => true
  | .arbiterGrant => true
  | .jobPresentation _ => true
  | .portReadCompletion => true
  | .portWriteCompletion => true
  | .noticeWordReadClear => true
  | .peekReadCompletion => true
  | .entryWriteCompletion => true
  | .entryCopyCompletion => true
  | .stampFetchCompletion => true
  | .signalUpdateGrant => true
  | .signalUpdateCompletion => true
  | .mirrorWrite => true
  | .globalWord => true
  | .enableWord => true
  | .ackConfig => true
  | .ackFault => true
  | .ackEngine => true
  | .contextAck => true
  | .stageRecordWord => true
  | .windowRecordApply => true
  | .contextRecordApply => true
  | .flush => true
  | .cbPlainWrite => true
  | .tick order => orderWf order
  | .idleExpiry _ => true
  | .stallExpiry _ => true
  | .waitExpiry _ => true
  | .holdoffExpiry _ => true
  | .stale _ => true
  | .portReset _ _ => true
  | .portResetRelease _ standing => standingWf standing
  | .powerOnReset _ _ => true
  | .powerOnResetRelease a b => standingWf a && standingWf b
  | .mirrorUnitCompletion => true

end Sys2Proof
end

