-- ==== Sys2Proof/Tests/Slice0.lean ====
section
/-! SUPPORT. The model's own tests: ill-formed commands that the check refuses, one-step tests on small states, and for
each statement a witness that its hypotheses can be met together. -/

namespace Sys2Proof.Tests

open Sys2Proof.Machine

/-! ## Small transfers -/

/-- A read of a burst at an address, level 0, every byte enabled. -/
def rd (a : Nat) (b : Burst) : Transfer :=
  { lines := BitVec.ofNat 24 (a / 4), dir := .read, burst := b, enables := List.replicate b.words 0xF, level := 0,
    data := [] }

/-- A write of a burst at an address, level 0, every byte enabled. -/
def wr (a : Nat) (b : Burst) (data : List Word) : Transfer :=
  { lines := BitVec.ofNat 24 (a / 4), dir := .write, burst := b, enables := List.replicate b.words 0xF, level := 0,
    data := data }

/-! ## Well-formedness (R162, log 3) -/

theorem test_wf_transfer : (Instr.transferArrival .A (wr 0x40 .two [1, 2])).wf = true := by decide

theorem test_wf_enables_short :
    (Instr.transferArrival .A { rd 0x40 .two with enables := [0xF] }).wf = false := by decide

theorem test_wf_write_data_short : (Instr.transferArrival .A (wr 0x40 .two [1])).wf = false := by decide

theorem test_wf_read_data : (Instr.transferArrival .A { rd 0x40 .one with data := [1] }).wf = false := by decide

theorem test_wf_standing :
    (Instr.portResetRelease .B (some (wr 0x40 .two [1]))).wf = false ∧
      (Instr.powerOnResetRelease none (some (wr 0x40 .two [1]))).wf = false ∧
      (Instr.powerOnResetRelease (some (wr 0x40 .two [1])) none).wf = false := by decide

theorem test_wf_tick_part_twice :
    (Instr.tick [.idle .A, .stale 3, .idle .A]).wf = false ∧ (Instr.tick [.idle .A, .idle .B]).wf = true := by decide

theorem test_no_row_has_bits : decodeTableWord 32 0 = none ∧ decodeTableWord 0 0 = none := by decide

/-! ## Small states -/

/-- The state that an outcome leaves. -/
def after (o : Host.Outcome State Fault Refusal) : State :=
  match o with
  | .next s => s
  | .fault _ => State.reset
  | .refused _ => State.reset

/-- Window records at level 3, both ports READWRITE: kind RING of context 0 at 100000h, PLAIN at 200000h onto 4000h,
BITFIELD at 300000h onto 6000h. -/
def ringRecord : Record := { Record.zero with w0 := 0x0000FF03, w1 := 0x00100000 }
def plainRecord : Record := { Record.zero with w0 := 0x0000FF01, w1 := 0x00200000, w2 := 0x00004000 }
def bitfieldRecord : Record :=
  { Record.zero with w0 := 0x0000FF05, w1 := 0x00300000, w2 := 0x00006000, w3 := 0x0000FF00, w4 := 0x12345678 }

/-- A context record of slot size 4 at 2000h, capacity 2, high 2, low 0, stall limit 5, fill word 0F1F1F1F1h, signal word
off, every notice routed to both ports; `w0` adds to word 0 and `w3` is word 3. -/
def ctxRecord (w0 w3 : Word) : Record :=
  ⟨0x05000040 ||| w0, 0x00002000, 0x00020002, w3, 0xF1F1F1F1, 0, 0, 0xFFFFFFFF⟩

def ctx (w0 w3 : Word) : Ctx := { Ctx.reset with initialised := true, applied := ctxRecord w0 w3 }

/-- The part with context 0 as given, the three windows above, and an empty mirror list. -/
def world (x : Ctx) : State :=
  { State.reset with
    ctxs := State.reset.ctxs.set 0 x
    windows := ((State.reset.windows.set 0 ⟨ringRecord, ringRecord⟩).set 1 ⟨plainRecord, plainRecord⟩).set 2
      ⟨bitfieldRecord, bitfieldRecord⟩
    mirror := [] }

/-- The same with a transfer of port A in DECODING. -/
def decoding (x : Ctx) (t : Transfer) : State := { world x with ifaces := ⟨.decoding t, .idle⟩ }

/-- The same with a unit of port A in progress, whose transfer waits in HELD. -/
def working (x : Ctx) (u : PathUnit) (t : Transfer) (d : Decode) (m : Memory) : State :=
  { world x with ifaces := ⟨.held t d none, .idle⟩, paths := ⟨some u, none⟩, busy := some (.port .A), mem := m }

/-- The same with one job in progress. -/
def performing (x : Ctx) (j : Job) (m : Memory) : State :=
  { world x with jobs := [⟨j, .inProgress, none⟩], busy := some .job, mem := m }

/-- The same with a permitted write of one word of the control block in progress for port A. -/
def configuring (x : Ctx) (offset : Nat) (v : Word) : State :=
  working x ⟨.cbWrite, offset, [0xF], [v], true⟩ (wr offset .one [v]) .cb ⟨[], []⟩

/-- The same state with context 0 changed to hold these commits and pops. -/
def holdingAt (s : State) (items : List HeldItem) : State :=
  { s with ctxs := s.ctxs.set 0 { s.ctxs[0] with held := items } }

/-- Port B's commit of one word, and its pop of four words, as items of a held list. -/
def otherCommit : HeldItem := .commit ⟨.B, 1, 0, some 5, false⟩
def otherPop : HeldItem := .pop ⟨.B, .four, some 5⟩

/-- Port B's assembly buffer holds the word of that commit. -/
def committingB (s : State) : State := { s with assembly := ⟨s.assembly.a, .committing 0 1 0 [7] false⟩ }

/-- A memory that holds one word. -/
def oneWord (a : Nat) (v : Word) : Memory := Memory.writeWord ⟨[], []⟩ a 0xF v

/-- A memory whose byte at `a` fails parity. -/
def badByte (a : Nat) : Memory := ⟨[(a, 0)], [(a, false)]⟩

theorem placed_of {s : State}
    (h : (allCtxs.all fun c => !s.needsFetch c && !s.ctxs[c].signalDue && !s.ctxs[c].statusDue) = true) :
    s.JobsPlaced := by
  have hall : ∀ c : Fin 8, c ∈ allCtxs := by decide
  intro c
  have := List.all_eq_true.mp h c (hall c)
  simpa [and_assoc] using this

/-- All other parts of a tick are idle. -/
theorem others_idle {s : State} {x : TickPart} (h : (allParts.all fun y => y == x || !s.partDue y) = true) :
    ∀ y, y ≠ x → s.partDue y = false := by
  have hall : ∀ y : TickPart, y ∈ allParts := by
    intro y
    cases y with
    | holdoff c => revert c; decide
    | idle p => cases p <;> decide
    | held p => cases p <;> decide
    | stale c => revert c; decide
  intro y hy
  have := List.all_eq_true.mp h y (hall y)
  simpa [hy] using this

/-! ## The queue and time -/

theorem witness_IdleStep :
    (∃ s : State, s.pending = [] ∧ s.inReset = true) ∧
    (∃ s : State, s.pending = [] ∧ s.inReset = false ∧ s.prescaler + 1 < tickClocks s.globalWord) ∧
    ∃ s : State, s.pending = [] ∧ s.inReset = false ∧ tickClocks s.globalWord = s.prescaler + 1 :=
  ⟨⟨{ State.reset with inReset := true }, rfl, rfl⟩,
    ⟨{ State.reset with prescaler := 24998 }, rfl, rfl, by decide⟩,
    ⟨{ State.reset with prescaler := 24999 }, rfl, rfl, by decide⟩⟩

theorem test_step_takes_the_front :
    (after (step { State.reset with pending := [.transferArrival .A (rd 0 .one), .tick []] })).pending = [.tick []] :=
  by decide

/-! ## Invariants -/

theorem lawful_reset : State.reset.CounterLaw ∧ State.reset.RingLaw := by
  unfold State.CounterLaw State.RingLaw Ctx.CounterLaw Ctx.RingLaw
  decide

theorem witness_StepsKeepTheLaws :
    ∃ s t : State, (s.CounterLaw ∧ s.RingLaw) ∧ s.MirrorLaw ∧ s.JobsPlaced ∧ s.ContextJobLaw ∧ s.mem.wf = true ∧
      step s = .next t :=
  ⟨State.reset, _, lawful_reset, by unfold State.MirrorLaw; decide, placed_of (by decide),
    by unfold State.ContextJobLaw; decide, by decide, rfl⟩

/-- As much work as R10 allows: context 0, FIFO, with two slots WRITING and two IN-COPY, one of its ENTRY_WRITEs done;
context 7, LIFO, with nothing running. -/
def busyQueues : Live :=
  { Live.reset with
    ctxs := (Live.reset.ctxs.set 0 { ctx 0 0 with
      writingRun := [⟨2, .A, 0, false⟩, ⟨3, .B, 0, true⟩], heldRun := [.copying .B, .copying .A, .spent] }).set 7 (ctx 1 0)
    jobs := [⟨.entryWrite 0 2 0x2020 0 [] .A, .waiting, none⟩, ⟨.entryCopy 0 0 0x2000 3 .B, .inProgress, none⟩,
      ⟨.entryCopy 0 1 0x2010 3 .A, .waiting, none⟩] }

theorem busyQueues_workLaw : busyQueues.WorkLaw := by
  have run : ∀ c : Fin 8, c ≠ 0 → busyQueues.ctxs[c].writingRun = [] ∧ busyQueues.ctxs[c].heldRun = [] := by decide
  simp only [Fin.getElem_fin] at run
  refine ⟨fun p => ?_, fun p => ?_, fun c p => ?_, fun c d v hv w hw _ => ?_, fun e he c slot a h payload p hj => ?_,
    fun c p => ?_, fun c p hp => ?_, by decide⟩
  · cases p <;> decide
  · cases p <;> decide
  · revert c
    cases p <;> decide
  · by_cases hc : c = 0 <;> by_cases hd : d = 0
    · rw [hc, hd]
    · simp only [Fin.getElem_fin, (run d hd).1, List.not_mem_nil] at hw
    · simp only [Fin.getElem_fin, (run c hc).1, List.not_mem_nil] at hv
    · simp only [Fin.getElem_fin, (run c hc).1, List.not_mem_nil] at hv
  · simp only [busyQueues, List.mem_cons, List.not_mem_nil, or_false] at he
    rcases he with rfl | rfl | rfl <;> cases hj
    exact ⟨⟨2, .A, 0, false⟩, by decide⟩
  · revert c
    cases p <;> decide
  · by_cases hc : c = 0
    · subst hc
      cases p
      · exact ⟨_, .tail _ (.tail _ (.head _)), 1, 0x2010, 3, rfl⟩
      · exact ⟨_, .tail _ (.head _), 0, 0x2000, 3, rfl⟩
    · simp only [Fin.getElem_fin, (run c hc).2, List.not_mem_nil] at hp

/-- A state that the work laws hold of and that is at their bounds. -/
theorem witness_StepsKeepTheWorkLaw :
    (∃ s t : State, s.WorkLaw ∧ s.ctxs[(0 : Fin 8)].writing = 2 ∧ s.ctxs[(0 : Fin 8)].inCopy = 2 ∧ step s = .next t) ∧
    ∃ (s : State) (c : Fin 8), s.ctxs[c].isLifo = true ∧ s.ctxs[c].writing + s.ctxs[c].inCopy = 1 ∧
      s.ctxs[c].WorkBounded := by
  refine ⟨⟨{ State.reset with toLive := busyQueues }, _, busyQueues_workLaw, by decide, by decide, rfl⟩,
    ⟨world { ctx 1 0 with writingRun := [⟨0, .A, 0, false⟩] }, 0, ?_⟩⟩
  unfold Ctx.WorkBounded
  decide

theorem witness_StepsKeepTheBindingLaw : ∃ s t : State, s.BindingLaw ∧ s.windows[(0 : Fin 16)].applied.isRing = true ∧
    step s = .next t :=
  ⟨world (ctx 0 0), _, by unfold State.BindingLaw; decide, by decide, rfl⟩

theorem witness_StepsKeepTheLatchLaw : ∃ s t : State, s.LatchLaw ∧
    s.latch.get .A = .holding 0 0x02000000 [7, 8] 1 ∧ step s = .next t := by
  refine ⟨{ world (ctx 0 0) with latch := ⟨.holding 0 0x02000000 [7, 8] 1, .empty⟩ }, _, ?_, rfl, rfl⟩
  intro p c h payload r e
  cases p
  · cases e
    decide
  · cases e

/-! ## The close of an event -/

/-- Context 0 with `n` entries ready and a watermark state. -/
def marked (n : Nat) (w : Watermark) (w0 : Word) : Ctx := { ctx w0 0 with ready := n, watermark := w }

theorem witness_WatermarkAtTheClose :
    (∃ (s u : State) (c : Fin 8), s.ctxs[c].ready ≠ u.ctxs[c].ready ∧ u.ctxs[c].watermark = .calm ∧
      u.ctxs[c].applied.high = u.ctxs[c].ready ∧ u.ctxs[c].applied.holdoff = 0) ∧
    (∃ (s u : State) (c : Fin 8), s.ctxs[c].ready ≠ u.ctxs[c].ready ∧ u.ctxs[c].watermark = .calm ∧
      u.ctxs[c].applied.high = u.ctxs[c].ready ∧ u.ctxs[c].applied.holdoff = 1) ∧
    (∃ (s u : State) (c : Fin 8), s.ctxs[c].ready ≠ u.ctxs[c].ready ∧ u.ctxs[c].watermark = .calm ∧
      u.ctxs[c].ready + 1 = u.ctxs[c].applied.high) ∧
    (∃ (s u : State) (c : Fin 8), s.ctxs[c].ready ≠ u.ctxs[c].ready ∧ u.ctxs[c].watermark = .arming 1) ∧
    (∃ (s u : State) (c : Fin 8), s.ctxs[c].ready ≠ u.ctxs[c].ready ∧ u.ctxs[c].watermark = .raised ∧
      u.ctxs[c].ready = u.ctxs[c].applied.low) ∧
    ∃ (s u : State) (c : Fin 8), s.ctxs[c].ready ≠ u.ctxs[c].ready ∧ u.ctxs[c].watermark = .raised ∧
      u.ctxs[c].ready = u.ctxs[c].applied.low + 1 :=
  ⟨⟨world (marked 1 .calm 0), world (marked 2 .calm 0), 0, by decide⟩,
    ⟨world (marked 1 .calm 0), world (marked 2 .calm 0x00010000), 0, by decide⟩,
    ⟨world (marked 0 .calm 0), world (marked 1 .calm 0), 0, by decide⟩,
    ⟨world (marked 0 .calm 0), world (marked 1 (.arming 1) 0), 0, by decide⟩,
    ⟨world (marked 1 .raised 0), world (marked 0 .raised 0), 0, by decide⟩,
    ⟨world (marked 2 .raised 0), world (marked 1 .raised 0), 0, by decide⟩⟩

/-- Context 0 with one entry ready, an age limit of 3 and the signal word enabled. -/
def aged (k : StampCache) : Ctx :=
  { ctx 0 0x00030000 with
    ready := 1
    cache := k
    applied := { ctxRecord 0 0x00030000 with w5 := 0x3000, w6 := 0x80000005 } }

theorem witness_ContextJobsAtTheClose :
    (∃ u : State, u.owesFetch 0 ∧ Live.owesSignal (world (ctx 0 0)).toLive u.toLive 0) ∧
    ∃ u : State, ¬u.owesFetch 0 ∧ ¬Live.owesSignal u.toLive u.toLive 0 := by
  unfold Live.owesFetch Live.owesSignal
  exact ⟨⟨world (aged StampCache.reset), by decide⟩, ⟨world (ctx 0 0), by decide⟩⟩

theorem witness_CloseChangesNothingElse :
    ∃ s u : State, s.JobsPlaced ∧ u.ctxs = s.ctxs ∧ u.jobs = s.jobs ∧ u.attn = s.attn ∧
      u.configStatus = s.configStatus ∧ u.engineFault = s.engineFault ∧ s.mirror.Nodup :=
  ⟨world (ctx 0 0), { world (ctx 0 0) with tick := 1 }, placed_of (by decide), rfl, rfl, rfl, rfl, rfl, by decide⟩

theorem test_close_raises_high_and_reports :
    let t := closeEvent (world (marked 1 .calm 0)) (world (marked 2 .calm 0))
    t.ctxs[0].watermark = .raised ∧ (t.attn.get .B).pending[0] = 1 ∧
      t.mirror = [.summary .A, .notice .A 0, .summary .B, .notice .B 0, .context 0] := by decide +kernel

/-- R20, log 28: a context initialised again, with the same words, has its status item on the mirror list. -/
theorem test_marked_item_joins_unchanged :
    (closeEvent (world (ctx 0 0)) (world { ctx 0 0 with statusDue := true })).mirror = [.context 0] ∧
      (closeEvent (world (ctx 0 0)) (world { ctx 0 0 with statusDue := true })).ctxs[0].statusDue = false := by
  decide +kernel

/-! ## Attention -/

theorem witness_NoticesAreRouted :
    (∃ (l : Live) (c : Fin 8), l.ctxs[c].applied.route .high = 0) ∧
    ∃ l : Live, l.ctxs[(0 : Fin 8)].applied.route .high = 3 ∧
      (l.attn.get .A).pending[(0 : Fin 8)] &&& Kind.high.mask = Kind.high.mask ∧
      (l.attn.get .B).pending[(0 : Fin 8)] &&& Kind.high.mask = Kind.high.mask :=
  ⟨⟨Live.reset, 0, by decide⟩, ⟨(world (ctx 0 0)).toLive.raise 0 .high, by decide⟩⟩

theorem witness_SummaryWordDrivesAttn :
    (∃ s : State, s.inReset = true) ∧ ∃ s : State, s.inReset = false ∧ s.attnLine .A = true :=
  ⟨⟨{ State.reset with inReset := true }, rfl⟩,
    ⟨{ State.reset with attn := ⟨{ PortAttn.clear with engine := true, enable := 0x400 }, PortAttn.clear⟩ }, rfl,
      by decide⟩⟩

/-- R125: a kind that a raise or a close makes pending starts with its shown mark clear; pending already, it keeps it. -/
theorem test_raised_kind_starts_unshown :
    let marks := { PortAttn.clear with shown := Vector.replicate 8 3 }
    let attn : PerPort PortAttn := ⟨marks, { marks with pending := Vector.replicate 8 1 }⟩
    let raised := Live.raise { (world (ctx 0 0)).toLive with attn := attn } 0 .high
    let closed := closeEvent (world (marked 1 .calm 0)) { world (marked 2 .calm 0) with attn := attn }
    ∀ a ∈ [raised.attn, closed.attn], a.a.shown[0] = 2 ∧ a.b.shown[0] = 3 ∧ a.a.shown[7] = 3 := by decide +kernel

def aRecord (n : Nat) : FaultRecord := ⟨.shape, .read, 0, 31, 0, n⟩

theorem witness_RecordsCaptureTheFirstAndCount :
    (∃ a : PortAttn, a.record = none) ∧ (∃ a : PortAttn, ∃ r, a.record = some r ∧ r.further = 14) ∧
      ∃ a : PortAttn, ∃ r, a.record = some r ∧ r.further = 15 :=
  ⟨⟨PortAttn.clear, rfl⟩, ⟨{ PortAttn.clear with record := some (aRecord 14) }, aRecord 14, rfl, rfl⟩,
    ⟨{ PortAttn.clear with record := some (aRecord 15) }, aRecord 15, rfl, rfl⟩⟩

/-! ## Arrival and the decoder -/

theorem witness_ArrivalAndWithdrawal :
    (∃ s : State, s.inReset = false ∧ s.JobsPlaced ∧ s.ifaces.get .A = .idle ∧ s.portReset.get .A = false) ∧
    (∃ s : State, s.inReset = false ∧ s.JobsPlaced ∧ s.ifaces.get .A ≠ .idle) ∧
    (∃ s : State, s.inReset = false ∧ s.JobsPlaced ∧ s.portReset.get .A = true ∧
      ∀ a : Answer, s.ifaces.get .A ≠ .answering a) ∧
    ∃ s : State, s.inReset = false ∧ s.JobsPlaced ∧ s.ifaces.get .A = .answering .okWrite :=
  ⟨⟨State.reset, rfl, placed_of (by decide), rfl, rfl⟩,
    ⟨decoding (ctx 0 0) (rd 0 .one), rfl, placed_of (by decide), by decide⟩,
    ⟨{ State.reset with portReset := ⟨true, false⟩ }, rfl, placed_of (by decide), rfl, fun _ => nofun⟩,
    ⟨{ State.reset with ifaces := ⟨.answering .okWrite, .idle⟩ }, rfl, placed_of (by decide), rfl⟩⟩

theorem witness_ClassOfAnAddress :
    let s := world (ctx 0 0)
    s.classify 0xFFF = .cb ∧ s.classify 0x1000 = .pass ∧ s.classify 0x100000 = .window 0 ∧
      s.classify 0x100FFF = .window 0 ∧ s.classify 0x101000 = .pass ∧ s.classify 0x1FFFFF = .pass ∧
      s.classify 0x200FFF = .window 1 ∧ s.classify 0x201000 = .unmapped ∧ s.classify 0x3FFFFFF = .unmapped := by decide

theorem witness_DecisionOfABurst :
    let s := world (ctx 0 0)
    (∀ a ∈ (rd 0xFFC .one).addresses, s.classify a = .cb) ∧
    (∀ a ∈ (rd 0x100000 .eight).addresses, s.classify a = .window 0) ∧
    (∀ a ∈ (rd 0x1FFFE0 .eight).addresses, s.classify a = .pass) ∧
    ((∃ a ∈ (rd 0x3FFFFFC .two).addresses, s.classify a = .unmapped) ∧
      ∀ a ∈ (rd 0x3FFFFFC .two).addresses, s.classify a = .pass ∨ s.classify a = .unmapped) ∧
    (∃ a ∈ (rd 0xFFC .two).addresses, ∃ b ∈ (rd 0xFFC .two).addresses, s.classify a ≠ s.classify b) ∧
    ∃ a ∈ (rd 0xFFC .two).addresses, s.classify a ≠ .pass ∧ s.classify a ≠ .unmapped := by decide

theorem witness_SubRangeAndQuarterEdges :
    [0, 0x3FF, 0x400, 0x7FF, 0x800, 0xBFF, 0xC00, 0xDFF, 0xE00, 0xFFF].map subRangeOf =
      [.push, .push, .pushLast, .pushLast, .pop, .pop, .peek, .peek, .state, .state] ∧
    bitfieldRecord.sizeCode = 0 ∧
    [0, 0x3FF, 0x400, 0x7FF, 0x800, 0xBFF, 0xC00, 0xFFF].map (quarterOf bitfieldRecord.apertureSize) =
      [.q0, .q0, .q1, .q1, .q2, .q2, .q3, .q3] ∧
    Record.sizeCode { bitfieldRecord with w0 := 0x000CFF05 } = 12 ∧
    [0x3FFFFF, 0x400000, 0x7FFFFF, 0x800000, 0xBFFFFF, 0xC00000, 0xFFFFFF].map
        (quarterOf (Record.apertureSize { bitfieldRecord with w0 := 0x000CFF05 })) =
      [.q0, .q1, .q1, .q2, .q2, .q3, .q3] := by decide

/-- The part with other rights and levels in the window record of context 0. -/
def guarded (w0 : Word) : State :=
  { world (ctx 0 0) with windows := (world (ctx 0 0)).windows.set 0 ⟨{ ringRecord with w0 := w0 }, ringRecord⟩ }

/-- The shape rules at the edges of the sub-ranges and of a quarter, and ACCESS before SHAPE. -/
theorem witness_ShapeAndAccess :
    let refusal := fun t => (world (ctx 0 0)).refusalOf .A t
    [wr 0x1003F8 .two [1, 2], wr 0x1007F8 .two [1, 2], rd 0x100BF8 .two, rd 0x100DFC .one, rd 0x100FFC .one,
        rd 0x3003F8 .two, wr 0x300FFC .one [1], rd 0x200FE0 .eight].map refusal = List.replicate 8 none ∧
    [wr 0x1003FC .two [1, 2], wr 0x1007FC .two [1, 2], rd 0x100BFC .two, rd 0x100C00 .two, rd 0x100FF8 .two,
        rd 0x1007FC .one, wr 0x100800 .one [1], { wr 0x100000 .one [1] with enables := [0x7] }, rd 0x3003FC .two,
        rd 0x300BFC .two].map refusal = List.replicate 10 (some .shape) ∧
    (guarded 0x0000FC03).decision (rd 0x100000 .one) = .window 0 ∧
    (guarded 0x0000FC03).refusalOf .A (rd 0x100000 .one) = some .access ∧
    (guarded 0x0000CF03).refusalOf .A { rd 0x100000 .one with level := 1 } = some .access ∧
    (guarded 0x0000CF03).refusalOf .A { rd 0x100800 .one with level := 0 } = none ∧
    (guarded 0x0000FE03).refusalOf .A (rd 0x100800 .one) = some .access ∧
    (guarded 0x0000FD03).refusalOf .A (wr 0x100000 .one [1]) = some .access := by decide

theorem witness_RefusedTransferIsAnsweredError :
    (∃ s : State, s.Decoding .A (rd 0x100FFC .two) ∧ s.JobsPlaced ∧ s.refusalOf .A (rd 0x100FFC .two) = some .shape) ∧
    (∃ s : State, s.Decoding .A (rd 0x100000 .one) ∧ s.JobsPlaced ∧ s.refusalOf .A (rd 0x100000 .one) = some .shape) ∧
    ∃ s : State, s.Decoding .A (rd 0x201000 .two) ∧ s.JobsPlaced ∧ s.decision (rd 0x201000 .two) = .unmapped :=
  ⟨⟨decoding (ctx 0 0) (rd 0x100FFC .two), ⟨rfl, rfl⟩, placed_of (by decide), by decide⟩,
    ⟨decoding (ctx 0 0) (rd 0x100000 .one), ⟨rfl, rfl⟩, placed_of (by decide), by decide⟩,
    ⟨decoding (ctx 0 0) (rd 0x201000 .two), ⟨rfl, rfl⟩, placed_of (by decide), by decide⟩⟩

theorem witness_PassThroughAndPlainAreHandedDown :
    (∃ s : State, s.Decoding .A (rd 0x1000 .two) ∧ s.JobsPlaced ∧ s.decision (rd 0x1000 .two) = .pass) ∧
    ∃ s : State, s.Decoding .A (rd 0x200010 .two) ∧ s.JobsPlaced ∧ s.decision (rd 0x200010 .two) = .window 1 ∧
      s.windows[(1 : Fin 16)].applied.kind = .plain ∧
      s.windows[(1 : Fin 16)].applied.admits .A (rd 0x200010 .two) false = true :=
  ⟨⟨decoding (ctx 0 0) (rd 0x1000 .two), ⟨rfl, rfl⟩, placed_of (by decide), by decide⟩,
    ⟨decoding (ctx 0 0) (rd 0x200010 .two), ⟨rfl, rfl⟩, placed_of (by decide), by decide⟩⟩

theorem test_plain_window_translates :
    (after (exec (.plainWindowTransfer .A) (decoding (ctx 0 0) (rd 0x200010 .one)))).paths.a =
      some ⟨.read, 0x4010, [0xF], [], true⟩ := by decide

theorem witness_ControlBlockTransfersAreJudged :
    (∃ s : State, s.Decoding .A (rd 0x800 .one) ∧ s.JobsPlaced ∧ s.decision (rd 0x800 .one) = .cb) ∧
    (∃ s : State, s.Decoding .A (wr 0x7FC .one [1]) ∧ s.JobsPlaced ∧ s.decision (wr 0x7FC .one [1]) = .cb ∧
      ∀ a ∈ (wr 0x7FC .one [1]).addresses, a < s.cbBase + 0x800) ∧
    (∃ s : State, s.Decoding .A (wr 0x7FC .two [1, 2]) ∧ s.JobsPlaced ∧ s.decision (wr 0x7FC .two [1, 2]) = .cb ∧
      ∃ a ∈ (wr 0x7FC .two [1, 2]).addresses, s.cbBase + 0x800 ≤ a) ∧
    ∃ s : State, s.Decoding .A { wr 0 .one [1] with level := 1 } ∧ s.JobsPlaced ∧
      s.decision { wr 0 .one [1] with level := 1 } = .cb :=
  ⟨⟨decoding (ctx 0 0) (rd 0x800 .one), ⟨rfl, rfl⟩, placed_of (by decide), by decide⟩,
    ⟨decoding (ctx 0 0) (wr 0x7FC .one [1]), ⟨rfl, rfl⟩, placed_of (by decide), by decide, by decide⟩,
    ⟨decoding (ctx 0 0) (wr 0x7FC .two [1, 2]), ⟨rfl, rfl⟩, placed_of (by decide), by decide, by decide⟩,
    ⟨decoding (ctx 0 0) { wr 0 .one [1] with level := 1 }, ⟨rfl, rfl⟩, placed_of (by decide), by decide⟩⟩

theorem witness_BitfieldTransferIsHandedDown :
    ∃ s : State, s.Decoding .A (rd 0x300400 .one) ∧ s.JobsPlaced ∧ s.decision (rd 0x300400 .one) = .window 2 ∧
      s.windows[(2 : Fin 16)].applied.kind = .bitfield ∧
      quarterOf s.windows[(2 : Fin 16)].applied.apertureSize 0x400 = .q1 ∧
      s.windows[(2 : Fin 16)].applied.admits .A (rd 0x300400 .one) true = true ∧
      s.windows[(2 : Fin 16)].applied.inQuarter (rd 0x300400 .one) = true :=
  ⟨decoding (ctx 0 0) (rd 0x300400 .one), ⟨rfl, rfl⟩, placed_of (by decide), by decide⟩

theorem test_bitfield_quarter_address :
    (after (exec (.bitfieldTransfer .A) (decoding (ctx 0 0) (wr 0x300C04 .one [1])))).paths.a =
      some ⟨.bitfield .toggle 0 0x0000FF00 0x12345678, 0x6004, [0xF], [1], true⟩ := by decide

/-! ## Pushing -/

theorem toRing_of {s : State} {p : Port} {t : Transfer} {w : Fin 16} {sub : SubRange}
    (h : s.inReset = false ∧ s.ifaces.get p = .decoding t ∧ s.decision t = .window w ∧
      s.windows[w].applied.kind = .ring ∧ s.windows[w].applied.admits p t false = true ∧
      s.windows[w].applied.ringShape t sub = true) : s.ToRing p t w sub :=
  ⟨⟨h.1, h.2.1⟩, h.2.2.1, h.2.2.2.1, h.2.2.2.2.1, h.2.2.2.2.2⟩

/-- Context 0 with `n` entries ready, FIFO or LIFO by `w0`. -/
def stocked (n : Nat) (w0 : Word) : Ctx := { ctx w0 0 with ready := n, depth := n, tail := n % 2 }

/-- Port A pushes with an assembly already OPEN on `c`. -/
def assembling (x : Ctx) (t : Transfer) (c : Fin 8) (words : List Word) : State :=
  { decoding x t with assembly := ⟨.opened c words none, .empty⟩ }

theorem witness_PushAppendsToTheAssembly :
    (∃ s : State, s.ToRing .A (wr 0x100000 .two [1, 2]) 0 .push ∧ s.JobsPlaced ∧ s.assembly.get .A = .empty ∧
      (wr 0x100000 .two [1, 2]).wordData.length ≤ s.ctxs[(0 : Fin 8)].applied.slotSize - 1) ∧
    (∃ s : State, s.ToRing .A (wr 0x1003F8 .two [1, 2]) 0 .push ∧ s.JobsPlaced ∧
      s.assembly.get .A = .opened 0 [9] none ∧ 1 + 2 = s.ctxs[(0 : Fin 8)].applied.slotSize - 1) ∧
    ∃ s : State, s.ToRing .A (wr 0x100000 .two [1, 2]) 0 .push ∧ s.assembly.get .A = .opened 7 [9] none ∧
      (wr 0x100000 .two [1, 2]).wordData.length ≤ s.ctxs[(0 : Fin 8)].applied.slotSize - 1 :=
  ⟨⟨decoding (ctx 0 0) (wr 0x100000 .two [1, 2]), toRing_of (by decide), placed_of (by decide), rfl, by decide⟩,
    ⟨assembling (ctx 0 0) (wr 0x1003F8 .two [1, 2]) 0 [9], toRing_of (by decide), placed_of (by decide), rfl,
      by decide⟩,
    ⟨assembling (ctx 0 0) (wr 0x100000 .two [1, 2]) 7 [9], toRing_of (by decide), rfl, by decide⟩⟩

theorem witness_OverrunIsRefused :
    (∃ s : State, s.ToRing .A (wr 0x100000 .four [1, 2, 3, 4]) 0 .push ∧ s.assembly.get .A = .empty ∧
      s.ctxs[(0 : Fin 8)].applied.slotSize - 1 < 4) ∧
    (∃ s : State, s.ToRing .A (wr 0x100400 .two [1, 2]) 0 .pushLast ∧ s.assembly.get .A = .opened 0 [8, 9] none ∧
      s.ctxs[(0 : Fin 8)].applied.slotSize - 1 < 2 + 2) ∧
    ∃ s : State, s.ToRing .A (wr 0x100400 .four [1, 2, 3, 4]) 0 .pushLast ∧ s.assembly.get .A = .opened 7 [9] none ∧
      s.ctxs[(0 : Fin 8)].applied.slotSize - 1 < 4 :=
  ⟨⟨decoding (ctx 0 0) (wr 0x100000 .four [1, 2, 3, 4]), toRing_of (by decide), rfl, by decide⟩,
    ⟨assembling (ctx 0 0) (wr 0x100400 .two [1, 2]) 0 [8, 9], toRing_of (by decide), rfl, by decide⟩,
    ⟨assembling (ctx 0 0) (wr 0x100400 .four [1, 2, 3, 4]) 7 [9], toRing_of (by decide), rfl, by decide⟩⟩

/-- The last push of these tests. -/
def lastPush : Transfer := wr 0x100400 .one [7]

theorem witness_PushLastReservesASlot :
    (∃ s : State, s.ToRing .A lastPush 0 .pushLast ∧ s.commitTaken .A 0 ∧ s.ctxs[(0 : Fin 8)].applied.isLifo = false ∧
      s.ctxs[(0 : Fin 8)].occupied + 1 = s.ctxs[(0 : Fin 8)].applied.capacity ∧ s.assembly.get .A = .empty) ∧
    ∃ s : State, s.ToRing .A lastPush 0 .pushLast ∧ s.commitTaken .A 0 ∧ s.ctxs[(0 : Fin 8)].applied.isLifo = true ∧
      s.ctxs[(0 : Fin 8)].occupied + 1 = s.ctxs[(0 : Fin 8)].applied.capacity ∧
      s.assembly.get .A = .opened 0 [1, 2] none := by
  unfold Live.commitTaken
  exact ⟨⟨decoding (stocked 1 0) lastPush, toRing_of (by decide), by decide⟩,
    ⟨assembling (stocked 1 1) lastPush 0 [1, 2], toRing_of (by decide), by decide⟩⟩

/-- A context where an entry of port `p` is WRITING. -/
def writingBy (p : Port) (w0 : Word) : Ctx := { ctx w0 0 with writingRun := [⟨0, p, 0, false⟩], tail := 1, depth := 1 }

theorem witness_PushLastJoinsTheHeldList :
    (∀ x ∈ [{ stocked 2 0x100 with held := [otherCommit] }, { stocked 1 0x100 with held := [otherCommit] },
        writingBy .A 0, writingBy .B 1, { stocked 0 1 with heldRun := [.copying .B], depth := 1 }],
      (decoding x lastPush).ToRing .A lastPush 0 .pushLast ∧ (decoding x lastPush).ctxs[(0 : Fin 8)] = x ∧
        lastPush.wordData.length ≤ x.applied.slotSize - 1 ∧ x.holds .A = false ∧
        ((x.applied.isLifo = false ∧ (heldCommits x.held ≠ [] ∨ (decoding x lastPush).portWriting .A = true)) ∨
          (x.applied.isLifo = true ∧ (0 < x.writing ∨ 0 < x.inCopy)))) ∧
    ∃ s : State, s.ToRing .A lastPush 0 .pushLast ∧ s.assembly.get .A = .empty ∧ s.portWriting .A = false ∧
      s.ctxs[(0 : Fin 8)].applied.isLifo = true ∧ s.ctxs[(0 : Fin 8)].writing = 0 ∧ s.ctxs[(0 : Fin 8)].inCopy = 0 ∧
      s.ctxs[(0 : Fin 8)].ready = 0 ∧ s.ctxs[(0 : Fin 8)].depth < s.ctxs[(0 : Fin 8)].applied.capacity ∧
      s.ctxs[(0 : Fin 8)].applied.emptyCode = 2 ∧ s.ctxs[(0 : Fin 8)].held = [otherPop] ∧
      s.latch.get .B = .waiting 0 ∧ s.copyInFlight .B = false := by
  refine ⟨?_, ⟨{ decoding { ctx 0x801 0 with held := [otherPop] } lastPush with latch := ⟨.empty, .waiting 0⟩ },
    toRing_of (by decide), by decide⟩⟩
  intro x hx
  simp only [List.mem_cons, List.not_mem_nil, or_false] at hx
  rcases hx with rfl | rfl | rfl | rfl | rfl <;> exact ⟨toRing_of (by decide), rfl, by decide⟩

theorem test_push_last_joins_behind_another :
    let t := after (exec (.pushLast .A) (decoding { stocked 2 0x100 with held := [otherCommit] } lastPush))
    t.ctxs[0].held = [otherCommit, .commit ⟨.A, 1, 0, some 5, false⟩] ∧ t.jobs = [] := by decide +kernel

theorem witness_header : ∃ length : Nat, length < 8 ∧ (header length .B 3 true 0xFF 0xFFFF) = 0xBFFFFFFF :=
  ⟨7, by decide, by decide⟩

/-- A full FIFO ring of two slots that are being written. -/
def writingFull (w0 : Word) : Ctx := { ctx w0 0 with writingRun := [⟨0, .B, 0, false⟩, ⟨1, .B, 0, false⟩] }

/-- A full FIFO ring: the first slot in copy for B, the second ready. -/
def copyingFull (w0 : Word) : Ctx := { ctx w0 0 with ready := 1, head := 1, heldRun := [.copying .B] }

theorem witness_PushLastAtAFullContext :
    (∀ x ∈ [stocked 2 0, writingFull 0x200, stocked 2 0x100, stocked 2 0x200, copyingFull 0x200],
      (decoding x lastPush).ToRing .A lastPush 0 .pushLast ∧ (decoding x lastPush).commitTaken .A 0 ∧
        (decoding x lastPush).ctxs[(0 : Fin 8)].occupied = 2 ∧
        (decoding x lastPush).ctxs[(0 : Fin 8)].applied.capacity = 2) ∧
    (stocked 2 0).applied.policyCode = 0 ∧ (writingFull 0x200).applied.policyCode = 2 ∧ (writingFull 0x200).ready = 0 ∧
    (stocked 2 0x100).applied.policyCode = 1 ∧ (stocked 2 0x200).applied.policyCode = 2 ∧
    (stocked 2 0x200).heldRun = [] ∧ (copyingFull 0x200).applied.policyCode = 2 ∧
    (copyingFull 0x200).heldRun = [.copying .B] := by
  unfold Live.commitTaken
  refine ⟨?_, by decide⟩
  intro x hx
  simp only [List.mem_cons, List.not_mem_nil, or_false] at hx
  rcases hx with rfl | rfl | rfl | rfl | rfl <;> exact ⟨toRing_of (by decide), by decide⟩

/-! ## Popping -/

/-- The pop of these tests: four words. -/
def aPop : Transfer := rd 0x100800 .four

theorem witness_PopClaimsTheNextEntry :
    (∃ s : State, s.ToRing .A aPop 0 .pop ∧ s.latch.get .A = .empty ∧ s.popTaken .A 0 ∧
      s.ctxs[(0 : Fin 8)].ready = 1 ∧ s.ctxs[(0 : Fin 8)].applied.isLifo = false) ∧
    ∃ s : State, s.ToRing .A aPop 0 .pop ∧ s.latch.get .A = .empty ∧ s.popTaken .A 0 ∧
      s.ctxs[(0 : Fin 8)].ready = 1 ∧ s.ctxs[(0 : Fin 8)].applied.isLifo = true := by
  unfold Live.popTaken
  exact ⟨⟨decoding (stocked 1 0) aPop, toRing_of (by decide), by decide⟩,
    ⟨decoding (stocked 1 1) aPop, toRing_of (by decide), by decide⟩⟩

theorem witness_PopJoinsTheHeldList :
    (∃ s : State, s.ToRing .A aPop 0 .pop ∧ s.latch.get .A = .holding 7 0x02000000 [7, 8] 2 ∧ s.popTaken .A 0 ∧
      s.ctxs[(0 : Fin 8)].ready = 1) ∧
    ∀ s ∈ [decoding { stocked 1 0 with held := [otherPop] } aPop, decoding { stocked 0 1 with heldRun := [.copying .B] } aPop,
        decoding (writingBy .B 1) aPop, { decoding (ctx 0x800 0) aPop with
          jobs := [⟨.entryCopy 7 0 0x8000 3 .A, .waiting, none⟩], dropped := ⟨true, false⟩ }],
      s.ToRing .A aPop 0 .pop ∧ s.latch.get .A = .empty ∧ s.ctxs[(0 : Fin 8)].holds .A = false ∧
        ((s.ctxs[(0 : Fin 8)].applied.isLifo = false ∧ (s.copyInFlight .A = true ∨
            (s.ctxs[(0 : Fin 8)].ready ≠ 0 ∧ heldPops s.ctxs[(0 : Fin 8)].held ≠ []))) ∨
          (s.ctxs[(0 : Fin 8)].applied.isLifo = true ∧
            (0 < s.ctxs[(0 : Fin 8)].writing ∨ 0 < s.ctxs[(0 : Fin 8)].inCopy))) := by
  unfold Live.popTaken
  refine ⟨⟨{ decoding (stocked 1 0) aPop with latch := ⟨.holding 7 0x02000000 [7, 8] 2, .empty⟩ },
    toRing_of (by decide), by decide⟩, ?_⟩
  intro s hs
  simp only [List.mem_cons, List.not_mem_nil, or_false] at hs
  rcases hs with rfl | rfl | rfl | rfl <;> exact ⟨toRing_of (by decide), by decide⟩

/-- A held pop of port A and a context that holds it. -/
def heldPop (stall : Option Nat) : HeldPop := ⟨.A, .four, stall⟩
def waitingPop (w0 : Word) (stall : Option Nat) : Ctx := { ctx w0 0 with held := [.pop (heldPop stall)] }

/-- Port A's read waits in HELD at context 0. -/
def heldRead (x : Ctx) : State :=
  { world x with ifaces := ⟨.held aPop (.ring 0 0 .pop) none, .idle⟩, latch := ⟨.waiting 0, .empty⟩ }

theorem witness_EmptyPops :
    (∀ w0 ∈ [(0 : Word), 0x400, 0x800],
      (decoding (ctx w0 0) aPop).ToRing .A aPop 0 .pop ∧ (decoding (ctx w0 0) aPop).JobsPlaced ∧
        (decoding (ctx w0 0) aPop).latch.get .A = .empty ∧ (decoding (ctx w0 0) aPop).popTaken .A 0 ∧
        (decoding (ctx w0 0) aPop).ctxs[(0 : Fin 8)].ready = 0) ∧
    (ctx 0 0).applied.emptyCode = 0 ∧ (ctx 0x400 0).applied.emptyCode = 1 ∧ (ctx 0x800 0).applied.emptyCode = 2 ∧
    (∀ w0 : Word, (heldRead (waitingPop w0 (some 5))).ifaces.get .A = .held aPop (.ring 0 0 .pop) none) ∧
    (heldRead (waitingPop 0x800 (some 5))).ctxs[(0 : Fin 8)].held = [.pop (heldPop (some 5))] := by
  unfold Live.popTaken
  refine ⟨?_, by decide, by decide, by decide, fun _ => rfl, by decide⟩
  intro x hx
  simp only [List.mem_cons, List.not_mem_nil, or_false] at hx
  rcases hx with rfl | rfl | rfl <;> exact ⟨toRing_of (by decide), placed_of (by decide), by decide⟩

theorem witness_PopFromAHoldingLatch :
    (∃ s : State, s.ToRing .A aPop 0 .pop ∧ s.JobsPlaced ∧ s.LatchLaw ∧
      s.latch.get .A = .holding 0 0x02000000 [7, 8] 1) ∧
    ∃ s : State, s.ToRing .A aPop 0 .pop ∧ s.JobsPlaced ∧ s.latch.get .A = .holding 7 0x02000000 [7, 8] 2 ∧
      s.popTaken .A 0 ∧ s.ctxs[(0 : Fin 8)].ready = 0 ∧ s.ctxs[(0 : Fin 8)].applied.emptyCode = 0 := by
  unfold Live.popTaken
  refine ⟨⟨{ decoding (ctx 0 0) aPop with latch := ⟨.holding 0 0x02000000 [7, 8] 1, .empty⟩ }, toRing_of (by decide),
      placed_of (by decide), ?_, rfl⟩,
    ⟨{ decoding (ctx 0 0) aPop with latch := ⟨.holding 7 0x02000000 [7, 8] 2, .empty⟩ }, toRing_of (by decide),
      placed_of (by decide), rfl, by decide⟩⟩
  intro p c h payload r e
  cases p
  · cases e
    decide
  · cases e

theorem test_pop_serves_the_latch :
    (after (exec (.pop .A) { decoding (ctx 0 0) aPop with latch := ⟨.holding 0 0x02000000 [7, 8] 2, .empty⟩ })).ifaces.a =
      .answering (.okRead [7, 8, 0xF1F1F1F1, 0xF1F1F1F1]) := by decide +kernel

theorem witness_PeekReadsTheNextHeader :
    (∃ s : State, s.ToRing .A (rd 0x100C00 .one) 0 .peek ∧ s.JobsPlaced ∧ s.ctxs[(0 : Fin 8)].ready = 0) ∧
    (∃ s : State, s.ToRing .A (rd 0x100DFC .one) 0 .peek ∧ s.JobsPlaced ∧ s.ctxs[(0 : Fin 8)].ready ≠ 0) ∧
    (∃ s : State, s.WantedUnit .A ⟨.peek, 0x2000, [allEnabled], [], true⟩ (rd 0x100C00 .one) (.ring 0 0 .peek) ∧
      s.JobsPlaced ∧ s.mem.wordGood 0x2000 allEnabled = true) ∧
    ∃ s : State, s.WantedUnit .A ⟨.peek, 0x2000, [allEnabled], [], true⟩ (rd 0x100C00 .one) (.ring 0 0 .peek) ∧
      s.JobsPlaced ∧ s.mem.wordGood 0x2000 allEnabled = false :=
  ⟨⟨decoding (ctx 0 0) (rd 0x100C00 .one), toRing_of (by decide), placed_of (by decide), by decide⟩,
    ⟨decoding (stocked 1 0) (rd 0x100DFC .one), toRing_of (by decide), placed_of (by decide), by decide⟩,
    ⟨working (ctx 0 0) ⟨.peek, 0x2000, [allEnabled], [], true⟩ (rd 0x100C00 .one) (.ring 0 0 .peek)
      (oneWord 0x2000 5), ⟨⟨rfl, rfl, rfl⟩, rfl, rfl⟩, placed_of (by decide), by decide⟩,
    ⟨working (ctx 0 0) ⟨.peek, 0x2000, [allEnabled], [], true⟩ (rd 0x100C00 .one) (.ring 0 0 .peek)
      (badByte 0x2000), ⟨⟨rfl, rfl, rfl⟩, rfl, rfl⟩, placed_of (by decide), by decide⟩⟩

theorem witness_StateReadAnswersTheQueueWord :
    ∃ s : State, s.ToRing .A (rd 0x100FFC .one) 0 .state ∧ s.JobsPlaced :=
  ⟨decoding (ctx 0 0) (rd 0x100FFC .one), toRing_of (by decide), placed_of (by decide)⟩

/-! ## The memory port -/

/-- A unit of port A waits on its path, with the memory idle; port B and the mirror writer have nothing. -/
def presenting : State := { world (ctx 0 0) with paths := ⟨some ⟨.read, 0, [0xF], [], true⟩, none⟩ }

/-- A presented SIGNAL_UPDATE of context 0. -/
def signalling : State := { world (ctx 0 0) with jobs := [⟨.signalUpdate 0, .presented, some (0x3000, 5)⟩] }

/-- The mirror writer's head item. -/
def mirroring (item : Item) : State := { world (ctx 0 0) with mirror := [item] }

/-- The distance claim of a grant, for a state where one requester alone presents a unit. -/
theorem alone {s : State} {r : Requester}
    (h : s.presents r = true ∧ ([Requester.portA, .portB, .engine, .mirror].all fun q => q == r || !s.presents q) = true) :
    ∀ q, s.presents q = true → Requester.distance s.pointer r ≤ Requester.distance s.pointer q := by
  intro q hq
  have := List.all_eq_true.mp h.2 q (by cases q <;> decide)
  rw [hq] at this
  simp only [Bool.not_true, Bool.or_false, beq_iff_eq] at this
  exact this ▸ Nat.le_refl _

theorem witness_ArbiterGrantsRoundRobin :
    (∃ s : State, s.inReset = false ∧ s.JobsPlaced ∧ ∀ r, s.presents r = false) ∧
    (∃ s : State, s.inReset = false ∧ s.JobsPlaced ∧ s.busy ≠ none) ∧
    (∀ s ∈ [presenting, { presenting with paths := ⟨none, presenting.paths.a⟩ },
        { world (ctx 0 0) with jobs := [⟨.entryWrite 0 0 0x2000 0 [] .A, .presented, none⟩] }, signalling,
        mirroring .configStatus],
      s.inReset = false ∧ s.busy = none ∧ ∃ r, s.presents r = true ∧
        ∀ q, s.presents q = true → Requester.distance s.pointer r ≤ Requester.distance s.pointer q) ∧
    (signalling.JobsPlaced ∧ signalling.winner = some .engine ∧
      signalling.jobPresented = some ⟨.signalUpdate 0, .presented, some (0x3000, 5)⟩) := by
  refine ⟨⟨world (ctx 0 0), rfl, placed_of (by decide), fun r => by cases r <;> decide⟩,
    ⟨{ world (ctx 0 0) with busy := some .job }, rfl, placed_of (by decide), by decide⟩, ?_,
    placed_of (by decide), by decide⟩
  intro s hs
  simp only [List.mem_cons, List.not_mem_nil, or_false] at hs
  rcases hs with rfl | rfl | rfl | rfl | rfl
  · exact ⟨rfl, rfl, .portA, by decide, alone (by decide)⟩
  · exact ⟨rfl, rfl, .portB, by decide, alone (by decide)⟩
  · exact ⟨rfl, rfl, .engine, by decide, alone (by decide)⟩
  · exact ⟨rfl, rfl, .engine, by decide, alone (by decide)⟩
  · exact ⟨rfl, rfl, .mirror, by decide, alone (by decide)⟩

theorem test_grant_of_a_signal_update_leaves_the_list :
    let t := after (exec .signalUpdateGrant signalling)
    t.jobs = [] ∧ t.busy = some (.signal 0 0x3000 5 false) ∧ t.pointer = .engine := by decide +kernel

theorem witness_MirrorItemsAreWritten :
    (∃ s : State, s.inReset = false ∧ s.JobsPlaced ∧ s.winner = some .mirror ∧ s.mirror = [.notice .B 7]) ∧
    (∃ s : State, s.inReset = false ∧ s.JobsPlaced ∧ s.winner = some .mirror ∧ s.mirror = [.context 7]) ∧
    ∃ s : State, s.inReset = false ∧ s.JobsPlaced ∧ s.busy = some (.mirror (.faultRecord .A) [1, 2]) :=
  ⟨⟨mirroring (.notice .B 7), rfl, placed_of (by decide), by decide⟩,
    ⟨mirroring (.context 7), rfl, placed_of (by decide), by decide⟩,
    ⟨{ world (ctx 0 0) with busy := some (.mirror (.faultRecord .A) [1, 2]) }, rfl, placed_of (by decide), rfl⟩⟩

/-- A valid record of each kind, with fields at the ends of their ranges, and port B's notices of context 7. -/
def recorded : State :=
  let s := world { ctx 1 0 with ready := 2, published := 0xFFFF, delivered := 1, rejected := 0x8000, seq := 0xFF }
  { s with
    configStatus := some ⟨.global, 0, .range, .B, 255⟩
    engineFault := some ⟨.signal, 7, 0xFFFFFC, 15⟩
    attn := s.attn.set .B { s.attn.b with
      pending := s.attn.b.pending.set 7 0x81
      record := some ⟨.withdrawn, .write, 3, 31, 0x3FFFFFC, 15⟩ } }

theorem witness_ItemWords :
    (∃ r, (recorded.attn.get .B).record = some r) ∧ (recorded.attn.get .A).record = none ∧
      (∃ r, recorded.configStatus = some r) ∧ (∃ r, recorded.engineFault = some r) ∧
      (world (ctx 0 0)).configStatus = none ∧ (world (ctx 0 0)).engineFault = none :=
  ⟨⟨_, rfl⟩, rfl, ⟨_, rfl⟩, ⟨_, rfl⟩, rfl, rfl⟩

/-- Section 8.7, each item's words written out. -/
theorem test_item_words :
    recorded.itemWords (.notice .B 7) = [0x81] ∧ recorded.itemWords (.faultRecord .A) = [0, 0] ∧
      recorded.itemWords (.faultRecord .B) = [0x800F1F79, 0x03FFFFFC] ∧
      recorded.itemWords .configStatus = [0x80001103, 0xFF] ∧
      recorded.itemWords .engineFault = [0x80000F71, 0x00FFFFFC] ∧
      recorded.itemWords (.context 0) = [0xC0000002, 0x0001FFFF, 0x80000000, 0x00FF0000] := by decide +kernel

/-- A context whose signal word is enabled: word at 3000h, bit 5. -/
def signalled : Ctx := { ctx 0 0 with applied := { ctxRecord 0 0 with w5 := 0x3000, w6 := 0x80000005 } }

theorem witness_JobPresentationTakesAnEligibleJob :
    (∃ s : State, s.inReset = false ∧ s.JobsPlaced ∧ s.jobPresented = none ∧ (∃ e ∈ s.jobs, e.phase = .waiting) ∧
      (∀ e ∈ s.jobs, ∀ c, e.job = .signalUpdate c → s.ctxs[c].applied.signalEnable = true) ∧
      ∃ e ∈ s.jobs, e.job = .signalUpdate 0) ∧
    ∃ s : State, s.inReset = false ∧ s.jobs = [⟨.signalUpdate 0, .waiting, none⟩] ∧
      s.ctxs[(0 : Fin 8)].applied.signalEnable = false :=
  ⟨⟨{ world signalled with
      jobs := [⟨.entryWrite 0 0 0x2000 0 [] .A, .waiting, none⟩, ⟨.entryCopy 0 0 0x2000 3 .B, .waiting, none⟩,
        ⟨.signalUpdate 0, .waiting, none⟩] }, rfl, placed_of (by decide), by decide, by decide, by decide, by decide⟩,
    ⟨{ world (ctx 0 0) with jobs := [⟨.signalUpdate 0, .waiting, none⟩] }, rfl, rfl, by decide⟩⟩

theorem test_preferred_port_is_presented_first :
    (after (exec (.jobPresentation .B) { world (ctx 0 0) with
      jobs := [⟨.entryWrite 0 0 0x2000 0 [] .A, .waiting, none⟩, ⟨.entryCopy 0 0 0x2000 3 .B, .waiting, none⟩] })).jobs =
      [⟨.entryWrite 0 0 0x2000 0 [] .A, .waiting, none⟩, ⟨.entryCopy 0 0 0x2000 3 .B, .presented, none⟩] := by
  decide +kernel

theorem witness_MemoryKeepsBytesAndParity :
    ∃ (bes : List Enables) (ws : List Word), bes.length = 8 ∧ bes[7]? = some 0x8 ∧ ws[7]? = some 5 :=
  ⟨List.replicate 8 0x8, List.replicate 8 5, by decide⟩

theorem test_parity_of_a_written_word :
    (oneWord 0x3000 0x01020304).bytes = [(0x3000, 4), (0x3001, 3), (0x3002, 2), (0x3003, 1)] ∧
      (oneWord 0x3000 0x01020304).parity = [(0x3000, false), (0x3001, true), (0x3002, false), (0x3003, false)] ∧
      (badByte 0x3000).byteGood 0x3000 = false := by decide +kernel

/-- A read unit of one word at 3000h. -/
def oneRead (k : UnitWork) : PathUnit := ⟨k, 0x3000, [0xF], [], true⟩

/-- A READCLEAR read by port A of `n` words from an offset of the control block. -/
def noticeRead (offset n : Nat) (m : Memory) : State :=
  { working (ctx 0 0) ⟨.cbRead, offset, List.replicate n 0xF, [], true⟩ (rd offset .one) .cb m with
    globalWord := 0x01001903
    attn := ⟨{ PortAttn.clear with pending := Vector.replicate 8 3, shown := Vector.replicate 8 1 }, PortAttn.clear⟩ }

theorem placed_noticeRead {offset n : Nat} {m : Memory} : (noticeRead offset n m).JobsPlaced :=
  show (world (ctx 0 0)).JobsPlaced from placed_of (by decide)

theorem wanted_noticeRead {offset n : Nat} {m : Memory} :
    (noticeRead offset n m).WantedUnit .A ⟨.cbRead, offset, List.replicate n 0xF, [], true⟩ (rd offset .one) .cb :=
  ⟨⟨rfl, rfl, rfl⟩, rfl, rfl⟩

theorem witness_PortReadCompletes :
    (∃ s : State, s.WantedUnit .A (oneRead .read) (rd 0x3000 .one) .pass ∧ s.JobsPlaced ∧
      s.mem.burstGood 0x3000 [0xF] = true) ∧
    (∃ s : State, s.WantedUnit .A (oneRead .cbRead) (rd 0x3000 .one) .cb ∧ s.JobsPlaced ∧
      readClear s.globalWord = false ∧ s.mem.burstGood 0x3000 [0xF] = true) ∧
    ∃ s : State, s.WantedUnit .A (oneRead .read) (rd 0x3000 .one) .pass ∧ s.JobsPlaced ∧
      s.mem.burstGood 0x3000 [0xF] = false :=
  ⟨⟨working (ctx 0 0) (oneRead .read) (rd 0x3000 .one) .pass (oneWord 0x3000 5), ⟨⟨rfl, rfl, rfl⟩, rfl, rfl⟩,
      placed_of (by decide), by decide⟩,
    ⟨working (ctx 0 0) (oneRead .cbRead) (rd 0x3000 .one) .cb (oneWord 0x3000 5), ⟨⟨rfl, rfl, rfl⟩, rfl, rfl⟩,
      placed_of (by decide), by decide⟩,
    ⟨working (ctx 0 0) (oneRead .read) (rd 0x3000 .one) .pass (badByte 0x3000), ⟨⟨rfl, rfl, rfl⟩, rfl, rfl⟩,
      placed_of (by decide), by decide⟩⟩

/-- Under READCLEAR: the word before the port's notice words, the one after them, the other port's first one, and one
whose byte fails. -/
theorem witness_PortReadUnderReadclear :
    (∀ offset ∈ [0x800, 0x824, 0x844], ∃ s : State,
      s.WantedUnit .A ⟨.cbRead, offset, List.replicate 1 0xF, [], true⟩ (rd offset .one) .cb ∧ s.JobsPlaced ∧
        readClear s.globalWord = true ∧ s.cbBase ≤ offset ∧ offset % 4 = 0 ∧
        (∀ m < (List.replicate 1 (0xF : Enables)).length, ∀ c : Fin 8,
          offset + 4 * m ≠ s.cbBase + (Item.notice .A c).offset) ∧
        s.mem.burstGood offset (List.replicate 1 0xF) = true) ∧
    ∃ s : State, s.WantedUnit .A ⟨.cbRead, 0x804, List.replicate 1 0xF, [], true⟩ (rd 0x804 .one) .cb ∧
      s.JobsPlaced ∧ readClear s.globalWord = true ∧ s.mem.burstGood 0x804 (List.replicate 1 0xF) = false := by
  refine ⟨?_, ⟨noticeRead 0x804 1 (badByte 0x804), wanted_noticeRead, placed_noticeRead, by decide⟩⟩
  intro offset h
  simp only [List.mem_cons, List.not_mem_nil, or_false] at h
  rcases h with rfl | rfl | rfl
  · exact ⟨noticeRead 0x800 1 (oneWord 0x800 5), wanted_noticeRead, placed_noticeRead, by decide⟩
  · exact ⟨noticeRead 0x824 1 (oneWord 0x824 5), wanted_noticeRead, placed_noticeRead, by decide⟩
  · exact ⟨noticeRead 0x844 1 (oneWord 0x844 5), wanted_noticeRead, placed_noticeRead, by decide⟩

/-- The unit of a port that was reset, with nothing in HELD and with a transfer that waits for the path. -/
theorem witness_DroppedPortReadCompletes :
    ∀ k ∈ [UnitWork.read, .cbRead],
      (∃ s : State, s.PortUnit .A { oneRead k with wanted := false } ∧ s.JobsPlaced ∧
        ∀ t d v, s.ifaces.get .A ≠ .held t d (some v)) ∧
      ∃ s : State, s.PortUnit .A { oneRead k with wanted := false } ∧ s.JobsPlaced ∧
        s.ifaces.get .A = .held (rd 0x3000 .one) .pass (some (oneRead .read)) :=
  fun k _ =>
    have placed : (world (ctx 0 0)).JobsPlaced := placed_of (by decide)
    ⟨⟨{ working (ctx 0 0) { oneRead k with wanted := false } (rd 0 .one) .pass ⟨[], []⟩ with ifaces := ⟨.idle, .idle⟩ },
        ⟨rfl, rfl, rfl⟩, placed, fun _ _ _ => nofun⟩,
      ⟨{ working (ctx 0 0) { oneRead k with wanted := false } (rd 0 .one) .pass ⟨[], []⟩ with
          ifaces := ⟨.held (rd 0x3000 .one) .pass (some (oneRead .read)), .idle⟩ },
        ⟨rfl, rfl, rfl⟩, placed, rfl⟩⟩

theorem test_port_read_answers_the_word :
    (after (exec .portReadCompletion (working (ctx 0 0) (oneRead .read) (rd 0x3000 .one) .pass
      (oneWord 0x3000 0x01020304)))).ifaces.a = .answering (.okRead [0x01020304]) := by decide +kernel

/-- A write unit of two words at 3000h, wanted or not. -/
def twoWrites (wanted : Bool) : PathUnit := ⟨.write, 0x3000, [0xF, 0x1], [5, 6], wanted⟩

theorem witness_PortWriteCompletes :
    (∃ s : State, s.WantedUnit .A (twoWrites true) (wr 0x3000 .two [5, 6]) .pass ∧ s.JobsPlaced) ∧
    (∃ s : State, s.PortUnit .A (twoWrites false) ∧ s.JobsPlaced ∧
      ∀ t d v, s.ifaces.get .A ≠ .held t d (some v)) ∧
    ∃ s : State, s.PortUnit .A (twoWrites false) ∧ s.JobsPlaced ∧
      s.ifaces.get .A = .held (rd 0x3000 .one) .pass (some (oneRead .read)) :=
  ⟨⟨working (ctx 0 0) (twoWrites true) (wr 0x3000 .two [5, 6]) .pass ⟨[], []⟩, ⟨⟨rfl, rfl, rfl⟩, rfl, rfl⟩,
      placed_of (by decide)⟩,
    ⟨{ working (ctx 0 0) (twoWrites false) (rd 0 .one) .pass ⟨[], []⟩ with ifaces := ⟨.idle, .idle⟩ }, ⟨rfl, rfl, rfl⟩,
      placed_of (by decide), fun _ _ _ => nofun⟩,
    ⟨{ working (ctx 0 0) (twoWrites false) (rd 0 .one) .pass ⟨[], []⟩ with
      ifaces := ⟨.held (rd 0x3000 .one) .pass (some (oneRead .read)), .idle⟩ }, ⟨rfl, rfl, rfl⟩,
      placed_of (by decide), rfl⟩⟩

theorem witness_NoticeReadsClearUnderReadclear :
    (∃ s : State, s.WantedUnit .A ⟨.cbRead, 0x804, List.replicate 1 0xF, [], true⟩ (rd 0x804 .one) .cb ∧
      readClear s.globalWord = true ∧ s.mem.burstGood 0x804 (List.replicate 1 0xF) = true ∧
      0x804 = s.cbBase + (Item.notice .A 0).offset) ∧
    ∃ s : State, s.WantedUnit .A ⟨.cbRead, 0x81C, List.replicate 2 0xF, [], true⟩ (rd 0x81C .one) .cb ∧
      readClear s.globalWord = true ∧ s.mem.burstGood 0x81C (List.replicate 2 0xF) = true ∧
      0x81C + 4 * 1 = s.cbBase + (Item.notice .A 7).offset :=
  ⟨⟨noticeRead 0x804 1 (oneWord 0x804 3), ⟨⟨rfl, rfl, rfl⟩, rfl, rfl⟩, by decide⟩,
    ⟨noticeRead 0x81C 2 ((oneWord 0x81C 0).writeWord 0x820 0xF 3), ⟨⟨rfl, rfl, rfl⟩, rfl, rfl⟩, by decide⟩⟩

/-- Nothing is cleared where a byte fails, nor for a port that was reset; either row names the event of a clear. -/
theorem witness_NoticeReadsThatClearNothing :
    (∃ s : State, s.PortUnit .A ⟨.cbRead, 0x804, [0xF], [], true⟩ ∧ s.mem.burstGood 0x804 [0xF] = false) ∧
    ∃ s : State, s.PortUnit .A ⟨.cbRead, 0x804, [0xF], [], false⟩ ∧ s.mem.burstGood 0x804 [0xF] = true :=
  ⟨⟨noticeRead 0x804 1 (badByte 0x804), ⟨rfl, rfl, rfl⟩, by decide⟩,
    ⟨{ noticeRead 0x804 1 (oneWord 0x804 3) with paths := ⟨some ⟨.cbRead, 0x804, [0xF], [], false⟩, none⟩ },
      ⟨rfl, rfl, rfl⟩, by decide⟩⟩

theorem test_readclear_clears_what_was_shown :
    ((after (exec .noticeWordReadClear (noticeRead 0x804 1 (oneWord 0x804 3)))).attn.a).pending[0] = 2 := by
  decide +kernel

/-! ## Completions of the queue engine -/

/-- Port A's PUSH_LAST waits in HELD while its entry is written in slot 0 of context 0. -/
def writingEntry (run : List WritingSlot) (w0 : Word) : State :=
  { performing { ctx w0 0 with writingRun := run, tail := run.length % 2, depth := run.length }
      (.entryWrite 0 0 0x2000 0x01000000 [7] .A) ⟨[], []⟩ with
    assembly := ⟨.committing 0 1 0 [] true, .empty⟩
    ifaces := ⟨.held lastPush (.ring 0 0 .pushLast) none, .idle⟩ }

/-- The same with port B's entry written behind it in slot 1, whose producer waits too or was reset. -/
def twoWritten (waits : Bool) : State :=
  let s := writingEntry [⟨0, .A, 9, false⟩, ⟨1, .B, 9, true⟩] 0
  if waits then
    { s with
      assembly := ⟨s.assembly.a, .committing 0 2 0 [] true⟩
      ifaces := ⟨s.ifaces.a, .held lastPush (.ring 0 0 .pushLast) none⟩ }
  else s

theorem witness_EntryWriteCompletionPublishes :
    (∀ w0 ∈ [(0 : Word), 1], ∃ s : State, s.JobUnit (.entryWrite 0 0 0x2000 0x01000000 [7] .A) [] ∧
      s.ctxs[(0 : Fin 8)].writingRun = [⟨0, .A, 9, false⟩] ∧ s.ctxs[(0 : Fin 8)].held = [] ∧
      s.ctxs[(0 : Fin 8)].pendingFlush = false ∧ s.findHeld .A = none ∧
      s.assembly.get .A = .committing 0 1 0 [] true ∧
      s.ifaces.get .A = .held lastPush (.ring 0 0 .pushLast) none) ∧
    (∃ s : State, s.JobUnit (.entryWrite 0 0 0x2000 0x01000000 [7] .A) [] ∧
      s.ctxs[(0 : Fin 8)].writingRun = [⟨1, .B, 9, false⟩, ⟨0, .A, 9, false⟩]) ∧
    ∀ waits ∈ [true, false], ∃ s : State, s.JobUnit (.entryWrite 0 0 0x2000 0x01000000 [7] .A) [] ∧
      s.ctxs[(0 : Fin 8)].writingRun = [⟨0, .A, 9, false⟩, ⟨1, .B, 9, true⟩] ∧ s.ctxs[(0 : Fin 8)].held = [] ∧
      s.ctxs[(0 : Fin 8)].applied.isLifo = false ∧ s.findHeld .A = none ∧ s.findHeld .B = none ∧
      s.assembly.get .A = .committing 0 1 0 [] true ∧
      s.ifaces.get .A = .held lastPush (.ring 0 0 .pushLast) none ∧
      s.assembly.get .B = (if waits then .committing 0 2 0 [] true else .empty) ∧
      (waits = true → s.ifaces.get .B = .held lastPush (.ring 0 0 .pushLast) none) := by
  refine ⟨?_, ⟨writingEntry [⟨1, .B, 9, false⟩, ⟨0, .A, 9, false⟩] 0, ⟨rfl, rfl, rfl, rfl⟩, by decide⟩,
    fun waits _ => ⟨twoWritten waits, ?_⟩⟩
  case refine_2 =>
    cases waits <;> exact ⟨⟨rfl, rfl, rfl, rfl⟩, by decide⟩
  intro w0 hw
  simp only [List.mem_cons, List.not_mem_nil, or_false] at hw
  rcases hw with rfl | rfl
  · exact ⟨writingEntry [⟨0, .A, 9, false⟩] 0, ⟨rfl, rfl, rfl, rfl⟩, by decide⟩
  · exact ⟨writingEntry [⟨0, .A, 9, false⟩] 1, ⟨rfl, rfl, rfl, rfl⟩, by decide⟩

/-- A context that has one slot WRITING for port A, and context 7 as given. -/
def publishing (w0 : Word) (flush : Bool) (y : Ctx) : State :=
  let s := writingEntry [⟨0, .A, 9, false⟩] w0
  { s with ctxs := (s.ctxs.set 0 { s.ctxs[0] with pendingFlush := flush }).set 7 y }

theorem witness_PublicationServesHeldWork :
    (∀ w0 ∈ [(0 : Word), 1],
      let s := holdingAt (publishing w0 false Ctx.reset) [otherPop]
      s.JobUnit (.entryWrite 0 0 0x2000 0x01000000 [7] .A) [] ∧
        s.ctxs[(0 : Fin 8)].writingRun = [⟨0, .A, 9, false⟩] ∧ s.ctxs[(0 : Fin 8)].pendingFlush = false ∧
        s.ctxs[(0 : Fin 8)].inCopy = 0 ∧ s.ctxs[(0 : Fin 8)].held = [otherPop] ∧ s.findHeld .A = none ∧
        s.assembly.get .A = .committing 0 1 0 [] true ∧ s.ifaces.get .A = .held lastPush (.ring 0 0 .pushLast) none) ∧
    (∃ (s : State) (k : HeldCommit), s.JobUnit (.entryWrite 0 0 0x2000 0x01000000 [7] .A) [] ∧
      s.ctxs[(0 : Fin 8)].writingRun = [⟨0, .A, 9, false⟩] ∧ s.ctxs[(0 : Fin 8)].held = [] ∧
      s.ctxs[(0 : Fin 8)].pendingFlush = false ∧ s.findHeld .A = some 7 ∧ s.ctxs[(7 : Fin 8)].held = [.commit k] ∧
      k.port = .A ∧ s.assembly.get .A = .committing 7 k.length k.level [5] false ∧
      (∀ d : Fin 8, d ≠ 0 → ∀ o ∈ s.ctxs[d].writingRun, o.port ≠ .A) ∧ s.ctxs[(7 : Fin 8)].applied.isLifo = false ∧
      s.ctxs[(7 : Fin 8)].occupied + 1 = s.ctxs[(7 : Fin 8)].applied.capacity) ∧
    ∃ s : State, s.JobUnit (.entryWrite 0 0 0x2000 0x01000000 [7] .A) [] ∧
      s.ctxs[(0 : Fin 8)].writingRun = [⟨0, .A, 9, false⟩] ∧ s.ctxs[(0 : Fin 8)].applied.isLifo = true ∧
      s.ctxs[(0 : Fin 8)].held = [] ∧ s.ctxs[(0 : Fin 8)].pendingFlush = true ∧ s.findHeld .A = none ∧
      s.assembly.get .A = .committing 0 1 0 [] true ∧
      s.ifaces.get .A = .held lastPush (.ring 0 0 .pushLast) none := by
  refine ⟨?_, ⟨{ publishing 0 false { stocked 1 0 with held := [.commit ⟨.A, 1, 0, none, false⟩] } with
      assembly := ⟨.committing 7 1 0 [5] false, .empty⟩ }, ⟨.A, 1, 0, none, false⟩, ⟨rfl, rfl, rfl, rfl⟩, by decide⟩,
    ⟨publishing 1 true Ctx.reset, ⟨rfl, rfl, rfl, rfl⟩, by decide⟩⟩
  intro w0 hw
  simp only [List.mem_cons, List.not_mem_nil, or_false] at hw
  rcases hw with rfl | rfl <;> exact ⟨⟨rfl, rfl, rfl, rfl⟩, by decide⟩

theorem test_entry_write_publishes_and_answers :
    let t := after (exec .entryWriteCompletion (writingEntry [⟨0, .A, 9, false⟩] 0))
    t.ctxs[0].ready = 1 ∧ t.ctxs[0].published = 1 ∧ t.ifaces.a = .answering .okWrite ∧
      t.mem.readWord 0x2004 0xF = 7 := by decide +kernel

theorem test_two_publications_answer_both_producers :
    let t := after (exec .entryWriteCompletion (twoWritten true))
    t.ctxs[0].ready = 2 ∧ t.ctxs[0].published = 2 ∧ t.ctxs[0].writingRun = [] ∧ t.assembly = ⟨.empty, .empty⟩ ∧
      t.ifaces = ⟨.answering .okWrite, .answering .okWrite⟩ := by decide +kernel

/-- An entry of one payload word at 2000h, its payload byte sound or not. -/
def entryMemory (good : Bool) : Memory :=
  let m := (oneWord 0x2000 0x01000000).writeWord 0x2004 0xF 7
  if good then m else { m with parity := [(0x2000, true), (0x2001, true), (0x2002, true), (0x2003, false),
    (0x2004, true), (0x2005, true), (0x2006, true), (0x2007, true)] }

/-- The copy of port A completes with the held run, the ready count and the held list given: wanted, withdrawn, or
dropped by a reset of the port. -/
def copiedFor (latch : Latch) (drop : Bool) (run : List HeldSlot) (w0 : Word) (n : Nat) (items : List HeldItem)
    (m : Memory) : State :=
  { performing { ctx w0 0 with ready := n, heldRun := run, head := run.length % 2, depth := n + 1, held := items }
      (.entryCopy 0 0 0x2000 3 .A) m with
    latch := ⟨latch, .empty⟩
    dropped := ⟨drop, false⟩
    ifaces := ⟨.held aPop (.ring 0 0 .pop) none, .idle⟩ }

/-- The two forms of a held run in which port A's copy completes, and a LIFO stack. -/
theorem witness_CopySpent :
    (∀ w0 ∈ [(0 : Word), 1], ∀ more ∈ [[], [HeldSlot.spent], [.copying .B]],
      ∃ y, Ctx.copySpent { ctx w0 0 with heldRun := .copying .A :: more } .A y) ∧
    ∃ y, Ctx.copySpent { ctx 0 0 with heldRun := [.copying .B, .copying .A, .spent] } .A y :=
  ⟨fun _ _ more _ => ⟨_, .inl ⟨more, rfl, rfl⟩⟩,
    ⟨_, .inr ⟨.B, [], [.spent], rfl, by decide, rfl, by decide, rfl⟩⟩⟩

theorem witness_EntryCopyCompletes :
    (∀ m ∈ [entryMemory true, entryMemory false, badByte 0x2000], ∀ w0 ∈ [(0 : Word), 1],
      ∀ x ∈ [(Latch.filling 0 0 .four false, false), (.filling 0 0 .four true, false), (.empty, true)],
      let s := copiedFor x.1 x.2 [.copying .A] w0 0 [] m
      s.JobUnit (.entryCopy 0 0 0x2000 3 .A) [] ∧ s.ctxs[(0 : Fin 8)].heldRun = [.copying .A] ∧
        s.ctxs[(0 : Fin 8)].held = [] ∧ s.ctxs[(0 : Fin 8)].pendingFlush = false ∧ s.findHeld .A = none ∧
        s.dropped.get .A = x.2 ∧ s.latch.get .A = x.1 ∧ s.ifaces.get .A = .held aPop (.ring 0 0 .pop) none) ∧
    (copiedFor (.filling 0 0 .four false) false [.copying .B, .copying .A] 0 0 [] ⟨[], []⟩).findHeld .A = none ∧
    (entryMemory true).readEntry 0x2000 3 = .passed 0x01000000 [7] true ∧
    (entryMemory false).readEntry 0x2000 3 = .passed 0x01000000 [7] false ∧
    (badByte 0x2000).readEntry 0x2000 3 = .headerFailed := by
  refine ⟨?_, by decide, by decide +kernel, by decide +kernel, by decide +kernel⟩
  intro m _ w0 hw x hx
  simp only [List.mem_cons, List.not_mem_nil, or_false] at hw hx
  rcases hw with rfl | rfl <;> rcases hx with rfl | rfl | rfl <;>
    exact ⟨⟨rfl, rfl, rfl, rfl⟩, rfl, rfl, rfl, rfl, rfl, rfl, rfl⟩

/-- However a copy ends there is a state that it leaves: dropped, withdrawn, delivered. -/
theorem witness_CopyEndsAtPort (r : CopyRead) (w0 : Word) (items : List HeldItem) (m : Memory) (done : State) :
    ∀ x ∈ [(Latch.filling 0 0 .four false, false), (.filling 0 0 .four true, false), (.empty, true)],
      ∃ port, (copiedFor x.1 x.2 [.copying .A] w0 1 items m).CopyEndsAtPort 0 0 .A r done port := by
  intro x hx
  simp only [List.mem_cons, List.not_mem_nil, or_false] at hx
  rcases hx with rfl | rfl | rfl
  · exact ⟨_, .inr ⟨aPop, .ring 0 0 .pop, .four, false, rfl, rfl, rfl, rfl⟩⟩
  · exact ⟨_, .inr ⟨aPop, .ring 0 0 .pop, .four, true, rfl, rfl, rfl, rfl⟩⟩
  · exact ⟨_, .inl ⟨rfl, rfl⟩⟩

theorem witness_CopyServesHeldWork :
    (∀ w0 ∈ [(0 : Word), 1], ∀ x ∈ [(Latch.filling 0 0 .four false, false), (.filling 0 0 .four true, false),
      (.empty, true)],
      let s := committingB (copiedFor x.1 x.2 [.copying .A] w0 1 [otherCommit] (entryMemory true))
      s.JobUnit (.entryCopy 0 0 0x2000 3 .A) [] ∧ s.ctxs[(0 : Fin 8)].held = [otherCommit] ∧
        s.ctxs[(0 : Fin 8)].pendingFlush = false ∧ s.ctxs[(0 : Fin 8)].writing = 0 ∧
        s.assembly.get .B = .committing 0 1 0 [7] false ∧ s.portWriting .B = false ∧ s.findHeld .A = none ∧
        s.ctxs[(0 : Fin 8)].occupied = s.ctxs[(0 : Fin 8)].applied.capacity ∧
        ∃ y, s.ctxs[(0 : Fin 8)].copySpent .A y ∧ y.inCopy = 0 ∧ y.occupied < s.ctxs[(0 : Fin 8)].occupied) ∧
    ∀ w0 ∈ [(0 : Word), 1],
      let s := copiedFor (.waiting 0) true [.copying .A] w0 1 [.pop ⟨.A, .four, some 5⟩] (badByte 0x2000)
      s.JobUnit (.entryCopy 0 0 0x2000 3 .A) [] ∧ s.ctxs[(0 : Fin 8)].held = [.pop ⟨.A, .four, some 5⟩] ∧
        s.ctxs[(0 : Fin 8)].pendingFlush = false ∧ s.ctxs[(0 : Fin 8)].writing = 0 ∧ s.dropped.get .A = true ∧
        s.findHeld .A = some 0 ∧ (∀ d : Fin 8, d ≠ 0 → s.ctxs[d].holds .A = false) ∧ s.ctxs[(0 : Fin 8)].ready = 1 ∧
        ∃ y, s.ctxs[(0 : Fin 8)].copySpent .A y ∧ y.inCopy = 0 := by
  constructor <;> intro w0 hw <;> simp only [List.mem_cons, List.not_mem_nil, or_false] at hw
  · intro x hx
    simp only [List.mem_cons, List.not_mem_nil, or_false] at hx
    rcases hw with rfl | rfl <;> rcases hx with rfl | rfl | rfl <;>
      exact ⟨⟨rfl, rfl, rfl, rfl⟩, by decide, by decide, by decide, by decide, by decide, by decide, by decide, _,
        .inl ⟨[], rfl, rfl⟩, by decide⟩
  · rcases hw with rfl | rfl <;>
      exact ⟨⟨rfl, rfl, rfl, rfl⟩, by decide, by decide, by decide, by decide, by decide, by decide, by decide, _,
        .inl ⟨[], rfl, rfl⟩, by decide⟩

theorem test_entry_copy_delivers :
    let t := after (exec .entryCopyCompletion 
      (copiedFor (.filling 0 0 .four false) false [.copying .A, .spent] 0 0 [] (entryMemory true)))
    t.ifaces.a = .answering (.okRead [0x01000000, 7, 0xF1F1F1F1, 0xF1F1F1F1]) ∧ t.latch.a = .empty ∧
      t.ctxs[0].delivered = 1 ∧ t.ctxs[0].heldRun = [] ∧ t.ctxs[0].release = 0 := by decide +kernel

/-- A delivered copy frees a slot of the full context, FIFO or LIFO, and port B's held commit reserves it. -/
theorem test_delivered_copy_serves_the_held_commit :
    let t := fun w0 => after (exec .entryCopyCompletion
      (committingB (copiedFor (.filling 0 0 .four false) false [.copying .A] w0 1 [otherCommit] (entryMemory true))))
    (t 0).ctxs[0].writing = 1 ∧ (t 0).ctxs[0].held = [] ∧ (t 0).ifaces.a.ackLine = true ∧
      (t 0).assembly.b = .committing 0 1 0 [] true ∧ (t 1).ctxs[0].writing = 1 ∧ (t 1).ctxs[0].depth = 2 := by
  decide +kernel

theorem test_withdrawn_copy_is_cut :
    let t := after (exec .entryCopyCompletion
      (copiedFor (.filling 0 0 .four true) false [.copying .B, .copying .A] 0 0 [] (entryMemory true)))
    t.ifaces.a = .answering (.error .withdrawn 4) ∧ t.latch.a = .empty ∧ t.ctxs[0].delivered = 1 ∧
      t.ctxs[0].heldRun = [.copying .B, .spent] ∧ (t.attn.get .B).pending[0] = 0x10 := by decide +kernel

/-- A STAMP_FETCH of context 0 in progress, current or overtaken. -/
def fetching (current : Bool) (m : Memory) : State :=
  performing { stocked 1 0 with cache := { StampCache.reset with fetchCurrent := current } } (.stampFetch 0 0 0x2000) m

theorem witness_StampFetchCompletes :
    (∃ s : State, s.JobUnit (.stampFetch 0 0 0x2000) [] ∧ s.ctxs[(0 : Fin 8)].cache.fetchCurrent = true ∧
      s.mem.wordGood 0x2000 allEnabled = true) ∧
    (∃ s : State, s.JobUnit (.stampFetch 0 0 0x2000) [] ∧ s.ctxs[(0 : Fin 8)].cache.fetchCurrent = true ∧
      s.mem.wordGood 0x2000 allEnabled = false) ∧
    ∃ s : State, s.JobUnit (.stampFetch 0 0 0x2000) [] ∧ s.ctxs[(0 : Fin 8)].cache.fetchCurrent = false :=
  ⟨⟨fetching true (oneWord 0x2000 5), ⟨rfl, rfl, rfl, rfl⟩, by decide⟩,
    ⟨fetching true (badByte 0x2000), ⟨rfl, rfl, rfl, rfl⟩, by decide⟩,
    ⟨fetching false ⟨[], []⟩, ⟨rfl, rfl, rfl, rfl⟩, by decide⟩⟩

/-- A granted SIGNAL_UPDATE of bit 31 of the word at 3000h. -/
def updating (m : Memory) (r : Option EngineFault) : State :=
  { world (ctx 0 0) with busy := some (.signal 0 0x3000 31 true), mem := m, engineFault := r }

theorem witness_SignalUpdateCompletes :
    (∃ s : State, s.inReset = false ∧ s.JobsPlaced ∧ s.busy = some (.signal 0 0x3000 31 true) ∧
      s.mem.wordGood 0x3000 allEnabled = true) ∧
    (∃ s : State, s.inReset = false ∧ s.JobsPlaced ∧ s.busy = some (.signal 0 0x3000 31 true) ∧
      s.mem.wordGood 0x3000 allEnabled = false ∧ s.engineFault = none) ∧
    ∃ s : State, s.inReset = false ∧ s.JobsPlaced ∧ s.busy = some (.signal 0 0x3000 31 true) ∧
      s.mem.wordGood 0x3000 allEnabled = false ∧ s.engineFault = some ⟨.stamp, 7, 0, 15⟩ :=
  ⟨⟨updating (oneWord 0x3000 5) none, rfl, placed_of (by decide), rfl, by decide⟩,
    ⟨updating (badByte 0x3000) none, rfl, placed_of (by decide), rfl, by decide⟩,
    ⟨updating (badByte 0x3000) (some ⟨.stamp, 7, 0, 15⟩), rfl, placed_of (by decide), rfl, by decide⟩⟩

theorem test_signal_update_sets_the_bit :
    (after (exec .signalUpdateCompletion (updating (oneWord 0x3000 5) none))).mem.readWord 0x3000 0xF = 0x80000005 := by
  decide +kernel

/-! ## BITFIELD units -/

/-- A BITFIELD unit of one word at 6000h at a level, of port A. -/
def bitUnit (op : BitOp) (level : Level) (data : List Word) : PathUnit :=
  ⟨.bitfield op level 0x0000FF00 0x12345678, 0x6000, [0xF], data, true⟩

/-- Such a unit in progress. -/
def bitfielding (op : BitOp) (level : Level) (data : List Word) (m : Memory) : State :=
  working (ctx 0 0) (bitUnit op level data) (rd 0x300000 .one) (.bitfield 2 .q0 0x6000 0x0000FF00 0x12345678) m

theorem witness_BitfieldOperationsActOnOpenBits :
    (∃ i : Nat, i < 32 ∧ i / 8 = 3) ∧
    ∃ u : PathUnit, u.work = .bitfield .toggle 3 0xFFFFFFFF 0 ∧ (3 : Level) ≠ 0 ∧ u.enables.length = 8 ∧
      7 < u.enables.length ∧ u.enables[7]? = some 0x1 :=
  ⟨⟨31, by decide⟩, ⟨⟨.bitfield .toggle 3 0xFFFFFFFF 0, 0x6000, List.replicate 8 0x1, List.replicate 8 1, true⟩, rfl,
    by decide⟩⟩

theorem witness_BitfieldWritesComplete :
    (∀ x ∈ [(BitOp.plainWrite, (1 : Level), true), (.set, 0, true), (.clear, 0, true), (.toggle, 3, true),
        (.set, 0, false)],
      ∃ s : State, s.WantedUnit .A (bitUnit x.1 x.2.1 [1]) (rd 0x300000 .one)
          (.bitfield 2 .q0 0x6000 0x0000FF00 0x12345678) ∧ s.JobsPlaced ∧
        (bitUnit x.1 x.2.1 [1]).data.length = (bitUnit x.1 x.2.1 [1]).enables.length ∧
        s.mem.burstGood 0x6000 [0xF] = x.2.2) ∧
    ∃ s : State, s.WantedUnit .A (bitUnit .plainWrite 0 [1]) (rd 0x300000 .one)
      (.bitfield 2 .q0 0x6000 0x0000FF00 0x12345678) ∧ s.JobsPlaced ∧ s.mem.burstGood 0x6000 [0xF] = false := by
  refine ⟨?_, ⟨bitfielding .plainWrite 0 [1] (badByte 0x6000), ⟨⟨rfl, rfl, rfl⟩, rfl, rfl⟩, placed_of (by decide),
    by decide⟩⟩
  intro x hx
  simp only [List.mem_cons, List.not_mem_nil, or_false] at hx
  rcases hx with rfl | rfl | rfl | rfl | rfl
  · exact ⟨bitfielding .plainWrite 1 [1] (oneWord 0x6000 5), ⟨⟨rfl, rfl, rfl⟩, rfl, rfl⟩, placed_of (by decide), rfl,
      by decide⟩
  · exact ⟨bitfielding .set 0 [1] (oneWord 0x6000 5), ⟨⟨rfl, rfl, rfl⟩, rfl, rfl⟩, placed_of (by decide), rfl, by decide⟩
  · exact ⟨bitfielding .clear 0 [1] (oneWord 0x6000 5), ⟨⟨rfl, rfl, rfl⟩, rfl, rfl⟩, placed_of (by decide), rfl,
      by decide⟩
  · exact ⟨bitfielding .toggle 3 [1] (oneWord 0x6000 5), ⟨⟨rfl, rfl, rfl⟩, rfl, rfl⟩, placed_of (by decide), rfl,
      by decide⟩
  · exact ⟨bitfielding .set 0 [1] (badByte 0x6000), ⟨⟨rfl, rfl, rfl⟩, rfl, rfl⟩, placed_of (by decide), rfl, by decide⟩

/-- Any unit of port A that the port's reset left on the path, in progress, with the port's interface as given. -/
def droppedUnit (u : PathUnit) (m : Memory) (i : Iface) : State :=
  { working (ctx 0 0) { u with wanted := false } (rd 0 .one) .pass m with ifaces := ⟨i, .idle⟩ }

/-- For the dropped PEEK and BITFIELD units, with any memory and with or without a transfer that waits for the path. -/
theorem witness_DroppedUnits (u : PathUnit) (m : Memory) (i : Iface) :
    (droppedUnit u m i).PortUnit .A { u with wanted := false } ∧ (droppedUnit u m i).JobsPlaced ∧
      (droppedUnit u m i).mem = m ∧ (droppedUnit u m i).ifaces.get .A = i :=
  ⟨⟨rfl, rfl, rfl⟩, show (world (ctx 0 0)).JobsPlaced from placed_of (by decide), rfl, rfl⟩

/-- R118, R163: a dropped fetch-and-clear clears its open bits, and the transfer that waits is handed down. -/
theorem test_dropped_fetch_and_clear :
    let t := after (exec .fetchAndClear (droppedUnit (bitUnit .fetchClear 1 []) (oneWord 0x6000 0x0000A5A5)
      (.held (rd 0x3000 .one) .pass (some (oneRead .read)))))
    t.mem.readWord 0x6000 0xF = 0x0000A500 ∧ t.ifaces.a = .held (rd 0x3000 .one) .pass none ∧
      t.paths.a = some (oneRead .read) ∧ t.busy = none := by decide +kernel

/-- R73: the word of a dropped PEEK is discarded, and no fault is recorded. -/
theorem test_dropped_peek :
    let t := after (exec .peekReadCompletion
      (droppedUnit ⟨.peek, 0x2000, [allEnabled], [], true⟩ (badByte 0x2000) .idle))
    t.ifaces.a = .idle ∧ t.paths.a = none ∧ t.attn.a.record = none := by decide +kernel

theorem test_toggle_keeps_protected_bits :
    (after (exec .toggle (bitfielding .toggle 1 [0x0000FFFF] (oneWord 0x6000 0x00005555)))).mem.readWord 0x6000 0xF =
      0x000055AA := by decide +kernel

theorem test_set_and_clear :
    (after (exec .set (bitfielding .set 1 [0x00000F0F] (oneWord 0x6000 0x10)))).mem.readWord 0x6000 0xF = 0x1F ∧
      (after (exec .clear (bitfielding .clear 0 [0x00000F0F] (oneWord 0x6000 0xF1F)))).mem.readWord 0x6000 0xF = 0x10 :=
  by decide +kernel

theorem placed_bitfielding {op : BitOp} {level : Level} {data : List Word} {m : Memory} :
    (bitfielding op level data m).JobsPlaced :=
  show (world (ctx 0 0)).JobsPlaced from placed_of (by decide)

theorem witness_BitfieldReadsComplete :
    ∀ op ∈ [BitOp.plainRead, .fetchClear, .compare], ∀ m ∈ [oneWord 0x6000 5, badByte 0x6000],
      (bitfielding op 1 [] m).WantedUnit .A (bitUnit op 1 []) (rd 0x300000 .one)
        (.bitfield 2 .q0 0x6000 0x0000FF00 0x12345678) ∧ (bitfielding op 1 [] m).JobsPlaced ∧
      (oneWord 0x6000 5).burstGood 0x6000 [0xF] = true ∧ (badByte 0x6000).burstGood 0x6000 [0xF] = false :=
  fun _ _ _ _ => ⟨⟨⟨rfl, rfl, rfl⟩, rfl, rfl⟩, placed_bitfielding, by decide, by decide⟩

theorem test_fetch_and_clear_answers_the_old_word :
    let t := after (exec .fetchAndClear (bitfielding .fetchClear 1 [] (oneWord 0x6000 0x0000A5A5)))
    t.ifaces.a = .answering (.okRead [0x0000A5A5]) ∧ t.mem.readWord 0x6000 0xF = 0x0000A500 := by decide +kernel

theorem test_compare_read_marks_equal_bits :
    (after (exec .compareRead (bitfielding .compare 1 [] (oneWord 0x6000 0x12345679)))).ifaces.a =
      .answering (.okRead [0xFFFFFFFE]) := by decide +kernel

/-! ## The control-block monitor -/

theorem cbWord_of {x : Ctx} {offset : Nat} {v : Word} :
    (configuring x offset v).CbWordUnit .A offset 0xF v (wr offset .one [v]) :=
  ⟨⟨⟨rfl, rfl, by simp [configuring, working, State.cbBase, world, State.reset, PerPort.get, cbBaseOf]⟩, rfl, rfl⟩,
    by decide⟩

theorem placed_configuring {x : Ctx} {offset : Nat} {v : Word} (h : (world x).JobsPlaced) :
    (configuring x offset v).JobsPlaced := h

theorem witness_AcknowledgeWordsClear :
    (∃ s : State, s.CbWordUnit .A (if Port.A = .A then 0x040 else 0x080) 0xF 0x700 (wr 0x040 .one [0x700]) ∧
      s.JobsPlaced) ∧
    (∃ s : State, s.CbWordUnit .A (if Port.A = .A then 0x080 else 0x040) 0xF 0x700 (wr 0x080 .one [0x700]) ∧
      s.JobsPlaced) ∧
    (∃ s : State, s.CbWordUnit .A (0x044 + 4 * 7) 0xF 1 (wr 0x060 .one [1]) ∧ s.JobsPlaced ∧
      s.globalWord.getLsbD 24 = false) ∧
    ∃ s : State, s.CbWordUnit .A (0x084 + 4 * 7) 0xF 1 (wr 0x0A0 .one [1]) ∧ s.JobsPlaced :=
  ⟨⟨configuring (ctx 0 0) 0x040 0x700, cbWord_of, placed_configuring (placed_of (by decide))⟩,
    ⟨configuring (ctx 0 0) 0x080 0x700, cbWord_of, placed_configuring (placed_of (by decide))⟩,
    ⟨configuring (ctx 0 0) 0x060 1, cbWord_of, placed_configuring (placed_of (by decide)), by decide⟩,
    ⟨configuring (ctx 0 0) 0x0A0 1, cbWord_of, placed_configuring (placed_of (by decide))⟩⟩

theorem test_ack_clears_the_three_kinds :
    let s := { configuring (ctx 0 0) 0x040 0x700 with
      engineFault := some ⟨.stamp, 0, 0, 0⟩
      configStatus := some ⟨.window, 0, .range, .B, 0⟩
      attn := ⟨{ PortAttn.clear with config := true, engine := true, fault := true, record := some (aRecord 0) },
        { PortAttn.clear with config := true, engine := true }⟩ }
    let t := after (exec .ackFault s)
    t.attn.a = PortAttn.clear ∧ t.attn.b.config = true ∧ t.attn.b.engine = true ∧ t.engineFault = none ∧
      t.configStatus = none := by decide +kernel

theorem witness_GlobalAndEnableWordsAreApplied :
    (∃ s : State, s.CbWordUnit .A 0 0xF 0x00000100 (wr 0 .one [0x00000100]) ∧ s.JobsPlaced ∧
      bits ((s.globalWord &&& ~~~laneMask 0xF) ||| (0x00000100 &&& laneMask 0xF)) 8 7 = 1) ∧
    (∃ s : State, s.CbWordUnit .A 0 0xF 0x00006400 (wr 0 .one [0x00006400]) ∧
      bits ((s.globalWord &&& ~~~laneMask 0xF) ||| (0x00006400 &&& laneMask 0xF)) 8 7 = 100) ∧
    (∃ s : State, s.CbWordUnit .A 0 0xF 0x00000003 (wr 0 .one [0x00000003]) ∧
      bits ((s.globalWord &&& ~~~laneMask 0xF) ||| (0x00000003 &&& laneMask 0xF)) 8 7 = 0) ∧
    (∃ s : State, s.CbWordUnit .A 0 0xF 0x00006500 (wr 0 .one [0x00006500]) ∧
      bits ((s.globalWord &&& ~~~laneMask 0xF) ||| (0x00006500 &&& laneMask 0xF)) 8 7 = 101) ∧
    ∃ s : State, s.CbWordUnit .A (if Port.B = .A then 0x004 else 0x008) 0xF 0x7FF (wr 8 .one [0x7FF]) ∧ s.JobsPlaced :=
  ⟨⟨configuring (ctx 0 0) 0 0x100, cbWord_of, placed_configuring (placed_of (by decide)), by decide⟩,
    ⟨configuring (ctx 0 0) 0 0x6400, cbWord_of, by decide⟩, ⟨configuring (ctx 0 0) 0 3, cbWord_of, by decide⟩,
    ⟨configuring (ctx 0 0) 0 0x6500, cbWord_of, by decide⟩,
    ⟨configuring (ctx 0 0) 8 0x7FF, cbWord_of, placed_configuring (placed_of (by decide))⟩⟩

theorem test_global_word_out_of_range_is_refused :
    let t := after (exec .globalWord (configuring (ctx 0 0) 0 0x6500))
    t.globalWord = 0x00001903 ∧ t.configStatus = some ⟨.global, 0, .range, .A, 0⟩ ∧ t.attn.a.config = true ∧
      t.mem.readWord 0 0xF = 0x6500 := by decide +kernel

theorem witness_WindowRecordsAreStagedAndApplied :
    (∃ s : State, s.CbWordUnit .A (0x200 + 0x20 * 15 + 4 * 7) 0xF 5 (wr 0x3FC .one [5]) ∧ s.JobsPlaced) ∧
    (∃ s : State, s.CbWordUnit .A (0x200 + 0x20 * 15 + 4 * 0) 0xF 0 (wr 0x3E0 .one [0]) ∧ s.JobsPlaced ∧
      s.windowReason 15 (s.windows[(15 : Fin 16)].staged.setWord 0 0) = none ∧
      s.windows[(15 : Fin 16)].applied.isRing = false) ∧
    ∃ s : State, s.CbWordUnit .A (0x200 + 0x20 * 15 + 4 * 0) 0xF 7 (wr 0x3E0 .one [7]) ∧ s.JobsPlaced ∧
      s.windowReason 15 (s.windows[(15 : Fin 16)].staged.setWord 0 7) = some .range :=
  ⟨⟨configuring (ctx 0 0) 0x3FC 5, cbWord_of, placed_configuring (placed_of (by decide))⟩,
    ⟨configuring (ctx 0 0) 0x3E0 0, cbWord_of, placed_configuring (placed_of (by decide)), by decide, by decide⟩,
    ⟨configuring (ctx 0 0) 0x3E0 7, cbWord_of, placed_configuring (placed_of (by decide)), by decide⟩⟩

/-- Word 0 of the enabled RING window of context 0 is written; context 1 may be bound too. -/
def rebinding (v : Word) : State :=
  { configuring (ctx 0 0) 0x200 v with
    ctxs := (world (ctx 0 0)).ctxs.set 1 (ctx 0 0)
    windows := (world (ctx 0 0)).windows.set 0 ⟨ringRecord, { ringRecord with w2 := 0x4000 }⟩ }

/-- R102: the same context kept; then disabled, PLAIN, and bound to another context. -/
theorem witness_WindowRecordsUnbindTheirContext :
    (∀ v ∈ [(0x0000FF03 : Word), 0x0000CF03, 0, 0x0000FF01, 0x0000FF13],
      (rebinding v).CbWordUnit .A (0x200 + 0x20 * (0 : Fin 16).val + 4 * 0) 0xF v (wr 0x200 .one [v]) ∧
        (rebinding v).JobsPlaced ∧
        (rebinding v).windowReason 0 ((rebinding v).windows[(0 : Fin 16)].staged.setWord 0 v) = none ∧
        (rebinding v).windows[(0 : Fin 16)].applied.isRing = true) ∧
    (ringRecord.setWord 0 0x0000CF03).isRing = true ∧ (ringRecord.setWord 0 0x0000CF03).winCtx = ringRecord.winCtx ∧
    (ringRecord.setWord 0 0).winEnable = false ∧ (ringRecord.setWord 0 0x0000FF01).kind = .plain ∧
    (ringRecord.setWord 0 0x0000FF13).winCtx = 1 := by
  refine ⟨?_, by decide⟩
  intro v hv
  simp only [List.mem_cons, List.not_mem_nil, or_false] at hv
  rcases hv with rfl | rfl | rfl | rfl | rfl <;>
    exact ⟨⟨⟨⟨rfl, rfl, by decide +kernel⟩, rfl, rfl⟩, by decide⟩, placed_of (by decide), by decide +kernel, by decide⟩

theorem witness_WithdrawalEndsTheContextsOperations :
    (∃ l : Live, l.ctxs[(7 : Fin 8)].held = [] ∧ l.latch.get .A = .filling 7 0 .one false) ∧
    (∃ (l : Live) (h : HeldCommit), l.ctxs[(0 : Fin 8)].held = [.commit h] ∧
      l.ifaces.get h.port = .held lastPush (.ring 0 0 .pushLast) none) ∧
    ∃ (l : Live) (h : HeldPop), l.ctxs[(0 : Fin 8)].held = [.pop h] ∧
      l.ifaces.get h.port = .held aPop (.ring 0 0 .pop) none :=
  ⟨⟨{ Live.reset with latch := ⟨.filling 7 0 .one false, .empty⟩ }, by decide, rfl⟩,
    ⟨{ Live.reset with
      ctxs := Live.reset.ctxs.set 0 { Ctx.reset with held := [.commit ⟨.A, 1, 0, some 5, false⟩] }
      ifaces := ⟨.held lastPush (.ring 0 0 .pushLast) none, .idle⟩ }, ⟨.A, 1, 0, some 5, false⟩, by decide, rfl⟩,
    ⟨(heldRead (waitingPop 0x800 (some 5))).toLive, heldPop (some 5), by decide, rfl⟩⟩

/-- R45, R46: an OPEN assembly and a held commit count together, and REJECTED wraps. -/
theorem test_withdrawal_counts_and_wraps :
    let l : Live := { (world { ctx 0 0 with rejected := 65535, held := [otherCommit] }).toLive with
      assembly := ⟨.opened 0 [9] none, .committing 0 1 0 [7] false⟩
      ifaces := ⟨.idle, .held lastPush (.ring 0 0 .pushLast) none⟩ }
    let m := l.withdraw 0
    m.ctxs[0].rejected = 1 ∧ m.ctxs[0].gap = true ∧ m.ctxs[0].held = [] ∧ m.assembly = ⟨.empty, .empty⟩ ∧
      m.ifaces.b = .answering (.error .withdrawn 0) ∧ m.attn.a.pending[0] = 0x84 ∧ m.attn.b.fault = true := by
  decide +kernel

/-- R71, R72: a held pop and a latch HOLDING end, a latch FILLING is marked, with no count. -/
theorem test_withdrawal_ends_pops :
    let l : Live := { (world { ctx 0 0 with held := [otherPop] }).toLive with
      latch := ⟨.holding 0 0x02000000 [7, 8] 2, .waiting 0⟩
      ifaces := ⟨.idle, .held aPop (.ring 0 0 .pop) none⟩ }
    let m := l.withdraw 0
    let n := Live.withdraw { l with latch := ⟨.filling 0 0 .four false, .waiting 0⟩ } 0
    m.latch = ⟨.empty, .empty⟩ ∧ n.latch = ⟨.filling 0 0 .four true, .empty⟩ ∧
      m.ifaces.b = .answering (.error .withdrawn 4) ∧ m.attn.a.pending[0] = 0x10 ∧ n.attn.a.pending[0] = 0 ∧
      m.ctxs[0].rejected = 0 ∧ m.ctxs[0].gap = false := by decide +kernel

/-- A context record that passes, staged but for word 0, in context 0 of a part with no window bound or with the RING
window. -/
def stagedContext : Ctx := { Ctx.reset with staged := { ctxRecord 0 0 with w0 := 0 } }

/-- Context 0 with its applied record staged. -/
def restaged : Ctx := { ctx 0 0 with staged := ctxRecord 0 0 }

theorem witness_ContextRecordsAreStagedAndApplied :
    (∃ s : State, s.CbWordUnit .A (0x400 + 0x20 * 7 + 4 * 7) 0xF 5 (wr 0x4FC .one [5])) ∧
    (∃ s : State, s.CbWordUnit .A (0x400 + 0x20 * 0 + 4 * 0) 0xF 0x05000040 (wr 0x400 .one [0x05000040]) ∧
      s.contextReason 0 (s.ctxs[(0 : Fin 8)].staged.setWord 0 0x05000040) = none ∧ s.bound 0 = false) ∧
    (∃ s : State, s.CbWordUnit .A (0x400 + 0x20 * 0 + 4 * 0) 0xF 0x09000040 (wr 0x400 .one [0x09000040]) ∧
      s.contextReason 0 (s.ctxs[(0 : Fin 8)].staged.setWord 0 0x09000040) = none ∧ s.bound 0 = true ∧
      (s.ctxs[(0 : Fin 8)].staged.setWord 0 0x09000040).sameWatermarks s.ctxs[(0 : Fin 8)].applied = true) ∧
    ∃ s : State, s.CbWordUnit .A (0x400 + 0x20 * 0 + 4 * 0) 0xF 0x05000041 (wr 0x400 .one [0x05000041]) ∧
      s.contextReason 0 (s.ctxs[(0 : Fin 8)].staged.setWord 0 0x05000041) = some .bound :=
  ⟨⟨configuring (ctx 0 0) 0x4FC 5, cbWord_of⟩,
    ⟨{ configuring stagedContext 0x400 0x05000040 with windows := State.reset.windows },
      ⟨⟨⟨rfl, rfl, rfl⟩, rfl, rfl⟩, by decide⟩, by decide, by decide⟩,
    ⟨configuring restaged 0x400 0x09000040, cbWord_of, by decide, by decide, by decide⟩,
    ⟨configuring restaged 0x400 0x05000041, cbWord_of, by decide⟩⟩

/-- R78: one of the three watermark fields of a bound context changes: the holdoff to 1 below and at the high mark, the
high mark to the ready count, the low mark alone. -/
theorem witness_WatermarkFieldsChange :
    ∀ y ∈ [({ ctx 0 0 with staged := ctxRecord 0 0 }, (0x05010040 : Word), Watermark.calm),
        ({ stocked 2 0 with staged := ctxRecord 0 0 }, 0x05010040, .arming 1),
        ({ stocked 1 0 with staged := { ctxRecord 0 0 with w2 := 0x00010002 } }, 0x05000040, .raised),
        ({ stocked 1 0 with staged := ctxRecord 0 1 }, 0x05000040, .calm)],
      let s := configuring y.1 0x400 y.2.1
      let r := y.1.staged.setWord 0 y.2.1
      s.CbWordUnit .A (0x400 + 0x20 * (0 : Fin 8).val + 4 * 0) 0xF y.2.1 (wr 0x400 .one [y.2.1]) ∧
        s.contextReason 0 r = none ∧ s.bound 0 = true ∧
        (r.high ≠ y.1.applied.high ∨ r.low ≠ y.1.applied.low ∨ r.holdoff ≠ y.1.applied.holdoff) ∧
        y.2.2 = (if y.1.ready < r.high then .calm else if r.holdoff = 0 then .raised else .arming r.holdoff) := by
  intro y hy
  simp only [List.mem_cons, List.not_mem_nil, or_false] at hy
  rcases hy with rfl | rfl | rfl | rfl <;> exact ⟨cbWord_of, by decide⟩

theorem test_context_record_initialises :
    let t := after (exec .contextRecordApply
      { configuring stagedContext 0x400 0x05000040 with windows := State.reset.windows })
    t.ctxs[0].initialised = true ∧ t.ctxs[0].applied = ctxRecord 0 0 ∧ t.ctxs[0].capacity = 2 ∧
      t.configStatus = none := by decide +kernel

/-- The applied record of an unbound context is applied again: it shows the same words, and its item is reported (R20). -/
theorem test_context_initialised_again_is_reported :
    let s := { configuring restaged 0x400 0x05000040 with windows := State.reset.windows }
    (after (exec .contextRecordApply s)).itemWords (.context 0) = s.itemWords (.context 0) ∧
      (after (exec .contextRecordApply s)).mirror = [.context 0] := by decide +kernel

/-- A window record that fails each check of R90's table, in its order, the last two of them failing two checks. -/
theorem test_window_reasons :
    let s := world (ctx 0 0)
    let r := fun w0 w1 w2 => s.windowReason 3 { Record.zero with w0 := w0, w1 := w1, w2 := w2 }
    [r 0x00000007 0x200000 0x4000, r 0x000D0001 0 0x4000, r 0x00010003 0x200000 0, r 0x00000001 0x4000000 0x4000,
      r 0x00000001 0x200800 0x4000, r 0x00000001 0x200000 0x4800, r 0x00000005 0x200000 0x6200,
      r 0x00000001 0x200000 0xFFFFF000, r 0x00000005 0x200000 0x0C00, r 0x00000073 0x200000 0, r 0x00000003 0x200000 0,
      r 0x00000001 0x200800 0, r 0x000C0001 0 0] =
    [some .range, some .range, some .range, some .range, some .align, some .align, some .align, some .memory,
      some .control, some .binding, some .binding, some .align, some .memory] ∧
    s.windowReason 0 ringRecord = none := by decide +kernel

/-- A context record that fails each check of R139's table, in its order, and one that fails two. -/
theorem test_context_reasons :
    let s := world (ctx 0 0)
    let r := fun c w0 w1 w2 w3 w5 w6 => s.contextReason c ⟨w0, w1, w2, w3, 0, w5, w6, 0⟩
    [r 0 0x05000010 0x2000 0x20002 0 0 0, r 0 0x05000340 0x2000 0x20002 0 0 0, r 0 0x05000C40 0x2000 0x20002 0 0 0,
      r 0 0x05000241 0x2000 0x20002 0 0 0, r 0 0x00000040 0x2000 0x20002 0 0 0, r 0 0x05000040 0x2000 0x10001 0 0 0,
      r 0 0x05000040 0x2000 0x30002 0 0 0, r 0 0x05000040 0x2000 0x20002 2 0 0,
      r 0 0x05000040 0x2002 0x20002 0 0 0, r 0 0x05000040 0x2000 0x20002 0 0x3002 0x80000000,
      r 0 0x05000040 0xFFFFFFF0 0x20002 0 0 0, r 0 0x05000040 0x2000 0x20002 0 0xFFFFFFFC 0x80000000,
      r 0 0x05000040 0x0FFC 0x20002 0 0 0, r 0 0x05000040 0x2000 0x20002 0 0x0FFC 0x80000000,
      r 1 0x05000040 0x2000 0x20002 0 0 0, r 0 0x05000040 0x2000 0x20003 0 0 0,
      r 0 0x05000040 0xFFFFFFFE 0x20002 0 0 0] =
    [some .range, some .range, some .range, some .range, some .range, some .range, some .range, some .range, some .align,
      some .align, some .memory, some .memory, some .control, some .control, some .overlap, some .bound, some .align] ∧
    State.contextReason { world (writingBy .A 0) with windows := State.reset.windows } 0 (ctxRecord 0 0) =
      some .bound := by decide +kernel

theorem witness_FlushDiscardsTheReadyEntries :
    (∃ s : State, s.CbWordUnit .A (0x500 + 4 * 7) 0xF 1 (wr 0x51C .one [1]) ∧
      s.ctxs[(7 : Fin 8)].initialised = false) ∧
    (∀ x ∈ [ctx 0 0, ctx 1 0, stocked 2 0, { stocked 1 1 with writingRun := [⟨1, .B, 0, false⟩], depth := 2 },
        stocked 2 1],
      (configuring x (0x500 + 4 * 0) 1).CbWordUnit .A (0x500 + 4 * 0) 0xF 1 (wr 0x500 .one [1]) ∧
        (configuring x (0x500 + 4 * 0) 1).ctxs[(0 : Fin 8)] = x ∧ x.initialised = true ∧ x.held = []) :=
  ⟨⟨configuring (ctx 0 0) 0x51C 1, cbWord_of, by decide⟩, fun x hx => ⟨cbWord_of, rfl, by
    revert x
    decide⟩⟩

/-- A ready entry behind a slot in copy, with and without a held pop; a full ring with the other port's commit held. -/
theorem witness_FlushBehindACopyAndWithACommitHeld :
    (∀ x ∈ [copyingFull 0, { copyingFull 0 with held := [otherPop] }],
      (configuring x 0x500 1).ctxs[(0 : Fin 8)] = x ∧ x.initialised = true ∧ x.applied.isLifo = false ∧ x.ready = 1 ∧
        x.heldRun = [.copying .B] ∧ ∀ i ∈ x.held, i.isCommit = false) ∧
    ∃ s : State, s.CbWordUnit .A (0x500 + 4 * (0 : Fin 8).val) 0xF 1 (wr 0x500 .one [1]) ∧
      s.ctxs[(0 : Fin 8)].held = [otherCommit] ∧ s.ctxs[(0 : Fin 8)].initialised = true ∧
      s.ctxs[(0 : Fin 8)].applied.isLifo = false ∧ s.ctxs[(0 : Fin 8)].heldRun = [] ∧
      s.ctxs[(0 : Fin 8)].ready = 2 ∧ s.ctxs[(0 : Fin 8)].occupied = s.ctxs[(0 : Fin 8)].applied.capacity ∧
      s.portWriting .B = false ∧ s.assembly.get .B = .committing 0 1 0 [7] false :=
  ⟨by decide, committingB (configuring { stocked 2 0x100 with held := [otherCommit] } 0x500 1),
    ⟨⟨⟨rfl, rfl, by decide +kernel⟩, rfl, rfl⟩, by decide⟩, by decide⟩

theorem test_flush_discards_all :
    let t := after (exec .flush (configuring (stocked 2 0) 0x500 1))
    t.ctxs[0].ready = 0 ∧ t.ctxs[0].discarded = 2 ∧ t.ctxs[0].gap = true ∧ t.ctxs[0].heldRun = [] ∧
      (t.attn.get .A).pending[0] = 0x08 := by decide +kernel

theorem witness_PlainWritesAndBurstsOfTheConfiguration :
    (∃ s : State, s.WantedUnit .A ⟨.cbWrite, 0 + 0x10, [0], [5], true⟩ (wr 0x10 .one [5]) .cb ∧ s.JobsPlaced) ∧
    (∃ s : State, s.CbWordUnit .A 0x00C 0xF 5 (wr 0x00C .one [5]) ∧ s.JobsPlaced ∧ cbFunction 0x00C = .plain) ∧
    (∃ s : State, s.CbWordUnit .A (0x500 + 4 * 0) 0xF 0x100 (wr 0x500 .one [0x100]) ∧ s.JobsPlaced ∧
      bits ((0x100 : Word) &&& laneMask 0xF) 0 8 = 0) ∧
    (∃ s : State, s.CbWordUnit .A (0x500 + 4 * 7) 0xF 2 (wr 0x51C .one [2]) ∧ s.JobsPlaced) ∧
    (∃ s : State, ∃ u : PathUnit, s.PortUnit .A u ∧ u.work = .cbWrite ∧ u.wanted = true ∧
      s.cbWriteHas .windowApply = true ∧ s.cbWriteHas .stage = true ∧
      s.ifaces.get .A = .held (wr 0x200 .two [0, 5]) .cb none) ∧
    ∃ s : State, ∃ u : PathUnit, s.PortUnit .A u ∧ u.work = .cbWrite ∧ u.wanted = false ∧
      s.cbWriteHas .windowApply = true ∧ ∀ t d v, s.ifaces.get .A ≠ .held t d (some v) :=
  ⟨⟨working (ctx 0 0) ⟨.cbWrite, 0x10, [0], [5], true⟩ (wr 0x10 .one [5]) .cb ⟨[], []⟩, ⟨⟨rfl, rfl, rfl⟩, rfl, rfl⟩,
      placed_of (by decide)⟩,
    ⟨configuring (ctx 0 0) 0x00C 5, cbWord_of, placed_configuring (placed_of (by decide)), by decide⟩,
    ⟨configuring (ctx 0 0) 0x500 0x100, cbWord_of, placed_configuring (placed_of (by decide)), by decide⟩,
    ⟨configuring (ctx 0 0) 0x51C 2, cbWord_of, placed_configuring (placed_of (by decide))⟩,
    ⟨working (ctx 0 0) ⟨.cbWrite, 0x200, [0xF, 0xF], [0, 5], true⟩ (wr 0x200 .two [0, 5]) .cb ⟨[], []⟩,
      ⟨.cbWrite, 0x200, [0xF, 0xF], [0, 5], true⟩, ⟨rfl, rfl, rfl⟩, rfl, rfl, by decide, by decide, rfl⟩,
    ⟨{ working (ctx 0 0) ⟨.cbWrite, 0x200, [0xF, 0xF], [0, 5], false⟩ (wr 0x200 .two [0, 5]) .cb ⟨[], []⟩ with
      ifaces := ⟨.idle, .idle⟩ }, ⟨.cbWrite, 0x200, [0xF, 0xF], [0, 5], false⟩, ⟨rfl, rfl, rfl⟩, rfl, rfl, by decide,
      fun _ _ _ => nofun⟩⟩

/-! ## Ticks -/

/-- Context 0 as given but for an age limit of 3 and its next entry stamped at tick 0, in a part whose tick counter
is 3. -/
def ageingAs (x : Ctx) (w0 : Word) : State :=
  { world { x with
      applied := ctxRecord w0 0x00030000
      cache := { StampCache.reset with valid := true } } with tick := 3 }

/-- The same with `n` entries ready. -/
def ageing (w0 : Word) (n : Nat) : State := ageingAs (stocked n w0) w0

theorem witness_TickCountsAndJudgesAges :
    (∃ s : State, s.inReset = false ∧ ∀ x, s.partDue x = false) ∧
    ∀ w0 ∈ [(0 : Word), 0x1000, 0x1001],
      (ageing w0 1).inReset = false ∧ (ageing w0 1).ctxs[(0 : Fin 8)].applied.ageLimit = 3 ∧
        (ageing w0 1).ctxs[(0 : Fin 8)].ready = 1 ∧ (ageing w0 1).ctxs[(0 : Fin 8)].cache.valid = true ∧
        (ageing w0 1).ctxs[(0 : Fin 8)].cache.staleRaised = false ∧
        ((ageing w0 1).tick + 1 - (ageing w0 1).ctxs[(0 : Fin 8)].cache.stamp).toNat = 4 ∧
        (∀ x, x ≠ .stale 0 → (ageing w0 1).partDue x = false) ∧
        (ageing w0 1).ticked.ctxs[(0 : Fin 8)].heldRun = [] ∧ (ageing w0 1).ticked.ctxs[(0 : Fin 8)].held = [] ∧
        (ageing w0 1).ticked.ctxs[(0 : Fin 8)].writing = 0 := by
  refine ⟨⟨State.reset, rfl, fun x => ?_⟩, ?_⟩
  · by_cases h : x = .stale 0
    · subst h
      decide
    · exact others_idle (by decide) x h
  · intro w0 hw
    simp only [List.mem_cons, List.not_mem_nil, or_false] at hw
    rcases hw with rfl | rfl | rfl <;>
      exact ⟨rfl, by decide, by decide, by decide, by decide, by decide, others_idle (by decide), by decide, by decide,
        by decide⟩

/-- A next entry behind a slot in copy; the top of a stack with an operation running. -/
theorem witness_StaleBehindAnOperation :
    ∀ y ∈ [(copyingFull 0, (0x1000 : Word)), ({ copyingFull 0 with depth := 2 }, 0x1001)],
      let s := ageingAs y.1 y.2
      s.inReset = false ∧ s.ctxs[(0 : Fin 8)].applied.ageLimit = 3 ∧ s.ctxs[(0 : Fin 8)].ready = 1 ∧
        s.ctxs[(0 : Fin 8)].cache.valid = true ∧ s.ctxs[(0 : Fin 8)].cache.staleRaised = false ∧
        (s.tick + 1 - s.ctxs[(0 : Fin 8)].cache.stamp).toNat = 4 ∧ (∀ x, x ≠ .stale 0 → s.partDue x = false) ∧
        s.ticked.ctxs[(0 : Fin 8)].applied.staleDiscard = true ∧
        s.ticked.ctxs[(0 : Fin 8)].heldRun = [.copying .B] ∧ s.ticked.ctxs[(0 : Fin 8)].held = [] := by
  intro y hy
  simp only [List.mem_cons, List.not_mem_nil, or_false] at hy
  rcases hy with rfl | rfl <;>
    exact ⟨rfl, by decide, by decide, by decide, by decide, by decide, others_idle (by decide), by decide, by decide,
      by decide⟩

theorem test_stale_discard :
    let t := after (exec (.stale 0) (ageing 0x1000 1))
    t.tick = 4 ∧ t.ctxs[0].ready = 0 ∧ t.ctxs[0].discarded = 1 ∧ (t.attn.get .A).pending[0] = 0x28 := by decide +kernel

/-- Port A's PUSH_LAST is held for space in context 0. -/
def heldPush (stall : Option Nat) : State :=
  { world { writingFull 0x100 with held := [.commit ⟨.A, 1, 0, stall, false⟩] } with
    assembly := ⟨.committing 0 1 0 [7] false, .empty⟩
    ifaces := ⟨.held lastPush (.ring 0 0 .pushLast) none, .idle⟩ }

theorem witness_CountsExpireInTheTick :
    (∃ s : State, s.inReset = false ∧ s.assembly.get .A = .opened 0 [9] (some 1) ∧
      ∀ x, x ≠ .idle .A → s.partDue x = false) ∧
    (∃ s : State, s.inReset = false ∧ s.ctxs[(0 : Fin 8)].held = [.commit ⟨.A, 1, 0, some 1, false⟩] ∧
      s.findHeld .A = some 0 ∧ s.ifaces.get .A = .held lastPush (.ring 0 0 .pushLast) none ∧
      ∀ x, x ≠ .held .A → s.partDue x = false) ∧
    (∃ s : State, s.inReset = false ∧ s.ctxs[(0 : Fin 8)].held = [.pop (heldPop (some 1))] ∧
      s.findHeld .A = some 0 ∧ s.ifaces.get .A = .held aPop (.ring 0 0 .pop) none ∧
      ∀ x, x ≠ .held .A → s.partDue x = false) ∧
    ∃ s : State, s.inReset = false ∧ s.ctxs[(0 : Fin 8)].watermark = .arming 1 ∧
      ∀ x, x ≠ .holdoff 0 → s.partDue x = false :=
  ⟨⟨{ world (ctx 0 0) with assembly := ⟨.opened 0 [9] (some 1), .empty⟩ }, rfl, rfl, others_idle (by decide)⟩,
    ⟨heldPush (some 1), rfl, by decide, by decide, rfl, others_idle (by decide)⟩,
    ⟨heldRead (waitingPop 0x800 (some 1)), rfl, by decide, by decide, rfl, others_idle (by decide)⟩,
    ⟨world (marked 2 (.arming 1) 0), rfl, by decide, others_idle (by decide)⟩⟩

theorem test_stall_expiry_answers_expired :
    let t := after (exec (.stallExpiry .A) (heldPush (some 1)))
    t.ifaces.a = .answering (.error .expired 0) ∧ t.ctxs[0].rejected = 1 ∧ t.assembly.a = .empty ∧ t.tick = 1 := by
  decide +kernel

/-! ## Resets -/

/-- What the first clause asks of port A: its held commit or pop is alone in its held list. -/
def HeldAlone (s : State) : Prop :=
  s.inReset = false ∧ s.portReset.get .A = false ∧
    (∀ c n level words, s.assembly.get .A = .committing c n level words false →
      ∃ h, s.ctxs[c].held = [.commit h] ∧ h.port = .A) ∧
    ∀ c, s.latch.get .A = .waiting c → ∃ h, s.ctxs[c].held = [.pop h] ∧ h.port = .A

/-- Both ports' commits are held at context 0, which has a free slot. -/
def bothCommits : State :=
  { committingB (holdingAt (world (writingBy .A 0)) [.commit ⟨.A, 1, 0, none, false⟩, otherCommit]) with
    assembly := ⟨.committing 0 1 0 [8] false, .committing 0 1 0 [7] false⟩ }

theorem witness_PortResetDropsThePortsWork :
    (∃ s : State, HeldAlone s ∧ s.assembly.get .A = .opened 0 [9] none ∧ s.latch.get .A = .filling 0 0 .four false) ∧
    (∃ s : State, HeldAlone s ∧ s.assembly.get .A = .committing 0 1 0 [7] false ∧
      s.ctxs[(0 : Fin 8)].held = [.commit ⟨.A, 1, 0, some 5, false⟩] ∧ s.latch.get .A = .empty) ∧
    (∃ s : State, HeldAlone s ∧ s.assembly.get .A = .empty ∧ s.latch.get .A = .waiting 0) ∧
    (bothCommits.inReset = false ∧ bothCommits.portReset.get .A = false ∧
      bothCommits.ctxs[(0 : Fin 8)].held = [.commit ⟨.A, 1, 0, none, false⟩, otherCommit] ∧
      bothCommits.assembly.get .A = .committing 0 1 0 [8] false ∧ bothCommits.latch.get .A = .empty ∧
      bothCommits.assembly.get .B = .committing 0 1 0 [7] false ∧ bothCommits.portWriting .B = false ∧
      bothCommits.ctxs[(0 : Fin 8)].applied.isLifo = false ∧
      bothCommits.ctxs[(0 : Fin 8)].occupied + 1 = bothCommits.ctxs[(0 : Fin 8)].applied.capacity) ∧
    ∃ s : State, s.inReset = false ∧ s.portReset.get .A = true := by
  refine ⟨⟨{ world (ctx 0 0) with
      assembly := ⟨.opened 0 [9] none, .empty⟩
      latch := ⟨.filling 0 0 .four false, .empty⟩ }, ⟨rfl, rfl, ?_, ?_⟩, rfl, rfl⟩,
    ⟨heldPush (some 5), ⟨rfl, rfl, ?_, ?_⟩, rfl, by decide, rfl⟩,
    ⟨heldRead (waitingPop 0x800 (some 5)), ⟨rfl, rfl, ?_, ?_⟩, rfl, rfl⟩, by decide,
    ⟨{ State.reset with portReset := ⟨true, false⟩ }, rfl, rfl⟩⟩
  · intro _ _ _ _ e; cases e
  · intro _ e; cases e
  · intro _ _ _ _ e; cases e; exact ⟨⟨.A, 1, 0, some 5, false⟩, by decide, rfl⟩
  · intro _ e; cases e
  · intro _ _ _ _ e; cases e
  · intro _ e; cases e; exact ⟨heldPop (some 5), by decide, rfl⟩

theorem test_port_reset_counts_the_open_assembly :
    let t := after (exec (.portReset .A (Vector.replicate 8 0)) { world (ctx 0 0) with assembly := ⟨.opened 0 [9] none, .empty⟩ })
    t.ctxs[0].rejected = 1 ∧ t.ctxs[0].gap = true ∧ t.assembly.a = .empty ∧ (t.attn.get .B).pending[0] = 0 := by
  decide +kernel

/-- R132: the pop of port A that leaves the list lets port B's claim the last entry; the LOW of that event stays pending
at port A where the attention unit takes it after the reset, and is cleared where it takes it before, whatever it does
with the WRAP of the push that ended (log 13). -/
theorem test_port_reset_before_or_after_the_low_of_its_event :
    let x : Ctx := { stocked 1 0x800 with
      watermark := .raised
      rejected := 65535
      held := [.pop (heldPop (some 5)), otherPop] }
    let s : State := { heldRead x with latch := ⟨.waiting 0, .waiting 0⟩, assembly := ⟨.opened 0 [9] none, .empty⟩ }
    let reset := fun (late : BitVec 8) => after (exec (.portReset .A (Vector.replicate 8 late)) s)
    [0xFF, 0x02, 0x80, 0].map (fun late => (reset late).attn.a.pending[0]) = [0x82, 0x02, 0x80, 0] ∧
      (reset 0).attn.b.pending[0] = 0x82 ∧ (reset 0).ctxs[0].ready = 0 ∧ (reset 0).ctxs[0].watermark = .calm := by
  decide +kernel

/-- Under RESET_N, with the reset line of port B asserted and two items on the mirror list. -/
def underReset : State :=
  { State.reset with inReset := true, portReset := ⟨false, true⟩, mirror := [.summary .A, .configStatus] }

theorem witness_ResetReleasesReadyThePorts :
    (∃ s : State, s.inReset = false ∧ s.portReset.get .B = true ∧ s.ifaces.get .B = .idle ∧
      s.portReset.get .A = false) ∧
    underReset.inReset = true ∧ underReset.ifaces.get .A = .idle ∧ underReset.portReset.get .A = false ∧
    underReset.ifaces.get .B = .idle ∧ underReset.portReset.get .B = true ∧
    underReset.mirror = .summary .A :: [.configStatus] ∧
    ∃ i : Instr, (∀ p late, i ≠ .portReset p late) ∧ (∀ p r, i ≠ .portResetRelease p r) ∧
      (∀ cbsel memsz, i ≠ .powerOnReset cbsel memsz) ∧ ∀ a b, i ≠ .powerOnResetRelease a b :=
  ⟨⟨{ State.reset with portReset := ⟨false, true⟩ }, rfl, rfl, rfl, rfl⟩, rfl, rfl, rfl, rfl, rfl, rfl,
    .arbiterGrant, fun _ _ => nofun, fun _ _ => nofun, fun _ _ => nofun, fun _ _ => nofun⟩

theorem test_release_takes_the_standing_request_of_a_ready_port :
    let t := after (exec (.powerOnResetRelease (some (rd 0 .one)) (some (rd 4 .one))) underReset)
    t.ifaces = ⟨.decoding (rd 0 .one), .idle⟩ ∧ t.inReset = false ∧ t.presents .mirror = true := by decide +kernel

theorem test_power_on_reset_samples_the_straps :
    let t := after (exec (.powerOnReset 3 1) State.reset)
    t.cbBase = 0x3FF000 ∧ t.installed = 0x400000 ∧ t.inReset = true := by decide +kernel

end Sys2Proof.Tests
end

section
/-! PROOFS. What one step can do to the contexts and the job list, said once: every law that speaks of them alone is
derived from it. -/

namespace Sys2Proof.Machine

/-! ## Events that touch neither a context nor the job list -/

/-- The contexts and the job list are those of `s`. -/
def State.Still (s u : State) : Prop := u.ctxs = s.ctxs ∧ u.jobs = s.jobs

theorem State.Still.refl (s : State) : s.Still s := ⟨rfl, rfl⟩

theorem State.Still.trans {s u v : State} (h : s.Still u) (k : u.Still v) : s.Still v :=
  ⟨k.1.trans h.1, k.2.trans h.2⟩

section still
variable (s : State) (p : Port) (t : Transfer)

theorem State.still_refuseTransfer (k : FaultKind) : s.Still (s.refuseTransfer p t k) := by
  rw [State.refuseTransfer_eq]
  exact ⟨rfl, rfl⟩

theorem State.still_handDown (d : Decode) (u : PathUnit) : s.Still (s.handDown p t d u) := by
  unfold State.handDown
  split <;> exact ⟨rfl, rfl⟩

theorem State.still_takePass : s.Still (s.takePass p t) := by
  unfold State.takePass
  split
  · exact s.still_refuseTransfer p t _
  · exact s.still_handDown p t _ _

theorem State.still_takePlain : s.Still (s.takePlain p t) := by
  unfold State.takePlain
  split
  · dsimp only
    split
    · exact s.still_handDown p t _ _
    · exact s.still_refuseTransfer p t _
  · exact s.still_refuseTransfer p t _

theorem State.still_takeUnmapped : s.Still (s.takeUnmapped p t) := by
  unfold State.takeUnmapped
  split <;> exact s.still_refuseTransfer p t _

theorem State.still_takeCbRead : s.Still (s.takeCbRead p t) := by
  unfold State.takeCbRead
  split
  · exact s.still_handDown p t _ _
  · exact s.still_refuseTransfer p t _

theorem State.still_takeCbWrite : s.Still (s.takeCbWrite p t) := by
  unfold State.takeCbWrite
  split
  · split
    · exact s.still_handDown p t _ _
    · exact ⟨Live.answerError_ctxs _ _ _, Live.answerError_jobs _ _ _⟩
  · exact s.still_refuseTransfer p t _

theorem State.still_takeBitfield : s.Still (s.takeBitfield p t) := by
  unfold State.takeBitfield
  split
  · dsimp only
    split
    · exact s.still_refuseTransfer p t _
    · split
      · exact s.still_refuseTransfer p t _
      · exact s.still_handDown p t _ _
  · exact s.still_refuseTransfer p t _

theorem State.still_takePeek (d : Decode) (c : Fin 8) : s.Still (s.takePeek p t d c) := by
  unfold State.takePeek
  split
  · exact ⟨Live.answerOk_ctxs _ _ _, Live.answerOk_jobs _ _ _⟩
  · exact s.still_handDown p t d _

theorem State.still_takeTransfer (f : Transfer → State → State) (hf : ∀ t, s.Still (f t s)) :
    s.Still (s.takeTransfer p f) := by
  unfold State.takeTransfer
  split
  · exact hf _
  · exact .refl s

/-- A transfer in a RING window is refused, or reaches the context of the window (R95-R97). -/
theorem State.takeRing_cases (sub : SubRange) (act : Decode → Fin 8 → State → State) :
    s.Still (s.takeRing p t sub act) ∨
      ∃ (d : Decode) (c : Fin 8), s.takeRing p t sub act = act d c (s.handOn p t d) := by
  unfold State.takeRing
  split
  · dsimp only
    split
    · exact .inl (s.still_refuseTransfer p t _)
    · split
      · exact .inl (s.still_refuseTransfer p t _)
      · exact .inr ⟨_, _, rfl⟩
  · exact .inl (s.still_refuseTransfer p t _)

theorem State.still_leavePath : s.Still (s.leavePath p) := by
  unfold State.leavePath
  split <;> exact ⟨rfl, rfl⟩

/-- A unit ends, with an answer that reaches the port's interface and attention state alone (R151). -/
theorem State.still_completeUnit (u : PathUnit) (answer : Live → Live)
    (ha : ∀ l, (answer l).ctxs = l.ctxs ∧ (answer l).jobs = l.jobs) : s.Still (s.completeUnit p u answer) := by
  have hl : s.Still (s.finishUnit.leavePath p) := State.still_leavePath s.finishUnit p
  unfold State.completeUnit
  dsimp only
  split
  · exact hl.trans (ha _)
  · exact hl

theorem State.still_completeRead : s.Still s.completeRead := by
  unfold State.completeRead
  split
  · exact .refl s
  · refine s.still_completeUnit _ _ _ fun l => ?_
    split
    · unfold State.readPassed
      dsimp only
      split <;> simp
    · simp

theorem State.still_completeBitfield : s.Still s.completeBitfield := by
  unfold State.completeBitfield
  split
  · split
    · refine s.still_completeUnit _ _ _ fun l => ?_
      unfold State.bitAnswer
      split
      · simp
      · split <;> simp
    · exact .refl s
  · exact .refl s

theorem State.still_takeStanding (standing : Option Transfer) : s.Still (s.takeStanding p standing) := by
  rw [State.takeStanding_eq]
  exact ⟨rfl, rfl⟩

end still

/-! ## Events -/

/-- The live state without the job in progress, which leaves the list at its completion (R156). -/
def State.jobLeft (s : State) : Live := { s.toLive with jobs := s.jobs.eraseP fun e => e.phase == .inProgress }

/-- The live states in which an event of `s` can leave the queues before its close, one form for each thing that an event
does to the contexts or the job list. -/
inductive State.Acted (s : State) : Live → Prop where
  | quiet (u : State) : s.Still u → s.Acted u.toLive
  /-- PUSH and PUSH_LAST (R26, R31). -/
  | pushed (i : Iface) (idle : Option Nat) (p : Port) (c : Fin 8) (t : Transfer) (last : Bool) :
      s.Acted ((s.setIface p i).append s.tick idle p c t last)
  /-- POP (R55). -/
  | popped (i : Iface) (p : Port) (c : Fin 8) (burst : Burst) : s.Acted ((s.setIface p i).popRead s.tick p c burst)
  /-- A job is presented (R157), or the engine's unit is granted (R152). -/
  | presented (prefer : Port) : s.Acted (Live.presentJob prefer s.jobs.length s.toLive)
  | granted (r : Requester) : s.Acted (State.grantJob { s with pointer := r }).toLive
  /-- The job in progress completes (R12, R60, R81). -/
  | written (c : Fin 8) (slot address : Nat) (header : Word) (payload : List Word) (p : Port) :
      s.jobInProgress = some (.entryWrite c slot address header payload p) →
      s.Acted (s.jobLeft.entryWritten s.tick c slot p)
  | copied (c : Fin 8) (slot address payloadMax : Nat) (p : Port) (r : CopyRead) :
      s.jobInProgress = some (.entryCopy c slot address payloadMax p) →
      s.Acted (s.jobLeft.copyCompleted s.tick c p r)
  | fetched (c : Fin 8) (slot address : Nat) (cache : StampCache) (u : State) :
      s.jobInProgress = some (.stampFetch c slot address) →
      u.ctxs = (s.modCtx c fun x => { x with cache := cache }).ctxs →
      u.jobs = s.jobLeft.jobs → s.Acted u.toLive
  /-- The monitor acts on the words of a permitted control-block write (R136). -/
  | monitored (u : State) (p : Port) (words : List CbWord) : s.Still u → s.Acted (u.monitorActs p words).toLive
  /-- A tick (R74). -/
  | ticked (order : List TickPart) :
      s.Acted ((partsInOrder order).foldl (Live.tickPart (s.tick + 1)) s.countDown)

/-- What a command can make of the state, as far as the contexts and the job list go. -/
inductive State.Steps (s : State) : State → Prop where
  | still (t : State) : s.Still t → s.Steps t
  | event (u : State) : s.Acted u.toLive → s.Steps (closeEvent s u)
  /-- A port reset (R168). -/
  | portReset (p : Port) (late : Vector (BitVec 8) 8) : s.Steps (settle s (s.resetPort p late))
  /-- Power-on reset (R170). -/
  | powerOnReset (t : State) : t.toLive = Live.reset → s.Steps t

theorem State.Steps.of_event {possible : Bool} {s t : State} {f : State → State}
    (h : Machine.event possible s f = .next t) (hf : s.Acted (f s).toLive) : s.Steps t := by
  rcases event_cases h with ⟨_, _, rfl⟩ | rfl
  · exact .event _ hf
  · exact .still _ (.refl _)

theorem State.Steps.of_quiet {possible : Bool} {s t : State} {f : State → State}
    (h : Machine.event possible s f = .next t) (hf : s.Still (f s)) : s.Steps t := .of_event h (.quiet _ hf)

section acted
variable (s : State) (p : Port)

/-- The event of a sub-range of a RING window, by what it does at the context. -/
theorem State.acted_ring (sub : SubRange) (act : Transfer → Decode → Fin 8 → State → State)
    (ha : ∀ t d c, s.Acted (act t d c (s.handOn p t d)).toLive) :
    s.Acted (s.takeTransfer p fun t u => u.takeRing p t sub (act t)).toLive := by
  unfold State.takeTransfer
  split
  · next t _ =>
    rcases s.takeRing_cases p t sub (act t) with h | ⟨d, c, h⟩
    · exact .quiet _ h
    · dsimp only
      rw [h]
      exact ha t d c
  · exact .quiet _ (.refl s)

theorem State.acted_grant : s.Acted s.grant.toLive := by
  unfold State.grant
  split
  · exact .quiet _ (.refl s)
  · next r _ =>
    cases r with
    | portA => exact .quiet _ (.refl s)
    | portB => exact .quiet _ (.refl s)
    | engine => exact .granted (s := s) .engine
    | mirror =>
      refine .quiet _ ?_
      unfold State.grantTo State.grantMirror
      dsimp only
      split
      · exact ⟨rfl, rfl⟩
      · next item rest _ => cases item <;> exact ⟨rfl, rfl⟩

theorem State.currentJob_inProgress {j : Job} (h : s.currentJob = some j) : s.jobInProgress = some j := by
  unfold State.currentJob at h
  split at h
  · exact h
  · cases h

theorem State.stampFetched_cases (m : Memory) (c : Fin 8) (address : Nat) : ∃ cache : StampCache,
    (s.stampFetched m c address).ctxs = (s.modCtx c fun x => { x with cache := cache }).ctxs ∧
      (s.stampFetched m c address).jobs = s.jobs := by
  unfold State.stampFetched
  split
  · split
    · exact ⟨_, rfl, rfl⟩
    · exact ⟨_, rfl, rfl⟩
  · exact ⟨s.ctxs[c].cache, by rw [Live.modCtx_eq_self _ _ _ rfl], rfl⟩

theorem State.acted_cbWrite : s.Acted s.completeCbWrite.toLive := by
  unfold State.completeCbWrite
  split
  · exact .quiet _ (.refl s)
  · exact .monitored _ _ _ (s.still_completeUnit _ _ _ fun l => ⟨by simp, by simp⟩)

theorem State.acted_tick (order : List TickPart) : s.Acted (s.tickEvent order).toLive := .ticked order

end acted

/-- Everything that a command can do to the contexts and the job list. -/
theorem exec_steps {i : Instr} {s t : State} (h : exec i s = .next t) : s.Steps t := by
  cases i with
  | transferArrival p u =>
    rw [exec_transferArrival, execTransferArrival] at h
    exact .of_quiet h ⟨rfl, rfl⟩
  | requestWithdrawal p =>
    rw [exec_requestWithdrawal, execRequestWithdrawal] at h
    exact .of_quiet h ⟨rfl, rfl⟩
  | passThrough p =>
    rw [exec_passThrough, execPassThrough] at h
    exact .of_quiet h (s.still_takeTransfer p _ fun u => s.still_takePass p u)
  | plainWindowTransfer p =>
    rw [exec_plainWindowTransfer, execPlainWindowTransfer] at h
    exact .of_quiet h (s.still_takeTransfer p _ fun u => s.still_takePlain p u)
  | unmapped p =>
    rw [exec_unmapped, execUnmapped] at h
    exact .of_quiet h (s.still_takeTransfer p _ fun u => s.still_takeUnmapped p u)
  | cbRead p =>
    rw [exec_cbRead, execCbRead] at h
    exact .of_quiet h (s.still_takeTransfer p _ fun u => s.still_takeCbRead p u)
  | cbWrite p =>
    rw [exec_cbWrite, execCbWrite] at h
    exact .of_quiet h (s.still_takeTransfer p _ fun u => s.still_takeCbWrite p u)
  | push p =>
    rw [exec_push, execPush] at h
    exact .of_event h (s.acted_ring p .push _ fun u d c => .pushed _ _ p c u false)
  | pushLast p =>
    rw [exec_pushLast, execPushLast] at h
    exact .of_event h (s.acted_ring p .pushLast _ fun u d c => .pushed _ _ p c u true)
  | pop p =>
    rw [exec_pop, execPop] at h
    exact .of_event h (s.acted_ring p .pop _ fun u d c => .popped _ p c u.burst)
  | peek p =>
    rw [exec_peek, execPeek] at h
    exact .of_event h (s.acted_ring p .peek _ fun u d c => .quiet _ (State.still_takePeek (s.handOn p u d) p u d c))
  | state p =>
    rw [exec_state, execState] at h
    exact .of_event h (s.acted_ring p .state _ fun u d c => .quiet (State.onLive (s.handOn p u d) _)
      ⟨Live.answerOk_ctxs _ _ _, Live.answerOk_jobs _ _ _⟩)
  | bitfieldTransfer p =>
    rw [exec_bitfieldTransfer, execBitfieldTransfer] at h
    exact .of_quiet h (s.still_takeTransfer p _ fun u => s.still_takeBitfield p u)
  | bitfieldPlainWrite => exact .of_quiet h s.still_completeBitfield
  | set => exact .of_quiet h s.still_completeBitfield
  | clear => exact .of_quiet h s.still_completeBitfield
  | toggle => exact .of_quiet h s.still_completeBitfield
  | bitfieldPlainRead => exact .of_quiet h s.still_completeBitfield
  | fetchAndClear => exact .of_quiet h s.still_completeBitfield
  | compareRead => exact .of_quiet h s.still_completeBitfield
  | arbiterGrant => exact .of_event h s.acted_grant
  | jobPresentation prefer =>
    rw [exec_jobPresentation, execJobPresentation] at h
    exact .of_event h (.presented prefer)
  | portReadCompletion => exact .of_quiet h s.still_completeRead
  | portWriteCompletion =>
    rw [exec_portWriteCompletion, execPortWriteCompletion] at h
    refine .of_quiet h ?_
    split
    · exact .refl s
    · exact s.still_completeUnit _ _ _ fun l => ⟨by simp, by simp⟩
  | noticeWordReadClear => exact .of_quiet h s.still_completeRead
  | peekReadCompletion =>
    rw [exec_peekReadCompletion, execPeekReadCompletion] at h
    refine .of_quiet h ?_
    split
    · exact .refl s
    · refine s.still_completeUnit _ _ _ fun l => ?_
      split <;> simp
  | entryWriteCompletion =>
    rw [exec_entryWriteCompletion, execEntryWriteCompletion] at h
    refine .of_event h ?_
    split
    · next hj => exact .written _ _ _ _ _ _ (s.currentJob_inProgress hj)
    · exact .quiet _ (.refl s)
  | entryCopyCompletion =>
    rw [exec_entryCopyCompletion, execEntryCopyCompletion] at h
    refine .of_event h ?_
    split
    · next hj => exact .copied _ _ _ _ _ _ (s.currentJob_inProgress hj)
    · exact .quiet _ (.refl s)
  | stampFetchCompletion =>
    rw [exec_stampFetchCompletion, execStampFetchCompletion] at h
    refine .of_event h ?_
    split
    · next c slot address hj =>
      obtain ⟨cache, h1, h2⟩ := s.leaveJob.stampFetched_cases s.mem c address
      exact .fetched c slot address cache _ (s.currentJob_inProgress hj) h1 h2
    · exact .quiet _ (.refl s)
  | signalUpdateGrant => exact .of_event h s.acted_grant
  | signalUpdateCompletion =>
    rw [exec_signalUpdateCompletion, execSignalUpdateCompletion] at h
    refine .of_quiet h ?_
    split
    · split <;> exact ⟨rfl, rfl⟩
    · exact .refl s
  | mirrorWrite => exact .of_event h s.acted_grant
  | globalWord => exact .of_event h s.acted_cbWrite
  | enableWord => exact .of_event h s.acted_cbWrite
  | ackConfig => exact .of_event h s.acted_cbWrite
  | ackFault => exact .of_event h s.acted_cbWrite
  | ackEngine => exact .of_event h s.acted_cbWrite
  | contextAck => exact .of_event h s.acted_cbWrite
  | stageRecordWord => exact .of_event h s.acted_cbWrite
  | windowRecordApply => exact .of_event h s.acted_cbWrite
  | contextRecordApply => exact .of_event h s.acted_cbWrite
  | flush => exact .of_event h s.acted_cbWrite
  | cbPlainWrite => exact .of_event h s.acted_cbWrite
  | tick order => exact .of_event h (s.acted_tick order)
  | idleExpiry p => exact .of_event h (s.acted_tick _)
  | stallExpiry p => exact .of_event h (s.acted_tick _)
  | waitExpiry p => exact .of_event h (s.acted_tick _)
  | holdoffExpiry c => exact .of_event h (s.acted_tick _)
  | stale c => exact .of_event h (s.acted_tick _)
  | portReset p late =>
    cases h
    split
    · exact .still _ ⟨rfl, rfl⟩
    · split
      · exact .still _ (.refl s)
      · exact .portReset p late
  | portResetRelease p standing =>
    cases h
    split
    · exact .still _ ⟨rfl, rfl⟩
    · split
      · exact .still _ (State.still_takeStanding { s with portReset := s.portReset.set p false } p standing)
      · exact .still _ (.refl s)
  | powerOnReset cbsel memsz =>
    cases h
    exact .powerOnReset _ rfl
  | powerOnResetRelease a b =>
    cases h
    split
    · exact .still _ ((State.still_takeStanding { s with inReset := false } .A a).trans
        (State.still_takeStanding _ .B b))
    · exact .still _ (.refl s)
  | mirrorUnitCompletion => exact .of_quiet h ⟨rfl, rfl⟩

/-- A law of the live state that each thing a command can do keeps is kept by every step: on the empty queue a step is a
clock period, which counts the prescaler or is a tick (R74). -/
theorem law_of_step {P : Live → Prop}
    (keeps : ∀ s t : State, P s.toLive → s.Steps t → P t.toLive) {s t : State} (hs : P s.toLive)
    (h : step s = .next t) : P t.toLive := by
  unfold step at h
  split at h
  · cases h
    refine keeps s _ hs ?_
    unfold State.clockPeriod
    split
    · exact .still _ (.refl s)
    · split
      · exact .still _ ⟨rfl, rfl⟩
      · exact .event _ (s.acted_tick [])
  · next c rest _ => exact keeps { s with pending := rest } t hs (exec_steps h)

end Sys2Proof.Machine
end

section
/-! PROOFS. The laws of the contexts and of the job list, from what a step can do (R9, R10, R16, R19, R80, R85, R155). -/

namespace Sys2Proof.Machine

/-! ## What the monitor does to the queues (R136) -/

/-- What one word of a permitted control-block write does to the contexts and the job list, where it acts. -/
inductive State.Monitored (s : State) : Live → Prop where
  | quiet (u : State) : s.Still u → s.Monitored u.toLive
  | withdrawn (c : Fin 8) : s.Monitored (s.withdraw c)
  | installed (c : Fin 8) : s.contextReason c s.ctxs[c].staged = none →
      s.Monitored (s.installContext c (s.bound c) s.ctxs[c].staged)
  | flushed (c : Fin 8) : s.Monitored (s.flush s.tick c)

theorem State.still_refuseConfig (s : State) (p : Port) (table : Table) (n : Nat) (reason : Reason) :
    s.Still (s.refuseConfig p table n reason) := ⟨rfl, rfl⟩

theorem State.still_globalAck (s : State) (p : Port) (w : Word) : s.Still (s.globalAck p w) := by
  unfold State.globalAck
  dsimp only
  split <;> split <;> split <;> exact ⟨rfl, rfl⟩

theorem State.monitored_applyWindow (s : State) (p : Port) (w : Fin 16) : s.Monitored (s.applyWindow p w).toLive := by
  unfold State.applyWindow
  split
  · exact .quiet _ (s.still_refuseConfig p _ _ _)
  · unfold State.installWindow
    dsimp only
    split
    · exact .withdrawn _
    · exact .quiet _ ⟨rfl, rfl⟩

theorem State.monitored_applyContext (s : State) (p : Port) (c : Fin 8) : s.Monitored (s.applyContext p c).toLive := by
  unfold State.applyContext
  split
  · exact .quiet _ (s.still_refuseConfig p _ _ _)
  · next h => exact .installed c h

theorem State.monitored_command (s : State) (p : Port) (c : Fin 8) (code : Nat) :
    s.Monitored (s.command p c code).toLive := by
  unfold State.command
  split
  · exact .quiet _ (.refl s)
  · split
    · exact .flushed c
    · exact .quiet _ (s.still_refuseConfig p _ _ _)
  · exact .quiet _ (s.still_refuseConfig p _ _ _)

theorem State.monitored_actWord (s : State) (p : Port) (w : CbWord) : s.Monitored (s.actWord p w).toLive := by
  unfold State.actWord
  split
  · split
    · unfold State.writeGlobal
      dsimp only
      split <;> exact .quiet _ ⟨rfl, rfl⟩
    · exact .quiet _ ⟨rfl, rfl⟩
    · split
      · exact .quiet _ (s.still_globalAck p _)
      · exact .quiet _ (.refl s)
    · split
      · unfold State.contextAck
        split <;> exact .quiet _ ⟨rfl, rfl⟩
      · exact .quiet _ (.refl s)
    · exact s.monitored_applyWindow p _
    · exact s.monitored_applyContext p _
    · exact s.monitored_command p _ _
    · exact .quiet _ (.refl s)
  · exact .quiet _ (.refl s)

/-- The first pass stages: of a context it touches the staged record alone (R137). -/
theorem State.stageWord_cases (s : State) (w : CbWord) :
    s.Still (s.stageWord w) ∨
      ∃ (c : Fin 8) (r : Record), (s.stageWord w).toLive = s.modCtx c fun x => { x with staged := r } := by
  unfold State.stageWord
  split
  · split
    · exact .inl ⟨rfl, rfl⟩
    · next c i _ => exact .inr ⟨c, s.ctxs[c].staged.setWord i (mergeBytes w.enables (s.ctxs[c].staged.word i) w.data), rfl⟩
    · exact .inl (.refl s)
  · exact .inl (.refl s)

/-- A law of the live state is kept by the monitor where the staging of a word and the act of a word keep it. -/
theorem State.monitorActs_keeps {P : Live → Prop} (still : ∀ s u : State, s.Still u → P s.toLive → P u.toLive)
    (stage : ∀ (l : Live) (c : Fin 8) (r : Record), P l → P (l.modCtx c fun x => { x with staged := r }))
    (act : ∀ (s : State) (l : Live), P s.toLive → s.Monitored l → P l) {s : State} (h : P s.toLive) (p : Port)
    (words : List CbWord) : P (s.monitorActs p words).toLive := by
  unfold State.monitorActs
  refine foldl_preserves (fun u => P u.toLive) (State.actWord p) (fun u w hu => act u _ hu (u.monitored_actWord p w)) _ _
    (foldl_preserves (fun u => P u.toLive) State.stageWord (fun u w hu => ?_) _ _ h)
  rcases u.stageWord_cases w with hs | ⟨c, r, hs⟩
  · exact still u _ hs hu
  · exact hs ▸ stage _ c r hu

/-- What a passing context record has met of R139: a bound context keeps its geometry, an unbound one has nothing running. -/
theorem State.contextReason_none {s : State} {c : Fin 8} {r : Record} (h : s.contextReason c r = none) :
    (s.bound c = true → r.sameGeometry s.ctxs[c.val].applied = true) ∧
      (s.bound c = false → s.ctxs[c.val].writing = 0 ∧ s.ctxs[c.val].inCopy = 0) := by
  simp only [State.contextReason, ite_some_eq_none] at h
  obtain ⟨_, _, _, _, _, _, _, _, _, h1, h2, _⟩ := h
  refine ⟨fun hb => ?_, fun hb => ?_⟩
  · simpa [hb] using h1
  · simpa [hb] using h2

/-! ## PUBLISHED, DELIVERED, DISCARDED and the runs (R9, R16, R19) -/

theorem State.Monitored.lawful {s : State} {l : Live} (hs : s.toLive.Lawful) (h : s.Monitored l) : l.Lawful := by
  cases h with
  | quiet u hu => exact hs.of_ctxs hu.1
  | withdrawn c => exact Live.lawful_withdraw hs c
  | installed c hr => exact Live.lawful_installContext hs c _ _ (State.contextReason_none hr).1
  | flushed c => exact Live.lawful_flush hs s.tick c

theorem Live.lawful_presentJob (prefer : Port) : ∀ (n : Nat) (l : Live), l.Lawful → (Live.presentJob prefer n l).Lawful
  | 0, _, h => h
  | n + 1, l, h => by
    unfold Live.presentJob
    split
    · exact h
    · split
      · exact h.of_ctxs rfl
      · exact Live.lawful_presentJob prefer n _ (h.of_ctxs rfl)
    · exact h.of_ctxs rfl

theorem State.grantJob_ctxs (s : State) : s.grantJob.ctxs = s.ctxs := by
  unfold State.grantJob
  split
  · rfl
  · split <;> rfl

theorem State.Acted.lawful {s : State} {l : Live} (hs : s.toLive.Lawful) (h : s.Acted l) : l.Lawful := by
  cases h with
  | quiet u hu => exact hs.of_ctxs hu.1
  | pushed i idle p c t last => exact Live.lawful_append (Live.lawful_setIface hs p i) s.tick c p idle t last
  | popped i p c burst => exact Live.lawful_popRead (Live.lawful_setIface hs p i) s.tick c p burst
  | presented prefer => exact Live.lawful_presentJob prefer _ _ hs
  | granted r => exact hs.of_ctxs (State.grantJob_ctxs _)
  | written c slot address header payload p _ => exact Live.lawful_entryWritten (l := s.jobLeft) (hs.of_ctxs rfl) s.tick c slot p
  | copied c slot address payloadMax p r _ => exact Live.lawful_copyCompleted (l := s.jobLeft) (hs.of_ctxs rfl) s.tick c p r
  | fetched c slot address cache u _ hc _ =>
    exact (hs.modCtx_same c (fun x => { x with cache := cache }) fun _ hx =>
      hx.congr rfl rfl rfl rfl rfl rfl rfl rfl rfl rfl rfl rfl).of_ctxs hc
  | monitored u p words hu =>
    exact State.monitorActs_keeps (P := Live.Lawful) (fun _ _ hu h => h.of_ctxs hu.1)
      (fun _ c _ h => h.modCtx_same c _ fun _ hx => hx.congr rfl rfl rfl rfl rfl rfl rfl rfl rfl rfl rfl rfl)
      (fun _ _ h hm => hm.lawful h) (hs.of_ctxs hu.1) p words
  | ticked order => exact foldl_lawful _ (fun _ part h => Live.lawful_tickPart h _ part) _ (Live.lawful_countDown hs)

theorem State.Steps.lawful {s t : State} (hs : s.toLive.Lawful) (h : s.Steps t) : t.toLive.Lawful := by
  cases h with
  | still _ ht => exact hs.of_ctxs ht.1
  | event u hu => exact closeEvent_lawful s u (hu.lawful hs)
  | portReset p late => exact settle_lawful s _ (s.resetPort_lawful hs p late)
  | powerOnReset _ ht => exact ht ▸ Live.lawful_reset

/-- Settles O4: every change a kind of step makes to the live state keeps `Live.Lawful`, which is the two laws together. -/
theorem stepsKeepTheCounterAndRunLaws : Obligations.StepsKeepTheCounterAndRunLaws := by
  intro s t hs h
  rw [← State.lawful_iff] at hs ⊢
  exact law_of_step (fun _ _ h k => k.lawful h) hs h

end Sys2Proof.Machine
end

section
/-! PROOFS. The laws of the engine job list (R10, R80, R85, R155). -/

namespace Sys2Proof.Machine

/-! ## The running work (R10, R155) -/

theorem State.Still.work {s u : State} (h : s.Still u) : u.toLive.work = s.toLive.work := Live.work_of_eq h.1 h.2

theorem State.Monitored.workLaw {s : State} {l : Live} (hs : s.toLive.WorkLaw) (h : s.Monitored l) : l.WorkLaw := by
  cases h with
  | quiet u hu => exact hs.of_work hu.work
  | withdrawn c => exact hs.of_work (Live.work_withdraw _ c)
  | installed c hr =>
    obtain ⟨hg, hn⟩ := State.contextReason_none hr
    exact hs.installContext c _ _ hg hn
  | flushed c => exact hs.flush s.tick c

/-- The STAMP_FETCH in progress leaves the list: no port's job does (R156). -/
theorem State.jobLeft_workJobs_of_fetch {s : State} {c : Fin 8} {slot address : Nat}
    (hj : s.jobInProgress = some (.stampFetch c slot address)) : s.jobLeft.workJobs = s.toLive.workJobs := by
  obtain ⟨before, after, e, he, hl, hrest⟩ := Live.jobInProgress_split hj
  simp [Live.workJobs, State.jobLeft, hl ▸ hrest, hl, he, Job.owner]

theorem State.Acted.workLaw {s : State} {l : Live} (hs : s.toLive.WorkLaw) (h : s.Acted l) : l.WorkLaw := by
  cases h with
  | quiet u hu => exact hs.of_work hu.work
  | pushed i idle p c t last => exact Live.WorkLaw.append (hs.of_work (Live.work_setIface _ p i)) s.tick c p idle t last
  | popped i p c burst => exact Live.WorkLaw.popRead (hs.of_work (Live.work_setIface _ p i)) s.tick c p burst
  | presented prefer => exact hs.of_work (Live.work_presentJob prefer _ _)
  | granted r => exact hs.of_work (State.grantJob_work _)
  | written c slot address header payload p hj => exact hs.entryWritten s.tick hj
  | copied c slot address payloadMax p r hj => exact hs.copyCompleted s.tick hj r
  | fetched c slot address cache u hj hc hu =>
    refine hs.of_work (Live.work_eq (fun d => ?_) ?_)
    · rw [hc]
      exact Live.work_ctx (Live.work_modCtx c (fun x => { x with cache := cache }) rfl) d
    · rw [← State.jobLeft_workJobs_of_fetch hj]
      simp only [Live.workJobs, hu]
  | monitored u p words hu =>
    exact State.monitorActs_keeps (P := Live.WorkLaw) (fun _ _ hu h => h.of_work hu.work)
      (fun _ c _ h => h.of_work (Live.work_modCtx c _ rfl)) (fun _ _ h hm => hm.workLaw h) (hs.of_work hu.work) p words
  | ticked order =>
    exact foldl_workLaw _ (fun _ part h => Live.WorkLaw.tickPart h _ part) _ (hs.of_work (Live.work_countDown _))

theorem State.Steps.workLaw {s t : State} (hs : s.toLive.WorkLaw) (h : s.Steps t) : t.toLive.WorkLaw := by
  cases h with
  | still _ ht => exact hs.of_work ht.work
  | event u hu => exact closeEvent_workLaw s u (hu.workLaw hs)
  | portReset p late => exact settle_workLaw s _ (s.resetPort_workLaw hs p late)
  | powerOnReset _ ht => exact ht ▸ Live.workLaw_reset

/-! ## Nothing is owed after a close (R20, R80, R85) -/

/-- Context `c` owes no STAMP_FETCH and asks for no SIGNAL_UPDATE and no status item. -/
def Live.Settled (l : Live) (c : Fin 8) : Prop :=
  l.needsFetch c = false ∧ l.ctxs[c.val].signalDue = false ∧ l.ctxs[c.val].statusDue = false

/-- No placing of jobs has a context need a STAMP_FETCH again: R80 reads the core of the context and its fetches on the
list. -/
theorem Live.Placed.needsFetch {l m : Live} (h : l.Placed m) {c : Fin 8} (hn : l.needsFetch c = false) :
    m.needsFetch c = false := by
  obtain ⟨ha, _, _, _, _, _, _, _, _, _, _, _, _, _, _, _, _, _, hv, _, hf⟩ := Ctx.core_eq_fields (h.core c)
  have hr := Ctx.core_ready (h.core c)
  obtain ⟨new, hj, _⟩ := h.jobs
  simp only [Live.needsFetch, Fin.getElem_fin, hr, ha, hv, hf, hj, List.any_append, Bool.and_eq_false_iff,
    Bool.not_eq_false', Bool.or_eq_true] at hn ⊢
  exact hn.imp_right .inl

section placing
variable (b l : Live) (c d : Fin 8)

theorem Live.placeFetch_marks : (l.placeFetch c).ctxs[d.val].signalDue = l.ctxs[d.val].signalDue ∧
    (l.placeFetch c).ctxs[d.val].statusDue = l.ctxs[d.val].statusDue := by
  unfold Live.placeFetch
  split
  · rw [Live.modCtx_ctxs]
    split
    · next e => exact e ▸ ⟨rfl, rfl⟩
    · exact ⟨rfl, rfl⟩
  · exact ⟨rfl, rfl⟩

theorem Live.placeSignal_ctxs : (Live.placeSignal b l c).ctxs[d.val] =
    if d = c then { l.ctxs[c.val] with signalDue := false, statusDue := false } else l.ctxs[d.val] := by
  have hj : (if Live.needsSignal b l c then l.addJob (.signalUpdate c) else l).ctxs = l.ctxs := by
    split <;> rfl
  simp only [Live.placeSignal, Live.modCtx_ctxs, hj]

/-- A context whose STAMP_FETCH was placed needs none (R80). -/
theorem Live.placeFetch_needsFetch : (l.placeFetch c).needsFetch c = false := by
  unfold Live.placeFetch
  split
  · simp [Live.needsFetch, Job.isFetchOf]
  · next h => simpa using h

/-- Placing the jobs of context `c` settles it, and leaves a settled context settled (R80, R85). -/
theorem Live.settled_place (h : d = c ∨ l.Settled d) : (Live.placeSignal b (l.placeFetch c) c).Settled d := by
  have hf : (l.placeFetch c).needsFetch d = false := by
    rcases h with rfl | h
    · exact l.placeFetch_needsFetch d
    · exact (l.placed_placeFetch c).needsFetch h.1
  refine ⟨(Live.placed_placeSignal b _ c).needsFetch hf, ?_⟩
  rw [Live.placeSignal_ctxs]
  obtain ⟨h1, h2⟩ := l.placeFetch_marks c d
  split
  · exact ⟨rfl, rfl⟩
  · next hd =>
    obtain ⟨_, k1, k2⟩ := h.resolve_left hd
    exact ⟨h1.trans k1, h2.trans k2⟩

end placing

theorem foldl_settled (b : Live) : ∀ (cs : List (Fin 8)) (l : Live) (d : Fin 8), d ∈ cs ∨ l.Settled d →
    (cs.foldl (fun l c => Live.placeSignal b (l.placeFetch c) c) l).Settled d
  | [], _, _, h => h.resolve_left List.not_mem_nil
  | c :: rest, l, d, h => by
    refine foldl_settled b rest _ d ?_
    rcases h with h | h
    · rcases List.mem_cons.1 h with h | h
      · exact .inr (Live.settled_place b l c d (.inl h))
      · exact .inl h
    · exact .inr (Live.settled_place b l c d (.inr h))

/-- Whatever the event owed is placed at its close. -/
theorem closeJobs_settled (b l : Live) (c : Fin 8) : (closeJobs b l).Settled c :=
  foldl_settled b allCtxs l c (.inl (mem_allCtxs c))

theorem State.Steps.settled {s t : State} (hs : ∀ c, s.toLive.Settled c) (h : s.Steps t) :
    ∀ c, t.toLive.Settled c := by
  cases h with
  | still _ ht => exact State.JobsPlaced.of_eq hs ht.1 ht.2
  | event u _ => exact closeJobs_settled _ _
  | portReset p late => exact closeJobs_settled _ _
  | powerOnReset _ ht =>
    intro c
    have e : Live.reset.ctxs[c.val] = Ctx.reset := by simp [Live.reset]
    simp [ht, Live.Settled, Live.needsFetch, e, Ctx.reset]

/-! ## One STAMP_FETCH and one SIGNAL_UPDATE of a context (R155) -/

/-- The context jobs on the list, without how far they have come (section 9.4). -/
def Live.contextJobs (l : Live) : List Job := (l.jobs.map JobEntry.job).filter fun j => j.owner.isNone

/-- At most one STAMP_FETCH and one SIGNAL_UPDATE of each context is among the jobs (R155). -/
def OneOfEach (js : List Job) : Prop :=
  ∀ c : Fin 8, js.countP (Job.isFetchOf c) ≤ 1 ∧ js.countP (Job.isSignalOf c) ≤ 1

theorem OneOfEach.sublist {js ks : List Job} (h : OneOfEach js) (hs : ks.Sublist js) : OneOfEach ks := fun c =>
  ⟨hs.countP_le.trans (h c).1, hs.countP_le.trans (h c).2⟩

/-- A test that only a context job passes counts the same among the context jobs. -/
theorem Live.countP_contextJobs (l : Live) (q : Job → Bool) (hq : ∀ j, q j = true → j.owner = none) :
    l.contextJobs.countP q = l.jobs.countP fun e => q e.job := by
  simp only [Live.contextJobs, List.countP_filter, List.countP_map]
  congr 1
  funext e
  cases hb : q e.job with
  | false => simp [hb]
  | true => simp [hb, hq e.job hb]

theorem Job.owner_of_isFetchOf {c : Fin 8} {j : Job} (h : j.isFetchOf c = true) : j.owner = none := by
  cases j <;> first | rfl | cases h

theorem Job.owner_of_isSignalOf {c : Fin 8} {j : Job} (h : j.isSignalOf c = true) : j.owner = none := by
  cases j <;> first | rfl | cases h

theorem State.contextJobLaw_iff (s : State) : s.ContextJobLaw ↔ OneOfEach s.contextJobs := by
  refine forall_congr' fun c => ?_
  rw [Live.countP_contextJobs _ _ fun j => Job.owner_of_isFetchOf,
    Live.countP_contextJobs _ _ fun j => Job.owner_of_isSignalOf]

theorem sublist_of_eq {α : Type} {xs ys : List α} (h : xs = ys) : xs.Sublist ys := h ▸ .refl _

theorem Live.contextJobs_of_jobs {l m : Live} (h : m.jobs = l.jobs) : m.contextJobs = l.contextJobs := by
  simp only [Live.contextJobs, h]

theorem Live.contextJobs_sublist {l m : Live} (h : m.jobs.Sublist l.jobs) : m.contextJobs.Sublist l.contextJobs :=
  (h.map _).filter _

/-! ### Operations that place no context job -/

section same
variable (l : Live) (now : BitVec 16) (c : Fin 8) (p : Port)

theorem Live.contextJobs_addJob (j : Job) (h : j.owner.isSome = true) : (l.addJob j).contextJobs = l.contextJobs := by
  have hn : j.owner.isNone = false := by simpa using h
  simp [Live.contextJobs, hn]

@[simp] theorem Live.contextJobs_modCtx (f : Ctx → Ctx) : (l.modCtx c f).contextJobs = l.contextJobs := rfl
@[simp] theorem Live.contextJobs_raise (k : Kind) : (l.raise c k).contextJobs = l.contextJobs := rfl
@[simp] theorem Live.contextJobs_setAssembly (x : Assembly) : (l.setAssembly p x).contextJobs = l.contextJobs := rfl
@[simp] theorem Live.contextJobs_setLatch (x : Latch) : (l.setLatch p x).contextJobs = l.contextJobs := rfl
@[simp] theorem Live.contextJobs_setIface (x : Iface) : (l.setIface p x).contextJobs = l.contextJobs := rfl
@[simp] theorem Live.contextJobs_removeHeld : (l.removeHeld c p).contextJobs = l.contextJobs := rfl
@[simp] theorem Live.contextJobs_holdItem (i : HeldItem) : (l.holdItem c i).contextJobs = l.contextJobs := rfl
@[simp] theorem Live.contextJobs_answerOk (a : Answer) : (l.answerOk p a).contextJobs = l.contextJobs :=
  Live.contextJobs_of_jobs (by simp)
@[simp] theorem Live.contextJobs_answerError (k : FaultKind) : (l.answerError p k).contextJobs = l.contextJobs :=
  Live.contextJobs_of_jobs (by simp)
@[simp] theorem Live.contextJobs_countRejected : (l.countRejected c).contextJobs = l.contextJobs :=
  Live.contextJobs_of_jobs (by simp)
@[simp] theorem Live.contextJobs_reject : (l.reject c).contextJobs = l.contextJobs :=
  Live.contextJobs_of_jobs (by simp)
@[simp] theorem Live.contextJobs_countDiscarded (n : Nat) : (l.countDiscarded c n).contextJobs = l.contextJobs :=
  Live.contextJobs_of_jobs (by simp)
@[simp] theorem Live.contextJobs_countDelivered : (l.countDelivered c).contextJobs = l.contextJobs :=
  Live.contextJobs_of_jobs (by simp)
@[simp] theorem Live.contextJobs_countPublished : (l.countPublished c).contextJobs = l.contextJobs :=
  Live.contextJobs_of_jobs (by simp)

@[simp] theorem Live.contextJobs_discard (n : Nat) : (l.discard c n).contextJobs = l.contextJobs := by
  simp [Live.discard]

@[simp] theorem Live.contextJobs_discardAll : (l.discardAll c).contextJobs = l.contextJobs := by
  unfold Live.discardAll
  split <;> simp

@[simp] theorem Live.contextJobs_reserve (k : HeldCommit) : (l.reserve now c k).contextJobs = l.contextJobs := by
  simp only [Live.reserve, Live.contextJobs_setAssembly, Live.contextJobs_removeHeld, Live.contextJobs_modCtx]
  exact l.contextJobs_addJob _ rfl

@[simp] theorem Live.contextJobs_claim (k : HeldPop) : (l.claim c k).contextJobs = l.contextJobs := by
  simp only [Live.claim, Live.contextJobs_setLatch, Live.contextJobs_removeHeld, Live.contextJobs_modCtx]
  exact l.contextJobs_addJob _ rfl

@[simp] theorem Live.contextJobs_refuseFull (k : HeldCommit) : (l.refuseFull c k).contextJobs = l.contextJobs := by
  simp [Live.refuseFull]

@[simp] theorem Live.contextJobs_answerProducer : (l.answerProducer c p).contextJobs = l.contextJobs := by
  unfold Live.answerProducer
  split <;> simp

@[simp] theorem Live.contextJobs_publishOne (w : WritingSlot) : (l.publishOne c w).contextJobs = l.contextJobs := by
  unfold Live.publishOne
  dsimp only
  split
  · split <;> simp
  · simp

@[simp] theorem Live.contextJobs_publishRun : ∀ (run : List WritingSlot) (l : Live),
    (Live.publishRun run c l).contextJobs = l.contextJobs
  | [], _ => rfl
  | w :: rest, l => (Live.contextJobs_publishRun rest _).trans (l.contextJobs_publishOne c w)

/-! ### Held lists -/

@[simp] theorem Live.contextJobs_takeCommit (k : HeldCommit) : (l.takeCommit now c k).contextJobs = l.contextJobs := by
  unfold Live.takeCommit
  split
  · split
    · simp
    · exact l.contextJobs_holdItem c _
    · split
      · simp
      · split
        · simp
        · unfold Live.overwrite
          dsimp only
          split <;> simp
  · simp

@[simp] theorem Live.contextJobs_takeEmpty (k : HeldPop) : (l.takeEmpty c k).contextJobs = l.contextJobs := by
  unfold Live.takeEmpty
  split <;> simp

@[simp] theorem Live.contextJobs_takePop (k : HeldPop) : (l.takePop c k).contextJobs = l.contextJobs := by
  unfold Live.takePop
  split <;> simp

theorem contextJobs_examineCommitList : ∀ (ks : List HeldCommit) (l : Live),
    (examineCommitList now c ks l).contextJobs = l.contextJobs
  | [], _ => rfl
  | k :: rest, l => by
    unfold examineCommitList
    dsimp only
    split
    · rfl
    · split
      · simp
      · exact (contextJobs_examineCommitList rest _).trans (l.contextJobs_takeCommit now c k)

theorem contextJobs_examinePopList : ∀ (ks : List HeldPop) (l : Live),
    (examinePopList c ks l).contextJobs = l.contextJobs
  | [], _ => rfl
  | k :: rest, l => by
    unfold examinePopList
    split
    · rfl
    · exact (contextJobs_examinePopList rest _).trans (l.contextJobs_takePop c k)

theorem contextJobs_examineStackList : ∀ (ks : List HeldItem) (l : Live),
    (examineStackList now c ks l).contextJobs = l.contextJobs
  | [], _ => rfl
  | i :: rest, l => by
    unfold examineStackList
    split
    · rfl
    · split
      · split
        · rfl
        · exact (contextJobs_examineStackList rest _).trans (l.contextJobs_takeCommit now c _)
      · split
        · rfl
        · exact (contextJobs_examineStackList rest _).trans (l.contextJobs_takePop c _)

@[simp] theorem Live.contextJobs_examineStack : (l.examineStack now c).contextJobs = l.contextJobs :=
  contextJobs_examineStackList now c _ l

@[simp] theorem Live.contextJobs_examineCommits : (l.examineCommits now c).contextJobs = l.contextJobs := by
  unfold Live.examineCommits
  split
  · simp
  · exact contextJobs_examineCommitList now c _ l

@[simp] theorem Live.contextJobs_examinePops : (l.examinePops now c).contextJobs = l.contextJobs := by
  unfold Live.examinePops
  split
  · simp
  · exact contextJobs_examinePopList c _ l

@[simp] theorem Live.contextJobs_examineCommitOf : (l.examineCommitOf now p).contextJobs = l.contextJobs := by
  unfold Live.examineCommitOf
  split
  · rfl
  · split <;> simp

@[simp] theorem Live.contextJobs_examinePopOf : (l.examinePopOf now p).contextJobs = l.contextJobs := by
  unfold Live.examinePopOf
  split
  · rfl
  · split <;> simp

@[simp] theorem Live.contextJobs_offerSpace (before : Live) :
    (Live.offerSpace before l now c).contextJobs = l.contextJobs := by
  unfold Live.offerSpace
  split
  · simp
  · split <;> simp

@[simp] theorem Live.contextJobs_operationEnds : (l.operationEnds now c).contextJobs = l.contextJobs := by
  unfold Live.operationEnds
  split <;> simp

@[simp] theorem Live.contextJobs_joinCommit (k : HeldCommit) : (l.joinCommit c k).contextJobs = l.contextJobs := rfl

@[simp] theorem Live.contextJobs_joinPop (k : HeldPop) : (l.joinPop c k).contextJobs = l.contextJobs := rfl

@[simp] theorem Live.contextJobs_arriveCommit (k : HeldCommit) :
    (l.arriveCommit now c k).contextJobs = l.contextJobs := by
  unfold Live.arriveCommit
  split <;> split <;> simp

@[simp] theorem Live.contextJobs_arrivePop (k : HeldPop) : (l.arrivePop now c k).contextJobs = l.contextJobs := by
  unfold Live.arrivePop
  split
  · split <;> simp
  · split
    · simp
    · split
      · simp
      · split <;> simp

/-! ### Pushing, popping and completions -/

@[simp] theorem Live.contextJobs_cutAssembly : (l.cutAssembly p c).contextJobs = l.contextJobs := by
  unfold Live.cutAssembly
  split
  · split <;> simp
  · rfl

theorem Live.contextJobs_append (idle : Option Nat) (t : Transfer) (last : Bool) :
    (l.append now idle p c t last).contextJobs = l.contextJobs := by
  unfold Live.append
  dsimp only
  split
  · simp [Live.overrun]
  · split <;> simp [Live.commit]

theorem Live.contextJobs_popRead (burst : Burst) : (l.popRead now p c burst).contextJobs = l.contextJobs := by
  unfold Live.popRead
  split
  · split <;> simp [Live.serveLatch, Live.cutLatch]
  · simp

theorem foldl_contextJobs {α : Type} (f : Live → α → Live) (hf : ∀ l a, (f l a).contextJobs = l.contextJobs)
    (xs : List α) (l : Live) : (xs.foldl f l).contextJobs = l.contextJobs :=
  foldl_preserves (fun m => m.contextJobs = l.contextJobs) f (fun m a hm => (hf m a).trans hm) xs l rfl

theorem Live.contextJobs_entryWritten (slot : Nat) : (l.entryWritten now c slot p).contextJobs = l.contextJobs := by
  unfold Live.entryWritten
  dsimp only
  split
  · rfl
  · rw [foldl_contextJobs _ fun m (w : WritingSlot) => m.contextJobs_examineCommitOf now w.port]
    split <;> simp

theorem Live.contextJobs_accountCopy (r : CopyRead) : (l.accountCopy c p r).contextJobs = l.contextJobs := by
  unfold Live.accountCopy
  dsimp only
  split
  · split <;> simp
  · rfl

theorem Live.contextJobs_deliverCopy (r : CopyRead) : (l.deliverCopy c p r).contextJobs = l.contextJobs := by
  unfold Live.deliverCopy
  split
  · rfl
  · split
    · unfold Live.fillLatch
      split
      · simp
      · split <;> simp
    · rfl

theorem Live.contextJobs_copyCompleted (r : CopyRead) : (l.copyCompleted now c p r).contextJobs = l.contextJobs := by
  unfold Live.copyCompleted
  dsimp only
  split <;> simp [Live.contextJobs_deliverCopy, Live.contextJobs_accountCopy]

/-! ### Withdrawal, FLUSH, records, ticks, resets -/

theorem Live.contextJobs_withdrawItem (i : HeldItem) : (Live.withdrawItem c l i).contextJobs = l.contextJobs := by
  cases i <;> simp [Live.withdrawItem]

@[simp] theorem Live.contextJobs_withdrawAssembly : (l.withdrawAssembly c p).contextJobs = l.contextJobs := by
  unfold Live.withdrawAssembly
  split
  · split <;> simp
  · rfl

@[simp] theorem Live.contextJobs_withdrawLatch : (l.withdrawLatch c p).contextJobs = l.contextJobs := by
  unfold Live.withdrawLatch
  split
  · split <;> simp [Live.cutLatch]
  · split <;> simp
  · rfl

theorem Live.contextJobs_withdraw : (l.withdraw c).contextJobs = l.contextJobs := by
  simp only [Live.withdraw, Live.contextJobs_withdrawLatch, Live.contextJobs_withdrawAssembly]
  exact foldl_contextJobs _ (fun m i => m.contextJobs_withdrawItem c i) _ _

theorem Live.contextJobs_flush : (l.flush now c).contextJobs = l.contextJobs := by
  unfold Live.flush
  split
  · rfl
  · split <;> simp

theorem Live.contextJobs_rearm : (l.rearm c).contextJobs = l.contextJobs := by
  unfold Live.rearm
  dsimp only
  split <;> rfl

theorem Live.contextJobs_installContext (bound : Bool) (r : Record) :
    (l.installContext c bound r).contextJobs = l.contextJobs := by
  unfold Live.installContext
  dsimp only
  split
  · split
    · rfl
    · exact Live.contextJobs_rearm _ c
  · rfl

theorem Live.contextJobs_tickPart (part : TickPart) : (Live.tickPart now l part).contextJobs = l.contextJobs := by
  cases part with
  | holdoff c =>
    change (l.holdoffPart c).contextJobs = _
    unfold Live.holdoffPart
    split <;> rfl
  | idle p =>
    change (l.idlePart p).contextJobs = _
    unfold Live.idlePart
    split <;> simp
  | held p =>
    change (l.heldPart now p).contextJobs = _
    unfold Live.heldPart
    split
    · rfl
    · split
      · split <;> simp [Live.expireCommit]
      · split <;> simp [Live.expirePop]
      · rfl
  | stale c =>
    change (l.stalePart now c).contextJobs = _
    unfold Live.stalePart
    split
    · split <;> simp
    · rfl

theorem Live.contextJobs_resetQueues : (l.resetQueues now p).contextJobs = l.contextJobs := by
  have hp : (l.resetPush now p).contextJobs = l.contextJobs := by
    unfold Live.resetPush
    split <;> simp
  rw [← hp]
  unfold Live.resetQueues Live.resetPop
  split
  · rfl
  · simp
  · rfl
  · rfl

end same

/-! ### The law -/

theorem State.Monitored.contextJobs {s : State} {l : Live} (h : s.Monitored l) : l.contextJobs = s.contextJobs := by
  cases h with
  | quiet u hu => exact Live.contextJobs_of_jobs hu.2
  | withdrawn c => exact Live.contextJobs_withdraw _ c
  | installed c _ => exact Live.contextJobs_installContext _ c _ _
  | flushed c => exact Live.contextJobs_flush _ s.tick c

/-- A job is presented as it stands, or leaves the list (R86, R157). -/
theorem Live.contextJobs_presentJob (prefer : Port) : ∀ (n : Nat) (l : Live),
    (Live.presentJob prefer n l).contextJobs.Sublist l.contextJobs
  | 0, _ => .refl _
  | n + 1, l => by
    have stays : ∀ {i : Nat} {j : Job} (e : JobEntry), chooseJob prefer l.jobs = some (i, j) → e.job = j →
        Live.contextJobs { l with jobs := l.jobs.set i e } = l.contextJobs := fun {i j} e hc he => by
      obtain ⟨before, after, e', hl, rfl, hj⟩ := chooseJob_spec hc
      simp [Live.contextJobs, hl, he, hj]
    unfold Live.presentJob
    split
    · exact .refl _
    · next i c hc =>
      split
      · exact sublist_of_eq (stays _ hc rfl)
      · exact (Live.contextJobs_presentJob prefer n _).trans (Live.contextJobs_sublist (List.eraseIdx_sublist _ _))
    · next hc => exact sublist_of_eq (stays _ hc rfl)

theorem State.grantJob_contextJobs (s : State) : s.grantJob.contextJobs.Sublist s.contextJobs := by
  unfold State.grantJob
  split
  · exact .refl _
  · split
    · exact Live.contextJobs_sublist List.eraseP_sublist
    · refine sublist_of_eq ?_
      simp only [Live.contextJobs, List.map_map]
      congr 1
      refine List.map_congr_left fun e _ => ?_
      simp only [Function.comp_apply]
      split <;> rfl

theorem State.jobLeft_contextJobs (s : State) : s.jobLeft.contextJobs.Sublist s.contextJobs :=
  Live.contextJobs_sublist List.eraseP_sublist

/-- Before its close an event places no context job. -/
theorem State.Acted.contextJobs {s : State} {l : Live} (h : s.Acted l) : l.contextJobs.Sublist s.contextJobs := by
  cases h with
  | quiet u hu => exact sublist_of_eq (Live.contextJobs_of_jobs hu.2)
  | pushed i idle p c t last => exact sublist_of_eq (Live.contextJobs_append _ s.tick c p idle t last)
  | popped i p c burst => exact sublist_of_eq (Live.contextJobs_popRead _ s.tick c p burst)
  | presented prefer => exact Live.contextJobs_presentJob prefer _ _
  | granted r => exact State.grantJob_contextJobs _
  | written c slot address header payload p _ =>
    rw [Live.contextJobs_entryWritten]
    exact s.jobLeft_contextJobs
  | copied c slot address payloadMax p r _ =>
    rw [Live.contextJobs_copyCompleted]
    exact s.jobLeft_contextJobs
  | fetched c slot address cache u _ _ hu =>
    rw [Live.contextJobs_of_jobs hu]
    exact s.jobLeft_contextJobs
  | monitored u p words hu =>
    exact sublist_of_eq (State.monitorActs_keeps (P := fun m => m.contextJobs = s.contextJobs)
      (fun _ _ hu h => (Live.contextJobs_of_jobs hu.2).trans h) (fun _ _ _ h => h)
      (fun _ _ h hm => hm.contextJobs.trans h) (Live.contextJobs_of_jobs hu.2) p words)
  | ticked order => exact sublist_of_eq (foldl_contextJobs _ (fun m part => m.contextJobs_tickPart _ part) _ _)

section placing
variable {l : Live} (h : OneOfEach l.contextJobs) (b : Live) (c : Fin 8)
include h

/-- A job joins the list where no other of its kind and context is on it. -/
theorem OneOfEach.addJob (j : Job) (hf : ∀ d, j.isFetchOf d = true → ∀ e ∈ l.jobs, e.job.isFetchOf d = false)
    (hs : ∀ d, j.isSignalOf d = true → ∀ e ∈ l.jobs, e.job.isSignalOf d = false) :
    OneOfEach (l.addJob j).contextJobs := by
  have count : ∀ q : Job → Bool, (∀ k, q k = true → k.owner = none) → l.contextJobs.countP q ≤ 1 →
      (q j = true → ∀ e ∈ l.jobs, q e.job = false) → (l.addJob j).contextJobs.countP q ≤ 1 := fun q hq h1 hn => by
    rw [Live.countP_contextJobs _ q hq] at h1 ⊢
    rw [Live.addJob_jobs, List.countP_append, List.countP_singleton]
    split
    · next hj => rw [List.countP_eq_zero.2 fun e he => by simp [hn hj e he]]
    · exact h1
  exact fun d => ⟨count _ (fun _ => Job.owner_of_isFetchOf) (h d).1 (hf d),
    count _ (fun _ => Job.owner_of_isSignalOf) (h d).2 (hs d)⟩

theorem OneOfEach.placeFetch : OneOfEach (l.placeFetch c).contextJobs := by
  unfold Live.placeFetch
  split
  · next hn =>
    rw [Live.contextJobs_modCtx]
    refine h.addJob _ (fun d hd e he => ?_) fun d hd => by cases hd
    have hc : d = c := by simpa [Job.isFetchOf] using hd
    simp only [Live.needsFetch, Bool.and_eq_true, Bool.not_eq_true', List.any_eq_false, Bool.not_eq_true] at hn
    exact hc ▸ hn.2 e he
  · exact h

theorem OneOfEach.placeSignal : OneOfEach (Live.placeSignal b l c).contextJobs := by
  unfold Live.placeSignal
  rw [Live.contextJobs_modCtx]
  split
  · next hn =>
    refine h.addJob _ (fun d hd => by cases hd) fun d hd e he => ?_
    have hc : d = c := by simpa [Job.isSignalOf] using hd
    simp only [Live.needsSignal, Bool.and_eq_true, Bool.not_eq_true', List.any_eq_false, Bool.not_eq_true] at hn
    exact hc ▸ hn.2 e he
  · exact h

/-- The close of an event places a context job only where the list has none of its kind (R80, R85). -/
theorem OneOfEach.closeJobs : OneOfEach (closeJobs b l).contextJobs :=
  foldl_preserves (fun m : Live => OneOfEach m.contextJobs) _ (fun _ c hm => (hm.placeFetch c).placeSignal b c) _ _ h

end placing

theorem State.Steps.oneOfEach {s t : State} (hs : OneOfEach s.contextJobs) (h : s.Steps t) :
    OneOfEach t.contextJobs := by
  cases h with
  | still _ ht => exact hs.sublist (sublist_of_eq (Live.contextJobs_of_jobs ht.2))
  | event u hu =>
    exact OneOfEach.closeJobs (l := closeWatermarks s.toLive u.toLive) (hs.sublist hu.contextJobs) _
  | portReset p late =>
    refine OneOfEach.closeJobs (hs.sublist (sublist_of_eq ?_)) _
    exact Live.contextJobs_resetQueues ((s.toLive.resetAttn p).resetIface p) s.tick p
  | powerOnReset _ ht => exact fun c => by simp [ht, Live.contextJobs, Live.reset]

/-- Settles O7, law by law: each holds at the close of an event and survives every change a step makes; the bound on
the list follows from the laws of its jobs. -/
theorem stepsKeepTheJobLaws : Obligations.StepsKeepTheJobLaws := by
  refine ⟨fun s t h => ⟨fun hs => ?_, fun hs => ?_, fun hs => ?_⟩, fun s hs c => hs.bounded c⟩
  · exact law_of_step (P := fun l => ∀ c, l.Settled c) (fun _ _ h k => k.settled h) hs h
  · rw [State.contextJobLaw_iff] at hs ⊢
    exact law_of_step (P := fun l => OneOfEach l.contextJobs) (fun _ _ h k => k.oneOfEach h) hs h
  · exact law_of_step (fun _ _ h k => k.workLaw h) hs h

end Sys2Proof.Machine
end

section
/-! PROOFS. The reset state and power-on reset (R22, R131, R160, R170), and the mirror list at the close of an event
(R146). -/

namespace Sys2Proof.Machine

/-! ## The reset state -/

@[simp] theorem Live.reset_ctxs (c : Fin 8) : Live.reset.ctxs[c.val] = Ctx.reset := by simp [Live.reset]

theorem Live.reset_settled (c : Fin 8) : Live.reset.Settled c := by
  simp [Live.Settled, Live.needsFetch, Ctx.reset]

theorem Item.mem_all (i : Item) : i ∈ Item.all := by
  cases i with
  | summary p => cases p <;> decide
  | notice p c => revert c; cases p <;> decide
  | faultRecord p => cases p <;> decide
  | configStatus => decide
  | engineFault => decide
  | context c => revert c; decide

theorem Item.nodup_all : Item.all.Nodup := by decide

theorem State.reset_window (w : Fin 16) : State.reset.windows[w] = ⟨Record.zero, Record.zero⟩ := by
  simp [State.reset]

theorem State.reset_bindingLaw : State.reset.BindingLaw := by
  have hz : ∀ w : Fin 16, ¬State.reset.windows[w].applied.isRing = true := fun w => by
    rw [State.reset_window]
    decide
  exact ⟨fun v _ hv => absurd hv (hz v), fun w hw => absurd hw (hz w)⟩

theorem State.reset_latchLaw : State.reset.LatchLaw := by
  intro p c header payload remaining h
  cases p <;> cases h

/-- Settles O3: the reset state meets the invariants of the step laws; its mirror list holds every item once. -/
theorem resetObeysTheLaws : Obligations.ResetObeysTheLaws := by
  obtain ⟨hcounter, hring⟩ := (State.lawful_iff State.reset).1 Live.lawful_reset
  exact ⟨hcounter, hring, Item.nodup_all, State.reset_bindingLaw, Live.reset_settled,
    (State.contextJobLaw_iff _).2 fun _ => ⟨Nat.zero_le _, Nat.zero_le _⟩, Live.workLaw_reset, State.reset_latchLaw,
    State.reset_mem_wf⟩

/-! ## Power-on reset -/

theorem installedOf_straps (m : BitVec 2) :
    (m, installedOf m) ∈ [(0#2, 0x200000), (1#2, 0x400000), (2#2, 0x800000), (3#2, 0x1000000)] := by
  revert m
  decide

theorem cbBaseOf_straps (c m : BitVec 2) :
    (c, cbBaseOf c m) ∈ [(0#2, 0x000000), (1#2, 0x001000), (2#2, 0x100000), (3#2, installedOf m - 0x1000)] := by
  revert c m
  decide

/-- What an interrupted unit leaves differs from memory only where the unit stores (R160). -/
theorem Memory.applyLanded_outside (landed : Nat → Bool) (a : Nat) : ∀ (ws : List WordWrite) (m : Memory) (i : Nat),
    ¬storesTo ws a → (m.applyLanded landed i ws).readByte a = m.readByte a ∧
      (m.applyLanded landed i ws).parityBit a = m.parityBit a
  | [], _, _, _ => ⟨rfl, rfl⟩
  | w :: rest, m, i, h => by
    have hw : ∀ k < 4, w.enables.getLsbD k = true → memIndex (w.address + k) ≠ memIndex a :=
      fun k hk hb he => h ⟨w, List.mem_cons_self, k, hk, hb, he⟩
    have hr : ¬storesTo rest a := fun ⟨v, hv, hs⟩ => h ⟨v, List.mem_cons_of_mem w hv, hs⟩
    obtain ⟨h1, h2⟩ := m.writeWord_outside w.address w.enables w.word a hw
    obtain ⟨k1, k2⟩ := Memory.applyLanded_outside landed a rest
      (if landed i then m.writeWord w.address w.enables w.word else m) (i + 1) hr
    rw [Memory.applyLanded, k1, k2]
    split
    · exact ⟨h1, h2⟩
    · exact ⟨rfl, rfl⟩

/-- No context is bound while every applied window record is the all-zero one (R22, R89). -/
theorem State.bound_eq_false {t : State} (h : t.windows = State.reset.windows) (c : Fin 8) : t.bound c = false := by
  unfold State.bound
  rw [List.any_eq_false, h]
  intro w _
  rw [State.reset_window]
  simp [Record.isRing, Record.winEnable, Record.zero]

/-- The fields of the global word of power-on reset (R144). -/
theorem State.reset_globalWord : readClear State.reset.globalWord = false ∧ engineRoute State.reset.globalWord = 0 ∧
    idleLimit State.reset.globalWord = 0 ∧ clockMHz State.reset.globalWord = 25 ∧
    tickMicros State.reset.globalWord = 1000 := by decide

theorem Live.reset_attn (p : Port) : Live.reset.attn.get p = PortAttn.clear := by cases p <;> rfl

/-- The attention state that R131 leaves: nothing pending and nothing shown. -/
theorem PortAttn.clear_facts : PortAttn.clear.enable = 0 ∧ PortAttn.clear.summary = 0 ∧ PortAttn.clear.record = none ∧
    ∀ c : Fin 8, PortAttn.clear.pending[c] = 0 ∧ PortAttn.clear.shown[c] = 0 := by decide

/-- The counts of a context after power-on reset (R22). -/
theorem Ctx.reset_counts : Ctx.reset.writing = 0 ∧ Ctx.reset.inCopy = 0 ∧ Ctx.reset.spent = 0 ∧
    Ctx.reset.heldCount = 0 ∧ Ctx.reset.occupied = 0 := by decide

/-- Settles O59, block by block: the straps decide the memory map, and every other block takes its reset value. -/
theorem powerOnResetResetsEveryBlock : Obligations.PowerOnResetResetsEveryBlock := by
  refine ⟨fun s => ⟨installedOf_straps s.memsz, cbBaseOf_straps s.cbsel s.memsz⟩, fun s cbsel memsz => ?_⟩
  obtain ⟨hmode, hroute, hidle, hclock, htick⟩ := State.reset_globalWord
  refine ⟨_, rfl, rfl, rfl, rfl, rfl, rfl, fun c => ?_, fun w => ?_, fun p => ?_, rfl, rfl, rfl, rfl, hmode, hroute, hidle,
    hclock, htick, rfl, rfl, rfl, rfl, ⟨_, rfl⟩, fun a ha => Memory.applyLanded_outside _ a _ _ _ ha⟩
  · have hctx : State.reset.ctxs[c] = Ctx.reset := Live.reset_ctxs c
    obtain ⟨hwriting, hcopy, hspent, hheld, hoccupied⟩ := Ctx.reset_counts
    rw [hctx]
    exact ⟨rfl, rfl, rfl, rfl, hwriting, hcopy, hspent, hheld, hoccupied, rfl, rfl, rfl, rfl, rfl, rfl, rfl, rfl, rfl, rfl,
      rfl, rfl, rfl, rfl, rfl, State.bound_eq_false rfl c⟩
  · have hw := State.reset_window w
    exact ⟨congrArg Window.applied hw, congrArg Window.staged hw⟩
  · have hattn : State.reset.attn.get p = PortAttn.clear := Live.reset_attn p
    obtain ⟨henable, hsummary, hrecord, hkinds⟩ := PortAttn.clear_facts
    rw [hattn]
    refine ⟨?_, ?_, ?_, ?_, ?_, henable, hsummary, hrecord, rfl, hkinds⟩ <;> cases p <;> rfl

/-! ## The mirror list -/

/-- The value of an item is read of the live state and the two shared records (R145). -/
theorem State.itemWords_congr {s u : State} (hl : u.toLive = s.toLive) (hc : u.configStatus = s.configStatus)
    (he : u.engineFault = s.engineFault) (i : Item) : u.itemWords i = s.itemWords i := by
  cases i <;> simp only [State.itemWords, hl, hc, he]

theorem mem_dirtied {s u : State} {l : Live} {i : Item} : i ∈ dirtied s l u ↔
    (u.itemWords i ≠ s.itemWords i ∨ ∃ c : Fin 8, i = .context c ∧ l.ctxs[c].statusDue = true) ∧ i ∉ u.mirror := by
  simp only [dirtied, List.mem_filter, Item.mem_all, true_and, Bool.and_eq_true, Bool.or_eq_true,
    Live.marksItem_eq_true, bne_iff_ne, Bool.not_eq_true', List.contains_eq_mem, decide_eq_false_iff_not]
  rw [or_comm, ne_comm]
  rfl

theorem Item.length_le_of_nodup {xs : List Item} (h : xs.Nodup) : xs.length ≤ 30 :=
  (List.subperm_of_subset h fun i _ => i.mem_all).length_le

/-- Settles O11, from what `dirtied` filters: the items whose words changed or that were raised, not yet listed. -/
theorem dirtyItemsJoinTheMirrorList : Obligations.DirtyItemsJoinTheMirrorList := by
  refine ⟨by decide, Item.mem_all, fun s u => ?_⟩
  obtain ⟨v, hm, hl, hc, he, hj⟩ := closeEvent_mirror s u
  have hjoin : ∀ i, i ∈ dirtied s (closeWatermarks s.toLive u.toLive) v ↔ ((closeEvent s u).itemWords i ≠ s.itemWords i ∨
      ∃ c : Fin 8, i = .context c ∧ u.ctxs[c].statusDue = true) ∧ i ∉ u.mirror := fun i => by
    rw [mem_dirtied, State.itemWords_congr (s := closeEvent s u) hl hc he, hm]
    simp
  refine ⟨_, hj, List.filter_sublist, hjoin, fun hn => ?_⟩
  have hnodup : (closeEvent s u).mirror.Nodup := by
    rw [hj]
    refine hn.append (Item.nodup_all.filter _) fun i hi hd => ?_
    exact ((hjoin i).1 hd).2 hi
  exact ⟨hnodup, Item.length_le_of_nodup hnodup⟩

end Sys2Proof.Machine
end

section
/-! PROOFS. The checks of the window and context records, in the order of their tables (R90, R138, R139), and the fields of a
record (section 8.7). -/

namespace Sys2Proof.Machine

/-! ## The first check that fails -/

/-- A check at the head of a table: where it fails it gives the reason. -/
theorem ite_eq_firstFailing {c q : Prop} {_ : Decidable c} {_ : Decidable q} {reason : Reason} {x : Option Reason}
    {rest : List (Bool × Reason)} (h : c ↔ ¬q) (hx : x = firstFailing rest) :
    (if c then some reason else x) = firstFailing ((decide q, reason) :: rest) := by
  subst hx
  by_cases hq : q <;> simp [firstFailing, h, hq]

theorem firstFailing_cons_eq_none {q : Prop} {_ : Decidable q} {reason : Reason} {rest : List (Bool × Reason)} :
    firstFailing ((decide q, reason) :: rest) = none ↔ q ∧ firstFailing rest = none := by
  by_cases hq : q <;> simp [firstFailing, hq]

theorem firstFailing_nil : firstFailing [] = none := rfl

/-! ## Fields (section 8.7) -/

theorem bits_lt (w : Word) (lo len : Nat) : bits w lo len < 2 ^ len := BitVec.isLt _

theorem Record.winCtx_val (r : Record) : r.winCtx.val = bits r.w0 4 3 := Nat.mod_eq_of_lt (bits_lt r.w0 4 3)

theorem Record.kind_mem (r : Record) (h : r.kindCode ≠ 3) :
    (r.kindCode, r.kind) ∈ [(0, WindowKind.plain), (1, .ring), (2, .bitfield)] := by
  have hlt : r.kindCode < 4 := bits_lt r.w0 1 2
  obtain hk | hk | hk : r.kindCode = 0 ∨ r.kindCode = 1 ∨ r.kindCode = 2 := by omega
  all_goals simp [Record.kind, hk]

theorem Record.policy_eq_overwrite (r : Record) : r.policy = .overwrite ↔ r.policyCode = 2 := by
  unfold Record.policy
  split
  · next h => simp [h]
  · next h => simp [h]
  · next h => exact ⟨fun e => (nomatch e), fun e => absurd e h⟩

theorem Record.sameGeometry_iff (r a : Record) : r.sameGeometry a = true ↔ r.isLifo = a.isLifo ∧ r.slotSize = a.slotSize ∧
    r.ringBase = a.ringBase ∧ r.capacity = a.capacity ∧ r.policyCode = a.policyCode := by
  simp only [Record.sameGeometry, Bool.and_eq_true, beq_iff_eq, and_assoc]

theorem Record.sameSignal_iff (r a : Record) : r.sameSignal a = true ↔ r.signalEnable = a.signalEnable ∧
    r.signalAddress = a.signalAddress ∧ r.signalBit = a.signalBit := by
  simp only [Record.sameSignal, Bool.and_eq_true, beq_iff_eq, and_assoc]

/-! ## Window records (R90, R138) -/

theorem Record.targetSize_eq (r : Record) :
    r.targetSize = if r.kind = .bitfield then 4096 * 2 ^ r.sizeCode / 4 else 4096 * 2 ^ r.sizeCode := by
  unfold Record.targetSize Record.apertureSize
  cases r.kind <;> rfl

theorem State.meetsCb_iff (s : State) (base size : Nat) :
    s.meetsCb base size = true ↔ ¬(base + size ≤ s.cbBase ∨ s.cbBase + 4096 ≤ base) := by
  rw [← s.meetsCb_eq_false, Bool.not_eq_false]

theorem State.boundElsewhere_iff (s : State) (w : Fin 16) (c : Fin 8) : s.boundElsewhere w c = true ↔
    ¬∀ v : Fin 16, v ≠ w → s.windows[v].applied.isRing = true → s.windows[v].applied.winCtx ≠ c := by
  rw [← s.boundElsewhere_eq_false, Bool.not_eq_false]

/-- The checks of R90 in the order of its table. -/
theorem State.windowReason_eq (s : State) (w : Fin 16) (r : Record) (he : r.winEnable = true) :
    let size := 4096 * 2 ^ r.sizeCode
    let target := if r.kind = .bitfield then size / 4 else size
    s.windowReason w r = firstFailing [
      (r.kindCode ≠ 3, .range), (r.sizeCode ≤ 12, .range), (r.kind = .ring → r.sizeCode = 0, .range),
      (r.apertureBase < 67108864, .range), (r.apertureBase % size = 0, .align),
      (r.kind = .plain → r.targetBase % size = 0, .align), (r.kind = .bitfield → r.targetBase % (size / 4) = 0, .align),
      (r.kind ≠ .ring → r.targetBase + target ≤ s.installed, .memory),
      (r.kind ≠ .ring → r.targetBase + target ≤ s.cbBase ∨ s.cbBase + 4096 ≤ r.targetBase, .control),
      (r.kind = .ring → s.ctxs[r.winCtx].initialised = true, .binding),
      (r.kind = .ring → ∀ v : Fin 16, v ≠ w → s.windows[v].applied.isRing = true →
        s.windows[v].applied.winCtx ≠ r.winCtx, .binding)] := by
  unfold State.windowReason State.windowCheck
  rw [if_pos he]
  refine ite_eq_firstFailing ?_ (ite_eq_firstFailing ?_ (ite_eq_firstFailing ?_ (ite_eq_firstFailing ?_
    (ite_eq_firstFailing ?_ (ite_eq_firstFailing ?_ (ite_eq_firstFailing ?_ (ite_eq_firstFailing ?_
    (ite_eq_firstFailing ?_ (ite_eq_firstFailing ?_ (ite_eq_firstFailing ?_ firstFailing_nil.symm))))))))))
  · exact not_not.symm
  · exact not_le.symm
  · exact Classical.not_imp.symm
  · exact not_lt.symm
  · exact Iff.rfl
  · exact Classical.not_imp.symm
  · exact Classical.not_imp.symm
  · rw [r.targetSize_eq, Classical.not_imp, not_le]
  · rw [r.targetSize_eq, Classical.not_imp, s.meetsCb_iff]
  · rw [Classical.not_imp, Bool.not_eq_true]
  · rw [Classical.not_imp, s.boundElsewhere_iff]

/-- A window record passes where it is disabled or meets every check of R90. -/
theorem State.windowReason_eq_none (s : State) (w : Fin 16) (r : Record) : s.windowReason w r = none ↔
    (r.winEnable = false ∨
      (r.kindCode ≠ 3 ∧ r.sizeCode ≤ 12 ∧ (r.kind = .ring → r.sizeCode = 0) ∧ r.apertureBase < 67108864 ∧
        r.apertureBase % (4096 * 2 ^ r.sizeCode) = 0 ∧
        (r.kind = .plain → r.targetBase % (4096 * 2 ^ r.sizeCode) = 0 ∧
          r.targetBase + 4096 * 2 ^ r.sizeCode ≤ s.installed ∧
          (r.targetBase + 4096 * 2 ^ r.sizeCode ≤ s.cbBase ∨ s.cbBase + 4096 ≤ r.targetBase)) ∧
        (r.kind = .bitfield → r.targetBase % (1024 * 2 ^ r.sizeCode) = 0 ∧
          r.targetBase + 1024 * 2 ^ r.sizeCode ≤ s.installed ∧
          (r.targetBase + 1024 * 2 ^ r.sizeCode ≤ s.cbBase ∨ s.cbBase + 4096 ≤ r.targetBase)) ∧
        (r.kind = .ring → s.ctxs[r.winCtx].initialised = true ∧
          ∀ v : Fin 16, v ≠ w → s.windows[v].applied.isRing = true → s.windows[v].applied.winCtx ≠ r.winCtx))) := by
  cases he : r.winEnable with
  | false => simp [State.windowReason, he]
  | true =>
    have hq : 4096 * 2 ^ r.sizeCode / 4 = 1024 * 2 ^ r.sizeCode := by omega
    rw [s.windowReason_eq w r he]
    simp only [firstFailing_cons_eq_none, firstFailing_nil, hq]
    cases r.kind <;> simp

/-! ## Context records (R139) -/

theorem State.ringOverlaps_iff (s : State) (c : Fin 8) (r : Record) : s.ringOverlaps c r = true ↔
    ¬∀ d : Fin 8, d ≠ c → s.ctxs[d].initialised = true →
      r.ringBase + 4 * r.slotSize * r.capacity ≤ s.ctxs[d].applied.ringBase ∨
        s.ctxs[d].applied.ringBase + s.ctxs[d].applied.ringBytes ≤ r.ringBase := by
  simp only [State.ringOverlaps, List.any_eq_true, mem_allCtxs, true_and, Bool.and_eq_true, bne_iff_ne, spansMeet,
    decide_eq_true_eq, not_forall, not_or, not_le, exists_prop, and_assoc]
  refine exists_congr fun d => and_congr_right fun _ => and_congr_right fun _ => ?_
  rw [and_comm]
  rfl

/-- The checks of R139 in the order of its table. -/
theorem State.contextReason_eq (s : State) (c : Fin 8) (r : Record) :
    let ring := 4 * r.slotSize * r.capacity
    s.contextReason c r = firstFailing [
      (2 ≤ r.slotSize ∧ r.slotSize ≤ 8 ∧ r.policyCode ≠ 3 ∧ r.emptyCode ≠ 3, .range),
      (r.isLifo = true → r.policyCode ≠ 2, .range), (r.stallLimit ≠ 0, .range), (2 ≤ r.capacity, .range),
      (1 ≤ r.high ∧ r.high ≤ r.capacity ∧ r.low < r.high, .range),
      (r.ringBase % 4 = 0 ∧ (r.signalEnable = true → r.signalAddress % 4 = 0), .align),
      (r.ringBase + ring ≤ s.installed ∧ (r.signalEnable = true → r.signalAddress + 4 ≤ s.installed), .memory),
      ((r.ringBase + ring ≤ s.cbBase ∨ s.cbBase + 4096 ≤ r.ringBase) ∧
        (r.signalEnable = true → r.signalAddress + 4 ≤ s.cbBase ∨ s.cbBase + 4096 ≤ r.signalAddress), .control),
      (∀ d : Fin 8, d ≠ c → s.ctxs[d].initialised = true →
        r.ringBase + ring ≤ s.ctxs[d].applied.ringBase ∨
          s.ctxs[d].applied.ringBase + s.ctxs[d].applied.ringBytes ≤ r.ringBase, .overlap),
      (s.bound c = true → r.sameGeometry s.ctxs[c].applied = true, .bound),
      (s.bound c = false → s.ctxs[c].writing = 0 ∧ s.ctxs[c].inCopy = 0, .bound)] := by
  unfold State.contextReason
  refine ite_eq_firstFailing ?_ (ite_eq_firstFailing ?_ (ite_eq_firstFailing ?_ (ite_eq_firstFailing ?_
    (ite_eq_firstFailing ?_ (ite_eq_firstFailing ?_ (ite_eq_firstFailing ?_ (ite_eq_firstFailing ?_
    (ite_eq_firstFailing ?_ (ite_eq_firstFailing ?_ (ite_eq_firstFailing ?_ firstFailing_nil.symm))))))))))
  · omega
  · rw [r.policy_eq_overwrite, Classical.not_imp, not_not, and_comm]
  · exact not_not.symm
  · exact not_le.symm
  · omega
  · rw [not_and_or, Classical.not_imp]
  · rw [not_and_or, Classical.not_imp, not_le, not_le]
    rfl
  · rw [not_and_or, Classical.not_imp, s.meetsCb_iff, s.meetsCb_iff]
    rfl
  · exact s.ringOverlaps_iff c r
  · rw [Classical.not_imp, Bool.not_eq_true]
  · rw [Classical.not_imp, not_and_or]

/-- A context record passes where it meets every check of R139. -/
theorem State.contextReason_eq_none (s : State) (c : Fin 8) (r : Record) : s.contextReason c r = none ↔
    (2 ≤ r.slotSize ∧ r.slotSize ≤ 8 ∧ r.policyCode ≠ 3 ∧ r.emptyCode ≠ 3 ∧
      (r.isLifo = true → r.policyCode ≠ 2) ∧ r.stallLimit ≠ 0 ∧ 2 ≤ r.capacity ∧ 1 ≤ r.high ∧ r.high ≤ r.capacity ∧
      r.low < r.high ∧ r.ringBase % 4 = 0 ∧ r.ringBase + 4 * r.slotSize * r.capacity ≤ s.installed ∧
      (r.ringBase + 4 * r.slotSize * r.capacity ≤ s.cbBase ∨ s.cbBase + 4096 ≤ r.ringBase) ∧
      (r.signalEnable = true → r.signalAddress % 4 = 0 ∧ r.signalAddress + 4 ≤ s.installed ∧
        (r.signalAddress + 4 ≤ s.cbBase ∨ s.cbBase + 4096 ≤ r.signalAddress)) ∧
      (∀ d : Fin 8, d ≠ c → s.ctxs[d].initialised = true →
        r.ringBase + r.ringBytes ≤ s.ctxs[d].applied.ringBase ∨
          s.ctxs[d].applied.ringBase + s.ctxs[d].applied.ringBytes ≤ r.ringBase) ∧
      (s.bound c = true → r.sameGeometry s.ctxs[c].applied = true) ∧
      (s.bound c = false → s.ctxs[c].writing = 0 ∧ s.ctxs[c].inCopy = 0)) := by
  rw [s.contextReason_eq c r]
  simp only [firstFailing_cons_eq_none, firstFailing_nil, and_true]
  constructor
  · rintro ⟨⟨h1, h2, h3, h4⟩, h5, h6, h7, ⟨h8, h9, h10⟩, ⟨h11, a11⟩, ⟨h12, a12⟩, ⟨h13, a13⟩, h14, h15, h16⟩
    exact ⟨h1, h2, h3, h4, h5, h6, h7, h8, h9, h10, h11, h12, h13, fun e => ⟨a11 e, a12 e, a13 e⟩, h14, h15, h16⟩
  · rintro ⟨h1, h2, h3, h4, h5, h6, h7, h8, h9, h10, h11, h12, h13, ha, h14, h15, h16⟩
    exact ⟨⟨h1, h2, h3, h4⟩, h5, h6, h7, ⟨h8, h9, h10⟩, ⟨h11, fun e => (ha e).1⟩, ⟨h12, fun e => (ha e).2.1⟩,
      ⟨h13, fun e => (ha e).2.2⟩, h14, h15, h16⟩

/-- Settles O53, by the checks in table order: the reason is that of the first row that fails, none when all pass. -/
theorem recordChecks : Obligations.RecordChecks :=
  ⟨fun r => ⟨rfl, rfl, r.kind_mem, r.winCtx_val, rfl, rfl, rfl, rfl, rfl, rfl, rfl, rfl, rfl, rfl⟩,
    fun _ => ⟨rfl, rfl, rfl, rfl, rfl, rfl, rfl, rfl, rfl, rfl, rfl, rfl, rfl, rfl, rfl, rfl, rfl, rfl⟩,
    fun r a => ⟨r.sameGeometry_iff a, r.sameSignal_iff a⟩, State.windowReason_eq_none, State.windowReason_eq,
    State.contextReason_eq, State.contextReason_eq_none⟩

end Sys2Proof.Machine
end

section
/-! PROOFS. PUSH_LAST and POP at the context of their window (R11, R13, R31-R44, R55-R58, R70). -/

namespace Sys2Proof.Machine

/-! ## Reservation and claim of a port that has no held item -/

/-- The reservation of a commit that is not in the held list (R11, R16, R33, R34). -/
theorem Live.reserve_new (l : Live) (now : BitVec 16) (c : Fin 8) (k : HeldCommit) (hn : l.ctxs[c].holds k.port = false) :
    l.reserve now c k = { l with
      assembly := l.assembly.set k.port (.committing c k.length k.level [] true)
      jobs := l.jobs ++ [l.ctxs[c].writeEntry c k (l.assembly.get k.port).commitWords now]
      ctxs := l.ctxs.set c (l.ctxs[c].reservedFor k.port now) } := by
  unfold Live.reserve
  rw [Live.removeHeld_of_not_holds]
  · simp only [Live.modCtx_eq]
    rfl
  · rw [Fin.getElem_fin, Live.modCtx_ctxs_self]
    exact hn

/-- The claim of a pop that is not in the held list (R13, R16, R58). -/
theorem Live.claim_new (l : Live) (c : Fin 8) (k : HeldPop) (hn : l.ctxs[c].holds k.port = false) :
    l.claim c k = { l with
      latch := l.latch.set k.port (.filling c l.ctxs[c].nextSlot k.burst false)
      jobs := l.jobs ++ [l.ctxs[c].copyEntry c k.port]
      ctxs := l.ctxs.set c (l.ctxs[c].claimedFor k.port) } := by
  unfold Live.claim
  rw [Live.removeHeld_of_not_holds]
  · simp only [Live.modCtx_eq]
    rfl
  · rw [Fin.getElem_fin, Live.modCtx_ctxs_self]
    exact hn

/-- While an operation of a LIFO context runs its held list is not examined (R43). -/
theorem Live.examineStack_running (l : Live) (now : BitVec 16) (c : Fin 8) (h : l.ctxs[c].opRunning = true) :
    l.examineStack now c = l := by
  unfold Live.examineStack
  cases l.ctxs[c].held with
  | nil => rfl
  | cons i rest =>
    unfold examineStackList
    rw [if_pos h]

theorem Ctx.opRunning_of_pos {x : Ctx} (h : 0 < x.writing ∨ 0 < x.inCopy) : x.opRunning = true := by
  simpa [Ctx.opRunning] using h

theorem Ctx.occupied_of_fifo {x : Ctx} (h : x.applied.isLifo = false) :
    x.occupied = x.ready + x.writing + x.heldRun.length := by
  simp [Ctx.occupied, Ctx.isLifo, h, Ctx.heldCount]

theorem Ctx.occupied_of_lifo {x : Ctx} (h : x.applied.isLifo = true) : x.occupied = x.depth := by
  simp [Ctx.occupied, Ctx.isLifo, h]

theorem Ctx.full_eq_false {x : Ctx} (h : x.occupied < x.applied.capacity) : x.full = false :=
  decide_eq_false (not_le.2 h)

theorem Ctx.full_eq_true {x : Ctx} (h : x.applied.capacity ≤ x.occupied) : x.full = true := decide_eq_true h

/-! ## The header (R5, section 8.7) -/

theorem getLsbD_field_outside (lo len n i : Nat) (h : i < lo ∨ lo + len ≤ i) : (field lo len n).getLsbD i = false := by
  rw [getLsbD_field]
  have : ¬(lo ≤ i ∧ i - lo < len) := by omega
  grind

theorem getLsbD_field_inside (lo len n i : Nat) (h : lo ≤ i ∧ i < lo + len ∧ i < 32) :
    (field lo len n).getLsbD i = n.testBit (i - lo) := by
  obtain ⟨h1, h2, h3⟩ := h
  have h4 : i - lo < len := by omega
  rw [getLsbD_field]
  simp [h1, h3, h4]

theorem header_fields (length : Nat) (p : Port) (level : Level) (gap : Bool) (seq : BitVec 8) (stamp : BitVec 16)
    (hlen : length < 8) :
    let h := header length p level gap seq stamp
    h.extractLsb' 0 16 = stamp ∧ h.extractLsb' 16 8 = seq ∧ bits h 24 3 = length ∧
      h.getLsbD 27 = (p == .B) ∧ h.extractLsb' 28 2 = level ∧ h.getLsbD 30 = false ∧ h.getLsbD 31 = gap := by
  refine ⟨?_, ?_, ?_, ?_, ?_, ?_, ?_⟩
  · refine BitVec.eq_of_getLsbD_eq fun i hi => ?_
    simp (disch := omega) only [header, BitVec.getLsbD_extractLsb', BitVec.getLsbD_or, getLsbD_field_outside,
      getLsbD_field_inside]
    simp [hi, BitVec.testBit_toNat, BitVec.getLsbD_eq_getElem]
  · refine BitVec.eq_of_getLsbD_eq fun i hi => ?_
    simp (disch := omega) only [header, BitVec.getLsbD_extractLsb', BitVec.getLsbD_or, getLsbD_field_outside,
      getLsbD_field_inside]
    simp [hi, BitVec.testBit_toNat, BitVec.getLsbD_eq_getElem]
  · rw [bits_eq_mod _ _ _ length, Nat.mod_eq_of_lt (show length < 2 ^ 3 from hlen)]
    intro i hi
    simp (disch := omega) only [header, BitVec.getLsbD_or, getLsbD_field_outside, getLsbD_field_inside]
    simp
  · simp (disch := omega) only [header, BitVec.getLsbD_or, getLsbD_field_outside, getLsbD_field_inside]
    cases p <;> rfl
  · refine BitVec.eq_of_getLsbD_eq fun i hi => ?_
    simp (disch := omega) only [header, BitVec.getLsbD_extractLsb', BitVec.getLsbD_or, getLsbD_field_outside,
      getLsbD_field_inside]
    simp [hi, BitVec.testBit_toNat, BitVec.getLsbD_eq_getElem]
  · simp (disch := omega) only [header, BitVec.getLsbD_or, getLsbD_field_outside]
    rfl
  · simp (disch := omega) only [header, BitVec.getLsbD_or, getLsbD_field_outside, getLsbD_field_inside]
    cases gap <;> rfl

/-! ## PUSH_LAST at the context of its window (R31) -/

theorem Record.policy_eq_stall (r : Record) : r.policy = .stall ↔ r.policyCode = 1 := by
  unfold Record.policy
  split
  · next h => simp [h]
  · next h => simp [h]
  · next h _ => exact ⟨fun e => (nomatch e), fun e => absurd e h⟩

theorem Record.policy_eq_refuse (r : Record) (h : r.policyCode = 0) : r.policy = .refuse := by
  simp [Record.policy, h]

theorem Record.emptyAction_eq_wait (r : Record) : r.emptyAction = .wait ↔ r.emptyCode = 2 := by
  unfold Record.emptyAction
  split
  · next h => simp [h]
  · next h => simp [h]
  · next h => exact ⟨fun e => (nomatch e), fun e => absurd e h⟩

/-- An append that commits: what the buffer holds for the context and the words of the burst arrive as one commit
(R26, R31). -/
theorem Live.append_last {l : Live} {p : Port} {c : Fin 8} {t : Transfer} {words : List Word} (now : BitVec 16)
    (idle : Option Nat)
    (ha : (l.assembly.get p = .empty ∧ words = []) ∨ ∃ i, l.assembly.get p = .opened c words i)
    (hcap : words.length + t.wordData.length ≤ l.ctxs[c].applied.slotSize - 1) :
    l.append now idle p c t true =
      (l.setAssembly p (.committing c (words ++ t.wordData).length t.level (words ++ t.wordData) false)).arriveCommit now
        c ⟨p, (words ++ t.wordData).length, t.level, none, false⟩ := by
  have hcut : l.cutAssembly p c = l := by
    rcases ha with ⟨h, -⟩ | ⟨i, h⟩ <;> simp [Live.cutAssembly, h]
  have hwords : (l.assembly.get p).wordsFor c = words := by
    rcases ha with ⟨h, rfl⟩ | ⟨i, h⟩ <;> simp [Assembly.wordsFor, h]
  have hfit : ¬l.ctxs[c].applied.payloadCap < (words ++ t.wordData).length := by
    rw [List.length_append]
    exact not_lt.2 hcap
  unfold Live.append
  simp only [hcut, hwords, if_neg hfit, if_true]
  unfold Live.commit Live.setAssembly
  simp only [PerPort.set_set]

/-- The live state with the PUSH_LAST `t` in HELD and the buffer COMMITTING the words of its entry (R31). -/
def State.committing (s : State) (p : Port) (t : Transfer) (w : Fin 16) (c : Fin 8) (entry : List Word) : Live :=
  { s.toLive with
    ifaces := s.ifaces.set p (.held t (.ring w c .pushLast) none)
    assembly := s.assembly.set p (.committing c entry.length t.level entry false) }

/-- The commit of the entry of a PUSH_LAST. -/
abbrev commitOf (p : Port) (t : Transfer) (entry : List Word) : HeldCommit := ⟨p, entry.length, t.level, none, false⟩

/-- Events that leave the same state close to the same state. -/
theorem closed_congr {s u v : State} (h : u = v) :
    (.next (closeEvent s u) : Host.Outcome State Fault Refusal) = .next (closeEvent s v) := congrArg _ (congrArg _ h)

section pushLast
variable {s : State} {p : Port} {t : Transfer} {w : Fin 16} {c : Fin 8} {words : List Word}

/-- The event of a PUSH_LAST that fits: its entry arrives at the context. -/
theorem State.ToRing.exec_pushLast_arrive (h : s.ToRing p t w .pushLast) (hc : c = s.windows[w].applied.winCtx)
    (ha : (s.assembly.get p = .empty ∧ words = []) ∨ ∃ i, s.assembly.get p = .opened c words i)
    (hcap : words.length + t.wordData.length ≤ s.ctxs[c].applied.slotSize - 1) {l : Live}
    (hl : (s.committing p t w c (words ++ t.wordData)).arriveCommit s.tick c (commitOf p t (words ++ t.wordData)) = l) :
    exec (.pushLast p) s = .next (closeEvent s { s with toLive := l }) := by
  subst hc hl
  rw [h.exec_pushLast]
  refine congrArg (fun l => Host.Outcome.next (closeEvent s { s with toLive := l })) ?_
  exact Live.append_last (l := s.setIface p _) s.tick _ ha hcap

/-- As above, where the commit is taken at once. -/
theorem State.ToRing.exec_pushLast_take (h : s.ToRing p t w .pushLast) (hc : c = s.windows[w].applied.winCtx)
    (ha : (s.assembly.get p = .empty ∧ words = []) ∨ ∃ i, s.assembly.get p = .opened c words i)
    (hcap : words.length + t.wordData.length ≤ s.ctxs[c].applied.slotSize - 1) (ht : s.commitTaken p c) {l : Live}
    (hl : (s.committing p t w c (words ++ t.wordData)).takeCommit s.tick c (commitOf p t (words ++ t.wordData)) = l) :
    exec (.pushLast p) s = .next (closeEvent s { s with toLive := l }) :=
  h.exec_pushLast_arrive hc ha hcap ((Live.arriveCommit_taken _ _ _ _ ht).trans hl)

theorem State.committing_words (entry : List Word) :
    ((s.committing p t w c entry).assembly.get p).commitWords = entry := by
  simp [State.committing, Assembly.commitWords]

/-- A commit that reserves at once (R11, R16, R33, R34). -/
theorem State.committing_reserve (entry : List Word) (hn : s.ctxs[c].holds p = false) :
    ({ s with toLive := (s.committing p t w c entry).reserve s.tick c (commitOf p t entry) } : State) = { s with
      ifaces := s.ifaces.set p (.held t (.ring w c .pushLast) none)
      assembly := s.assembly.set p (.committing c entry.length t.level [] true)
      jobs := s.jobs ++ [s.ctxs[c].writeEntry c (commitOf p t entry) entry s.tick]
      ctxs := s.ctxs.set c (s.ctxs[c].reservedFor p s.tick) } := by
  rw [Live.reserve_new _ _ _ _ hn, State.committing_words]
  simp only [State.committing, PerPort.set_set]

/-- A commit that joins the end of the held list (R32, R37, R43). -/
theorem State.committing_hold (entry : List Word) (k : HeldCommit) (hk : k.port = p) (hn : s.ctxs[c].holds p = false) :
    ({ s with toLive := (s.committing p t w c entry).holdItem c (.commit k) } : State) = { s with
      ifaces := s.ifaces.set p (.held t (.ring w c .pushLast) none)
      assembly := s.assembly.set p (.committing c entry.length t.level entry false)
      ctxs := s.ctxs.set c { s.ctxs[c] with held := s.ctxs[c].held ++ [.commit k] } } := by
  subst hk
  rw [Live.holdItem_of_not_holds _ _ _ hn]
  rfl

end pushLast

/-! ## A full context (R36-R40, R44) -/

theorem Ctx.not_full {x : Ctx} (h : x.occupied < x.applied.capacity) : ¬x.full = true := by
  rw [Ctx.full_eq_false h]
  decide

theorem Live.takeCommit_not_full {l : Live} {c : Fin 8} (now : BitVec 16) (k : HeldCommit)
    (h : l.ctxs[c].occupied < l.ctxs[c].applied.capacity) : l.takeCommit now c k = l.reserve now c k := by
  unfold Live.takeCommit
  exact if_neg (Ctx.not_full h)

section full
variable {l : Live} {c : Fin 8} {k : HeldCommit} (now : BitVec 16) (h : l.ctxs[c].applied.capacity ≤ l.ctxs[c].occupied)
include h

theorem Live.takeCommit_refuse (hp : l.ctxs[c].applied.policy = .refuse) :
    l.takeCommit now c k = l.refuseFull c k := by
  unfold Live.takeCommit
  rw [if_pos (Ctx.full_eq_true h), hp]

theorem Live.takeCommit_stall (hp : l.ctxs[c].applied.policy = .stall) :
    l.takeCommit now c k = l.holdForSpace c k := by
  unfold Live.takeCommit
  rw [if_pos (Ctx.full_eq_true h), hp]

/-- OVERWRITE with nothing ready refuses as REFUSE does (R40). -/
theorem Live.takeCommit_nothing_ready (hp : l.ctxs[c].applied.policy = .overwrite) (hd : k.discardMade = false)
    (hr : l.ctxs[c].ready = 0) : l.takeCommit now c k = l.refuseFull c k := by
  unfold Live.takeCommit
  rw [if_pos (Ctx.full_eq_true h), hp]
  simp only [hd, Bool.false_eq_true, if_false]
  exact if_pos hr

theorem Live.takeCommit_overwrite (hp : l.ctxs[c].applied.policy = .overwrite) (hd : k.discardMade = false)
    (hr : l.ctxs[c].ready ≠ 0) : l.takeCommit now c k = l.overwrite now c k := by
  unfold Live.takeCommit
  rw [if_pos (Ctx.full_eq_true h), hp]
  simp only [hd, Bool.false_eq_true, if_false]
  exact if_neg hr

end full

/-- ERROR FULL to a commit that is not in the held list: REJECTED, gap flag, REJECT, buffer EMPTY (R36, R40). -/
theorem Live.refuseFull_new {l : Live} {c : Fin 8} {k : HeldCommit} {t : Transfer} {d : Decode}
    (hn : l.ctxs[c].holds k.port = false) (hi : l.ifaces.get k.port = .held t d none) :
    l.refuseFull c k = { l with
      ifaces := l.ifaces.set k.port (.answering (.error .full t.errorWords))
      assembly := l.assembly.set k.port .empty
      attn := rejectNotices l.ctxs[c] c (l.attn.set k.port ((l.attn.get k.port).capture .full t d.windowIndex))
      ctxs := l.ctxs.set c l.ctxs[c].rejectedOne } := by
  unfold Live.refuseFull
  rw [Live.removeHeld_of_not_holds l c hn, Live.answerError_held .full hi, Live.reject_eq]
  rfl

section pushLast
variable {s : State} {p : Port} {t : Transfer} {w : Fin 16} {c : Fin 8} {entry : List Word}

theorem State.committing_refuse (hn : s.ctxs[c].holds p = false) :
    ({ s with toLive := (s.committing p t w c entry).refuseFull c (commitOf p t entry) } : State) =
      { s.erred p .full t (BitVec.ofNat 5 w.val) with
        ctxs := s.ctxs.set c s.ctxs[c].rejectedOne
        attn := rejectNotices s.ctxs[c] c (s.erred p .full t (BitVec.ofNat 5 w.val)).attn
        assembly := s.assembly.set p .empty } := by
  rw [Live.refuseFull_new hn (t := t) (d := .ring w c .pushLast) (by simp [State.committing])]
  simp only [State.committing, State.erred, PerPort.set_set, Decode.windowIndex]

/-- Settles O26, by the full policy of the context: a refusal, a hold for space, or a discard of the head. -/
theorem pushLastAtAFullContext : Obligations.PushLastAtAFullContext := by
  constructor
  · intro s p t w c words h hc ha hcap ht hocc
    have hn : s.ctxs[c].holds p = false := ht.2.1
    constructor
    · rintro (hp | ⟨hp, hr⟩)
      · have htake := Live.takeCommit_refuse (l := s.committing p t w c (words ++ t.wordData)) s.tick hocc
          (k := commitOf p t (words ++ t.wordData)) (Record.policy_eq_refuse _ hp)
        exact (h.exec_pushLast_take hc ha hcap ht htake).trans (closed_congr (State.committing_refuse hn))
      · have htake := Live.takeCommit_nothing_ready (l := s.committing p t w c (words ++ t.wordData)) s.tick hocc
          (k := commitOf p t (words ++ t.wordData)) ((Record.policy_eq_overwrite _).2 hp) rfl hr
        exact (h.exec_pushLast_take hc ha hcap ht htake).trans (closed_congr (State.committing_refuse hn))
    · intro hp
      have htake := Live.takeCommit_stall (l := s.committing p t w c (words ++ t.wordData)) s.tick hocc
        (k := commitOf p t (words ++ t.wordData)) ((Record.policy_eq_stall _).2 hp)
      exact (h.exec_pushLast_take hc ha hcap ht htake).trans (closed_congr (State.committing_hold _ _ rfl hn))
  · intro s p t w c words h hc ha hcap ht hocc hl hp hr
    have hn : s.ctxs[c].holds p = false := ht.2.1
    have hsum : s.ctxs[c].occupied = s.ctxs[c].ready + s.ctxs[c].writing + s.ctxs[c].heldRun.length :=
      Ctx.occupied_of_fifo hl
    have htake := Live.takeCommit_overwrite (l := s.committing p t w c (words ++ t.wordData)) s.tick hocc.ge
      (k := commitOf p t (words ++ t.wordData)) ((Record.policy_eq_overwrite _).2 hp) rfl hr
    constructor
    · intro hrun
      have hfree : s.ctxs[c].ready - 1 + s.ctxs[c].writing < s.ctxs[c].applied.capacity := by
        rw [hrun] at hsum
        simp only [List.length_nil] at hsum
        omega
      refine (h.exec_pushLast_take hc ha hcap ht htake).trans (closed_congr ?_)
      rw [Live.overwrite_free (s.committing p t w c (words ++ t.wordData)) s.tick c (commitOf p t (words ++ t.wordData)) hl
        hrun hfree hn, State.committing_words]
      simp only [State.committing, PerPort.set_set]
      rfl
    · intro q more hrun
      have hbehind : s.ctxs[c].applied.capacity ≤
          s.ctxs[c].ready - 1 + s.ctxs[c].writing + (s.ctxs[c].heldRun.length + 1) := by omega
      exact h.exec_pushLast_take hc ha hcap ht (htake.trans (Live.overwrite_behind _ _ _ _ hl hrun hbehind hn))

/-! ## A commit that joins the held list (R32, R43, R70) -/

/-- A commit that joined the list at its arrival reserves as one that did not join (R33, R70). -/
theorem Live.reserve_holdItem (l : Live) (now : BitVec 16) (c : Fin 8) (k : HeldCommit)
    (hn : l.ctxs[c].holds k.port = false) :
    (l.holdItem c (.commit k)).reserve now c k = l.reserve now c k := by
  have hf := Ctx.filter_of_not_holds _ hn
  rw [Live.holdItem_of_not_holds _ _ _ hn, Live.reserve_new _ _ _ _ hn]
  have hk : ¬((HeldItem.commit k).port != k.port) = true := by simp [HeldItem.port]
  simp only [Fin.getElem_fin] at hf
  simp [Live.reserve, Live.removeHeld, Live.addJob, Live.modCtx, Live.setAssembly, Ctx.reserve, Ctx.reservedFor,
    Ctx.isLifo, hf, hk, Ctx.capacity, Live.entryWriteJob, Ctx.writeEntry, Ctx.reserveSlot, Record.slotAddress]

/-- A pop that waits already is passed over where nothing is ready (R65, R70). -/
theorem Live.takePop_waiting {l : Live} {c : Fin 8} {h : HeldPop} {n : Nat} (hr : l.ctxs[c].ready = 0)
    (he : l.ctxs[c].applied.emptyAction = .wait) (hs : h.stall = some n) (hl : l.latch.get h.port = .waiting c)
    (hx : l.ctxs[c].holds h.port = true) (hm : ∀ i ∈ l.ctxs[c].held, i.port = h.port → i = .pop h) :
    l.takePop c h = l := by
  have hitem : l.holdItem c (.pop h) = l := by
    refine Live.modCtx_eq_self _ _ _ ?_
    have hmap : l.ctxs[c].held.map (fun j => if j.port == h.port then .pop h else j) = l.ctxs[c].held := by
      conv => rhs; rw [← List.map_id l.ctxs[c].held]
      refine List.map_congr_left fun i hi => ?_
      split
      · next e => exact (hm i hi (by simpa using e)).symm
      · rfl
    simp only [Fin.getElem_fin] at hx hmap
    simp only [show (HeldItem.pop h).port = h.port from rfl, hx, if_true, hmap]
  unfold Live.takePop Live.takeEmpty
  rw [if_pos hr, he]
  have hh : ({ h with stall := some (h.stall.getD l.ctxs[c].applied.stallLimit) } : HeldPop) = h := by
    rw [hs]
    exact congrArg (fun a => ({ h with stall := a } : HeldPop)) hs.symm
  dsimp only
  rw [hh, hitem]
  unfold Live.setLatch
  rw [← hl, PerPort.set_get_self]

/-- The stall count of a commit that joins the list at its arrival (R32, R43). -/
theorem Ctx.joinStall_eq (x : Ctx) :
    (if x.full && x.applied.policy == .stall then some x.applied.stallLimit else none) =
      if x.applied.capacity ≤ x.occupied ∧ x.applied.policyCode = 1 then some x.applied.stallLimit else none := by
  refine if_congr ?_ rfl rfl
  rw [Bool.and_eq_true, beq_iff_eq, Record.policy_eq_stall]
  exact and_congr_left fun _ => decide_eq_true_iff

theorem Live.holdItem_ctx {l : Live} {c : Fin 8} {i : HeldItem} (hn : l.ctxs[c].holds i.port = false) :
    (l.holdItem c i).ctxs[c] = { l.ctxs[c] with held := l.ctxs[c].held ++ [i] } := by
  rw [Live.holdItem_of_not_holds _ _ _ hn, Fin.getElem_fin, Vector.getElem_set_self]

/-- A commit joins the list at its arrival behind another commit or an entry of its port, and on a LIFO context while an
operation runs (R32, R43). -/
theorem Live.arriveCommit_joins {l : Live} {c : Fin 8} {k : HeldCommit} (now : BitVec 16)
    (hwhy : (l.ctxs[c].isLifo = false ∧ (heldCommits l.ctxs[c].held ≠ [] ∨ l.portWriting k.port = true)) ∨
      (l.ctxs[c].isLifo = true ∧ (0 < l.ctxs[c].writing ∨ 0 < l.ctxs[c].inCopy))) :
    l.arriveCommit now c k = l.joinCommit c k := by
  unfold Live.arriveCommit
  rcases hwhy with ⟨hl, hw⟩ | ⟨hl, hrun⟩
  · rw [if_neg (by rw [hl]; decide), if_neg]
    rw [Bool.and_eq_true, List.isEmpty_iff, Bool.not_eq_true']
    rintro ⟨h1, h2⟩
    rcases hw with hw | hw
    · exact hw h1
    · rw [h2] at hw
      cases hw
  · have hop := Ctx.opRunning_of_pos hrun
    rw [if_pos hl, if_neg (by simp only [hop, Bool.not_true, Bool.false_and]; decide)]
    refine Live.examineStack_running _ now c ?_
    unfold Live.joinCommit Live.holdItem
    rw [Fin.getElem_fin, Live.modCtx_ctxs_self]
    exact hop

/-- A commit that arrives at an idle LIFO context behind a pop that waits for an entry reserves at once (R70). -/
theorem Live.arriveCommit_behind_pop {l : Live} {c : Fin 8} {k : HeldCommit} {h : HeldPop} {n : Nat} (now : BitVec 16)
    (hl : l.ctxs[c].applied.isLifo = true) (hidle : l.ctxs[c].opRunning = false) (hw : l.portWriting k.port = false)
    (hr : l.ctxs[c].ready = 0) (hd : l.ctxs[c].depth < l.ctxs[c].applied.capacity)
    (he : l.ctxs[c].applied.emptyAction = .wait) (hh : l.ctxs[c].held = [.pop h]) (hs : h.stall = some n)
    (hlatch : l.latch.get h.port = .waiting c) (hf : l.copyInFlight h.port = false) (hk : k.stall = none)
    (hn : l.ctxs[c].holds k.port = false) : l.arriveCommit now c k = l.reserve now c k := by
  have hocc : l.ctxs[c].occupied < l.ctxs[c].applied.capacity := by
    rw [Ctx.occupied_of_lifo hl]
    exact hd
  have hport : h.port ≠ k.port := by
    rw [Ctx.holds, hh] at hn
    simpa [HeldItem.port] using hn
  have hjoin : l.joinCommit c k = l.holdItem c (.commit k) := by
    unfold Live.joinCommit
    rw [Ctx.full_eq_false hocc, ← hk]
    rfl
  have hctx : (l.holdItem c (.commit k)).ctxs[c] = { l.ctxs[c] with held := [.pop h, .commit k] } := by
    rw [Live.holdItem_ctx hn, hh]
    rfl
  have hheld : (l.holdItem c (.commit k)).ctxs[c].held = [.pop h, .commit k] := congrArg Ctx.held hctx
  have hpass : (l.holdItem c (.commit k)).takePop c h = l.holdItem c (.commit k) := by
    refine Live.takePop_waiting (n := n) ?_ ?_ hs hlatch ?_ ?_
    · rw [hctx]; exact hr
    · rw [hctx]; exact he
    · rw [hctx]
      simp [Ctx.holds, HeldItem.port]
    · rw [hheld]
      simp [HeldItem.port, hport.symm]
  have hrunning : (l.holdItem c (.commit k)).ctxs[c].opRunning = false := by
    rw [hctx]
    exact hidle
  have hwriting : (l.holdItem c (.commit k)).portWriting k.port = false := by
    rw [Live.portWriting_congr l _ _ fun d => ?_]
    · exact hw
    · rw [Live.holdItem, Fin.getElem_fin, Live.modCtx_ctxs]
      split
      · next e => rw [e]; rfl
      · rfl
  have htake : (l.holdItem c (.commit k)).takeCommit now c k = l.reserve now c k := by
    rw [Live.takeCommit_not_full now k, Live.reserve_holdItem _ _ _ _ hn]
    rw [hctx]
    exact hocc
  unfold Live.arriveCommit
  rw [if_pos (by exact hl), if_neg (by rw [hh]; simp), hjoin, Live.examineStack, hheld]
  simp only [examineStackList, hrunning, Bool.false_eq_true, if_false, hpass, hwriting, htake]
  rw [if_neg]
  exact hf ▸ Bool.false_ne_true

/-- Settles O25, by where the commit arrives: taken at once, joined, or joined behind a waiting pop and taken. -/
theorem pushLastReservesASlot : Obligations.PushLastReservesASlot := by
  refine ⟨?_, header_fields, ?_⟩
  · intro s p t w c words h hc ha hcap ht hocc
    have htake := Live.takeCommit_not_full (l := s.committing p t w c (words ++ t.wordData)) s.tick
      (commitOf p t (words ++ t.wordData)) hocc
    exact (h.exec_pushLast_take hc ha hcap ht htake).trans (closed_congr (State.committing_reserve _ ht.2.1))
  · intro s p t w c words h hc ha hcap hn
    constructor
    · intro hwhy
      have harrive := Live.arriveCommit_joins (l := s.committing p t w c (words ++ t.wordData)) s.tick
        (k := commitOf p t (words ++ t.wordData)) hwhy
      refine (h.exec_pushLast_arrive hc ha hcap harrive).trans (closed_congr ?_)
      unfold Live.joinCommit
      rw [Ctx.joinStall_eq]
      exact State.committing_hold _ _ rfl hn
    · intro i n hl hwrite hcopy hw hr hd he hh hs hlatch hf
      have hidle : s.ctxs[c].opRunning = false := by simp only [Ctx.opRunning, hwrite, hcopy, lt_irrefl]; decide
      have harrive := Live.arriveCommit_behind_pop (l := s.committing p t w c (words ++ t.wordData)) s.tick
        (k := commitOf p t (words ++ t.wordData)) hl hidle hw hr hd ((Record.emptyAction_eq_wait _).2 he) hh hs hlatch hf rfl
        hn
      exact (h.exec_pushLast_arrive hc ha hcap harrive).trans (closed_congr (State.committing_reserve _ hn))

end pushLast

end Sys2Proof.Machine
end

section
/-! PROOFS. POP at the context of its window (R13, R55, R57, R58, R69). -/

namespace Sys2Proof.Machine

/-- The live state with the POP `t` in HELD and the latch and attention state that a cut of the latch leaves (R55,
R57). -/
def State.popping (s : State) (p : Port) (t : Transfer) (w : Fin 16) (c : Fin 8) (latch : PerPort Latch)
    (attn : PerPort PortAttn) : Live :=
  { s.toLive with
    ifaces := s.ifaces.set p (.held t (.ring w c .pop) none)
    latch := latch
    attn := attn }

section pop
variable {s : State} {p : Port} {t : Transfer} {w : Fin 16} {c : Fin 8} {cut : PerPort PortAttn}

/-- The event of a POP whose latch holds no entry of its context: a latch HOLDING another entry is cut, and the pop arrives
(R55, R57). -/
theorem State.ToRing.exec_pop_arrive (h : s.ToRing p t w .pop) (hc : c = s.windows[w].applied.winCtx)
    (hlatch : (s.latch.get p = .empty ∧ cut = s.attn) ∨ ∃ d h payload r, d ≠ c ∧ s.latch.get p = .holding d h payload r ∧
      cut = noticed s.ctxs[d] d .cut true s.attn) :
    ∃ latch, latch.set p = s.latch.set p ∧ ∀ l : Live,
      (s.popping p t w c latch cut).arrivePop s.tick c ⟨p, t.burst, none⟩ = l →
        exec (.pop p) s = .next (closeEvent s { s with toLive := l }) := by
  subst hc
  have hread : ∀ l : Live, (s.setIface p (.held t (.ring w s.windows[w].applied.winCtx .pop) none)).popRead s.tick p
      s.windows[w].applied.winCtx t.burst = l → exec (.pop p) s = .next (closeEvent s { s with toLive := l }) := by
    rintro l rfl
    exact h.exec_pop
  rcases hlatch with ⟨he, rfl⟩ | ⟨d, x, payload, r, hd, he, rfl⟩
  · refine ⟨s.latch, rfl, fun l hl => hread l ?_⟩
    unfold Live.popRead
    rw [Live.setIface_latch, he]
    exact hl
  · refine ⟨s.latch.set p .empty, funext fun v => PerPort.set_set _ _ _ _, fun l hl => hread l ?_⟩
    unfold Live.popRead
    rw [Live.setIface_latch, he]
    dsimp only
    rw [if_neg hd]
    exact hl

/-- A pop joins the list at its arrival behind a copy of its port in flight or another pop, and on a LIFO context while an
operation runs (R55, R69). -/
theorem Live.arrivePop_joins {l : Live} {c : Fin 8} {k : HeldPop} (now : BitVec 16)
    (hwhy : (l.ctxs[c].isLifo = false ∧
        (l.copyInFlight k.port = true ∨ (l.ctxs[c].ready ≠ 0 ∧ heldPops l.ctxs[c].held ≠ []))) ∨
      (l.ctxs[c].isLifo = true ∧ (0 < l.ctxs[c].writing ∨ 0 < l.ctxs[c].inCopy))) :
    l.arrivePop now c k = l.joinPop c k := by
  unfold Live.arrivePop
  rcases hwhy with ⟨hl, hw⟩ | ⟨hl, hrun⟩
  · rw [if_neg (by rw [hl]; decide)]
    rcases hw with hw | ⟨hr, hp⟩
    · rw [if_pos hw]
    · split
      · rfl
      · rw [if_neg (by simpa using hp)]
  · have hop := Ctx.opRunning_of_pos hrun
    rw [if_pos hl, if_neg (by simp only [hop, Bool.not_true, Bool.false_and]; decide)]
    refine Live.examineStack_running _ now c ?_
    unfold Live.joinPop Live.holdItem
    rw [Live.setLatch_ctxs, Fin.getElem_fin, Live.modCtx_ctxs_self]
    exact hop

/-- The stall count of a pop that joins the list at its arrival (R55, R69). -/
theorem Ctx.joinWait_eq (x : Ctx) :
    (if decide (x.ready = 0) && x.applied.emptyAction == .wait then some x.applied.stallLimit else none) =
      if x.ready = 0 ∧ x.applied.emptyCode = 2 then some x.applied.stallLimit else none := by
  refine if_congr ?_ rfl rfl
  rw [Bool.and_eq_true, beq_iff_eq, Record.emptyAction_eq_wait, decide_eq_true_iff]

/-- Settles O27, by where the pop arrives: it claims the next entry, or joins the end of the held list. -/
theorem popClaimsTheNextEntry : Obligations.PopClaimsTheNextEntry := by
  constructor
  · intro s p t w c cut h hc hlatch ht hr
    obtain ⟨latch, hset, harrive⟩ := h.exec_pop_arrive hc hlatch
    have htake : (s.popping p t w c latch cut).arrivePop s.tick c ⟨p, t.burst, none⟩ =
        (s.popping p t w c latch cut).claim c ⟨p, t.burst, none⟩ := by
      rw [Live.arrivePop_taken _ _ _ _ ht]
      exact if_neg hr
    refine (harrive _ (htake.trans (Live.claim_new _ _ _ ht.2.1))).trans (closed_congr ?_)
    simp only [State.popping, hset]
    rfl
  · intro s p t w c h hc he hn x hwhy
    obtain ⟨latch, hset, harrive⟩ := h.exec_pop_arrive (cut := s.attn) hc (.inl ⟨he, rfl⟩)
    have hjoin := Live.arrivePop_joins (l := s.popping p t w c latch s.attn) (k := ⟨p, t.burst, none⟩) s.tick hwhy
    refine (harrive _ hjoin).trans (closed_congr ?_)
    unfold Live.joinPop
    rw [Ctx.joinWait_eq, Live.holdItem_of_not_holds _ _ _ hn]
    simp only [State.popping, Live.setLatch, hset]
    rfl

end pop

end Sys2Proof.Machine
end

section
/-! PROOFS. FLUSH (R21, R44, R143): what the completion of the command word does at its context. -/

namespace Sys2Proof.Machine

/-! ## The command word (R143) -/

/-- A word that is no record word stages nothing (R136, R137). -/
theorem State.stageWord_command (s : State) (w : CbWord) {c : Fin 8} (h : cbFunction w.offset = .command c) :
    s.stageWord w = s := by
  unfold State.stageWord
  rw [h]
  simp

theorem State.actWord_command (s : State) (p : Port) (offset : Nat) (v : Word) {be : Enables} {c : Fin 8} (hb : be ≠ 0)
    (hf : cbFunction offset = .command c) :
    s.actWord p ⟨offset, be, v⟩ = s.command p c (bits (v &&& laneMask be) 0 8) := by
  unfold State.actWord
  rw [if_pos (CbWord.acts_of_enabled _ _ hb), hf]
  rfl

/-- The completion of a write of command code 1 has the command of its context executed. -/
theorem State.CbWordUnit.exec_flush {s : State} {p : Port} {c : Fin 8} {be : Enables} {v : Word} {t : Transfer}
    (h : s.CbWordUnit p (0x500 + 4 * c.val) be v t) (hcode : bits (v &&& laneMask be) 0 8 = 1) :
    exec .flush s = .next (closeEvent s ((s.writeAnswered p
      ⟨.cbWrite, s.cbBase + (0x500 + 4 * c.val), [be], [v], true⟩).command p c 1)) := by
  have hf := cbFunction_command c
  have hrow : CbRow.flush ∈ (⟨0x500 + 4 * c.val, be, v⟩ : CbWord).rows p (readClear s.globalWord) := by
    unfold CbWord.rows
    rw [if_pos (CbWord.acts_of_enabled _ _ h.enabled), hf]
    simp [CbWord.carried, hcode]
  rw [Machine.exec_flush, execFlush, h.event hrow, State.stageWord_command _ _ hf, State.actWord_command _ _ _ _ h.enabled hf,
    hcode]

theorem State.command_uninitialised {s : State} {c : Fin 8} (p : Port) (h : s.ctxs[c].initialised = false) :
    s.command p c 1 = s.refuseConfig p .command c.val .binding :=
  if_neg (by rw [h]; decide)

theorem State.command_flush {s : State} {c : Fin 8} {l : Live} (p : Port) (h : s.ctxs[c].initialised = true)
    (hl : s.flush s.tick c = l) : s.command p c 1 = { s with toLive := l } := by
  subst hl
  exact if_pos h

/-! ## Every ready entry leaves the ring (R14, R16, R21) -/

/-- The discarded slots of a FIFO ring with none held are released at once (R15). -/
theorem Ctx.dropReady_free {x : Ctx} (hl : x.applied.isLifo = false) (hh : x.heldRun = []) :
    x.dropReady x.ready = { x with
      ready := 0
      head := (x.head + x.ready) % x.applied.capacity
      release := (x.release + x.ready) % x.applied.capacity
      cache := x.cache.unknown } := by
  have hspent : (List.replicate x.ready HeldSlot.spent).takeWhile HeldSlot.isSpent = List.replicate x.ready .spent :=
    List.takeWhile_replicate_eq_filter.trans (List.filter_replicate_of_pos rfl)
  simp [Ctx.dropReady, Ctx.isLifo, hl, Ctx.releaseStep, hh, hspent, Ctx.cacheInvalid, StampCache.unknown, Ctx.capacity,
    HeldSlot.isSpent]

/-- Behind a slot in copy they stay held (R15). -/
theorem Ctx.dropReady_behind {x : Ctx} {q : Port} {more : List HeldSlot} (hl : x.applied.isLifo = false)
    (hh : x.heldRun = .copying q :: more) : x.dropReady x.ready = { x with
      ready := 0
      head := (x.head + x.ready) % x.applied.capacity
      release := x.release % x.applied.capacity
      heldRun := x.heldRun ++ List.replicate x.ready .spent
      cache := x.cache.unknown } := by
  simp [Ctx.dropReady, Ctx.isLifo, hl, Ctx.releaseStep, hh, Ctx.cacheInvalid, StampCache.unknown, Ctx.capacity,
    HeldSlot.isSpent]

theorem Ctx.dropReady_stack {x : Ctx} (hl : x.applied.isLifo = true) : x.dropReady x.ready = { x with
      ready := 0
      depth := x.depth - x.ready
      cache := x.cache.unknown } := by
  simp [Ctx.dropReady, Ctx.isLifo, hl, Ctx.cacheInvalid, StampCache.unknown]

/-- Every ready entry of a context is discarded, where they leave it as `y` (R21). -/
theorem Live.discardAll_eq {l : Live} {c : Fin 8} {y : Ctx} (hr : l.ctxs[c].ready ≠ 0)
    (hy : l.ctxs[c].dropReady l.ctxs[c].ready = y) : l.discardAll c = { l with
      ctxs := l.ctxs.set c { y with discarded := l.ctxs[c].discarded + BitVec.ofNat 16 l.ctxs[c].ready, gap := true }
      attn := lossNotices l.ctxs[c] c l.ctxs[c].ready l.attn } := by
  subst hy
  exact (if_neg hr).trans (l.discard_eq c _)

/-! ## The space that a FLUSH offers (R15, R21, R44) -/

/-- Freed slots are offered to nobody where a FIFO list holds no commit (R41). -/
theorem Live.offerSpace_no_commits {b l : Live} {c : Fin 8} (now : BitVec 16) (hl : l.ctxs[c].isLifo = false)
    (hh : heldCommits l.ctxs[c].held = []) : Live.offerSpace b l now c = l := by
  unfold Live.offerSpace Live.examineCommits
  rw [if_neg (by rw [hl]; decide)]
  split
  · rw [if_neg (by rw [hl]; decide), hh]
    rfl
  · rfl

theorem heldCommits_eq_nil {held : List HeldItem} (h : ∀ i ∈ held, i.isCommit = false) : heldCommits held = [] := by
  induction held with
  | nil => rfl
  | cons i rest ih =>
    cases i with
    | commit k => exact absurd (h (.commit k) List.mem_cons_self) (by simp [HeldItem.isCommit])
    | pop k => exact ih fun i hi => h i (List.mem_cons_of_mem _ hi)

/-- Freed slots of a FIFO context are offered to its held commits (R41). -/
theorem Live.offerSpace_freed {b l : Live} {c : Fin 8} (now : BitVec 16) (hl : l.ctxs[c].isLifo = false)
    (hf : l.ctxs[c].occupied < b.ctxs[c].occupied) : Live.offerSpace b l now c = l.examineCommits now c := by
  unfold Live.offerSpace
  rw [if_neg (by rw [hl]; decide)]
  exact if_pos (decide_eq_true hf)

/-! ## What FLUSH does (R21) -/

section flush
variable {l : Live} {c : Fin 8} (now : BitVec 16)

theorem Ctx.opRunning_of_idle {x : Ctx} (hw : x.writing = 0) (hc : x.inCopy = 0) : x.opRunning = false := by
  simp [Ctx.opRunning, hw, hc]

theorem Live.flush_running (hl : l.ctxs[c].applied.isLifo = true) (hrun : 0 < l.ctxs[c].writing ∨ 0 < l.ctxs[c].inCopy) :
    l.flush now c = { l with ctxs := l.ctxs.set c { l.ctxs[c] with pendingFlush := true } } :=
  if_pos (Bool.and_eq_true_iff.2 ⟨hl, Ctx.opRunning_of_pos hrun⟩)

variable (hidle : l.ctxs[c].applied.isLifo = false ∨ (l.ctxs[c].writing = 0 ∧ l.ctxs[c].inCopy = 0))
include hidle

theorem Live.flush_not_waiting : ¬(l.ctxs[c].isLifo && l.ctxs[c].opRunning) = true := by
  rw [Bool.and_eq_true]
  rintro ⟨h1, h2⟩
  rcases hidle with hl | ⟨hw, hc⟩
  · rw [Ctx.isLifo, hl] at h1
    cases h1
  · rw [Ctx.opRunning_of_idle hw hc] at h2
    cases h2

theorem Live.flush_nothing_ready (hr : l.ctxs[c].ready = 0) : l.flush now c = l :=
  (if_neg (Live.flush_not_waiting hidle)).trans (if_pos hr)

theorem Live.flush_discards (hr : l.ctxs[c].ready ≠ 0) : l.flush now c = Live.offerSpace l (l.discardAll c) now c :=
  (if_neg (Live.flush_not_waiting hidle)).trans (if_neg hr)

/-- With no commit held a FLUSH does nothing but the discards. -/
theorem Live.flush_no_commits (hr : l.ctxs[c].ready ≠ 0) {y : Ctx} (hy : l.ctxs[c].dropReady l.ctxs[c].ready = y)
    (hh : y.held = [] ∨ (y.isLifo = false ∧ heldCommits y.held = [])) : l.flush now c = { l with
      ctxs := l.ctxs.set c { y with discarded := l.ctxs[c].discarded + BitVec.ofNat 16 l.ctxs[c].ready, gap := true }
      attn := lossNotices l.ctxs[c] c l.ctxs[c].ready l.attn } := by
  rw [Live.flush_discards now hidle hr, Live.discardAll_eq hr hy]
  rcases hh with hh | ⟨hl, hh⟩
  · refine Live.offerSpace_nil _ _ _ _ ?_
    rw [Fin.getElem_fin, Vector.getElem_set_self]
    exact hh
  · refine Live.offerSpace_no_commits _ ?_ ?_
    · rw [Fin.getElem_fin, Vector.getElem_set_self]
      exact hl
    · rw [Fin.getElem_fin, Vector.getElem_set_self]
      exact hh

end flush

/-- A FLUSH of a FIFO context with one commit held for space: the commit reserves in the space that the FLUSH frees (R44). -/
theorem Live.flush_one_commit {l : Live} {c : Fin 8} {k : HeldCommit} (now : BitVec 16)
    (hl : l.ctxs[c].applied.isLifo = false) (hr : l.ctxs[c].ready ≠ 0) (hrun : l.ctxs[c].heldRun = [])
    (hh : l.ctxs[c].held = [.commit k]) (hocc : l.ctxs[c].occupied ≤ l.ctxs[c].applied.capacity)
    (hw : l.portWriting k.port = false) {y : Ctx} (hy : y = { l.ctxs[c] with
      ready := 0
      head := (l.ctxs[c].head + l.ctxs[c].ready) % l.ctxs[c].applied.capacity
      release := (l.ctxs[c].release + l.ctxs[c].ready) % l.ctxs[c].applied.capacity
      discarded := l.ctxs[c].discarded + BitVec.ofNat 16 l.ctxs[c].ready
      gap := true
      cache := l.ctxs[c].cache.unknown }) : l.flush now c = { l with
      attn := lossNotices l.ctxs[c] c l.ctxs[c].ready l.attn
      assembly := l.assembly.set k.port (.committing c k.length k.level [] true)
      jobs := l.jobs ++ [y.writeEntry c k (l.assembly.get k.port).commitWords now]
      ctxs := l.ctxs.set c { y.reservedFor k.port now with held := [] } } := by
  have hdrop : l.discardAll c = { l with
      ctxs := l.ctxs.set c y, attn := lossNotices l.ctxs[c] c l.ctxs[c].ready l.attn } := by
    rw [Live.discardAll_eq hr (Ctx.dropReady_free hl hrun), hy]
  have hbefore : l.ctxs[c].occupied = l.ctxs[c].ready + l.ctxs[c].writing := by
    rw [Ctx.occupied_of_fifo hl, hrun]
    rfl
  have hself : (l.discardAll c).ctxs[c] = y := by rw [hdrop, Fin.getElem_fin, Vector.getElem_set_self]
  have hafter : (l.discardAll c).ctxs[c].occupied = l.ctxs[c].writing := by
    rw [hself, Ctx.occupied_of_fifo (by rw [hy]; exact hl), hy]
    simp only [hrun, List.length_nil]
    exact Nat.zero_add _
  have hfull : (l.discardAll c).ctxs[c].full = false := by
    refine Ctx.full_eq_false ?_
    rw [hafter, hself, show y.applied = l.ctxs[c].applied by rw [hy]]
    omega
  have hwriting : (l.discardAll c).portWriting k.port = false := by
    rw [Live.portWriting_congr l _ _ fun d => ?_]
    · exact hw
    · rw [hdrop, Fin.getElem_fin, Vector.getElem_set]
      split
      · next e => rw [hy]; simp [e]
      · rfl
  rw [Live.flush_discards now (.inl hl) hr, Live.offerSpace_freed now (by rw [hself, hy]; exact hl) (by omega),
    Live.examineCommits_alone _ now c k (by rw [hself, hy]; exact hh) (by rw [hself, hy]; exact hl) hwriting hfull, hself,
    hdrop, Vector.set_set]

/-- Settles O54, by what holds the FLUSH back and what waits for the space it frees. -/
theorem flushDiscardsTheReadyEntries : Obligations.FlushDiscardsTheReadyEntries := by
  intro s p c be v t h hcode x done lost
  have hexec := h.exec_flush hcode
  refine ⟨fun hi => ?_, fun hi hidle hr => ?_, fun hi hl hr hrun hh => ?_, fun q more hi hl hr hrun hh => ?_,
    fun k words hi hl hr hrun hh hocc hw ha => ?_, fun hi hl hrun => ?_, fun hi hl hwrite hcopy hr hh => ?_⟩
  · exact hexec.trans (closed_congr (State.command_uninitialised p hi))
  · exact hexec.trans (closed_congr (State.command_flush p hi (Live.flush_nothing_ready (l := done.toLive) s.tick hidle hr)))
  · exact hexec.trans (closed_congr (State.command_flush p hi
      (Live.flush_no_commits (l := done.toLive) s.tick (.inl hl) hr (Ctx.dropReady_free hl hrun) (.inl hh))))
  · exact hexec.trans (closed_congr (State.command_flush p hi
      (Live.flush_no_commits (l := done.toLive) s.tick (.inl hl) hr (Ctx.dropReady_behind hl hrun) (.inr ⟨hl, heldCommits_eq_nil hh⟩))))
  · have hflush := Live.flush_one_commit (l := done.toLive) s.tick hl hr hrun hh hocc hw rfl
    rw [show done.assembly.get k.port = _ from ha] at hflush
    exact hexec.trans (closed_congr (State.command_flush p hi hflush))
  · exact hexec.trans (closed_congr (State.command_flush p hi (Live.flush_running (l := done.toLive) s.tick hl hrun)))
  · exact hexec.trans (closed_congr (State.command_flush p hi
      (Live.flush_no_commits (l := done.toLive) s.tick (.inr ⟨hwrite, hcopy⟩) hr (Ctx.dropReady_stack hl) (.inl hh))))

end Sys2Proof.Machine
end

section
/-! PROOFS. The context records (R20, R78, R88, R137, R139-R141): staged word by word, applied or refused at word 0. -/

namespace Sys2Proof.Machine

/-! ## What applying a record makes of a context -/

/-- Changed watermark fields: the state is evaluated anew from CALM, and HIGH is raised where it becomes RAISED at once
(R78). -/
theorem Live.rearm_eq (l : Live) (c : Fin 8) : l.rearm c = { l with
    attn := if l.ctxs[c].applied.high ≤ l.ctxs[c].ready ∧ l.ctxs[c].applied.holdoff = 0 then
      raiseRouted l.attn (l.ctxs[c].applied.route .high) c .high else l.attn
    ctxs := l.ctxs.set c { l.ctxs[c] with
      watermark := if l.ctxs[c].ready < l.ctxs[c].applied.high then .calm
        else if l.ctxs[c].applied.holdoff = 0 then .raised else .arming l.ctxs[c].applied.holdoff } } := by
  unfold Live.rearm Ctx.evaluate
  dsimp only
  by_cases hr : l.ctxs[c].applied.high ≤ l.ctxs[c].ready
  · by_cases hh : l.ctxs[c].applied.holdoff = 0
    · simp only [Fin.getElem_fin] at hr hh
      simp [hr, hh, not_lt.2 hr, Live.raise_eq, Live.modCtx_eq, noticed]
    · simp only [Fin.getElem_fin] at hr hh
      simp [hr, hh, not_lt.2 hr, Live.modCtx_eq]
  · simp only [Fin.getElem_fin] at hr
    simp [hr, not_le.1 hr, Live.modCtx_eq]

theorem Live.installContext_unbound (l : Live) (c : Fin 8) (r : Record) :
    l.installContext c false r = { l with ctxs := l.ctxs.set c (l.ctxs[c].initialise r) } := rfl

theorem Live.installContext_soft {l : Live} {c : Fin 8} {r : Record} (hw : r.sameWatermarks l.ctxs[c].applied = true) :
    l.installContext c true r = { l with ctxs := l.ctxs.set c (l.ctxs[c].softApply r) } := if_pos hw

theorem Live.installContext_rearm {l : Live} {c : Fin 8} {r : Record} (hw : r.sameWatermarks l.ctxs[c].applied = false) :
    l.installContext c true r = { l with
      attn := if r.high ≤ l.ctxs[c].ready ∧ r.holdoff = 0 then raiseRouted l.attn (r.route .high) c .high else l.attn
      ctxs := l.ctxs.set c { l.ctxs[c].softApply r with
        watermark := if l.ctxs[c].ready < r.high then .calm
          else if r.holdoff = 0 then .raised else .arming r.holdoff } } := by
  have hself : (l.modCtx c fun x => x.softApply r).ctxs[c] = l.ctxs[c].softApply r := Live.modCtx_ctxs_self _ _ _
  have hinstall : l.installContext c true r = (l.modCtx c fun x => x.softApply r).rearm c :=
    if_neg (c := r.sameWatermarks l.ctxs[c].applied = true) (by rw [hw]; decide)
  rw [hinstall, Live.rearm_eq, hself]
  simp only [Live.modCtx_eq, Vector.set_set]
  rfl

theorem Record.sameWatermarks_eq_false {r a : Record} (h : r.high ≠ a.high ∨ r.low ≠ a.low ∨ r.holdoff ≠ a.holdoff) :
    r.sameWatermarks a = false := by
  simp only [Record.sameWatermarks, Bool.and_eq_false_iff, beq_eq_false_iff_ne]
  tauto

/-! ## The completion of a record word (R136, R137) -/

theorem State.applyContext_passes {s : State} {c : Fin 8} (p : Port)
    (h : s.contextReason c s.ctxs[c].staged = none) :
    s.applyContext p c = s.onLive fun l => l.installContext c (s.bound c) s.ctxs[c].staged := by
  unfold State.applyContext
  rw [h]
  rfl

theorem State.applyContext_fails {s : State} {c : Fin 8} (p : Port) {reason : Reason}
    (h : s.contextReason c s.ctxs[c].staged = some reason) :
    s.applyContext p c = s.refuseConfig p .context c.val reason := by
  unfold State.applyContext
  rw [h]

section unit
variable {s : State} {p : Port} {c : Fin 8} {n : Nat} {be : Enables} {v : Word} {t : Transfer}

/-- The staged copy of a record after a write of its word `n` (R137). -/
def Record.stagedWord (r : Record) (n : Nat) (be : Enables) (v : Word) : Record :=
  r.setWord n ((r.word n &&& ~~~laneMask be) ||| (v &&& laneMask be))

/-- The state with the context's staged record replaced. -/
def State.withStaged (s : State) (c : Fin 8) (r : Record) : State :=
  { s with ctxs := s.ctxs.set c { s.ctxs[c] with staged := r } }

theorem State.stageWord_context (s : State) {offset : Nat} (hb : be ≠ 0) (hf : cbFunction offset = .context c n) :
    s.stageWord ⟨offset, be, v⟩ = s.withStaged c (s.ctxs[c].staged.stagedWord n be v) := by
  unfold State.stageWord
  rw [if_pos (CbWord.acts_of_enabled _ _ hb), hf]
  rfl

/-- The state in which a written word of a context record is in memory, answered and staged. -/
def State.recordStaged (s : State) (p : Port) (c : Fin 8) (n : Nat) (be : Enables) (v : Word) : State :=
  (s.writeAnswered p ⟨.cbWrite, s.cbBase + (0x400 + 0x20 * c.val + 4 * n), [be], [v], true⟩).withStaged c
    (s.ctxs[c].staged.stagedWord n be v)

theorem State.recordStaged_ctx :
    (s.recordStaged p c n be v).ctxs[c] = { s.ctxs[c] with staged := s.ctxs[c].staged.stagedWord n be v } := by
  rw [Fin.getElem_fin]
  exact Vector.getElem_set_self _

theorem State.recordStaged_staged :
    (s.recordStaged p c n be v).ctxs[c].staged = s.ctxs[c].staged.stagedWord n be v :=
  congrArg Ctx.staged State.recordStaged_ctx

/-- The checks of R139 read the same of the state in which the record is staged. -/
theorem State.recordStaged_reason (r : Record) : (s.recordStaged p c n be v).contextReason c r = s.contextReason c r := by
  refine State.contextReason_congr s _ c r rfl rfl rfl fun d => ?_
  have hd : (s.recordStaged p c n be v).ctxs[d] = if d = c then { s.ctxs[d] with
      staged := s.ctxs[c].staged.stagedWord n be v } else s.ctxs[d] := by
    split
    · next e => rw [e]; exact State.recordStaged_ctx
    · next e => exact Vector.getElem_set_ne c.isLt d.isLt fun e' => e (Fin.ext e'.symm)
  rw [hd]
  split <;> exact ⟨rfl, rfl, rfl, rfl⟩

variable (hn : n < 8) (h : s.CbWordUnit p (0x400 + 0x20 * c.val + 4 * n) be v t)
include hn h

/-- The event of a context record word: staged, and word 0 applied (R136, R137). -/
theorem State.CbWordUnit.recordEvent {row : CbRow} (hrow : row = .stage ∨ (n = 0 ∧ row = .contextApply)) :
    Machine.event (s.cbWriteHas row) s (fun s => s.completeCbWrite) = .next (closeEvent s
      (if n = 0 then (s.recordStaged p c n be v).applyContext p c else s.recordStaged p c n be v)) := by
  have hf : cbFunction (0x400 + 0x20 * c.val + 4 * n) = .context c n := cbFunction_context c ⟨n, hn⟩
  have hmem : row ∈ (⟨0x400 + 0x20 * c.val + 4 * n, be, v⟩ : CbWord).rows p (readClear s.globalWord) := by
    unfold CbWord.rows
    rw [if_pos (CbWord.acts_of_enabled _ _ h.enabled), hf]
    cases n with
    | zero => rcases hrow with rfl | ⟨_, rfl⟩ <;> simp
    | succ n => rcases hrow with rfl | ⟨h0, _⟩ <;> simp_all
  rw [h.event hmem, State.stageWord_context _ h.enabled hf, State.actWord_context _ _ _ _ h.enabled hf]
  rfl

/-- A record word other than word 0 is staged and acts no further (R137). -/
theorem State.CbWordUnit.exec_stage (h0 : n ≠ 0) :
    exec .stageRecordWord s = .next (closeEvent s (s.recordStaged p c n be v)) := by
  rw [exec_stageRecordWord, execStageRecordWord, h.recordEvent hn (.inl rfl), if_neg h0]

/-- Word 0 of a record that passes installs it (R140). -/
theorem State.CbWordUnit.exec_install (h0 : n = 0)
    (hr : s.contextReason c (s.ctxs[c].staged.stagedWord n be v) = none) {bound : Bool} (hb : s.bound c = bound)
    {l : Live} (hl : (s.recordStaged p c n be v).installContext c bound (s.ctxs[c].staged.stagedWord n be v) = l) :
    exec .contextRecordApply s = .next (closeEvent s { s.recordStaged p c n be v with toLive := l }) := by
  subst hl hb
  have hstaged := State.recordStaged_staged (s := s) (p := p) (c := c) (n := n) (be := be) (v := v)
  have happly := State.applyContext_passes (s := s.recordStaged p c n be v) (c := c) p
    (by rw [State.recordStaged_reason, hstaged, hr])
  rw [exec_contextRecordApply, execContextRecordApply, h.recordEvent hn (.inr ⟨h0, rfl⟩), if_pos h0, happly, hstaged]
  rfl

/-- Word 0 of a record that fails a check is refused, and the staged copy is kept (R137, R142). -/
theorem State.CbWordUnit.exec_refuse (h0 : n = 0) {reason : Reason}
    (hr : s.contextReason c (s.ctxs[c].staged.stagedWord n be v) = some reason) :
    exec .contextRecordApply s =
      .next (closeEvent s ((s.recordStaged p c n be v).refuseConfig p .context c.val reason)) := by
  rw [exec_contextRecordApply, execContextRecordApply, h.recordEvent hn (.inr ⟨h0, rfl⟩), if_pos h0]
  exact closed_congr (State.applyContext_fails p (by rw [State.recordStaged_reason, State.recordStaged_staged, hr]))

end unit

/-- The status item of a context that an event marked is on the mirror list after it (R20, log 28). -/
theorem mem_mirror_of_statusDue {s u : State} {c : Fin 8} (h : u.ctxs[c].statusDue = true) :
    Item.context c ∈ (closeEvent s u).mirror := by
  obtain ⟨joined, hm, -, hj, -⟩ := dirtyItemsJoinTheMirrorList.2.2 s u
  rw [hm, List.mem_append]
  by_cases hi : Item.context c ∈ u.mirror
  · exact .inl hi
  · exact .inr ((hj _).2 ⟨.inr ⟨c, rfl, h⟩, hi⟩)

/-- Settles O52, by whether the record passes and whether its context is bound. -/
theorem contextRecordsAreStagedAndApplied : Obligations.ContextRecordsAreStagedAndApplied := by
  intro s p c n be v t hn h x r done stagedOnly
  have hctx : (s.recordStaged p c n be v).ctxs[c] = { x with staged := r } := State.recordStaged_ctx
  have hset : ∀ y, (s.recordStaged p c n be v).ctxs.set c y = s.ctxs.set c y := fun y => Vector.set_set ..
  have hinit : n = 0 → s.contextReason c r = none → s.bound c = false →
      exec .contextRecordApply s = .next (closeEvent s { done with
        ctxs := s.ctxs.set c (({ x with staged := r } : Ctx).initialise r) }) := by
    intro h0 hr hb
    refine (h.exec_install hn h0 hr hb (Live.installContext_unbound _ _ _)).trans (closed_congr ?_)
    rw [hctx, hset]
    rfl
  refine ⟨fun h0 => h.exec_stage hn h0, hinit, fun h0 hr hb => ?_, fun h0 hr hb hw => ?_, fun h0 hr hb hw => ?_,
    fun reason h0 hr => h.exec_refuse hn h0 hr⟩
  · refine ⟨_, hinit h0 hr hb, mem_mirror_of_statusDue ?_⟩
    rw [Fin.getElem_fin, Vector.getElem_set_self]
    rfl
  · refine (h.exec_install hn h0 hr hb (Live.installContext_soft ?_)).trans (closed_congr ?_)
    · rw [hctx]
      exact hw
    · rw [hctx, hset]
      rfl
  · refine (h.exec_install hn h0 hr hb (Live.installContext_rearm ?_)).trans (closed_congr ?_)
    · rw [hctx]
      exact Record.sameWatermarks_eq_false hw
    · rw [hctx, hset]
      rfl

end Sys2Proof.Machine
end

section
/-! PROOFS. The completion of an ENTRY_WRITE (R12, R16, R35, R41, R66): publication in reservation order, the answers to
the producers, and what is served in that event. -/

namespace Sys2Proof.Machine

/-! ## The end of a LIFO operation with one item held (R21, R43, R70) -/

/-- At the end of a LIFO operation the one pop held claims the next entry. -/
theorem Live.operationEnds_pop {l : Live} {c : Fin 8} {k : HeldPop} (now : BitVec 16)
    (hf : l.ctxs[c].pendingFlush = false) (hh : l.ctxs[c].held = [.pop k]) (hidle : l.ctxs[c].opRunning = false)
    (hc : l.copyInFlight k.port = false) (hr : l.ctxs[c].ready ≠ 0) : l.operationEnds now c = l.claim c k := by
  unfold Live.operationEnds Live.examineStack
  rw [if_neg (by rw [hf]; decide), hh]
  simp only [examineStackList, hidle, hc, Bool.false_eq_true, if_false]
  exact if_neg hr

/-- At the end of a LIFO operation the one commit held reserves. -/
theorem Live.operationEnds_commit {l : Live} {c : Fin 8} {k : HeldCommit} (now : BitVec 16)
    (hf : l.ctxs[c].pendingFlush = false) (hh : l.ctxs[c].held = [.commit k]) (hidle : l.ctxs[c].opRunning = false)
    (hw : l.portWriting k.port = false) (hocc : l.ctxs[c].occupied < l.ctxs[c].applied.capacity) :
    l.operationEnds now c = l.reserve now c k := by
  unfold Live.operationEnds Live.examineStack
  rw [if_neg (by rw [hf]; decide), hh]
  simp only [examineStackList, hidle, hw, Bool.false_eq_true, if_false]
  exact Live.takeCommit_not_full now k hocc

/-- At the end of a LIFO operation with nothing held a pending FLUSH discards every ready entry. -/
theorem Live.operationEnds_flush {l : Live} {c : Fin 8} (now : BitVec 16) (hf : l.ctxs[c].pendingFlush = true)
    (hl : l.ctxs[c].applied.isLifo = true) (hh : l.ctxs[c].held = []) (hr : l.ctxs[c].ready ≠ 0) :
    l.operationEnds now c = { l with
      attn := lossNotices l.ctxs[c] c l.ctxs[c].ready l.attn
      ctxs := l.ctxs.set c { l.ctxs[c] with
        ready := 0
        depth := l.ctxs[c].depth - l.ctxs[c].ready
        discarded := l.ctxs[c].discarded + BitVec.ofNat 16 l.ctxs[c].ready
        gap := true
        cache := l.ctxs[c].cache.unknown
        pendingFlush := false } } := by
  have hself : (l.modCtx c fun x => { x with pendingFlush := false }).ctxs[c] = { l.ctxs[c] with pendingFlush := false } :=
    Live.modCtx_ctxs_self _ _ _
  have hdrop := Live.discardAll_eq (l := l.modCtx c fun x => { x with pendingFlush := false }) (c := c)
    (by rw [hself]; exact hr) (Ctx.dropReady_stack (by rw [hself]; exact hl))
  unfold Live.operationEnds
  rw [if_pos hf, hdrop, Live.examineStack_nil]
  · rw [hself]
    simp only [Live.modCtx_eq, Vector.set_set]
    rfl
  · rw [Fin.getElem_fin, Vector.getElem_set_self, hself]
    exact hh

/-! ## One publication (R12, R16, R35, R79) -/

/-- The context after one publication: the oldest WRITING slot is READY, PUBLISHED one more, and the next entry's stamp
known where the entry is the next one. -/
def Ctx.publishedOne (x : Ctx) (v : WritingSlot) : Ctx :=
  { x with
    writingRun := x.writingRun.drop 1
    ready := x.ready + 1
    published := x.published + 1
    cache := if x.applied.isLifo = true ∨ x.ready = 0 then .known v.stamp else x.cache }

theorem Ctx.publish_counted (x : Ctx) (v : WritingSlot) :
    { x.publish v with published := (x.publish v).published + 1 } = x.publishedOne v := by
  unfold Ctx.publish Ctx.publishedOne
  by_cases h : x.applied.isLifo = true ∨ x.ready = 0
  · rw [if_pos h]
    dsimp only
    rw [if_pos (by simpa [Ctx.isLifo] using h)]
    rfl
  · rw [if_neg h]
    dsimp only
    rw [if_neg (by simpa [Ctx.isLifo] using h)]

theorem Ctx.publish_published (x : Ctx) (v : WritingSlot) : (x.publish v).published = x.published := by
  unfold Ctx.publish
  dsimp only
  split <;> rfl

theorem Ctx.publish_applied (x : Ctx) (v : WritingSlot) : (x.publish v).applied = x.applied := by
  unfold Ctx.publish
  dsimp only
  split <;> rfl

/-- The live state after one publication, before its producer is answered. -/
def Live.publishedOne (l : Live) (c : Fin 8) (v : WritingSlot) : Live :=
  { l with
    ctxs := l.ctxs.set c (l.ctxs[c].publishedOne v)
    attn := noticed l.ctxs[c] c .wrap (wraps l.ctxs[c].published 1) l.attn }

theorem Live.publish_countPublished (l : Live) (c : Fin 8) (v : WritingSlot) :
    (l.modCtx c fun x => x.publish v).countPublished c = l.publishedOne c v := by
  have hself : (l.modCtx c fun x => x.publish v).ctxs[c] = l.ctxs[c].publish v := Live.modCtx_ctxs_self _ _ _
  rw [Live.countPublished_eq, hself, Ctx.publish_counted, Ctx.publish_published,
    noticed_congr c (Ctx.publish_applied _ _)]
  simp only [Live.modCtx_eq, Vector.set_set]
  rfl

/-- The producer that waits for the entry is answered OK and its buffer is EMPTY (R35). -/
theorem Live.answerProducer_waiting {l : Live} {c : Fin 8} {p : Port} {n : Nat} {level : Level} {words : List Word}
    {t : Transfer} {d : Decode} (ha : l.assembly.get p = .committing c n level words true)
    (hi : l.ifaces.get p = .held t d none) : l.answerProducer c p = { l with
      ifaces := l.ifaces.set p (.answering .okWrite), assembly := l.assembly.set p .empty } := by
  unfold Live.answerProducer
  rw [ha, if_pos (by simp [Assembly.waitsFor]), Live.answerOk_held _ hi]
  rfl

/-- A producer that does not wait for an entry of the context is not answered (R35). -/
theorem Live.answerProducer_other {l : Live} {c : Fin 8} {p : Port} (h : (l.assembly.get p).waitsFor c = false) :
    l.answerProducer c p = l :=
  if_neg (by rw [h]; decide)

/-- With no pop held a publication is offered to nobody. -/
theorem Live.publishOne_no_pop {l : Live} {c : Fin 8} {v : WritingSlot} {m : Live}
    (hm : (l.publishedOne c v).answerProducer c v.port = m) (hh : heldPops m.ctxs[c].held = []) : l.publishOne c v = m :=
  Live.publishOne_no_pops l c v m (by rw [Live.publish_countPublished, hm]) hh

/-- A publication on a LIFO context is offered to nobody before the operation ends (R43). -/
theorem Live.publishOne_lifo {l : Live} {c : Fin 8} {v : WritingSlot} {m : Live}
    (hm : (l.publishedOne c v).answerProducer c v.port = m) (hl : m.ctxs[c].isLifo = true) : l.publishOne c v = m := by
  unfold Live.publishOne
  rw [Live.publish_countPublished, hm]
  dsimp only
  rw [hl]

/-- The oldest pop held at a FIFO context claims the entry that is published (R12). -/
theorem Live.publishOne_pop {l : Live} {c : Fin 8} {v : WritingSlot} {m : Live} {k : HeldPop}
    (hm : (l.publishedOne c v).answerProducer c v.port = m) (hl : m.ctxs[c].isLifo = false)
    (hh : m.ctxs[c].held = [.pop k]) (hc : m.copyInFlight k.port = false) (hr : m.ctxs[c].ready ≠ 0) :
    l.publishOne c v = m.claim c k := by
  unfold Live.publishOne
  rw [Live.publish_countPublished, hm]
  dsimp only
  rw [hl, hh]
  dsimp only [heldPops]
  rw [hc, if_neg (by simpa using hr)]

/-! ## The write of the oldest WRITING slot -/

/-- The live state with the WRITING run of a context replaced. -/
def Live.withRun (l : Live) (c : Fin 8) (run : List WritingSlot) : Live :=
  { l with ctxs := l.ctxs.set c { l.ctxs[c] with writingRun := run } }

theorem Live.withRun_ctx (l : Live) (c : Fin 8) (run : List WritingSlot) :
    (l.withRun c run).ctxs[c] = { l.ctxs[c] with writingRun := run } := by
  rw [Fin.getElem_fin]
  exact Vector.getElem_set_self _

/-- The live state after the oldest entry `v` of the run `v :: later` was written and published. -/
theorem Live.withRun_publishedOne (l : Live) (c : Fin 8) (v : WritingSlot) (later : List WritingSlot) :
    (l.withRun c (v :: later)).publishedOne c v = { l with
      ctxs := l.ctxs.set c ({ l.ctxs[c].publishedOne v with writingRun := later })
      attn := noticed l.ctxs[c] c .wrap (wraps l.ctxs[c].published 1) l.attn } := by
  unfold Live.publishedOne
  rw [Live.withRun_ctx]
  simp only [Live.withRun, Vector.set_set]
  rfl

theorem Live.writeComplete_eq {l : Live} {c : Fin 8} {slot : Nat} {p : Port} {run : List WritingSlot}
    (h : l.ctxs[c].writeComplete slot p = { l.ctxs[c] with writingRun := run }) :
    (l.modCtx c fun x => x.writeComplete slot p) = l.withRun c run := by
  rw [Live.modCtx_eq, h]
  rfl

/-- The completion of the ENTRY_WRITE of the oldest WRITING slot, with none behind it written: it alone is published, then
the held pops or the end of the LIFO operation, then the port's commit at another context (R12, R42, R66). -/
theorem Live.entryWritten_front {l : Live} {c : Fin 8} {v : WritingSlot} {later : List WritingSlot} (now : BitVec 16)
    (hrun : l.ctxs[c].writingRun = v :: later)
    (hlater : ∀ o ∈ later, o.complete = false ∧ (o.slot ≠ v.slot ∨ o.port ≠ v.port)) {m : Live}
    (hm : (l.withRun c ({ v with complete := true } :: later)).publishOne c { v with complete := true } = m) :
    l.entryWritten now c v.slot v.port =
      (if m.ctxs[c].isLifo then m.operationEnds now c else m.examinePops now c).examineCommitOf now v.port := by
  have hwritten := Live.writeComplete_eq (Ctx.writeComplete_front l.ctxs[c] v later hrun fun o ho => (hlater o ho).2)
  have hpublish : (l.withRun c ({ v with complete := true } :: later)).ctxs[c].publishable =
      [{ v with complete := true }] := by
    rw [Live.withRun_ctx]
    exact takeWhile_complete_one _ later rfl fun o ho => (hlater o ho).1
  exact Live.entryWritten_run l now c v.slot v.port _ _ hwritten hpublish rfl m hm

/-- As above, where neither the end of the operation nor the publication serves an item. -/
theorem Live.entryWritten_serves_none {l : Live} {c : Fin 8} {v : WritingSlot} {later : List WritingSlot} (now : BitVec 16)
    (hrun : l.ctxs[c].writingRun = v :: later)
    (hlater : ∀ o ∈ later, o.complete = false ∧ (o.slot ≠ v.slot ∨ o.port ≠ v.port)) {m : Live}
    (hm : (l.withRun c ({ v with complete := true } :: later)).publishOne c { v with complete := true } = m)
    (hh : m.ctxs[c].held = []) (hf : m.ctxs[c].pendingFlush = false) :
    l.entryWritten now c v.slot v.port = m.examineCommitOf now v.port := by
  rw [Live.entryWritten_front now hrun hlater hm, Live.operationEnds_nil _ _ _ hh hf, Live.examinePops_nil _ _ _ hh,
    ite_self]

/-! ## The job leaves the list -/

/-- The live state without the job in progress. -/
def State.jobTaken (s : State) (rest : List JobEntry) : Live := { s.toLive with jobs := rest }

/-- The completion of an ENTRY_WRITE: its words are in memory, the memory port is idle, the job has left the list (R34,
R156). -/
theorem State.JobUnit.exec_entryWrite {s : State} {c : Fin 8} {slot address : Nat} {h : Word} {payload : List Word}
    {p : Port} {rest : List JobEntry} (hj : s.JobUnit (.entryWrite c slot address h payload p) rest) {l : Live}
    (hl : (s.jobTaken rest).entryWritten s.tick c slot p = l) : exec .entryWriteCompletion s = .next (closeEvent s { s with
      mem := s.mem.applyWrites (burstWrites address ((h :: payload).map fun _ => allEnabled) (h :: payload))
      busy := none
      toLive := l }) := by
  subst hl
  have hpossible : (s.currentJob.any Job.isEntryWrite) = true := by rw [hj.currentJob]; rfl
  rw [exec_entryWriteCompletion, execEntryWriteCompletion, event_possible hpossible hj.running, hj.currentJob]
  dsimp only
  rw [hj.leaveJob, hj.busyWrites_entryWrite]
  rfl

/-! ## O41 -/

/-- The context and attention state after the publication of the one entry of the run do not depend on the list. -/
theorem Live.findHeld_set {l m : Live} {c : Fin 8} {y : Ctx} (p : Port) (hm : m.ctxs = l.ctxs.set c y)
    (hy : y.held = l.ctxs[c].held) : m.findHeld p = l.findHeld p := by
  refine Live.findHeld_congr l m p fun d => ?_
  rw [hm, Fin.getElem_fin, Vector.getElem_set]
  split
  · next e => rw [hy]; simp [e]
  · rfl

end Sys2Proof.Machine
end

section
/-! PROOFS. The cases of the completion of an ENTRY_WRITE (R12, R21, R35, R41, R42, R66, R70). -/

namespace Sys2Proof.Machine

/-- The producer of port `p` is answered OK, its buffer EMPTY (R35). -/
def Live.producerAnswered (l : Live) (p : Port) : Live :=
  { l with ifaces := l.ifaces.set p (.answering .okWrite), assembly := l.assembly.set p .empty }

/-- The live state in which the job in progress has left the list and its entry `v` is published, `later` the WRITING run
behind it. -/
def State.entryPublished (s : State) (rest : List JobEntry) (c : Fin 8) (v : WritingSlot) (later : List WritingSlot) :
    Live :=
  { s.jobTaken rest with
    ctxs := s.ctxs.set c { s.ctxs[c].publishedOne v with writingRun := later }
    attn := noticed s.ctxs[c] c .wrap (wraps s.ctxs[c].published 1) s.attn }

section published
variable {s : State} {rest : List JobEntry} {c : Fin 8} {v : WritingSlot} {later : List WritingSlot}

theorem State.entryPublished_ctx :
    (s.entryPublished rest c v later).ctxs[c] = { s.ctxs[c].publishedOne v with writingRun := later } := by
  rw [Fin.getElem_fin]
  exact Vector.getElem_set_self _

theorem State.entryPublished_ctx_ne {d : Fin 8} (h : d ≠ c) :
    (s.entryPublished rest c v later).ctxs[d] = s.ctxs[d] := by
  rw [Fin.getElem_fin]
  exact Vector.getElem_set_ne c.isLt d.isLt fun e => h (Fin.ext e.symm)

theorem State.entryPublished_findHeld (p : Port) :
    (s.entryPublished rest c v later).findHeld p = s.findHeld p := Live.findHeld_set p rfl rfl

theorem State.withRun_entryPublished : ((s.jobTaken rest).withRun c ({ v with complete := true } :: later)).publishedOne c
    { v with complete := true } = s.entryPublished rest c v later := Live.withRun_publishedOne _ _ _ _

/-- A publication whose producer waits for the entry (R35). -/
theorem State.entryPublished_answers {n : Nat} {level : Level} {words : List Word} {t : Transfer} {d : Decode}
    (ha : s.assembly.get v.port = .committing c n level words true) (hi : s.ifaces.get v.port = .held t d none) :
    (((s.jobTaken rest).withRun c ({ v with complete := true } :: later)).publishedOne c
      { v with complete := true }).answerProducer c v.port = (s.entryPublished rest c v later).producerAnswered v.port := by
  rw [State.withRun_entryPublished]
  exact Live.answerProducer_waiting (l := s.entryPublished rest c v later) ha hi

theorem State.entryPublished_no_pops (h : s.ctxs[c].held = []) :
    heldPops (s.entryPublished rest c v later).ctxs[c].held = [] := by
  rw [State.entryPublished_ctx]
  exact congrArg heldPops h

/-- The completion of the oldest ENTRY_WRITE of a context: the entry is published, its producer answered (R12, R16, R34,
R35). -/
theorem State.JobUnit.publishes_front {address : Nat} {h : Word} {payload : List Word} {t : Transfer} {d : Decode} {n : Nat}
    {level : Level} {words : List Word} (hj : s.JobUnit (.entryWrite c v.slot address h payload v.port) rest)
    (hrun : s.ctxs[c].writingRun = v :: later)
    (hlater : ∀ o ∈ later, o.complete = false ∧ (o.slot ≠ v.slot ∨ o.port ≠ v.port)) (hh : s.ctxs[c].held = [])
    (hf : s.ctxs[c].pendingFlush = false) (hfind : s.findHeld v.port = none)
    (ha : s.assembly.get v.port = .committing c n level words true) (hi : s.ifaces.get v.port = .held t d none) :
    exec .entryWriteCompletion s = .next (closeEvent s { s with
      mem := s.mem.applyWrites (burstWrites address ((h :: payload).map fun _ => allEnabled) (h :: payload))
      busy := none
      toLive := (s.entryPublished rest c v later).producerAnswered v.port }) := by
  have hctx := State.entryPublished_ctx (s := s) (rest := rest) (c := c) (v := v) (later := later)
  have hpublish := Live.publishOne_no_pop (State.entryPublished_answers (rest := rest) (later := later) ha hi)
    (State.entryPublished_no_pops (rest := rest) (later := later) hh)
  have hserved := Live.entryWritten_serves_none (l := s.jobTaken rest) s.tick hrun hlater hpublish
    ((congrArg Ctx.held hctx).trans hh) ((congrArg Ctx.pendingFlush hctx).trans hf)
  have hfound : ((s.entryPublished rest c v later).producerAnswered v.port).findHeld v.port = none :=
    (State.entryPublished_findHeld (rest := rest) v.port).trans hfind
  exact hj.exec_entryWrite (hserved.trans (Live.examineCommitOf_none _ _ hfound))

/-- The completion of an ENTRY_WRITE behind an unwritten slot: its slot is written, and nothing is published (R12). -/
theorem State.JobUnit.waits_behind {address : Nat} {h : Word} {payload : List Word} {w : WritingSlot}
    (hj : s.JobUnit (.entryWrite c w.slot address h payload w.port) rest) (hrun : s.ctxs[c].writingRun = [v, w])
    (hv : v.complete = false) (hp : v.port ≠ w.port) :
    exec .entryWriteCompletion s = .next (closeEvent s { s with
      mem := s.mem.applyWrites (burstWrites address ((h :: payload).map fun _ => allEnabled) (h :: payload))
      busy := none
      toLive := (s.jobTaken rest).withRun c [v, { w with complete := true }] }) := by
  have hwritten : s.ctxs[c].writeComplete w.slot w.port =
      { s.ctxs[c] with writingRun := [v, { w with complete := true }] } := by
    unfold Ctx.writeComplete
    rw [hrun]
    simp [hp]
  refine hj.exec_entryWrite ?_
  unfold Live.entryWritten
  rw [Live.writeComplete_eq (l := s.jobTaken rest) hwritten]
  dsimp only
  rw [if_pos]
  rw [Live.withRun_ctx]
  simp [Ctx.publishable, hv]

/-! ## Two publications in one event (R12) -/

/-- A producer that waits for its entry, or whose port was reset and no longer waits (R35). -/
theorem Live.answerProducer_or_reset {l : Live} {c : Fin 8} {p : Port}
    (h : l.assembly.get p = .empty ∨ ((∃ n level words, l.assembly.get p = .committing c n level words true) ∧
      ∃ t d, l.ifaces.get p = .held t d none)) : l.answerProducer c p = { l with
    ifaces := l.ifaces.set p (if l.assembly.get p = .empty then l.ifaces.get p else .answering .okWrite)
    assembly := l.assembly.set p .empty } := by
  rcases h with h | ⟨⟨n, level, words, ha⟩, t, d, hi⟩
  · rw [Live.answerProducer_other (by rw [h]; rfl), if_pos h, PerPort.set_get_self, ← h, PerPort.set_get_self]
  · rw [Live.answerProducer_waiting ha hi, if_neg (by rw [ha]; simp)]

theorem PerPort.set_set_each {α : Type} (x : PerPort α) {p q : Port} (h : p ≠ q) (f : Port → α) :
    (x.set p (f p)).set q (f q) = .each f := by
  cases p <;> cases q
  · exact absurd rfl h
  · rfl
  · rfl
  · exact absurd rfl h

/-- How the interface of port `q` stands after the publication of its entry (R35). -/
def Live.ifaceAfter (l : Live) (q : Port) : Iface :=
  if l.assembly.get q = .empty then l.ifaces.get q else .answering .okWrite

/-- One publication at a context on which nothing is held. -/
theorem Live.publishOne_quiet {l : Live} {c : Fin 8} {v : WritingSlot} (hh : l.ctxs[c].held = [])
    (ha : l.assembly.get v.port = .empty ∨ ((∃ n level words, l.assembly.get v.port = .committing c n level words true) ∧
      ∃ t d, l.ifaces.get v.port = .held t d none)) : l.publishOne c v = { l.publishedOne c v with
    ifaces := l.ifaces.set v.port (l.ifaceAfter v.port)
    assembly := l.assembly.set v.port .empty } := by
  refine Live.publishOne_no_pop (Live.answerProducer_or_reset (l := l.publishedOne c v) ha) ?_
  simp only [Live.publishedOne, Fin.getElem_fin, Vector.getElem_set_self]
  exact congrArg heldPops hh

/-- Two written slots of different ports are published in reservation order, and the producers that wait are answered (R12,
R35). -/
theorem Live.publishRun_two {l : Live} {v w : WritingSlot} (hp : v.port ≠ w.port) (hh : l.ctxs[c].held = [])
    (ha : ∀ q : Port, l.assembly.get q = .empty ∨ ((∃ n level words, l.assembly.get q = .committing c n level words true) ∧
      ∃ t d, l.ifaces.get q = .held t d none)) :
    Live.publishRun [v, w] c l = { l with
      ifaces := .each l.ifaceAfter
      assembly := ⟨.empty, .empty⟩
      attn := noticed l.ctxs[c] c .wrap (wraps (l.ctxs[c].published + 1) 1)
        (noticed l.ctxs[c] c .wrap (wraps l.ctxs[c].published 1) l.attn)
      ctxs := l.ctxs.set c ((l.ctxs[c].publishedOne v).publishedOne w) } := by
  have hbuffer : (l.assembly.set v.port .empty).get w.port = l.assembly.get w.port := PerPort.get_set_ne _ _ hp.symm
  have hiface : (l.ifaces.set v.port (l.ifaceAfter v.port)).get w.port = l.ifaces.get w.port :=
    PerPort.get_set_ne _ _ hp.symm
  have hbuffers : (l.assembly.set v.port .empty).set w.port .empty = ⟨.empty, .empty⟩ :=
    PerPort.set_set_each _ hp fun _ => Assembly.empty
  have hself : (l.ctxs.set c (l.ctxs[c].publishedOne v))[c] = l.ctxs[c].publishedOne v := by
    rw [Fin.getElem_fin]
    exact Vector.getElem_set_self _
  unfold Live.publishRun Live.publishRun Live.publishRun
  rw [Live.publishOne_quiet hh (ha v.port), Live.publishOne_quiet]
  · simp only [Live.publishedOne, Live.ifaceAfter, hbuffer, hbuffers, hself, Vector.set_set]
    rw [← PerPort.set_set_each l.ifaces hp l.ifaceAfter]
    unfold Live.ifaceAfter
    rw [PerPort.get_set_ne _ _ hp.symm]
    rfl
  · exact (congrArg Ctx.held hself).trans hh
  · dsimp only
    rw [hbuffer, hiface]
    exact ha w.port

/-- The second of two publications at a FIFO context leaves the next entry as it is (R79). -/
theorem Ctx.publishedOne_twice {x : Ctx} {v w : WritingSlot} (hl : x.applied.isLifo = false) :
    ({ x with writingRun := [v, w] }.publishedOne v).publishedOne w = { x with
      writingRun := []
      ready := x.ready + 2
      published := x.published + 1 + 1
      cache := if x.ready = 0 then .known v.stamp else x.cache } := by
  simp [Ctx.publishedOne, hl]

/-- The live state after the two entries of a WRITING run were published, `v` the older one, and the producers that wait
answered. -/
def Live.publishedTwo (l : Live) (c : Fin 8) (v : WritingSlot) : Live :=
  { l with
    ifaces := .each l.ifaceAfter
    assembly := ⟨.empty, .empty⟩
    attn := noticed l.ctxs[c] c .wrap (wraps (l.ctxs[c].published + 1) 1)
      (noticed l.ctxs[c] c .wrap (wraps l.ctxs[c].published 1) l.attn)
    ctxs := l.ctxs.set c { l.ctxs[c] with
      writingRun := []
      ready := l.ctxs[c].ready + 2
      published := l.ctxs[c].published + 1 + 1
      cache := if l.ctxs[c].ready = 0 then .known v.stamp else l.ctxs[c].cache } }

theorem Live.publishRun_withRun_two {l : Live} {c : Fin 8} {v w : WritingSlot} (hp : v.port ≠ w.port)
    (hl : l.ctxs[c].applied.isLifo = false) (hh : l.ctxs[c].held = [])
    (ha : ∀ q : Port, l.assembly.get q = .empty ∨ ((∃ n level words, l.assembly.get q = .committing c n level words true) ∧
      ∃ t d, l.ifaces.get q = .held t d none)) :
    Live.publishRun [v, w] c (l.withRun c [v, w]) = l.publishedTwo c v := by
  have hctx := Live.withRun_ctx l c [v, w]
  rw [Live.publishRun_two hp ((congrArg Ctx.held hctx).trans hh) ha, hctx, Ctx.publishedOne_twice hl]
  simp only [Live.withRun, Vector.set_set]
  rfl

/-- The completion of the oldest ENTRY_WRITE of a FIFO context with the slot behind it written: both are published in
reservation order, and the producers that wait are answered (R12, R35). -/
theorem State.JobUnit.publishes_two {address : Nat} {h : Word} {payload : List Word} {w : WritingSlot}
    (hj : s.JobUnit (.entryWrite c v.slot address h payload v.port) rest) (hrun : s.ctxs[c].writingRun = [v, w])
    (hw : w.complete = true) (hp : v.port ≠ w.port) (hl : s.ctxs[c].applied.isLifo = false) (hh : s.ctxs[c].held = [])
    (hv1 : s.findHeld v.port = none) (hw1 : s.findHeld w.port = none)
    (ha : ∀ q : Port, s.assembly.get q = .empty ∨ ((∃ n level words, s.assembly.get q = .committing c n level words true) ∧
      ∃ t d, s.ifaces.get q = .held t d none)) :
    exec .entryWriteCompletion s = .next (closeEvent s { s with
      mem := s.mem.applyWrites (burstWrites address ((h :: payload).map fun _ => allEnabled) (h :: payload))
      busy := none
      toLive := (s.jobTaken rest).publishedTwo c v }) := by
  have hwritten := Live.writeComplete_eq (l := s.jobTaken rest)
    (Ctx.writeComplete_front s.ctxs[c] v [w] hrun (by simp [hp.symm]))
  have hpublish : ((s.jobTaken rest).withRun c [{ v with complete := true }, w]).ctxs[c].publishable =
      [{ v with complete := true }, w] := by
    rw [Live.withRun_ctx]
    simp [Ctx.publishable, hw]
  have htwo : Live.publishRun [{ v with complete := true }, w] c
      ((s.jobTaken rest).withRun c [{ v with complete := true }, w]) = (s.jobTaken rest).publishedTwo c v :=
    Live.publishRun_withRun_two (l := s.jobTaken rest) hp hl hh ha
  have hlist : ((s.jobTaken rest).publishedTwo c v).ctxs[c].held = [] := by
    rw [Live.publishedTwo, Fin.getElem_fin, Vector.getElem_set_self]
    exact hh
  have hlifo : ¬((s.jobTaken rest).publishedTwo c v).ctxs[c].isLifo = true := by
    rw [Live.publishedTwo, Fin.getElem_fin, Vector.getElem_set_self]
    exact Bool.not_eq_true _ ▸ hl
  have hserved := Live.entryWritten_run (s.jobTaken rest) s.tick c v.slot v.port _ _ hwritten hpublish rfl _ htwo
  have hfind : ∀ p, s.findHeld p = none → ((s.jobTaken rest).publishedTwo c v).examineCommitOf s.tick p =
      (s.jobTaken rest).publishedTwo c v := fun p h =>
    Live.examineCommitOf_none _ _ ((Live.findHeld_set (l := s.toLive) (m := (s.jobTaken rest).publishedTwo c v) p rfl
      rfl).trans h)
  refine hj.exec_entryWrite (hserved.trans ?_)
  rw [if_neg hlifo, Live.examinePops_nil _ _ _ hlist]
  simp only [List.foldl_cons, List.foldl_nil, hfind _ hv1, hfind _ hw1]

/-! ## What a publication serves (R12, R21, R41, R42, R66, R70) -/

theorem Live.findHeld_eq_none {l : Live} {p : Port} : l.findHeld p = none ↔ ∀ c : Fin 8, l.ctxs[c].holds p = false := by
  simp [Live.findHeld, mem_allCtxs]

theorem Live.claim_alone_ctx {l : Live} {c : Fin 8} {k : HeldPop} (hh : l.ctxs[c].held = [.pop k]) :
    (l.claim c k).ctxs[c] = { l.ctxs[c].claimedFor k.port with held := [] } := by
  rw [Live.claim_alone l c k hh, Fin.getElem_fin]
  exact Vector.getElem_set_self _

/-- A port has no item in any list where the context that an event replaced has none of it, nor any other. -/
theorem Live.findHeld_of_set {l m : Live} {c : Fin 8} {y : Ctx} {p : Port} (hm : m.ctxs = l.ctxs.set c y)
    (hy : y.holds p = false) (hone : ∀ d : Fin 8, d ≠ c → l.ctxs[d].holds p = false) : m.findHeld p = none := by
  refine Live.findHeld_eq_none.2 fun d => ?_
  rw [hm, Fin.getElem_fin, Vector.getElem_set]
  split
  · exact hy
  · next e => exact hone d fun h => e (congrArg Fin.val h.symm)

theorem Live.claim_alone_findHeld {l : Live} {c : Fin 8} {k : HeldPop} {p : Port} (hh : l.ctxs[c].held = [.pop k])
    (hone : ∀ d : Fin 8, d ≠ c → l.ctxs[d].holds p = false) : (l.claim c k).findHeld p = none :=
  Live.findHeld_of_set (congrArg Live.ctxs (Live.claim_alone l c k hh)) rfl hone

/-- The entry that is published on a context where one pop is held is claimed by it in that event: on a FIFO context at the
publication, on a LIFO context at the end of the operation (R12, R43, R66, R70). -/
theorem Live.entryWritten_to_pop {l m : Live} {c : Fin 8} {v : WritingSlot} {k : HeldPop} (now : BitVec 16)
    (hrun : l.ctxs[c].writingRun = [v])
    (hm : ((l.withRun c [{ v with complete := true }]).publishedOne c { v with complete := true }).answerProducer c v.port =
      m)
    (hstack : m.ctxs[c].isLifo = true → m.ctxs[c].pendingFlush = false ∧ m.ctxs[c].opRunning = false)
    (hh : m.ctxs[c].held = [.pop k]) (hc : m.copyInFlight k.port = false) (hr : m.ctxs[c].ready ≠ 0)
    (hfind : m.findHeld v.port = none) : l.entryWritten now c v.slot v.port = m.claim c k := by
  refine Eq.trans ?_ (Live.examineCommitOf_none (m.claim c k) now (Live.claim_alone_findHeld hh fun d _ =>
    Live.findHeld_eq_none.1 hfind d))
  by_cases hl : m.ctxs[c].isLifo = true
  · obtain ⟨hflush, hidle⟩ := hstack hl
    rw [Live.entryWritten_front now hrun (by simp) (Live.publishOne_lifo hm hl), if_pos hl,
      Live.operationEnds_pop now hflush hh hidle hc hr]
  · have hctx := Live.claim_alone_ctx hh
    rw [Live.entryWritten_front now hrun (by simp) (Live.publishOne_pop hm (Bool.not_eq_true _ ▸ hl) hh hc hr), if_neg,
      Live.examinePops_nil _ _ _ (congrArg Ctx.held hctx)]
    rw [hctx]
    exact hl

theorem State.JobUnit.publishes_to_pop {address : Nat} {h : Word} {payload : List Word} {k : HeldPop} {t : Transfer}
    {d : Decode} {n : Nat} {level : Level} {words : List Word}
    (hj : s.JobUnit (.entryWrite c v.slot address h payload v.port) rest) (hrun : s.ctxs[c].writingRun = [v])
    (hstack : s.ctxs[c].applied.isLifo = true → s.ctxs[c].pendingFlush = false ∧ s.ctxs[c].inCopy = 0)
    (hh : s.ctxs[c].held = [.pop k]) (hfind : s.findHeld v.port = none)
    (hcopy : ∀ e ∈ rest, e.job.isCopyOf k.port = false)
    (ha : s.assembly.get v.port = .committing c n level words true) (hi : s.ifaces.get v.port = .held t d none) :
    exec .entryWriteCompletion s = .next (closeEvent s { s with
      mem := s.mem.applyWrites (burstWrites address ((h :: payload).map fun _ => allEnabled) (h :: payload))
      busy := none
      toLive := ((s.entryPublished rest c v []).producerAnswered v.port).claim c k }) := by
  have hctx : ((s.entryPublished rest c v []).producerAnswered v.port).ctxs[c] =
      { s.ctxs[c].publishedOne v with writingRun := [] } := State.entryPublished_ctx (rest := rest)
  refine hj.exec_entryWrite (Live.entryWritten_to_pop (l := s.jobTaken rest) s.tick hrun
    (State.entryPublished_answers ha hi) ?_ ?_ ?_ ?_ ?_)
  · rw [hctx]
    exact fun hl => ⟨(hstack hl).1, Ctx.opRunning_of_idle rfl (hstack hl).2⟩
  · rw [hctx]
    exact hh
  · exact List.any_eq_false.2 fun e he => by rw [hcopy e he]; decide
  · rw [hctx]
    exact Nat.succ_ne_zero _
  · exact (State.entryPublished_findHeld (rest := rest) v.port).trans hfind

/-- The publication of a port's entry has the commit of that port which is held at another FIFO context reserve there (R41,
R42). -/
theorem State.JobUnit.publishes_elsewhere {address : Nat} {h : Word} {payload : List Word} {e : Fin 8} {k : HeldCommit}
    {words : List Word}
    (hj : s.JobUnit (.entryWrite c v.slot address h payload v.port) rest) (hrun : s.ctxs[c].writingRun = [v])
    (he : e ≠ c) (hh : s.ctxs[c].held = []) (hf : s.ctxs[c].pendingFlush = false) (hfind : s.findHeld v.port = some e)
    (hk : s.ctxs[e].held = [.commit k]) (hp : k.port = v.port)
    (ha : s.assembly.get v.port = .committing e k.length k.level words false)
    (hw : ∀ d : Fin 8, d ≠ c → ∀ o ∈ s.ctxs[d].writingRun, o.port ≠ v.port) (hl : s.ctxs[e].applied.isLifo = false)
    (hocc : s.ctxs[e].occupied < s.ctxs[e].applied.capacity) :
    exec .entryWriteCompletion s = .next (closeEvent s { s with
      mem := s.mem.applyWrites (burstWrites address ((h :: payload).map fun _ => allEnabled) (h :: payload))
      busy := none
      toLive := { s.entryPublished rest c v [] with
        assembly := s.assembly.set k.port (.committing e k.length k.level [] true)
        jobs := rest ++ [s.ctxs[e].writeEntry e k words s.tick]
        ctxs := (s.entryPublished rest c v []).ctxs.set e { s.ctxs[e].reservedFor k.port s.tick with held := [] } } }) := by
  have hctx := State.entryPublished_ctx (s := s) (rest := rest) (c := c) (v := v) (later := [])
  have hother := State.entryPublished_ctx_ne (s := s) (rest := rest) (c := c) (v := v) (later := []) he
  have hpublish : ((s.jobTaken rest).withRun c [{ v with complete := true }]).publishOne c { v with complete := true } =
      s.entryPublished rest c v [] := by
    refine Live.publishOne_no_pop ?_ (State.entryPublished_no_pops hh)
    rw [State.withRun_entryPublished]
    exact Live.answerProducer_other (by rw [show (s.entryPublished rest c v []).assembly.get v.port = _ from ha]; rfl)
  have hserved := Live.entryWritten_serves_none (l := s.jobTaken rest) s.tick hrun (by simp) hpublish
    ((congrArg Ctx.held hctx).trans hh) ((congrArg Ctx.pendingFlush hctx).trans hf)
  have hwriting : (s.entryPublished rest c v []).portWriting k.port = false := by
    refine List.any_eq_false.2 fun d _ => ?_
    rw [Bool.not_eq_true, List.any_eq_false]
    intro o ho
    by_cases hd : d = c
    · rw [hd, hctx] at ho
      cases ho
    · rw [State.entryPublished_ctx_ne hd] at ho
      simpa [hp] using hw d hd o ho
  have hexamine : (s.entryPublished rest c v []).examineCommitOf s.tick v.port =
      (s.entryPublished rest c v []).examineCommits s.tick e := by
    unfold Live.examineCommitOf
    rw [State.entryPublished_findHeld, hfind]
    dsimp only
    rw [if_pos]
    rw [hother, hk]
    simp [heldCommits, hp]
  refine hj.exec_entryWrite (hserved.trans (hexamine.trans ?_))
  rw [Live.examineCommits_alone _ s.tick e k (by rw [hother]; exact hk) (by rw [hother]; exact hl) hwriting
    (by rw [hother]; exact Ctx.full_eq_false hocc), hother, hp,
    show (s.entryPublished rest c v []).assembly.get v.port = _ from ha]
  rfl

/-- A LIFO context after the publication of its one WRITING entry and the pending FLUSH (R16, R21). -/
def Ctx.publishedThenFlushed (x : Ctx) (v : WritingSlot) : Ctx :=
  { x.publishedOne v with
    writingRun := []
    ready := 0
    depth := x.depth - (x.ready + 1)
    discarded := x.discarded + BitVec.ofNat 16 (x.ready + 1)
    gap := true
    cache := (x.publishedOne v).cache.unknown
    pendingFlush := false }

/-- A LIFO context's pending FLUSH is performed when the publication ends its operation, the published entry included
(R21). -/
theorem State.JobUnit.publishes_then_flushes {address : Nat} {h : Word} {payload : List Word} {t : Transfer}
    {d : Decode} {n : Nat} {level : Level} {words : List Word}
    (hj : s.JobUnit (.entryWrite c v.slot address h payload v.port) rest) (hrun : s.ctxs[c].writingRun = [v])
    (hl : s.ctxs[c].applied.isLifo = true) (hh : s.ctxs[c].held = []) (hf : s.ctxs[c].pendingFlush = true)
    (hfind : s.findHeld v.port = none)
    (ha : s.assembly.get v.port = .committing c n level words true) (hi : s.ifaces.get v.port = .held t d none) :
    exec .entryWriteCompletion s = .next (closeEvent s { s with
      mem := s.mem.applyWrites (burstWrites address ((h :: payload).map fun _ => allEnabled) (h :: payload))
      busy := none
      toLive := { (s.entryPublished rest c v []).producerAnswered v.port with
        attn := lossNotices s.ctxs[c] c (s.ctxs[c].ready + 1) (s.entryPublished rest c v []).attn
        ctxs := s.ctxs.set c (s.ctxs[c].publishedThenFlushed v) } }) := by
  have hctx : ((s.entryPublished rest c v []).producerAnswered v.port).ctxs[c] =
      { s.ctxs[c].publishedOne v with writingRun := [] } := State.entryPublished_ctx (rest := rest)
  have hpublish := Live.publishOne_no_pop (State.entryPublished_answers (rest := rest) (later := []) ha hi)
    (State.entryPublished_no_pops (rest := rest) (later := []) hh)
  have hends := Live.operationEnds_flush (l := (s.entryPublished rest c v []).producerAnswered v.port) (c := c) s.tick
    (by rw [hctx]; exact hf) (by rw [hctx]; exact hl) (by rw [hctx]; exact hh) (by rw [hctx]; exact Nat.succ_ne_zero _)
  rw [hctx] at hends
  simp only [Live.producerAnswered, State.entryPublished, Vector.set_set] at hends
  have hserved := Live.entryWritten_front (l := s.jobTaken rest) s.tick hrun (by simp) hpublish
  rw [if_pos (by rw [hctx]; exact hl)] at hserved
  refine hj.exec_entryWrite (hserved.trans ((congrArg (Live.examineCommitOf · s.tick v.port) hends).trans
    (Live.examineCommitOf_none _ _ ?_)))
  refine Eq.trans ?_ hfind
  exact Live.findHeld_set (l := s.toLive) (c := c) (y := s.ctxs[c].publishedThenFlushed v) v.port rfl rfl

end published

/-- Settles O41, by what the publication serves: its producer alone, nobody yet, both producers, a held pop, the port's
commit at another context, or a pending FLUSH. -/
theorem entryWriteCompletionPublishes : Obligations.EntryWriteCompletionPublishes := by
  refine ⟨?_, ?_, ?_, ?_⟩
  · rintro s c address h payload p rest v later t d n level words hj rfl hrun hlater hh hf hfind ha hi
    exact hj.publishes_front hrun hlater hh hf hfind ha hi
  · intro s c address h payload rest v w hj hrun hv hp
    exact hj.waits_behind hrun hv hp
  · intro s c address h payload rest v w hj hrun hw hp hl hh hv hw1 ha
    exact hj.publishes_two hrun hw hp hl hh hv hw1 ha
  · rintro s c address h payload p rest v hj rfl hrun
    refine ⟨fun k t d n level words hstack hh hfind hcopy ha hi => ?_,
      fun e k words he hh hf hfind hk hp ha hw hl hocc => ?_, fun t d n level words hl hh hf hfind ha hi => ?_⟩
    · refine (hj.publishes_to_pop hrun hstack hh hfind hcopy ha hi).trans (closed_congr ?_)
      have hctx : ((s.entryPublished rest c v []).producerAnswered v.port).ctxs[c] =
          { s.ctxs[c].publishedOne v with writingRun := [] } := State.entryPublished_ctx (rest := rest)
      rw [Live.claim_alone _ c k (by rw [hctx]; exact hh), hctx]
      simp only [Live.producerAnswered, State.entryPublished, Vector.set_set]
      rfl
    · have hserved := hj.publishes_elsewhere hrun he hh hf hfind hk hp ha hw hl hocc
      rw [hp] at hserved
      exact hserved
    · exact hj.publishes_then_flushes hrun hl hh hf hfind ha hi

end Sys2Proof.Machine
end

section
/-! PROOFS. The completion of an ENTRY_COPY (R59-R62, R72, R73): what it reads, its outcome at the context and at the
port. -/

namespace Sys2Proof.Machine

/-! ## What an ENTRY_COPY reads (R59) -/

theorem Memory.readBurst_replicate (m : Memory) (n a : Nat) : m.readBurst a (List.replicate n allEnabled) =
    (List.range n).map fun i => m.readWord (a + 4 * i) allEnabled := by
  induction n generalizing a with
  | zero => rfl
  | succ n ih =>
    rw [List.replicate_succ, Memory.readBurst, ih, List.range_succ_eq_map, List.map_cons, List.map_map]
    refine congrArg (List.cons _) (List.map_congr_left fun i _ => ?_)
    rw [Function.comp_apply, Nat.mul_succ, Nat.add_right_comm, ← Nat.add_assoc]

theorem Memory.burstGood_replicate (m : Memory) (n a : Nat) : m.burstGood a (List.replicate n allEnabled) = true ↔
    ∀ i < n, m.wordGood (a + 4 * i) allEnabled = true := by
  induction n generalizing a with
  | zero => simp [Memory.burstGood]
  | succ n ih =>
    rw [List.replicate_succ, Memory.burstGood, Bool.and_eq_true, ih, Nat.forall_lt_succ_left]
    refine and_congr Iff.rfl (forall_congr' fun i => ?_)
    rw [Nat.mul_succ, Nat.add_right_comm, ← Nat.add_assoc]

theorem Memory.readEntry_good {m : Memory} {a payloadMax : Nat} (h : m.wordGood a allEnabled = true) :
    m.readEntry a payloadMax = .passed (m.readWord a allEnabled)
      (m.readBurst (a + 4) (List.replicate (min (headerLength (m.readWord a allEnabled)) payloadMax) allEnabled))
      (m.burstGood (a + 4) (List.replicate (min (headerLength (m.readWord a allEnabled)) payloadMax) allEnabled)) :=
  if_pos h

theorem Memory.readEntry_bad {m : Memory} {a payloadMax : Nat} (h : m.wordGood a allEnabled = false) :
    m.readEntry a payloadMax = .headerFailed := if_neg (by rw [h]; decide)

/-! ## The outcome at the context (R14-R16, R60-R62) -/

theorem spendCopy_behind {p q : Port} {before more : List HeldSlot} (hq : q ≠ p) (hb : .copying p ∉ before) :
    spendCopy p (.copying q :: (before ++ .copying p :: more)) = .copying q :: (before ++ .spent :: more) := by
  have hspend : spendCopy p (before ++ .copying p :: more) = before ++ .spent :: more := by
    induction before with
    | nil => simp [spendCopy]
    | cons a rest ih =>
      have hrest := ih fun h => hb (List.mem_cons_of_mem _ h)
      cases a with
      | spent => simp [spendCopy, hrest]
      | copying o =>
        have ho : p ≠ o := fun e => hb (e ▸ List.mem_cons_self)
        simp [spendCopy, ho, hrest]
  simp [spendCopy, hq.symm, hspend]

/-- The copy of a claim behind an earlier one of another port releases nothing (R15). -/
theorem Ctx.copyDone_behind {x : Ctx} {p q : Port} {before more : List HeldSlot} (hl : x.applied.isLifo = false)
    (hq : q ≠ p) (hh : x.heldRun = .copying q :: (before ++ .copying p :: more)) (hb : .copying p ∉ before) :
    x.copyDone p = { x with
      heldRun := .copying q :: (before ++ .spent :: more)
      release := x.release % x.applied.capacity } := by
  unfold Ctx.copyDone
  rw [if_neg (by rw [Ctx.isLifo, hl]; decide), hh, spendCopy_behind hq hb]
  simp [Ctx.releaseStep, HeldSlot.isSpent, Ctx.capacity]

/-- The ring side of the completion of the copy of port `p` (R15, R16). -/
theorem Ctx.copySpent.copyDone {x y : Ctx} {p : Port} (h : x.copySpent p y) : x.copyDone p = y := by
  rcases h with ⟨more, hh, rfl⟩ | ⟨q, before, more, hl, hq, hh, hb, rfl⟩
  · exact Ctx.copyDone_front x p more hh
  · exact Ctx.copyDone_behind hl hq hh hb

theorem Ctx.copySpent.copying {x y : Ctx} {p : Port} (h : x.copySpent p y) : HeldSlot.copying p ∈ x.heldRun := by
  rcases h with ⟨more, hh, -⟩ | ⟨q, before, more, -, -, hh, -, -⟩ <;> simp [hh]

/-- The completion of a copy leaves the context but for its held run, its indices and what it counts. -/
theorem Ctx.copySpent.counted {x y : Ctx} {p : Port} (h : x.copySpent p y) (r : CopyRead) :
    (r.counted y).applied = x.applied ∧ (r.counted y).held = x.held ∧ (r.counted y).pendingFlush = x.pendingFlush ∧
      (r.counted y).writingRun = x.writingRun ∧ (r.counted y).ready = x.ready ∧ (r.counted y).head = x.head := by
  rcases h with ⟨more, -, rfl⟩ | ⟨q, before, more, -, -, -, -, rfl⟩ <;> cases r <;>
    exact ⟨rfl, rfl, rfl, rfl, rfl, rfl⟩

theorem Ctx.copySpent.unchanged {x y : Ctx} {p : Port} (h : x.copySpent p y) :
    y.applied = x.applied ∧ y.delivered = x.delivered ∧ y.discarded = x.discarded := by
  rcases h with ⟨more, -, rfl⟩ | ⟨q, before, more, -, -, -, -, rfl⟩ <;> exact ⟨rfl, rfl, rfl⟩

theorem CopyRead.counted_occupied (r : CopyRead) (y : Ctx) : (r.counted y).occupied = y.occupied := by
  cases r <;> rfl

theorem CopyRead.counted_inCopy (r : CopyRead) (y : Ctx) : (r.counted y).inCopy = y.inCopy := by
  cases r <;> rfl

/-- A notice of a context that an event replaced, routed by the same applied record. -/
theorem noticed_of_set {v : Vector Ctx 8} {c : Fin 8} {x z : Ctx} (h : z.applied = x.applied) {k : Kind} {b : Bool}
    {a : PerPort PortAttn} : noticed (v.set c z)[c] c k b a = noticed x c k b a :=
  noticed_congr c ((congrArg Ctx.applied (Vector.getElem_set_self c.isLt)).trans h) k b a

/-- DELIVERED or DISCARDED, with the notices (R14, R19, R60-R62). -/
theorem Live.accountCopy_eq {l : Live} {c : Fin 8} {p : Port} {y : Ctx} (h : l.ctxs[c].copySpent p y) (r : CopyRead) :
    l.accountCopy c p r = { l with
      attn := r.notices l.ctxs[c] c l.attn
      ctxs := l.ctxs.set c (r.counted y) } := by
  obtain ⟨happlied, hdelivered, hdiscarded⟩ := h.unchanged
  have hself : (l.modCtx c fun x => x.copyDone p).ctxs[c] = y := (Live.modCtx_ctxs_self _ _ _).trans h.copyDone
  have hset : ∀ z, (l.modCtx c fun x => x.copyDone p).ctxs.set c z = l.ctxs.set c z := fun z => Vector.set_set ..
  unfold Live.accountCopy
  rw [if_pos (List.contains_iff_mem.2 h.copying)]
  dsimp only
  cases r with
  | headerFailed =>
    dsimp only
    rw [Live.countDiscarded_eq, hself, hset, Live.raise_eq, Live.raise_eq]
    dsimp only
    rw [noticed_of_set (x := l.ctxs[c]), noticed_of_set (x := l.ctxs[c]), noticed_congr c happlied]
    · simp only [CopyRead.counted, CopyRead.notices, lossNotices, hdiscarded]
      rfl
    · exact happlied
    · exact happlied
  | passed w payload good =>
    cases good with
    | true =>
      dsimp only
      rw [Live.countDelivered_eq, hself, hset, noticed_congr c happlied]
      simp only [CopyRead.counted, CopyRead.notices, hdelivered]
      rfl
    | false =>
      dsimp only
      rw [Live.countDelivered_eq, hself, hset, Live.raise_eq]
      dsimp only
      rw [noticed_of_set (x := l.ctxs[c]), noticed_congr c happlied]
      · simp only [CopyRead.counted, CopyRead.notices, hdelivered]
        rfl
      · exact happlied

/-! ## The outcome at the port (R60-R62, R72, R73) -/

theorem Live.deliverCopy_frame (l : Live) (c : Fin 8) (p : Port) (r : CopyRead) :
    (l.deliverCopy c p r).ctxs = l.ctxs ∧ (l.deliverCopy c p r).assembly = l.assembly ∧
      (l.deliverCopy c p r).jobs = l.jobs := by
  unfold Live.deliverCopy
  split
  · exact ⟨rfl, rfl, rfl⟩
  · split
    · unfold Live.fillLatch
      split
      · simp
      · split <;> simp
    · exact ⟨rfl, rfl, rfl⟩

theorem withDamaged_eq (h : Word) (good : Bool) :
    withDamaged h (!good) = (h &&& 0xBFFFFFFF) ||| (if good then 0 else 0x40000000) := by
  have hmask : ~~~(0x40000000 : Word) = 0xBFFFFFFF := by decide
  unfold withDamaged
  rw [hmask]
  cases good <;> rfl

/-- The live state after an ERROR answer to the transfer `t` of port `p`, its latch EMPTY (R62, R72, R166). -/
def Live.copyErred (l : Live) (p : Port) (k : FaultKind) (t : Transfer) (d : Decode) : Live :=
  { l with
    ifaces := l.ifaces.set p (.answering (.error k t.errorWords))
    attn := l.attn.set p ((l.attn.get p).capture k t d.windowIndex)
    latch := l.latch.set p .empty }

section deliver
variable {l : Live} {c : Fin 8} {p : Port} {r : CopyRead} {burst : Burst} {withdrawn : Bool} {t : Transfer} {d : Decode}

theorem Live.deliverCopy_dropped (h : l.dropped.get p = true) :
    l.deliverCopy c p r = { l with dropped := l.dropped.set p false } := if_pos h

theorem Live.deliverCopy_filling {slot : Nat} (h : l.dropped.get p = false)
    (hl : l.latch.get p = .filling c slot burst withdrawn) : l.deliverCopy c p r = l.fillLatch c p burst withdrawn r := by
  unfold Live.deliverCopy
  rw [if_neg (by rw [h]; decide), hl]

variable (hi : l.ifaces.get p = .held t d none)
include hi

theorem Live.fillLatch_failed : l.fillLatch c p burst withdrawn .headerFailed = l.copyErred p .parity t d := by
  unfold Live.fillLatch
  dsimp only
  rw [Live.answerError_held _ hi]
  rfl

theorem Live.fillLatch_withdrawn (h : Word) (payload : List Word) (good : Bool) :
    l.fillLatch c p burst true (.passed h payload good) = { l.copyErred p .withdrawn t d with
      attn := noticed l.ctxs[c] c .cut true (l.copyErred p .withdrawn t d).attn } := by
  unfold Live.fillLatch
  dsimp only
  rw [if_pos rfl, Live.answerError_held _ hi, Live.raise_eq]
  rfl

theorem Live.fillLatch_delivered (h : Word) (payload : List Word) (good : Bool) :
    l.fillLatch c p burst false (.passed h payload good) = { l with
      ifaces := l.ifaces.set p (.answering (.okRead (fillTo burst.words (withDamaged h (!good) :: payload)
        l.ctxs[c].applied.fillWord)))
      latch := l.latch.set p (if payload.length + 1 ≤ burst.words then .empty
        else .holding c (withDamaged h (!good)) payload (payload.length + 1 - burst.words)) } := by
  unfold Live.fillLatch
  dsimp only
  rw [if_neg (by decide), Live.answerOk_held _ hi]
  rfl

end deliver

end Sys2Proof.Machine
end

section
/-! PROOFS. The cases of the completion of an ENTRY_COPY (R15, R16, R41, R60-R62, R66, R68, R70, R72, R73). -/

namespace Sys2Proof.Machine

/-- The state in which the ENTRY_COPY of port `p` has left the list and its outcome at context `c` is accounted, `z` the
context. -/
def State.copyAccounted (s : State) (rest : List JobEntry) (c : Fin 8) (r : CopyRead) (z : Ctx) : State :=
  { s with
    busy := none
    jobs := rest
    attn := r.notices s.ctxs[c] c s.attn
    ctxs := s.ctxs.set c z }

section copied
variable {s : State} {c : Fin 8} {slot : Nat} {p : Port} {rest : List JobEntry} {r : CopyRead} {y z : Ctx}

theorem State.copyAccounted_ctx : (s.copyAccounted rest c r z).ctxs[c] = z := by
  rw [Fin.getElem_fin]
  exact Vector.getElem_set_self _

/-- How a copy ends at its port is what the model delivers there (R60-R62, R72, R73). -/
theorem State.CopyEndsAtPort.port_eq {port : State} (hz : z.applied = s.ctxs[c].applied)
    (h : s.CopyEndsAtPort c slot p r (s.copyAccounted rest c r z) port) :
    port = { s.copyAccounted rest c r z with toLive := (s.copyAccounted rest c r z).deliverCopy c p r } := by
  rcases h with ⟨hd, rfl⟩ | ⟨t, d, burst, withdrawn, hd, hlatch, hi, rfl⟩
  · rw [Live.deliverCopy_dropped (l := (s.copyAccounted rest c r z).toLive) hd]
    rfl
  · rw [Live.deliverCopy_filling (l := (s.copyAccounted rest c r z).toLive) hd hlatch]
    have hself : (s.copyAccounted rest c r z).ctxs[c].applied = s.ctxs[c].applied :=
      (congrArg Ctx.applied State.copyAccounted_ctx).trans hz
    cases r with
    | headerFailed =>
      rw [Live.fillLatch_failed (l := (s.copyAccounted rest c .headerFailed z).toLive) hi]
      rfl
    | passed h payload good =>
      dsimp only
      rw [← withDamaged_eq]
      cases withdrawn with
      | true =>
        rw [Live.fillLatch_withdrawn (l := (s.copyAccounted rest c (.passed h payload good) z).toLive) hi,
          noticed_congr c hself]
        rfl
      | false =>
        rw [Live.fillLatch_delivered (l := (s.copyAccounted rest c (.passed h payload good) z).toLive) hi, hself]
        rfl

/-- The completion of an ENTRY_COPY: its outcomes at the context and at the port, then the held lists (R59-R62, R156). -/
theorem State.JobUnit.exec_entryCopy {address payloadMax : Nat}
    (hj : s.JobUnit (.entryCopy c slot address payloadMax p) rest) (hy : s.ctxs[c].copySpent p y)
    (hr : s.mem.readEntry address payloadMax = r) {done m : Live}
    (hdone : (s.copyAccounted rest c r (r.counted y)).deliverCopy c p r = done)
    (hm : (if s.ctxs[c].isLifo then done.operationEnds s.tick c
      else Live.offerSpace (s.jobTaken rest) done s.tick c).examinePopOf s.tick p = m) :
    exec .entryCopyCompletion s = .next (closeEvent s { s with busy := none, toLive := m }) := by
  subst hr hdone hm
  have hpossible : (s.currentJob.any Job.isEntryCopy) = true := by rw [hj.currentJob]; rfl
  have haccount := Live.accountCopy_eq (l := s.jobTaken rest) hy (s.mem.readEntry address payloadMax)
  rw [exec_entryCopyCompletion, execEntryCopyCompletion, event_possible hpossible hj.running, hj.currentJob]
  dsimp only
  rw [hj.leaveJob, hj.busyWrites_entryCopy]
  have hcompleted : (s.jobTaken rest).copyCompleted s.tick c p (s.mem.readEntry address payloadMax) =
      (if s.ctxs[c].isLifo then
        ((s.copyAccounted rest c (s.mem.readEntry address payloadMax) ((s.mem.readEntry address payloadMax).counted
          y)).deliverCopy c p (s.mem.readEntry address payloadMax)).operationEnds s.tick c
      else Live.offerSpace (s.jobTaken rest) ((s.copyAccounted rest c (s.mem.readEntry address payloadMax)
        ((s.mem.readEntry address payloadMax).counted y)).deliverCopy c p (s.mem.readEntry address payloadMax)) s.tick
          c).examinePopOf s.tick p := by
    unfold Live.copyCompleted
    rw [haccount]
    rfl
  exact closed_congr (congrArg (fun l => ({ s with busy := none, toLive := l } : State)) hcompleted)

/-- A copy that is done before the held lists of its context are served. -/
def State.copyDelivered (s : State) (rest : List JobEntry) (c : Fin 8) (p : Port) (r : CopyRead) (z : Ctx) : Live :=
  (s.copyAccounted rest c r z).deliverCopy c p r

theorem State.copyDelivered_ctx : (s.copyDelivered rest c p r z).ctxs[c] = z := by
  rw [State.copyDelivered, (Live.deliverCopy_frame _ c p r).1]
  exact State.copyAccounted_ctx

theorem State.copyDelivered_findHeld (q : Port) (hz : z.held = s.ctxs[c].held) :
    (s.copyDelivered rest c p r z).findHeld q = s.findHeld q :=
  Live.findHeld_set q (Live.deliverCopy_frame _ c p r).1 hz

/-- With nothing held a copy does nothing but its outcomes. -/
theorem State.copyDelivered_serves_none (hf : z.pendingFlush = false) (hh : z.held = [])
    (hfind : (s.copyDelivered rest c p r z).findHeld p = none) :
    (if s.ctxs[c].isLifo then (s.copyDelivered rest c p r z).operationEnds s.tick c
      else Live.offerSpace (s.jobTaken rest) (s.copyDelivered rest c p r z) s.tick c).examinePopOf s.tick p =
      s.copyDelivered rest c p r z := by
  have hheld : (s.copyDelivered rest c p r z).ctxs[c].held = [] := (congrArg Ctx.held State.copyDelivered_ctx).trans hh
  have hflush : (s.copyDelivered rest c p r z).ctxs[c].pendingFlush = false :=
    (congrArg Ctx.pendingFlush State.copyDelivered_ctx).trans hf
  rw [Live.operationEnds_nil _ _ _ hheld hflush, Live.offerSpace_nil _ _ _ _ hheld, ite_self,
    Live.examinePopOf_none _ _ hfind]

/-- The other port's commit that is held at the context reserves in the space that the copy frees (R15, R41, R43). -/
theorem State.copyDelivered_serves_commit {k : HeldCommit} (happlied : z.applied = s.ctxs[c].applied)
    (hstack : z.applied.isLifo = true → z.pendingFlush = false ∧ z.opRunning = false) (hh : z.held = [.commit k])
    (hw : (s.copyDelivered rest c p r z).portWriting k.port = false) (hfree : z.occupied < s.ctxs[c].occupied)
    (hocc : z.occupied < z.applied.capacity) :
    (if s.ctxs[c].isLifo then (s.copyDelivered rest c p r z).operationEnds s.tick c
      else Live.offerSpace (s.jobTaken rest) (s.copyDelivered rest c p r z) s.tick c) =
      (s.copyDelivered rest c p r z).reserve s.tick c k := by
  have hctx := State.copyDelivered_ctx (s := s) (rest := rest) (c := c) (p := p) (r := r) (z := z)
  have hlifo : s.ctxs[c].isLifo = z.applied.isLifo := (congrArg Record.isLifo happlied).symm
  have hheld := (congrArg Ctx.held hctx).trans hh
  cases hl : z.applied.isLifo with
  | true =>
    obtain ⟨hflush, hidle⟩ := hstack hl
    rw [if_pos (hlifo.trans hl)]
    exact Live.operationEnds_commit s.tick ((congrArg Ctx.pendingFlush hctx).trans hflush) hheld
      ((congrArg Ctx.opRunning hctx).trans hidle) hw (by rw [hctx]; exact hocc)
  | false =>
    rw [if_neg (by rw [hlifo, hl]; decide), Live.offerSpace_freed s.tick (by rw [hctx]; exact hl) (by rw [hctx]; exact hfree),
      Live.examineCommits_alone _ s.tick c k hheld (by rw [hctx]; exact hl) hw (by rw [hctx]; exact Ctx.full_eq_false hocc),
      Live.reserve_alone _ s.tick c k hheld]

/-- The port's own new pop, which waits for a dropped copy, claims in the event that ends the copy (R66, R68, R70). -/
theorem State.copyDelivered_serves_pop {k : HeldPop} (happlied : z.applied = s.ctxs[c].applied)
    (hstack : z.applied.isLifo = true → z.pendingFlush = false ∧ z.opRunning = false) (hh : z.held = [.pop k])
    (hk : k.port = p) (hc : (s.copyDelivered rest c p r z).copyInFlight k.port = false) (hr : z.ready ≠ 0)
    (hfind : (s.copyDelivered rest c p r z).findHeld p = some c)
    (hone : ∀ d : Fin 8, d ≠ c → (s.copyDelivered rest c p r z).ctxs[d].holds p = false) :
    (if s.ctxs[c].isLifo then (s.copyDelivered rest c p r z).operationEnds s.tick c
      else Live.offerSpace (s.jobTaken rest) (s.copyDelivered rest c p r z) s.tick c).examinePopOf s.tick p =
      (s.copyDelivered rest c p r z).claim c k := by
  have hctx := State.copyDelivered_ctx (s := s) (rest := rest) (c := c) (p := p) (r := r) (z := z)
  have hlifo : s.ctxs[c].isLifo = z.applied.isLifo := (congrArg Record.isLifo happlied).symm
  have hheld := (congrArg Ctx.held hctx).trans hh
  cases hl : z.applied.isLifo with
  | true =>
    obtain ⟨hflush, hidle⟩ := hstack hl
    rw [if_pos (hlifo.trans hl), Live.operationEnds_pop s.tick ((congrArg Ctx.pendingFlush hctx).trans hflush) hheld
      ((congrArg Ctx.opRunning hctx).trans hidle) hc (by rw [hctx]; exact hr), 
      Live.examinePopOf_none _ _ (Live.claim_alone_findHeld hheld hone)]
  | false =>
    rw [if_neg (by rw [hlifo, hl]; decide), Live.offerSpace_no_commits s.tick (by rw [hctx]; exact hl)
      (by rw [hheld]; rfl)]
    unfold Live.examinePopOf
    rw [hfind]
    dsimp only
    rw [if_pos, Live.examinePops_alone _ s.tick c k hheld (by rw [hctx]; exact hl) hc (by rw [hctx]; exact hr),
      Live.claim_alone _ c k hheld]
    rw [hheld]
    simp [heldPops, hk]

theorem State.copyDelivered_portWriting (q : Port) (hz : z.writingRun = s.ctxs[c].writingRun) :
    (s.copyDelivered rest c p r z).portWriting q = s.portWriting q := by
  refine Live.portWriting_congr s.toLive _ q fun d => ?_
  rw [State.copyDelivered, (Live.deliverCopy_frame _ c p r).1, Fin.getElem_fin]
  unfold State.copyAccounted
  rw [Vector.getElem_set]
  split
  · next e => rw [hz]; simp [e]
  · rfl

end copied

/-- Settles O42, by how the copy ends and what it serves: nothing, the other port's commit, or the port's own new pop. -/
theorem entryCopyCompletes : Obligations.EntryCopyCompletes := by
  refine ⟨fun m a payloadMax => ⟨Memory.readEntry_bad, fun h => ⟨_, _, Memory.readEntry_good h,
    m.readBurst_replicate _ _, m.burstGood_replicate _ _⟩⟩, ?_⟩
  intro s c slot address payloadMax p rest y hj hy x r z done
  obtain ⟨happlied, hheld, hflush, hrun, hready, hhead⟩ := hy.counted r
  have hidle : x.writing = 0 → y.inCopy = 0 → z.opRunning = false := fun hw hc =>
    Ctx.opRunning_of_idle ((congrArg List.length hrun).trans hw) ((r.counted_inCopy y).trans hc)
  have hctx : (s.copyDelivered rest c p r z).ctxs[c] = z := State.copyDelivered_ctx
  have hstacked : (x.applied.isLifo = true → x.pendingFlush = false ∧ x.writing = 0 ∧ y.inCopy = 0) →
      z.applied.isLifo = true → z.pendingFlush = false ∧ z.opRunning = false := fun hstack hl => by
    obtain ⟨hflag, hwrite, hcopies⟩ := hstack ((congrArg Record.isLifo happlied).symm.trans hl)
    exact ⟨hflush.trans hflag, hidle hwrite hcopies⟩
  refine ⟨fun port hport hfind => ?_, fun hstack hdropped hfind hone k hh hk hcopy hr => ?_⟩
  · obtain rfl := State.CopyEndsAtPort.port_eq (rest := rest) (z := z) happlied hport
    have hnone : (s.copyDelivered rest c p r z).findHeld p = none :=
      (State.copyDelivered_findHeld p hheld).trans hfind
    refine ⟨fun hh hf => ?_, fun k words hstack hh ha hw hfree hocc => ?_⟩
    · exact hj.exec_entryCopy hy rfl rfl (State.copyDelivered_serves_none (hflush.trans hf) (hheld.trans hh) hnone)
    · have hspace : z.occupied < x.occupied := (r.counted_occupied y).trans_lt hfree
      have hserves := State.copyDelivered_serves_commit (rest := rest) (p := p) (r := r) happlied (hstacked hstack)
        (hheld.trans hh) ((State.copyDelivered_portWriting k.port hrun).trans hw) hspace
        (hspace.trans_le (happlied ▸ hocc))
      rw [Live.reserve_alone _ s.tick c k ((congrArg Ctx.held hctx).trans (hheld.trans hh)), hctx] at hserves
      refine (hj.exec_entryCopy hy rfl rfl ((congrArg (Live.examinePopOf · s.tick p) hserves).trans
        (Live.examinePopOf_none _ _ (Live.findHeld_of_set rfl rfl fun d _ => Live.findHeld_eq_none.1 hnone d)))).trans
        (closed_congr ?_)
      obtain ⟨hctxs, hassembly, hjobs⟩ := Live.deliverCopy_frame (s.copyAccounted rest c r z).toLive c p r
      simp only [State.copyDelivered, hctxs, hassembly, hjobs]
      simp only [State.copyAccounted, Vector.set_set, ha]
      rfl
  · have hdone : s.copyDelivered rest c p r z = { s.copyAccounted rest c r z with dropped := s.dropped.set p false } :=
      Live.deliverCopy_dropped (l := (s.copyAccounted rest c r z).toLive) hdropped
    have hflight : (s.copyDelivered rest c p r z).copyInFlight k.port = false := by
      rw [hdone, hk]
      exact List.any_eq_false.2 fun e he => by rw [hcopy e he]; decide
    have hothers : ∀ d : Fin 8, d ≠ c → (s.copyDelivered rest c p r z).ctxs[d].holds p = false := fun d hd => by
      rw [hdone, Fin.getElem_fin]
      exact (congrArg (Ctx.holds · p) (Vector.getElem_set_ne c.isLt d.isLt fun e => hd (Fin.ext e.symm))).trans (hone d hd)
    have hslot : z.nextSlot = if x.applied.isLifo then x.ready - 1 else x.head := by
      unfold Ctx.nextSlot Ctx.isLifo
      rw [happlied, hready, hhead]
    have hserves := State.copyDelivered_serves_pop (rest := rest) (p := p) (r := r) happlied (hstacked hstack)
      (hheld.trans hh) hk hflight (hready ▸ hr) ((State.copyDelivered_findHeld p hheld).trans hfind) hothers
    rw [Live.claim_alone _ c k ((congrArg Ctx.held hctx).trans (hheld.trans hh)), hctx, hslot, hk] at hserves
    refine (hj.exec_entryCopy hy rfl rfl hserves).trans (closed_congr ?_)
    simp only [hdone, State.copyAccounted, Vector.set_set]
    rfl

end Sys2Proof.Machine
end

section
/-! PROOFS. An append at the context of its window: it joins the assembly, cuts another one, or overruns (R26-R28). -/

namespace Sys2Proof.Machine

/-! ## The parts of an append -/

section append
variable {l m : Live} {p : Port} {c d : Fin 8} {t : Transfer} {words old : List Word} {idle : Option Nat}

/-- An append to an empty buffer or for the context of the open assembly cuts nothing (R28). -/
theorem Live.cutAssembly_same
    (ha : (l.assembly.get p = .empty ∧ words = []) ∨ ∃ i, l.assembly.get p = .opened c words i) :
    l.cutAssembly p c = l := by
  rcases ha with ⟨h, -⟩ | ⟨i, h⟩ <;> simp [Live.cutAssembly, h]

/-- The words that the buffer holds for its own context (R26). -/
theorem Assembly.wordsFor_same {x : Assembly} (ha : (x = .empty ∧ words = []) ∨ ∃ i, x = .opened c words i) :
    x.wordsFor c = words := by
  rcases ha with ⟨rfl, rfl⟩ | ⟨i, rfl⟩
  · rfl
  · exact if_pos rfl

/-- An append for another context cuts the open assembly (R28). -/
theorem Live.cutAssembly_other (ha : l.assembly.get p = .opened d old idle) (hd : d ≠ c) : l.cutAssembly p c = { l with
    ctxs := l.ctxs.set d l.ctxs[d].rejectedOne
    attn := rejectNotices l.ctxs[d] d l.attn
    assembly := l.assembly.set p .empty } := by
  unfold Live.cutAssembly
  rw [ha]
  dsimp only
  rw [if_neg hd, Live.reject_eq]
  rfl

/-- An append that fits joins the words that the buffer holds after the cut, and is answered OK (R26). -/
theorem Live.append_fits (now : BitVec 16) (hcut : l.cutAssembly p c = m) (hw : (m.assembly.get p).wordsFor c = words)
    (hcap : words.length + t.wordData.length ≤ m.ctxs[c].applied.slotSize - 1) :
    l.append now idle p c t false = (m.setAssembly p (.opened c (words ++ t.wordData) idle)).answerOk p .okWrite := by
  have hfit : ¬m.ctxs[c].applied.payloadCap < (words ++ t.wordData).length := by
    rw [List.length_append]
    exact not_lt.2 hcap
  unfold Live.append
  simp only [hcut, hw, if_neg hfit, Bool.false_eq_true, if_false]

/-- An append that does not fit behind those words is an overrun (R27). -/
theorem Live.append_overruns (now : BitVec 16) (last : Bool) (hcut : l.cutAssembly p c = m)
    (hw : (m.assembly.get p).wordsFor c = words)
    (hcap : m.ctxs[c].applied.slotSize - 1 < words.length + t.wordData.length) :
    l.append now idle p c t last = m.overrun p c := by
  have hlong : m.ctxs[c].applied.payloadCap < (words ++ t.wordData).length := by
    rw [List.length_append]
    exact hcap
  unfold Live.append
  simp only [hcut, hw, if_pos hlong]

/-- An overrun of the transfer in HELD: ERROR OVERRUN, the counts and notices of a rejected push, the buffer EMPTY (R27). -/
theorem Live.overrun_held {dec : Decode} {w : Option PathUnit} (h : l.ifaces.get p = .held t dec w) :
    l.overrun p c = { l with
      ifaces := l.ifaces.set p (.answering (.error .overrun t.errorWords))
      ctxs := l.ctxs.set c l.ctxs[c].rejectedOne
      attn := rejectNotices l.ctxs[c] c (l.attn.set p ((l.attn.get p).capture .overrun t dec.windowIndex))
      assembly := l.assembly.set p .empty } := by
  unfold Live.overrun
  rw [Live.answerError_held .overrun h, Live.reject_eq]
  rfl

end append

theorem idleCountOf_eq (g : Word) : idleCountOf g = if idleLimit g = 0 then none else some (idleLimit g) :=
  if_congr beq_iff_eq rfl rfl

theorem vector_getElem_set_ne {α : Type} {n : Nat} (v : Vector α n) {c d : Fin n} (x : α) (h : d ≠ c) :
    (v.set d x)[c] = v[c] :=
  Vector.getElem_set_ne d.isLt c.isLt fun e => h (Fin.ext e)

/-! ## PUSH and PUSH_LAST at the context of their window -/

section push
variable {s : State} {p : Port} {t : Transfer} {w : Fin 16} {c d : Fin 8} {words old : List Word} {idle : Option Nat}
  {sub : SubRange}

/-- The live state with the transfer of sub-range `sub` in HELD at the context of its window (R163). -/
def State.appending (s : State) (p : Port) (t : Transfer) (w : Fin 16) (c : Fin 8) (sub : SubRange) : Live :=
  s.setIface p (.held t (.ring w c sub) none)

/-- The event of a PUSH that fits behind the words which the buffer holds after the cut. -/
theorem State.ToRing.exec_push_fits (h : s.ToRing p t w .push) (hc : c = s.windows[w].applied.winCtx) {m : Live}
    (hcut : (s.appending p t w c .push).cutAssembly p c = m) (hw : (m.assembly.get p).wordsFor c = words)
    (hi : m.ifaces = s.ifaces.set p (.held t (.ring w c .push) none))
    (hcap : words.length + t.wordData.length ≤ m.ctxs[c].applied.slotSize - 1) :
    exec (.push p) s = .next (closeEvent s { s with toLive := { m with
      ifaces := s.ifaces.set p (.answering .okWrite)
      assembly := m.assembly.set p (.opened c (words ++ t.wordData)
        (if idleLimit s.globalWord = 0 then none else some (idleLimit s.globalWord))) } }) := by
  subst hc
  have hfits := Live.append_fits s.tick (idle := idleCountOf s.globalWord) hcut hw hcap
  have hheld : (m.setAssembly p (.opened s.windows[w].applied.winCtx (words ++ t.wordData)
      (idleCountOf s.globalWord))).ifaces.get p = .held t (.ring w s.windows[w].applied.winCtx .push) none := by
    rw [Live.setAssembly_ifaces, hi, PerPort.get_set_self]
  refine h.exec_push.trans (closed_congr ?_)
  refine congrArg (fun l => ({ s with toLive := l } : State)) (hfits.trans ?_)
  rw [Live.answerOk_held .okWrite hheld, idleCountOf_eq]
  simp only [Live.setIface, Live.setAssembly, hi, PerPort.set_set]

/-- The event of an append that overruns the words which the buffer holds after the cut, for PUSH and PUSH_LAST. -/
theorem State.ToRing.exec_overrun (h : s.ToRing p t w sub) (hc : c = s.windows[w].applied.winCtx) {i : Instr}
    (hsub : sub = .push ∧ i = .push p ∨ sub = .pushLast ∧ i = .pushLast p) {m : Live}
    (hcut : (s.appending p t w c sub).cutAssembly p c = m) (hw : (m.assembly.get p).wordsFor c = words)
    (hcap : m.ctxs[c].applied.slotSize - 1 < words.length + t.wordData.length) :
    exec i s = .next (closeEvent s { s with toLive := m.overrun p c }) := by
  subst hc
  rcases hsub with ⟨rfl, rfl⟩ | ⟨rfl, rfl⟩
  · exact h.exec_push.trans (closed_congr (congrArg (fun l => ({ s with toLive := l } : State))
      (Live.append_overruns s.tick false hcut hw hcap)))
  · exact h.exec_pushLast.trans (closed_congr (congrArg (fun l => ({ s with toLive := l } : State))
      (Live.append_overruns s.tick true hcut hw hcap)))

end push

/-- Settles O23, by what the buffer holds: nothing or words of the same context, or the assembly of another one. -/
theorem pushAppendsToTheAssembly : Obligations.PushAppendsToTheAssembly := by
  constructor
  · intro s p t w c words h hj hc ha hcap
    exact (h.exec_push_fits hc (Live.cutAssembly_same (l := s.appending p t w c .push) ha)
      (Assembly.wordsFor_same ha) rfl hcap).trans
      (congrArg Host.Outcome.next (closeEvent_quiet hj rfl rfl rfl rfl rfl))
  · intro s p t w c d old idle h hc hd ha hcap
    have hcap' : ([] : List Word).length + t.wordData.length ≤
        (s.ctxs.set d s.ctxs[d].rejectedOne)[c].applied.slotSize - 1 := by
      rw [vector_getElem_set_ne _ _ hd, List.length_nil, Nat.zero_add]
      exact hcap
    refine (h.exec_push_fits (words := []) hc
      (Live.cutAssembly_other (l := s.appending p t w c .push) ha hd) ?_ rfl hcap').trans (closed_congr ?_)
    · rw [PerPort.get_set_self]
      rfl
    · simp only [PerPort.set_set, List.nil_append]
      rfl

/-- Settles O24, by what the buffer holds when the append overruns: words of the same context or another assembly. -/
theorem overrunIsRefused : Obligations.OverrunIsRefused := by
  intro s p t w c words sub i h hc hcap hsub
  constructor
  · intro ha
    refine (h.exec_overrun hc hsub (Live.cutAssembly_same (l := s.appending p t w c sub) ha)
      (Assembly.wordsFor_same ha) hcap).trans (closed_congr ?_)
    rw [Live.overrun_held (PerPort.get_set_self ..)]
    simp only [State.appending, Live.setIface, PerPort.set_set]
    rfl
  · rintro d old idle hd rfl ha cut
    have hother : cut.ctxs[c] = s.ctxs[c] := vector_getElem_set_ne _ _ hd
    refine (h.exec_overrun hc hsub (Live.cutAssembly_other (l := s.appending p t w c sub) ha hd)
      (congrArg (Assembly.wordsFor c) (PerPort.get_set_self ..)) ?_).trans (closed_congr ?_)
    · exact (congrArg (fun x : Ctx => x.applied.slotSize - 1) hother).trans_lt hcap
    · rw [Live.overrun_held (PerPort.get_set_self ..)]
      simp only [State.appending, Live.setIface, PerPort.set_set]
      rw [← hother]
      rfl

end Sys2Proof.Machine
end

section
/-! PROOFS. The global word and the enable words at the completion of their writes (R30, R74, R75, R121, R122, R144). -/

namespace Sys2Proof.Machine

/-! ## The fields of the global word (section 8.7) -/

/-- The four tick periods by their code. -/
theorem tickMicros_mem (g : Word) : (bits g 0 2, tickMicros g) ∈ [(0, 1), (1, 10), (2, 100), (3, 1000)] := by
  have hlt : bits g 0 2 < 4 := bits_lt g 0 2
  obtain hk | hk | hk | hk : bits g 0 2 = 0 ∨ bits g 0 2 = 1 ∨ bits g 0 2 = 2 ∨ bits g 0 2 = 3 := by omega
  all_goals simp [tickMicros, hk]

/-- Two global words have the same tick period where their codes agree: the four periods are distinct. -/
theorem tickMicros_eq_iff (g h : Word) : tickMicros g = tickMicros h ↔ bits g 0 2 = bits h 0 2 := by
  have hg := tickMicros_mem g
  have hh := tickMicros_mem h
  simp only [List.mem_cons, Prod.mk.injEq, List.not_mem_nil, or_false] at hg hh
  omega

/-! ## Words with their own function (R133, R136) -/

theorem cbFunction_enable (q : Port) : cbFunction (if q = .A then 0x004 else 0x008) = .enable q := by
  cases q <;> decide

section word
variable {s : State} {p q : Port} {offset : Nat} {be : Enables} {v : Word} {t : Transfer}

/-- A word that is no record word stages nothing (R136, R137). -/
theorem State.stageWord_of_no_record (s : State) (w : CbWord) (hw : ∀ k n, cbFunction w.offset ≠ .window k n)
    (hc : ∀ c n, cbFunction w.offset ≠ .context c n) : s.stageWord w = s := by
  unfold State.stageWord
  split
  · split
    · next e => exact absurd e (hw _ _)
    · next e => exact absurd e (hc _ _)
    · rfl
  · rfl

theorem State.actWord_global (s : State) (p : Port) (hb : be ≠ 0) (hf : cbFunction offset = .global) :
    s.actWord p ⟨offset, be, v⟩ = s.writeGlobal p be v := by
  unfold State.actWord
  rw [if_pos (CbWord.acts_of_enabled _ _ hb), hf]

theorem State.actWord_enable (s : State) (p : Port) (hb : be ≠ 0) (hf : cbFunction offset = .enable q) :
    s.actWord p ⟨offset, be, v⟩ = s.writeEnable q be v := by
  unfold State.actWord
  rw [if_pos (CbWord.acts_of_enabled _ _ hb), hf]

/-- The completion of a write of the global word (R144). -/
theorem State.CbWordUnit.exec_global (h : s.CbWordUnit p 0 be v t) :
    exec .globalWord s = .next (closeEvent s
      ((s.writeAnswered p ⟨.cbWrite, s.cbBase + 0, [be], [v], true⟩).writeGlobal p be v)) := by
  have hf : cbFunction 0 = .global := rfl
  have hrow : CbRow.globalWord ∈ (⟨0, be, v⟩ : CbWord).rows p (readClear s.globalWord) := by
    unfold CbWord.rows
    rw [if_pos (CbWord.acts_of_enabled _ _ h.enabled), hf]
    exact List.mem_singleton_self _
  have hstage := State.stageWord_of_no_record
    (s.writeAnswered p ⟨.cbWrite, s.cbBase + 0, [be], [v], true⟩) ⟨0, be, v⟩ (by simp [hf]) (by simp [hf])
  rw [exec_globalWord, execGlobalWord, h.event hrow, hstage, State.actWord_global _ _ h.enabled hf]

/-- The completion of a write of the enable word of port `q` (R121). -/
theorem State.CbWordUnit.exec_enable (h : s.CbWordUnit p (if q = .A then 0x004 else 0x008) be v t) :
    exec .enableWord s = .next (closeEvent s
      ((s.writeAnswered p ⟨.cbWrite, s.cbBase + (if q = .A then 0x004 else 0x008), [be], [v], true⟩).writeEnable
        q be v)) := by
  have hf := cbFunction_enable q
  have hrow : CbRow.enableWord ∈ (⟨if q = .A then 0x004 else 0x008, be, v⟩ : CbWord).rows p
      (readClear s.globalWord) := by
    unfold CbWord.rows
    rw [if_pos (CbWord.acts_of_enabled _ _ h.enabled), hf]
    exact List.mem_singleton_self _
  have hstage := State.stageWord_of_no_record
    (s.writeAnswered p ⟨.cbWrite, s.cbBase + (if q = .A then 0x004 else 0x008), [be], [v], true⟩)
    ⟨if q = .A then 0x004 else 0x008, be, v⟩ (by simp [hf]) (by simp [hf])
  rw [exec_enableWord, execEnableWord, h.event hrow, hstage, State.actWord_enable _ _ h.enabled hf]

end word

/-! ## The global word (R30, R75, R144) -/

theorem State.writeGlobal_applies (s : State) (p : Port) (be : Enables) (v : Word)
    (h : 1 ≤ clockMHz (mergeBytes be s.globalWord v) ∧ clockMHz (mergeBytes be s.globalWord v) ≤ 100) :
    s.writeGlobal p be v = s.installGlobal (mergeBytes be s.globalWord v) := by
  unfold State.writeGlobal
  dsimp only
  rw [if_neg (by omega)]

theorem State.writeGlobal_refuses (s : State) (p : Port) (be : Enables) (v : Word)
    (h : clockMHz (mergeBytes be s.globalWord v) = 0 ∨ 100 < clockMHz (mergeBytes be s.globalWord v)) :
    s.writeGlobal p be v = s.refuseConfig p .global 0 .range := by
  unfold State.writeGlobal
  exact if_pos h

/-- The prescaler restarts where a field of the tick period changed (R75). -/
theorem State.installGlobal_prescaler (s : State) (g : Word) : (s.installGlobal g).prescaler =
    if bits g 0 2 = bits s.globalWord 0 2 ∧ bits g 8 7 = bits s.globalWord 8 7 then s.prescaler else 0 :=
  if_congr (and_congr_left fun _ => tickMicros_eq_iff g s.globalWord) rfl rfl

/-- Settles O49, by the word written: the global word in range or out of it, or an enable word. -/
theorem globalAndEnableWordsAreApplied : Obligations.GlobalAndEnableWordsAreApplied := by
  refine ⟨fun g => ⟨tickMicros_mem g, rfl, rfl, rfl, rfl, rfl⟩, ?_, ?_⟩
  · intro s p be v t h hj done g limit
    constructor
    · intro hrange
      have happly := State.writeGlobal_applies done p be v hrange
      have hlimit : ∀ x : Assembly, x.idleLimitChange s.globalWord g = limit x := fun x => by cases x <;> rfl
      have hquiet : closeEvent s (done.installGlobal g) = done.installGlobal g :=
        closeEvent_quiet hj rfl rfl rfl rfl rfl
      refine (h.exec_global.trans (closed_congr happly)).trans (congrArg Host.Outcome.next (hquiet.trans ?_))
      rw [← hlimit, ← hlimit, ← State.installGlobal_prescaler]
      rfl
    · intro hrange
      have hrefuse := State.writeGlobal_refuses done p be v hrange
      exact (h.exec_global.trans (closed_congr hrefuse)).trans
        (congrArg Host.Outcome.next (closeEvent_reported hj rfl rfl))
  · intro s p q be v t h hj
    exact h.exec_enable.trans (congrArg Host.Outcome.next (closeEvent_reported hj rfl rfl))

end Sys2Proof.Machine
end

section
/-! PROOFS. A tick in which one count reaches 0 and no other part is due (R29, R38, R67, R74, R77). -/

namespace Sys2Proof.Machine

/-! ## When a part of the tick acts -/

/-- What part `x` of a tick finds due in the live state that the counts left: without it the part does nothing. -/
def Live.partActs (l : Live) (now : BitVec 16) : TickPart → Prop
  | .holdoff c => l.ctxs[c].watermark = .arming 0
  | .idle p => ∃ c words, l.assembly.get p = .opened c words (some 0)
  | .held p => ∃ c i, l.findHeld p = some c ∧ l.ctxs[c].itemOf p = some i ∧ i.stall = some 0
  | .stale c => l.ctxs[c].judgedStale now = true

theorem Live.tickPart_of_not_acts {l : Live} {now : BitVec 16} {x : TickPart} (h : ¬l.partActs now x) :
    Live.tickPart now l x = l := by
  cases x with
  | holdoff c =>
    show l.holdoffPart c = l
    unfold Live.holdoffPart
    split
    · next e => exact absurd e h
    · rfl
  | idle p =>
    show l.idlePart p = l
    unfold Live.idlePart
    split
    · next c words e => exact absurd ⟨c, words, e⟩ h
    · rfl
  | held p =>
    show l.heldPart now p = l
    unfold Live.heldPart
    split
    · rfl
    · next c hf =>
      split
      · next k e => exact if_neg fun hs => h ⟨c, _, hf, e, hs⟩
      · next k e => exact if_neg fun hs => h ⟨c, _, hf, e, hs⟩
      · rfl
  | stale c => exact if_neg h

/-! ## The counts -/

section countDown
variable (l : Live)

theorem Live.countDown_ctxs (c : Fin 8) : l.countDown.ctxs[c] = l.ctxs[c].countDown := by simp [Live.countDown]

theorem State.ticked_ctxs (s : State) (c : Fin 8) : s.ticked.ctxs[c] = s.ctxs[c].countDown :=
  Live.countDown_ctxs _ c

theorem Live.countDown_assembly (p : Port) : l.countDown.assembly.get p = (l.assembly.get p).countDown := by
  cases p <;> rfl

theorem Ctx.countDown_itemOf (x : Ctx) (p : Port) : x.countDown.itemOf p = (x.itemOf p).map HeldItem.countDown := by
  have hport : ((fun i => HeldItem.port i == p) ∘ HeldItem.countDown) = fun i => i.port == p := by
    funext i
    cases i <;> rfl
  show (x.held.map HeldItem.countDown).find? _ = _
  rw [List.find?_map, hport]
  rfl

/-- The search for a port's item depends on which contexts have an item of the port. -/
theorem Live.findHeld_of_itemOf {l m : Live} {p : Port}
    (h : ∀ c : Fin 8, (m.ctxs[c].itemOf p).isSome = (l.ctxs[c].itemOf p).isSome) : m.findHeld p = l.findHeld p := by
  have hholds : ∀ x : Ctx, x.holds p = (x.itemOf p).isSome := fun x => by
    rw [Ctx.itemOf, Bool.eq_iff_iff, List.find?_isSome, Ctx.holds, List.any_eq_true]
  unfold Live.findHeld
  congr 1
  funext c
  rw [hholds, hholds, h c]

theorem Live.countDown_findHeld (p : Port) : l.countDown.findHeld p = l.findHeld p :=
  Live.findHeld_of_itemOf fun c => by rw [Live.countDown_ctxs, Ctx.countDown_itemOf, Option.isSome_map]

end countDown

/-- The age judgement reads the record, the ready count, the cache and the running work alone (R82). -/
theorem Ctx.judgedStale_congr {x y : Ctx} (ha : y.applied = x.applied) (hr : y.ready = x.ready) (hc : y.cache = x.cache)
    (hw : y.writingRun = x.writingRun) (hh : y.heldRun = x.heldRun) (now : BitVec 16) :
    y.judgedStale now = x.judgedStale now := by
  unfold Ctx.judgedStale Ctx.isLifo Ctx.opRunning Ctx.writing Ctx.inCopy
  rw [ha, hr, hc, hw, hh]

/-! ## A tick with one part due -/

/-- The live state `m`, after part `x` of a tick of `l`, shows every other part what the counts left, or an empty buffer. -/
structure Live.TickTook (l : Live) (x : TickPart) (m : Live) : Prop where
  watermark : ∀ c : Fin 8, .holdoff c ≠ x → m.ctxs[c].watermark = l.ctxs[c].watermark.countDown
  assembly  : ∀ p : Port, m.assembly.get p = .empty ∨ m.assembly.get p = (l.assembly.get p).countDown
  item      : ∀ (c : Fin 8) (p : Port), .held p ≠ x → m.ctxs[c].itemOf p = (l.ctxs[c].itemOf p).map HeldItem.countDown
  judged    : ∀ (c : Fin 8) (now : BitVec 16), m.ctxs[c].judgedStale now = l.ctxs[c].judgedStale now

/-- A part that changes one context and perhaps empties one buffer shows the others the rest as the counts left it. -/
theorem Live.TickTook.of_set {l m : Live} {x : TickPart} {c : Fin 8} {y : Ctx}
    (hctxs : m.ctxs = l.countDown.ctxs.set c y)
    (hassembly : m.assembly = l.countDown.assembly ∨ ∃ p, m.assembly = l.countDown.assembly.set p .empty)
    (hw : .holdoff c ≠ x → y.watermark = l.ctxs[c].watermark.countDown)
    (hi : ∀ p, .held p ≠ x → y.itemOf p = l.ctxs[c].countDown.itemOf p)
    (hj : ∀ now, y.judgedStale now = l.ctxs[c].judgedStale now) : l.TickTook x m := by
  have hself : m.ctxs[c] = y := by rw [hctxs, Fin.getElem_fin, Vector.getElem_set_self]
  have hother : ∀ d, d ≠ c → m.ctxs[d] = l.ctxs[d].countDown := fun d hd => by
    rw [hctxs, vector_getElem_set_ne _ _ hd.symm, Live.countDown_ctxs]
  refine ⟨fun d hx => ?_, fun p => ?_, fun d p hx => ?_, fun d now => ?_⟩
  · by_cases hd : d = c
    · subst hd
      rw [hself, hw hx]
    · rw [hother d hd]
      rfl
  · rcases hassembly with ha | ⟨q, ha⟩
    · exact .inr (by rw [ha, Live.countDown_assembly])
    · rcases Port.eq_or_eq_other q p with rfl | rfl
      · exact .inl (by rw [ha, PerPort.get_set_self])
      · exact .inr (by rw [ha, PerPort.get_set_other, Live.countDown_assembly])
  · rw [← Ctx.countDown_itemOf]
    by_cases hd : d = c
    · subst hd
      rw [hself, hi p hx]
    · rw [hother d hd]
  · by_cases hd : d = c
    · subst hd
      rw [hself, hj now]
    · rw [hother d hd]
      rfl

section tick
variable {s : State} {x : TickPart} {m : Live}

theorem countDown_eq_zero {n : Option Nat} (h : countDown n = some 0) : ∃ k, n = some k ∧ k ≤ 1 := by
  cases n with
  | none => cases h
  | some k => exact ⟨k, rfl, by simpa [countDown, Nat.sub_eq_zero_iff_le] using h⟩

theorem HeldItem.countDown_stall (i : HeldItem) : i.countDown.stall = Machine.countDown i.stall := by cases i <;> rfl

/-- A part that the tick did not bring due does nothing after another part was taken. -/
theorem Live.TickTook.not_acts (h : s.TickTook x m) {y : TickPart} (hy : y ≠ x) (hd : s.partDue y = false) :
    ¬m.partActs (s.tick + 1) y := by
  cases y with
  | holdoff c =>
    intro hact
    rw [Live.partActs, h.watermark c hy] at hact
    have hdue : s.ctxs[c].watermark.holdoffDue = false := hd
    cases hw : s.ctxs[c].watermark with
    | calm => rw [hw] at hact; cases hact
    | raised => rw [hw] at hact; cases hact
    | arming n =>
      rw [hw] at hact hdue
      simp only [Watermark.countDown, Watermark.arming.injEq] at hact
      simp only [Watermark.holdoffDue, decide_eq_false_iff_not] at hdue
      omega
  | idle p =>
    rintro ⟨c, words, hact⟩
    have hdue : (s.assembly.get p).idleDue = false := hd
    rcases h.assembly p with he | he
    · rw [he] at hact
      cases hact
    · rw [he] at hact
      cases ha : s.assembly.get p with
      | empty => rw [ha] at hact; cases hact
      | committing => rw [ha] at hact; cases hact
      | opened d old idle =>
        rw [ha] at hact hdue
        simp only [Assembly.countDown, Assembly.opened.injEq] at hact
        obtain ⟨k, rfl, hk⟩ := countDown_eq_zero hact.2.2
        simp only [Assembly.idleDue, decide_eq_false_iff_not] at hdue
        exact hdue hk
  | held p =>
    rintro ⟨c, i, hf, hi, hs⟩
    have hfind : m.findHeld p = s.findHeld p :=
      Live.findHeld_of_itemOf fun d => by rw [h.item d p hy, Option.isSome_map]
    rw [hfind] at hf
    rw [h.item c p hy, Option.map_eq_some_iff] at hi
    obtain ⟨j, hj, rfl⟩ := hi
    obtain ⟨k, hk, hle⟩ := countDown_eq_zero (j.countDown_stall ▸ hs)
    have hdue : s.stallDue p j.isCommit = true := by
      unfold Live.stallDue
      simp only [hf, hj, hk]
      simpa using hle
    have hnot : (s.stallDue p true || s.stallDue p false) = false := hd
    cases hc : j.isCommit <;> simp [hc ▸ hdue] at hnot
  | stale c =>
    intro hact
    rw [Live.partActs, h.judged c] at hact
    exact Bool.false_ne_true ((show s.ctxs[c].judgedStale (s.tick + 1) = false from hd).symm.trans hact)

theorem foldl_eq_self {α β : Type} {f : β → α → β} {b : β} :
    ∀ {xs : List α}, (∀ a ∈ xs, f b a = b) → xs.foldl f b = b
  | [], _ => rfl
  | a :: rest, h => by
    rw [List.foldl_cons, h a List.mem_cons_self]
    exact foldl_eq_self fun a ha => h a (List.mem_cons_of_mem _ ha)

/-- The tick event with one part due: the counts and that part (R74). -/
theorem State.tickEvent_one (hm : Live.tickPart (s.tick + 1) s.countDown x = m) (ht : s.TickTook x m)
    (hd : ∀ y, y ≠ x → s.partDue y = false) :
    s.tickEvent [x] = { s with toLive := m, tick := s.tick + 1, prescaler := 0 } := by
  have hothers : ∀ y ∈ allParts.filter fun y => !([x] : List TickPart).contains y,
      Live.tickPart (s.tick + 1) m y = m := by
    intro y hy
    have hne : y ≠ x := by simpa using (List.mem_filter.1 hy).2
    exact Live.tickPart_of_not_acts (ht.not_acts hne (hd y hne))
  have hfold : (partsInOrder [x]).foldl (Live.tickPart (s.tick + 1)) s.countDown = m := by
    rw [partsInOrder, List.singleton_append, List.foldl_cons, hm]
    exact foldl_eq_self hothers
  unfold State.tickEvent State.onLive
  dsimp only
  rw [hfold]

end tick

/-! ## The expiries -/

section expiry
variable {l : Live} {p : Port} {c : Fin 8} (now : BitVec 16)

/-- An open assembly whose idle count is 0 is discarded (R29). -/
theorem Live.idlePart_expired {words : List Word} (h : l.assembly.get p = .opened c words (some 0)) :
    l.idlePart p = { l with
      assembly := l.assembly.set p .empty
      ctxs := l.ctxs.set c l.ctxs[c].rejectedOne
      attn := rejectNotices l.ctxs[c] c l.attn } := by
  have hdiscard : l.idlePart p = (l.reject c).setAssembly p .empty := by
    unfold Live.idlePart
    rw [h]
    rfl
  rw [hdiscard, Live.reject_eq]
  rfl

/-- A holdoff count of 0: RAISED with HIGH (R77). -/
theorem Live.holdoffPart_expired (h : l.ctxs[c].watermark = .arming 0) : l.holdoffPart c = { l with
    ctxs := l.ctxs.set c { l.ctxs[c] with watermark := .raised }
    attn := noticed l.ctxs[c] c .high true l.attn } := by
  have hraise : l.holdoffPart c = (l.modCtx c fun x => { x with watermark := .raised }).raise c .high := by
    unfold Live.holdoffPart
    rw [h]
    rfl
  rw [hraise, Live.raise_eq, Fin.getElem_fin, Live.modCtx_ctxs_self]
  rfl

theorem Ctx.itemOf_alone {x : Ctx} {i : HeldItem} (h : x.held = [i]) (q : Port) :
    x.itemOf q = if i.port == q then some i else none := by
  rw [Ctx.itemOf, h, List.find?_singleton]

variable {t : Transfer} {d : Decode} {v : Option PathUnit} {i : HeldItem} (hf : l.findHeld p = some c)
  (hh : l.ctxs[c].held = [i]) (hp : i.port = p) (hs : i.stall = some 0) (hi : l.ifaces.get p = .held t d v)
include hf hh hp hs hi

/-- The one commit held at its context expires: ERROR EXPIRED, the counts and notices of a rejected push, its buffer EMPTY
(R38). -/
theorem Live.heldPart_commit (hc : i.isCommit = true) : l.heldPart now p = { l with
    ifaces := l.ifaces.set p (.answering (.error .expired t.errorWords))
    assembly := l.assembly.set p .empty
    ctxs := l.ctxs.set c { l.ctxs[c].rejectedOne with held := [] }
    attn := rejectNotices l.ctxs[c] c (l.attn.set p ((l.attn.get p).capture .expired t d.windowIndex)) } := by
  have hitem : l.ctxs[c].itemOf p = some i := by rw [Ctx.itemOf_alone hh, hp, beq_self_eq_true, if_pos rfl]
  have hpart : l.heldPart now p = l.expireCommit now c p := by
    cases i with
    | pop k => cases hc
    | commit k =>
      unfold Live.heldPart
      simp only [hf, hitem]
      exact if_pos hs
  rw [hpart, Live.expireCommit, Live.removeHeld_alone l p c hh hp, Live.answerError_held .expired (by exact hi),
    Live.reject_eq, Live.examineCommits_nil]
  · simp [Live.setAssembly, Ctx.rejectedOne, rejectNotices, noticed]
  · simp [Live.setAssembly, Ctx.rejectedOne]

/-- The one pop held at its context expires: ERROR EXPIRED, its latch EMPTY (R67). -/
theorem Live.heldPart_pop (hc : i.isCommit = false) : l.heldPart now p = { l with
    ifaces := l.ifaces.set p (.answering (.error .expired t.errorWords))
    latch := l.latch.set p .empty
    ctxs := l.ctxs.set c { l.ctxs[c] with held := [] }
    attn := l.attn.set p ((l.attn.get p).capture .expired t d.windowIndex) } := by
  have hitem : l.ctxs[c].itemOf p = some i := by rw [Ctx.itemOf_alone hh, hp, beq_self_eq_true, if_pos rfl]
  have hpart : l.heldPart now p = l.expirePop now c p := by
    cases i with
    | commit k => cases hc
    | pop k =>
      unfold Live.heldPart
      simp only [hf, hitem]
      exact if_pos hs
  rw [hpart, Live.expirePop, Live.removeHeld_alone l p c hh hp, Live.answerError_held .expired (by exact hi),
    Live.examinePops_nil]
  · rfl
  · simp [Live.setLatch]

end expiry

/-! ## The expiries as tick events -/

section expired
variable {s : State} {p : Port} {c : Fin 8} {n : Nat}

/-- The event of an expiry: the one part that is due. -/
theorem State.exec_expiry {possible : Bool} {x : TickPart} {m : Live} (hr : s.inReset = false) (hposs : possible = true)
    (hm : Live.tickPart (s.tick + 1) s.countDown x = m) (ht : s.TickTook x m)
    (hd : ∀ y, y ≠ x → s.partDue y = false) :
    event possible s (fun s => s.tickEvent [x]) =
      .next (closeEvent s { s with toLive := m, tick := s.tick + 1, prescaler := 0 }) :=
  (event_possible hposs hr).trans (closed_congr (State.tickEvent_one hm ht hd))

/-- The stall count of a port's one held item is due. -/
theorem Live.stallDue_alone {l : Live} {i : HeldItem} (hf : l.findHeld p = some c) (hh : l.ctxs[c].held = [i])
    (hp : i.port = p) (hs : i.stall = some n) (hn : n ≤ 1) : l.stallDue p i.isCommit = true := by
  unfold Live.stallDue
  simp only [hf, Ctx.itemOf_alone hh, hp, beq_self_eq_true, if_true, hs, Option.any_some, Bool.true_and]
  exact decide_eq_true hn

/-- Once the one held item of a context, of port `p`, has left, no other port finds an item there either. -/
theorem Ctx.itemOf_left {x y : Ctx} {i : HeldItem} (hx : x.held = [i]) (hy : y.held = []) (hp : i.port = p) {q : Port}
    (hq : q ≠ p) : y.itemOf q = x.countDown.itemOf q := by
  rw [Ctx.countDown_itemOf, Ctx.itemOf_alone hx, if_neg (by simpa [hp] using hq.symm), Ctx.itemOf, hy]
  rfl

theorem Live.countDown_held_alone {l : Live} {i : HeldItem} (hh : l.ctxs[c].held = [i]) :
    l.countDown.ctxs[c].held = [i.countDown] := by
  rw [Live.countDown_ctxs, Ctx.countDown, hh]
  rfl

end expired

theorem HeldItem.countDown_port (i : HeldItem) : i.countDown.port = i.port := by cases i <;> rfl

theorem HeldItem.countDown_due {i : HeldItem} {n : Nat} (h : i.stall = some n) (hn : n ≤ 1) :
    i.countDown.stall = some 0 := by
  rw [i.countDown_stall, h]
  exact congrArg some (Nat.sub_eq_zero_of_le hn)

/-- Settles O57, by the count that reaches 0: idle, a commit's stall, a pop's stall, or holdoff. -/
theorem countsExpireInTheTick : Obligations.CountsExpireInTheTick := by
  intro s hr
  refine ⟨fun p c words idle ha hle hd => ?_, fun p c h n t d v hh hp hs hle hf hi hd => ?_,
    fun p c h n t d v hh hp hs hle hf hi hd => ?_, fun c n hw hle hd => ?_⟩
  · have hopen : s.countDown.assembly.get p = .opened c words (some 0) := by
      rw [Live.countDown_assembly, ha, Assembly.countDown, countDown, Nat.sub_eq_zero_of_le hle]
    have hdue : (s.assembly.get p).idleDue = true := by
      rw [ha]
      exact decide_eq_true hle
    refine (State.exec_expiry (x := .idle p) hr hdue (Live.idlePart_expired hopen) ?_ hd).trans (closed_congr ?_)
    · rw [Live.countDown_ctxs]
      exact .of_set rfl (.inr ⟨p, rfl⟩) (fun _ => rfl) (fun _ _ => rfl)
        (Ctx.judgedStale_congr rfl rfl rfl rfl rfl)
    · rw [Live.countDown_ctxs, State.ticked_ctxs]
      rfl
  · have hdue := Live.stallDue_alone hf hh hp hs hle
    have hpart := Live.heldPart_commit (l := s.countDown) (s.tick + 1) ((s.countDown_findHeld p).trans hf)
      (Live.countDown_held_alone hh) ((HeldItem.countDown_port _).trans hp) (HeldItem.countDown_due hs hle) hi rfl
    rw [Live.countDown_ctxs] at hpart
    refine (State.exec_expiry (x := .held p) hr hdue hpart ?_ hd).trans (closed_congr ?_)
    · exact .of_set rfl (.inr ⟨p, rfl⟩) (fun _ => rfl) (fun q hq => Ctx.itemOf_left hh rfl hp fun e => hq (e ▸ rfl))
        (Ctx.judgedStale_congr rfl rfl rfl rfl rfl)
    · rw [State.ticked_ctxs]
      rfl
  · have hdue := Live.stallDue_alone hf hh hp hs hle
    have hpart := Live.heldPart_pop (l := s.countDown) (s.tick + 1) ((s.countDown_findHeld p).trans hf)
      (Live.countDown_held_alone hh) ((HeldItem.countDown_port _).trans hp) (HeldItem.countDown_due hs hle) hi rfl
    rw [Live.countDown_ctxs] at hpart
    refine (State.exec_expiry (x := .held p) hr hdue hpart ?_ hd).trans (closed_congr ?_)
    · exact .of_set rfl (.inl rfl) (fun _ => rfl) (fun q hq => Ctx.itemOf_left hh rfl hp fun e => hq (e ▸ rfl))
        (Ctx.judgedStale_congr rfl rfl rfl rfl rfl)
    · rw [State.ticked_ctxs]
      rfl
  · have hcount : s.countDown.ctxs[c].watermark = .arming 0 := by
      rw [Live.countDown_ctxs, Ctx.countDown, hw, Watermark.countDown, Nat.sub_eq_zero_of_le hle]
    have hdue : s.ctxs[c].watermark.holdoffDue = true := by
      rw [hw]
      exact decide_eq_true hle
    have hpart := Live.holdoffPart_expired hcount
    rw [Live.countDown_ctxs] at hpart
    refine (State.exec_expiry (x := .holdoff c) hr hdue hpart ?_ hd).trans (closed_congr ?_)
    · exact .of_set rfl (.inl rfl) (fun h => absurd rfl h) (fun _ _ => rfl)
        (Ctx.judgedStale_congr rfl rfl rfl rfl rfl)
    · rw [State.ticked_ctxs]
      rfl

end Sys2Proof.Machine
end

section
/-! PROOFS. A port reset: the ends of the port's push and pop, what its held work leaves to the other port, and its
attention state (R41, R47, R73, R132, R151, R168). -/

namespace Sys2Proof.Machine

/-- An entry of a vector read through `f` after another entry, or one that `f` does not tell apart, was replaced. -/
theorem vector_set_congr {α β : Type} {n : Nat} {v : Vector α n} {c d : Fin n} {y : α} {f : α → β}
    (h : d = c → f y = f v[d]) : f (v.set d y)[c] = f v[c] := by
  by_cases hd : d = c
  · subst hd
    rw [Fin.getElem_fin, Vector.getElem_set_self]
    exact h rfl
  · rw [vector_getElem_set_ne v y hd]

/-! ## The event (R132, R168) -/

theorem State.exec_portReset_settles {s : State} {p : Port} (late : Vector (BitVec 8) 8) (hr : s.inReset = false)
    (hline : s.portReset.get p = false) :
    exec (.portReset p late) s = .next (settle s (s.resetPort p late)) := by
  have hout : (if s.inReset then { s with portReset := s.portReset.set p true }
      else if s.portReset.get p then s else settle s (s.resetPort p late)) = settle s (s.resetPort p late) := by
    rw [if_neg (by rw [hr]; decide), if_neg (by rw [hline]; decide)]
  exact congrArg Host.Outcome.next hout

/-- The port's operations end in `m`, which moves no ready count: the rest of the event is the interface, the path and the
attention state (R132, R151, R168). -/
theorem State.exec_portReset_ends {s : State} {p : Port} {m : Live} (late : Vector (BitVec 8) 8) (hr : s.inReset = false)
    (hline : s.portReset.get p = false) (hm : ((s.resetAttn p).resetIface p).resetQueues s.tick p = m)
    (hready : ∀ c : Fin 8, m.ctxs[c].ready = s.ctxs[c].ready) :
    exec (.portReset p late) s = .next (closeEvent s { s with
      toLive := { m with attn := lateOnly p late m.attn }
      portReset := s.portReset.set p true
      paths := s.paths.set p ((s.paths.get p).map fun u => { u with wanted := false }) }) := by
  subst hm
  exact (State.exec_portReset_settles late hr hline).trans
    (congrArg Host.Outcome.next (settle_resetPort s p late fun c => (hready c).symm))

/-! ## The port's own work -/

section ends
variable {l : Live} {p : Port} (now : BitVec 16)

/-- The contexts after the push of port `p`, alone where it is held, ended in a port reset (R47). -/
def Live.pushEnded (l : Live) (p : Port) : Vector Ctx 8 :=
  match l.assembly.get p with
  | .opened c _ _ => l.ctxs.set c l.ctxs[c].rejectedOne
  | .committing c _ _ _ false => l.ctxs.set c { l.ctxs[c].rejectedOne with held := [] }
  | _ => l.ctxs

/-- The notice of that end: WRAP, where REJECTED wraps (R19, R47). -/
def Live.pushWrapped (l : Live) (p : Port) : PerPort PortAttn :=
  match l.assembly.get p with
  | .opened c _ _ => noticed l.ctxs[c] c .wrap (wraps l.ctxs[c].rejected 1) l.attn
  | .committing c _ _ _ false => noticed l.ctxs[c] c .wrap (wraps l.ctxs[c].rejected 1) l.attn
  | _ => l.attn

theorem Live.resetPush_ends
    (hheld : ∀ c n level words, l.assembly.get p = .committing c n level words false →
      ∃ h, l.ctxs[c].held = [.commit h] ∧ h.port = p) :
    l.resetPush now p = { l with
      ctxs := l.pushEnded p, attn := l.pushWrapped p, assembly := l.assembly.set p .empty } := by
  unfold Live.pushEnded Live.pushWrapped
  cases ha : l.assembly.get p with
  | empty =>
    rw [← ha, PerPort.set_get_self]
    simp only [Live.resetPush, ha]
  | opened c words idle =>
    simp only [Live.resetPush, ha, Live.countRejected_eq]
    rfl
  | committing c n level words reserved =>
    cases reserved with
    | true =>
      simp only [Live.resetPush, ha]
      rfl
    | false =>
      obtain ⟨h, hh, hp⟩ := hheld c n level words ha
      exact Live.resetPush_alone l now p ha hh hp

/-- The contexts after the pop of port `p`, alone where it is held, ended in a port reset (R73). -/
def Live.popEnded (l : Live) (p : Port) : Vector Ctx 8 :=
  match l.latch.get p with
  | .waiting c => l.ctxs.set c { l.ctxs[c] with held := [] }
  | _ => l.ctxs

/-- The dropped-copy flags after that end: a copy in flight is dropped (R73). -/
def Live.copyDropped (l : Live) (p : Port) : PerPort Bool :=
  match l.latch.get p with
  | .filling _ _ _ _ => l.dropped.set p true
  | _ => l.dropped

theorem Live.resetPop_ends
    (hheld : ∀ c, l.latch.get p = .waiting c → ∃ h, l.ctxs[c].held = [.pop h] ∧ h.port = p) :
    l.resetPop now p = { l with
      ctxs := l.popEnded p, latch := l.latch.set p .empty, dropped := l.copyDropped p } := by
  unfold Live.popEnded Live.copyDropped
  cases hl : l.latch.get p with
  | empty =>
    rw [← hl, PerPort.set_get_self]
    simp only [Live.resetPop, hl]
  | filling c slot burst withdrawn =>
    simp only [Live.resetPop, hl]
    rfl
  | holding c header payload remaining =>
    simp only [Live.resetPop, hl]
    rfl
  | waiting c =>
    obtain ⟨h, hh, hp⟩ := hheld c hl
    exact Live.resetPop_alone l now p hl hh hp

theorem Live.pushEnded_ready (c : Fin 8) : (l.pushEnded p)[c].ready = l.ctxs[c].ready := by
  unfold Live.pushEnded
  split
  · exact vector_set_congr fun _ => rfl
  · exact vector_set_congr fun _ => rfl
  · rfl

theorem Live.popEnded_ready (c : Fin 8) : (l.popEnded p)[c].ready = l.ctxs[c].ready := by
  unfold Live.popEnded
  split
  · exact vector_set_congr fun _ => rfl
  · rfl

/-- The end of a push empties no list but the one that held it (R47). -/
theorem Live.pushEnded_held {c : Fin 8}
    (h : ∀ d n level words, l.assembly.get p = .committing d n level words false → d ≠ c) :
    (l.pushEnded p)[c].held = l.ctxs[c].held := by
  unfold Live.pushEnded
  split
  · exact vector_set_congr fun _ => rfl
  · next d n level words ha => exact vector_set_congr fun hd => absurd hd (h d n level words ha)
  · rfl

end ends

/-! ## The other port's commit behind the port's own (R41, R47) -/

/-- The live state after the push of port `p`, held at context `c`, ended and left `rest` in the held list (R47). -/
def Live.pushRemoved (l : Live) (p : Port) (c : Fin 8) (rest : List HeldItem) : Live :=
  { l with
    attn := noticed l.ctxs[c] c .wrap (wraps l.ctxs[c].rejected 1) l.attn
    assembly := l.assembly.set p .empty
    ctxs := l.ctxs.set c { l.ctxs[c].rejectedOne with held := rest } }

theorem Live.removeHeld_first {l : Live} {p : Port} {c : Fin 8} {h k : HeldCommit}
    (hh : l.ctxs[c].held = [.commit h, .commit k]) (hp : h.port = p) (hk : k.port ≠ p) :
    ((l.removeHeld c p).countRejected c).setAssembly p .empty = l.pushRemoved p c [.commit k] := by
  simp only [Fin.getElem_fin] at hh
  rw [Live.countRejected_eq]
  simp [Live.removeHeld, Live.modCtx, Live.setAssembly, Live.pushRemoved, hh, HeldItem.port, hp, hk, Ctx.rejectedOne,
    noticed]

/-- The end of a commit that is held before one of the other port at a FIFO context which is not full: the other reserves,
with the gap of the push that ended (R41, R47, log 30). -/
theorem Live.resetPush_serves {l : Live} {p : Port} {c : Fin 8} {h k : HeldCommit} {n : Nat} {level : Level}
    {words later : List Word} (now : BitVec 16) (hh : l.ctxs[c].held = [.commit h, .commit k]) (hp : h.port = p)
    (hk : k.port = p.other) (ha : l.assembly.get p = .committing c n level words false)
    (hb : l.assembly.get p.other = .committing c k.length k.level later false) (hw : l.portWriting p.other = false)
    (hl : l.ctxs[c].applied.isLifo = false) (hocc : l.ctxs[c].occupied < l.ctxs[c].applied.capacity) :
    l.resetPush now p = { l with
      attn := noticed l.ctxs[c] c .wrap (wraps l.ctxs[c].rejected 1) l.attn
      assembly := (l.assembly.set p .empty).set p.other (.committing c k.length k.level [] true)
      jobs := l.jobs ++ [l.ctxs[c].rejectedOne.writeEntry c k later now]
      ctxs := l.ctxs.set c { l.ctxs[c].rejectedOne.reservedFor p.other now with held := [] } } := by
  have hleft := Live.removeHeld_first hh hp (hk ▸ Port.other_ne p)
  have hpush : l.resetPush now p = (((l.removeHeld c p).countRejected c).setAssembly p .empty).examineCommits now c := by
    unfold Live.resetPush
    rw [ha]
  have hctx : (l.pushRemoved p c [.commit k]).ctxs[c] = { l.ctxs[c].rejectedOne with held := [.commit k] } := by
    rw [Fin.getElem_fin]
    exact Vector.getElem_set_self _
  have hwriting : (l.pushRemoved p c [.commit k]).portWriting k.port = false := by
    rw [hk, Live.portWriting_congr l _ _ fun d => vector_set_congr (f := Ctx.writingRun) fun hd => hd ▸ rfl]
    exact hw
  have hwords : (l.pushRemoved p c [.commit k]).assembly.get k.port = l.assembly.get p.other := by
    rw [hk]
    exact PerPort.get_set_other _ _ _
  rw [hpush, hleft, Live.examineCommits_alone _ now c k (by rw [hctx]) (by rw [hctx]; exact hl) hwriting
    (by rw [hctx]; exact Ctx.full_eq_false hocc), hctx, hwords, hb, hk]
  simp only [Live.pushRemoved, Vector.set_set]
  rfl

/-- Settles O58, by the work of the port: its own alone, the other port's commit behind it, and what any reset leaves. -/
theorem portResetDropsThePortsWork : Obligations.PortResetDropsThePortsWork := by
  refine ⟨?_, ?_, ?_⟩
  · intro s p late hr hline hcommit hpop wrapped pushEnded
    have hpush := Live.resetPush_ends (l := (s.resetAttn p).resetIface p) s.tick hcommit
    have hother : ∀ c, s.latch.get p = .waiting c →
        (((s.resetAttn p).resetIface p).pushEnded p)[c].held = s.ctxs[c].held :=
      fun c hl => Live.pushEnded_held fun d n level words ha hd => by
        obtain ⟨h, hh, -⟩ := hcommit d n level words ha
        obtain ⟨k, hk, -⟩ := hpop c hl
        rw [hd, hk] at hh
        cases hh
    have hend := Live.resetPop_ends (l := ((s.resetAttn p).resetIface p).resetPush s.tick p) s.tick
      (by rw [hpush]; exact fun c hl => by rw [hother c hl]; exact hpop c hl)
    rw [hpush] at hend
    refine (State.exec_portReset_ends late hr hline ((congrArg (Live.resetPop · s.tick p) hpush).trans hend)
      fun c => ?_).trans (closed_congr ?_)
    · exact (Live.popEnded_ready c).trans (Live.pushEnded_ready c)
    · rfl
  · intro s p late c h k words later hr hline hh hp hk ha hlatch hb hw hfifo hocc x wrapped
    have hserves := Live.resetPush_serves (l := (s.resetAttn p).resetIface p) s.tick hh hp hk ha hb hw hfifo hocc
    have hpop : ∀ m : Live, m.latch = s.latch → m.resetPop s.tick p = m := fun m hm => by
      simp only [Live.resetPop, hm, hlatch]
    refine (State.exec_portReset_ends late hr hline
      ((congrArg (Live.resetPop · s.tick p) hserves).trans (hpop _ rfl)) fun d => ?_).trans (closed_congr ?_)
    · exact vector_set_congr fun _ => rfl
    · rfl
  · intro s p hr
    constructor
    · intro hline late
      obtain ⟨raised, hattn⟩ := settle_resetPort_attn s p late
      refine ⟨_, State.exec_portReset_settles late hr hline, rfl, rfl, rfl, ?_, fun c => ?_⟩
      · rw [hattn]
      · rw [hattn]
        simp [BitVec.and_assoc]
    · intro hline late
      rw [exec_portReset, execPortReset, hr, hline]
      rfl

end Sys2Proof.Machine
end

section
/-! PROOFS. The withdrawal of a context: each held item, open assembly and latch ends in its turn, and what they leave does
not depend on their order (R45, R46, R71, R72, R103, R127). -/

namespace Sys2Proof.Machine

/-! ## Per-port pairs, read by the port -/

theorem PerPort.eq_of_get {α : Type} {x y : PerPort α} (h : ∀ p, x.get p = y.get p) : x = y := by
  obtain ⟨a, b⟩ := x
  obtain ⟨a', b'⟩ := y
  exact PerPort.mk.injEq .. ▸ ⟨h .A, h .B⟩

@[simp] theorem PerPort.get_each {α : Type} (f : Port → α) (p : Port) : (PerPort.each f).get p = f p := by
  cases p <;> rfl

theorem PerPort.get_set {α : Type} (x : PerPort α) (p q : Port) (v : α) :
    (x.set p v).get q = if p = q then v else x.get q := by
  cases p <;> cases q <;> rfl

theorem PerPort.set_of_get {α : Type} {x : PerPort α} {p : Port} {v : α} (h : x.get p = v) : x.set p v = x := by
  rw [← h, PerPort.set_get_self]

/-! ## Notices in any order (R119, R125) -/

/-- The marks of a kind raised twice are those of one raise (R125). -/
theorem shown_same (pending shown m : BitVec 8) :
    shown &&& (pending ||| ~~~m) &&& (pending ||| m ||| ~~~m) = shown &&& (pending ||| ~~~m) := by
  refine BitVec.eq_of_getLsbD_eq fun i hi => ?_
  simp only [BitVec.getLsbD_and, BitVec.getLsbD_or, BitVec.getLsbD_not, hi, decide_true, Bool.true_and]
  generalize pending.getLsbD i = p, shown.getLsbD i = s, m.getLsbD i = b
  revert p s b
  decide

/-- The marks of two kinds are the same in either order (R125). -/
theorem shown_comm (pending shown : BitVec 8) {m n : BitVec 8} (h : m &&& n = 0) :
    shown &&& (pending ||| ~~~m) &&& (pending ||| m ||| ~~~n) =
      shown &&& (pending ||| ~~~n) &&& (pending ||| n ||| ~~~m) := by
  refine BitVec.eq_of_getLsbD_eq fun i hi => ?_
  have hmn : (m.getLsbD i && n.getLsbD i) = false := by
    rw [← BitVec.getLsbD_and, h]
    exact BitVec.getLsbD_zero
  simp only [BitVec.getLsbD_and, BitVec.getLsbD_or, BitVec.getLsbD_not, hi, decide_true, Bool.true_and]
  generalize pending.getLsbD i = p, shown.getLsbD i = s, m.getLsbD i = b, n.getLsbD i = d at hmn ⊢
  revert p s b d
  decide

/-- A kind that is pending already is not raised again (R119). -/
theorem PortAttn.raise_same (a : PortAttn) (c : Fin 8) (k : Kind) : (a.raise c k).raise c k = a.raise c k := by
  have hpending : ∀ v : BitVec 8, v ||| k.mask ||| k.mask = v ||| k.mask := fun v => by
    rw [BitVec.or_assoc, BitVec.or_self]
  simp only [PortAttn.raise, Fin.getElem_fin, Vector.getElem_set_self, Vector.set_set, shown_same, hpending]

/-- Two kinds are raised in either order. -/
theorem PortAttn.raise_comm (a : PortAttn) (c : Fin 8) {k j : Kind} (h : k.mask &&& j.mask = 0) :
    (a.raise c k).raise c j = (a.raise c j).raise c k := by
  have hpending : ∀ v : BitVec 8, v ||| k.mask ||| j.mask = v ||| j.mask ||| k.mask := fun v => by
    rw [BitVec.or_assoc, BitVec.or_comm k.mask, ← BitVec.or_assoc]
  simp only [PortAttn.raise, Fin.getElem_fin, Vector.getElem_set_self, Vector.set_set, hpending, shown_comm _ _ h]

/-- A notice and a fault record are kept apart (R119, R127). -/
theorem PortAttn.capture_raise (a : PortAttn) (c : Fin 8) (k : Kind) (kind : FaultKind) (t : Transfer) (w : BitVec 5) :
    (a.raise c k).capture kind t w = (a.capture kind t w).raise c k := by
  cases hr : a.record <;> simp only [PortAttn.capture, PortAttn.raise, hr]

section noticed
variable (x : Ctx) (c : Fin 8) (k : Kind) (b : Bool) (a : PerPort PortAttn)

theorem get_noticed (p : Port) : (noticed x c k b a).get p =
    if b = true ∧ routeNames (x.applied.route k) p = true then (a.get p).raise c k else a.get p := by
  cases b <;> cases p <;> simp [noticed, raiseRouted, PerPort.get]

theorem noticed_false : noticed x c k false a = a := rfl

/-- Two raises of one kind are one. -/
theorem noticed_same (d : Bool) : noticed x c k d (noticed x c k b a) = noticed x c k (d || b) a := by
  refine PerPort.eq_of_get fun p => ?_
  simp only [get_noticed]
  cases b <;> cases d <;> cases routeNames (x.applied.route k) p <;> simp [PortAttn.raise_same]

theorem noticed_comm {j : Kind} (h : k.mask &&& j.mask = 0) (d : Bool) :
    noticed x c j d (noticed x c k b a) = noticed x c k b (noticed x c j d a) := by
  refine PerPort.eq_of_get fun p => ?_
  simp only [get_noticed]
  split <;> split
  · exact PortAttn.raise_comm _ _ h
  · rfl
  · rfl
  · rfl

/-- An ERROR answer reaches the fault record whether a notice was raised before it or is raised after it (R127). -/
theorem noticed_capture (p : Port) (kind : FaultKind) (t : Transfer) (w : BitVec 5) :
    (noticed x c k b a).set p (((noticed x c k b a).get p).capture kind t w) =
      noticed x c k b (a.set p ((a.get p).capture kind t w)) := by
  refine PerPort.eq_of_get fun q => ?_
  simp only [get_noticed, PerPort.get_set]
  by_cases hp : p = q
  · subst hp
    rw [if_pos rfl, if_pos rfl]
    split
    · exact PortAttn.capture_raise _ _ _ _ _ _
    · rfl
  · rw [if_neg hp, if_neg hp]

end noticed

/-! ## The state of a withdrawal under way (R103) -/

/-- The ports of `f` and the port `p`. -/
def alsoPort (f : Port → Bool) (p : Port) : Port → Bool := fun q => f q || p == q

theorem alsoPort_of_mem {f : Port → Bool} {p : Port} (h : f p = true) : alsoPort f p = f := by
  funext q
  by_cases hp : p = q
  · subst hp
    simp [alsoPort, h]
  · simp [alsoPort, hp]

/-- A pair set at port `p`, where its parts are `v` at the ports of `f`. -/
theorem PerPort.set_each_also {α : Type} (f : Port → Bool) (x : Port → α) (v : Port → α) (p : Port) :
    (PerPort.each fun q => if f q then v q else x q).set p (v p) =
      PerPort.each fun q => if alsoPort f p q then v q else x q := by
  refine PerPort.eq_of_get fun q => ?_
  rw [PerPort.get_set, PerPort.get_each, PerPort.get_each]
  by_cases hp : p = q
  · subst hp
    simp [alsoPort]
  · simp [alsoPort, hp]

/-- The interface of a port that is answered ERROR WITHDRAWN, if it has a transfer in HELD (R164). -/
def Iface.withdrawn : Iface → Iface
  | .held t _ _ => .answering (.error .withdrawn t.errorWords)
  | i => i

/-- The attention state of a port with that answer in its fault record (R127). -/
def PortAttn.withdrawn (a : PortAttn) : Iface → PortAttn
  | .held t d _ => a.capture .withdrawn t d.windowIndex
  | _ => a

theorem Iface.withdrawn_ne_held (i : Iface) (t : Transfer) (d : Decode) (v : Option PathUnit) :
    i.withdrawn ≠ .held t d v := by
  cases i <;> exact nofun

theorem Iface.withdrawn_of_not_held {i : Iface} (h : ∀ t d v, i ≠ .held t d v) : i.withdrawn = i := by
  unfold Iface.withdrawn
  split
  · next t d v => exact absurd rfl (h t d v)
  · rfl

theorem PortAttn.withdrawn_of_not_held {a : PortAttn} {i : Iface} (h : ∀ t d v, i ≠ .held t d v) : a.withdrawn i = a := by
  unfold PortAttn.withdrawn
  split
  · next t d v => exact absurd rfl (h t d v)
  · rfl

theorem Live.answerError_not_held {l : Live} {p : Port} {k : FaultKind} (h : ∀ t d v, l.ifaces.get p ≠ .held t d v) :
    l.answerError p k = l := by
  unfold Live.answerError
  split
  · next t d v e => exact absurd e (h t d v)
  · rfl

/-- Context `c` under withdrawal: the ports of `ended` have their answers, those of `emptied` their buffers and those of
`freed` their latches EMPTY, and `n` pushes were counted in REJECTED (R45, R46, R71). -/
def Live.withdrawing (l : Live) (c : Fin 8) (ended emptied freed : Port → Bool) (n : Nat) : Live :=
  { l with
    ctxs := l.ctxs.set c { l.ctxs[c] with
      held := []
      rejected := l.ctxs[c].rejected + BitVec.ofNat 16 n
      gap := l.ctxs[c].gap || decide (0 < n) }
    assembly := .each fun q => if emptied q then .empty else l.assembly.get q
    latch := .each fun q => if freed q then .empty else l.latch.get q
    ifaces := .each fun q => if ended q then (l.ifaces.get q).withdrawn else l.ifaces.get q
    attn := noticed l.ctxs[c] c .reject (decide (0 < n))
      (noticed l.ctxs[c] c .wrap (decide (65535 < l.ctxs[c].rejected.toNat + n))
        (.each fun q => if ended q then (l.attn.get q).withdrawn (l.ifaces.get q) else l.attn.get q)) }

section withdrawing
variable (l : Live) (c : Fin 8) (ended emptied freed : Port → Bool) (n : Nat)

/-- Nothing has ended, and the held list is empty. -/
theorem Live.withdrawing_start :
    l.withdrawing c (fun _ => false) (fun _ => false) (fun _ => false) 0 = l.modCtx c fun x => { x with held := [] } := by
  have hlt : ¬65535 < l.ctxs[c].rejected.toNat + 0 := by have := l.ctxs[c].rejected.isLt; omega
  simp only [Live.withdrawing, Live.modCtx_eq, hlt, decide_false, noticed_false, lt_irrefl, Bool.or_false,
    Bool.false_eq_true, if_false, BitVec.add_zero]
  rfl

theorem Live.withdrawing_ctx : (l.withdrawing c ended emptied freed n).ctxs[c] = { l.ctxs[c] with
    held := []
    rejected := l.ctxs[c].rejected + BitVec.ofNat 16 n
    gap := l.ctxs[c].gap || decide (0 < n) } := by
  rw [Fin.getElem_fin]
  exact Vector.getElem_set_self _

theorem Live.withdrawing_setAssembly (p : Port) : (l.withdrawing c ended emptied freed n).setAssembly p .empty =
    l.withdrawing c ended (alsoPort emptied p) freed n :=
  congrArg (fun a => ({ l.withdrawing c ended emptied freed n with assembly := a } : Live))
    (PerPort.set_each_also emptied l.assembly.get (fun _ => .empty) p)

theorem Live.withdrawing_setLatch (p : Port) : (l.withdrawing c ended emptied freed n).setLatch p .empty =
    l.withdrawing c ended emptied (alsoPort freed p) n :=
  congrArg (fun a => ({ l.withdrawing c ended emptied freed n with latch := a } : Live))
    (PerPort.set_each_also freed l.latch.get (fun _ => .empty) p)

/-- One push more counted in REJECTED: WRAP is raised where the count has wrapped by then, REJECT once (R19, R45). -/
theorem Live.withdrawing_reject : (l.withdrawing c ended emptied freed n).reject c =
    l.withdrawing c ended emptied freed (n + 1) := by
  have hwrap : (wraps (l.ctxs[c].rejected + BitVec.ofNat 16 n) 1 || decide (65535 < l.ctxs[c].rejected.toNat + n)) =
      decide (65535 < l.ctxs[c].rejected.toNat + (n + 1)) := by
    have := l.ctxs[c].rejected.isLt
    rw [Bool.eq_iff_iff]
    simp only [wraps, Bool.or_eq_true, decide_eq_true_eq, BitVec.toNat_add, BitVec.toNat_ofNat]
    omega
  have hnotices : ∀ a, noticed l.ctxs[c] c .reject true (noticed l.ctxs[c] c .wrap
      (wraps (l.ctxs[c].rejected + BitVec.ofNat 16 n) 1) (noticed l.ctxs[c] c .reject (decide (0 < n))
        (noticed l.ctxs[c] c .wrap (decide (65535 < l.ctxs[c].rejected.toNat + n)) a))) =
      noticed l.ctxs[c] c .reject (decide (0 < n + 1))
        (noticed l.ctxs[c] c .wrap (decide (65535 < l.ctxs[c].rejected.toNat + (n + 1))) a) := fun a => by
    rw [noticed_comm (k := .reject) (j := .wrap) (h := by decide), noticed_same, noticed_same, hwrap]
    simp
  have hctx : (l.withdrawing c ended emptied freed n).ctxs[c].rejectedOne = { l.ctxs[c] with
      held := []
      rejected := l.ctxs[c].rejected + BitVec.ofNat 16 (n + 1)
      gap := l.ctxs[c].gap || decide (0 < n + 1) } := by
    rw [Live.withdrawing_ctx, Ctx.rejectedOne, BitVec.add_assoc, BitVec.ofNat_add]
    simp
  rw [Live.reject_eq, hctx, Live.withdrawing_ctx]
  simp only [Live.withdrawing, Vector.set_set]
  exact congrArg (fun a => ({ l.withdrawing c ended emptied freed (n + 1) with attn := a } : Live)) (hnotices _)

/-- The port `p` among those answered, as an update of the interfaces and the fault records. -/
theorem Live.withdrawing_also (p : Port) : l.withdrawing c (alsoPort ended p) emptied freed n =
    { l.withdrawing c ended emptied freed n with
      ifaces := (l.withdrawing c ended emptied freed n).ifaces.set p (l.ifaces.get p).withdrawn
      attn := noticed l.ctxs[c] c .reject (decide (0 < n))
        (noticed l.ctxs[c] c .wrap (decide (65535 < l.ctxs[c].rejected.toNat + n))
          ((PerPort.each fun q => if ended q then (l.attn.get q).withdrawn (l.ifaces.get q) else l.attn.get q).set p
            ((l.attn.get p).withdrawn (l.ifaces.get p)))) } := by
  have hifaces := PerPort.set_each_also ended l.ifaces.get (fun q => (l.ifaces.get q).withdrawn) p
  have hattn := PerPort.set_each_also ended l.attn.get (fun q => (l.attn.get q).withdrawn (l.ifaces.get q)) p
  simp only [Live.withdrawing, hifaces, hattn]

/-- The answer ERROR WITHDRAWN of a port, with its fault record; a port is answered once (R127, R164). -/
theorem Live.withdrawing_answer (p : Port) : (l.withdrawing c ended emptied freed n).answerError p .withdrawn =
    l.withdrawing c (alsoPort ended p) emptied freed n := by
  have hiface : (l.withdrawing c ended emptied freed n).ifaces.get p =
      if ended p then (l.ifaces.get p).withdrawn else l.ifaces.get p := PerPort.get_each _ p
  by_cases he : ended p = true
  · rw [alsoPort_of_mem he, Live.answerError_not_held]
    rw [hiface, if_pos he]
    exact Iface.withdrawn_ne_held _
  · rw [if_neg he] at hiface
    have hattn : (PerPort.each fun q => if ended q then (l.attn.get q).withdrawn (l.ifaces.get q) else l.attn.get q).get p =
        l.attn.get p := (PerPort.get_each _ p).trans (if_neg he)
    rw [Live.withdrawing_also]
    by_cases hheld : ∃ t d v, l.ifaces.get p = .held t d v
    · obtain ⟨t, d, v, hi⟩ := hheld
      rw [Live.answerError_held .withdrawn (hiface.trans hi), hi]
      simp only [Live.withdrawing, noticed_capture, hattn]
      rfl
    · have hnot : ∀ t d v, l.ifaces.get p ≠ .held t d v := fun t d v e => hheld ⟨t, d, v, e⟩
      rw [Live.answerError_not_held (hiface ▸ hnot), Iface.withdrawn_of_not_held hnot, PortAttn.withdrawn_of_not_held hnot,
        PerPort.set_of_get hiface, PerPort.set_of_get hattn]
      rfl

/-! ## The held items (R45, R71) -/

theorem Live.withdrawItem_commit (h : HeldCommit) :
    Live.withdrawItem c (l.withdrawing c ended emptied freed n) (.commit h) =
      l.withdrawing c (alsoPort ended h.port) (alsoPort emptied h.port) freed (n + 1) := by
  rw [Live.withdrawItem, Live.withdrawing_answer, Live.withdrawing_reject, Live.withdrawing_setAssembly]

theorem Live.withdrawItem_pop (h : HeldPop) :
    Live.withdrawItem c (l.withdrawing c ended emptied freed n) (.pop h) =
      l.withdrawing c (alsoPort ended h.port) emptied (alsoPort freed h.port) n := by
  rw [Live.withdrawItem, Live.withdrawing_answer, Live.withdrawing_setLatch]

end withdrawing

/-- A held list has a commit of port `q`. -/
def commitOfPort (items : List HeldItem) (q : Port) : Bool := (heldCommits items).any fun h => h.port == q

/-- A held list has a pop of port `q`. -/
def popOfPort (items : List HeldItem) (q : Port) : Bool := (heldPops items).any fun h => h.port == q

/-- Every item of the list has ended: its port is answered, a commit's buffer and a pop's latch EMPTY, the commits counted
(R45, R71). -/
theorem Live.withdrawItems (l : Live) (c : Fin 8) (items : List HeldItem) (emptied freed : Port → Bool) (n : Nat) :
    items.foldl (Live.withdrawItem c) (l.withdrawing c (fun q => emptied q || freed q) emptied freed n) =
      l.withdrawing c (fun q => (emptied q || commitOfPort items q) || (freed q || popOfPort items q))
        (fun q => emptied q || commitOfPort items q) (fun q => freed q || popOfPort items q)
        (n + (heldCommits items).length) := by
  induction items generalizing emptied freed n with
  | nil => simp [commitOfPort, popOfPort, heldCommits, heldPops]
  | cons i rest ih =>
    cases i with
    | commit h =>
      have hended : alsoPort (fun q => emptied q || freed q) h.port = fun q => alsoPort emptied h.port q || freed q := by
        funext q
        exact Bool.or_right_comm ..
      rw [List.foldl_cons, Live.withdrawItem_commit, hended, ih]
      simp only [alsoPort, commitOfPort, popOfPort, heldCommits, heldPops, List.any_cons, List.length_cons, Bool.or_assoc,
        Nat.add_assoc, Nat.add_comm 1]
    | pop h =>
      have hended : alsoPort (fun q => emptied q || freed q) h.port = fun q => emptied q || alsoPort freed h.port q := by
        funext q
        exact Bool.or_assoc ..
      rw [List.foldl_cons, Live.withdrawItem_pop, hended, ih]
      simp only [alsoPort, commitOfPort, popOfPort, heldCommits, heldPops, List.any_cons, Bool.or_assoc]

/-! ## The assemblies and the latches (R46, R71, R72) -/

/-- The buffer is OPEN on context `c`. -/
def Assembly.openOn (c : Fin 8) : Assembly → Bool
  | .opened d _ _ => d == c
  | _ => false

theorem Assembly.openOn_iff {x : Assembly} {c : Fin 8} :
    x.openOn c = true ↔ ∃ words idle, x = .opened c words idle := by
  cases x <;> simp [Assembly.openOn]

/-- The latch is HOLDING an entry of context `c`. -/
def Latch.holdsOf (c : Fin 8) : Latch → Bool
  | .holding d _ _ _ => d == c
  | _ => false

/-- The latch after the withdrawal of context `c` (R71, R72). -/
def Latch.withdrawn (c : Fin 8) : Latch → Latch
  | .holding d header payload remaining => if d = c then .empty else .holding d header payload remaining
  | .filling d slot burst withdrawn => .filling d slot burst (withdrawn || d == c)
  | latch => latch

/-- The OPEN assembly of a port on the context ends, if its buffer has not (R46). -/
theorem Live.withdrawing_assembly (l : Live) (c : Fin 8) (ended emptied freed : Port → Bool) (n : Nat) (p : Port)
    {b : Bool} (hb : (!emptied p && (l.assembly.get p).openOn c) = b) :
    (l.withdrawing c ended emptied freed n).withdrawAssembly c p =
      l.withdrawing c ended (fun q => emptied q || (p == q && b)) freed (n + if b then 1 else 0) := by
  have hget : (l.withdrawing c ended emptied freed n).assembly.get p =
      if emptied p then .empty else l.assembly.get p := PerPort.get_each _ p
  cases b with
  | true =>
    obtain ⟨he, ho⟩ := Bool.and_eq_true_iff.1 hb
    obtain ⟨words, idle, ha⟩ := Assembly.openOn_iff.1 ho
    rw [if_neg (by simpa using he), ha] at hget
    have hend : (l.withdrawing c ended emptied freed n).withdrawAssembly c p =
        ((l.withdrawing c ended emptied freed n).reject c).setAssembly p .empty := by
      simp only [Live.withdrawAssembly, hget, if_true]
    rw [hend, Live.withdrawing_reject, Live.withdrawing_setAssembly]
    simp only [Bool.and_true]
    rfl
  | false =>
    have hend : (l.withdrawing c ended emptied freed n).withdrawAssembly c p = l.withdrawing c ended emptied freed n := by
      unfold Live.withdrawAssembly
      split
      · next d words idle e =>
        refine if_neg fun hd => ?_
        rw [hget] at e
        split at e
        · cases e
        · next he => simp [he, Assembly.openOn_iff.2 ⟨words, idle, hd ▸ e⟩] at hb
      · rfl
    rw [hend]
    simp

theorem Live.withdrawLatch_eq (l : Live) (c : Fin 8) (p : Port) : l.withdrawLatch c p = { l with
    latch := l.latch.set p ((l.latch.get p).withdrawn c)
    attn := noticed l.ctxs[c] c .cut ((l.latch.get p).holdsOf c) l.attn } := by
  have hkeep : ∀ latch, l.latch.get p = latch → l = { l with
      latch := l.latch.set p latch, attn := noticed l.ctxs[c] c .cut false l.attn } := fun latch h => by
    rw [PerPort.set_of_get h]
    rfl
  unfold Live.withdrawLatch
  cases hl : l.latch.get p with
  | empty => exact hkeep _ hl
  | waiting d => exact hkeep _ hl
  | holding d header payload remaining =>
    by_cases hd : d = c
    · subst hd
      simp only [Latch.withdrawn, Latch.holdsOf, if_true, beq_self_eq_true]
      rfl
    · simp only [Latch.withdrawn, Latch.holdsOf, if_neg hd, beq_eq_false_iff_ne.2 hd]
      exact hkeep _ hl
  | filling d slot burst withdrawn =>
    by_cases hd : d = c
    · subst hd
      simp only [Latch.withdrawn, if_true, beq_self_eq_true, Bool.or_true]
      rfl
    · simp only [Latch.withdrawn, if_neg hd, beq_eq_false_iff_ne.2 hd, Bool.or_false]
      exact hkeep _ hl

/-- Both latches after the withdrawal of context `c`: CUT is raised where one was HOLDING an entry of it (R71, R72). -/
theorem Live.withdrawLatches_eq (l : Live) (c : Fin 8) : (l.withdrawLatch c .A).withdrawLatch c .B = { l with
    latch := .each fun q => (l.latch.get q).withdrawn c
    attn := noticed l.ctxs[c] c .cut ((l.latch.get .A).holdsOf c || (l.latch.get .B).holdsOf c) l.attn } := by
  rw [Live.withdrawLatch_eq, Live.withdrawLatch_eq]
  dsimp only
  rw [noticed_same, Bool.or_comm]
  rfl

/-- The withdrawal of a context, whole: held items, assemblies and latches in their turn (R103). -/
theorem Live.withdraw_eq (l : Live) (c : Fin 8) {commit pop opened : Port → Bool} {n : Nat} {m : Live}
    (hcommit : commit = commitOfPort l.ctxs[c].held) (hpop : pop = popOfPort l.ctxs[c].held)
    (hopened : ∀ q, (!commit q && (l.assembly.get q).openOn c) = opened q)
    (hn : n = (heldCommits l.ctxs[c].held).length + (if opened .A then 1 else 0) + (if opened .B then 1 else 0))
    (hm : m = l.withdrawing c (fun q => commit q || pop q) (fun q => commit q || opened q) pop n) :
    l.withdraw c = { m with
      latch := .each fun q => (m.latch.get q).withdrawn c
      attn := noticed m.ctxs[c] c .cut ((m.latch.get .A).holdsOf c || (m.latch.get .B).holdsOf c) m.attn } := by
  have hitems : l.ctxs[c].held.foldl (Live.withdrawItem c) (l.modCtx c fun x => { x with held := [] }) =
      l.withdrawing c (fun q => commit q || pop q) commit pop (heldCommits l.ctxs[c].held).length := by
    have hall := l.withdrawItems c l.ctxs[c].held (fun _ => false) (fun _ => false) 0
    simp only [Bool.false_or, Nat.zero_add, ← hcommit, ← hpop] at hall
    rw [← Live.withdrawing_start]
    exact hall
  have hne : (Port.A == Port.B) = false := by decide
  have hemptied : (fun q => (commit q || (Port.A == q && opened .A)) || (Port.B == q && opened .B)) =
      fun q => commit q || opened q := by
    funext q
    cases q <;> simp [hne]
  have hassemblies : ((l.withdrawing c (fun q => commit q || pop q) commit pop
      (heldCommits l.ctxs[c].held).length).withdrawAssembly c .A).withdrawAssembly c .B = m := by
    rw [Live.withdrawing_assembly (hb := hopened .A), Live.withdrawing_assembly (b := opened .B), hemptied, hm, hn]
    simp [← hopened .B, hne]
  unfold Live.withdraw
  dsimp only
  rw [hitems, hassemblies, Live.withdrawLatches_eq]

/-- Settles O51, by what the order of the ends leaves: the interface, buffer, latch and notices of each port. -/
theorem withdrawalEndsTheContextsOperations : Obligations.WithdrawalEndsTheContextsOperations := by
  intro l c x commit pop opened cut n answered
  have hopened : ∀ q, (!commit q && (l.assembly.get q).openOn c) = opened q := fun q => by
    cases ha : l.assembly.get q <;> simp only [opened, ha, Assembly.openOn]
  have hcut : ∀ q, (if pop q then Latch.empty else l.latch.get q).holdsOf c = cut q := fun q => by
    cases hp : pop q <;> cases hl : l.latch.get q <;> simp [cut, hp, hl, Latch.holdsOf]
  have hlatch : ∀ q, (if pop q then Latch.empty else l.latch.get q).withdrawn c =
      if pop q || cut q then .empty else match l.latch.get q with
        | .filling d slot burst withdrawn => .filling d slot burst (withdrawn || d == c)
        | latch => latch := fun q => by
    cases hp : pop q <;> cases hl : l.latch.get q <;> simp [cut, hp, hl, Latch.withdrawn]
  have hiface : ∀ q, (if commit q || pop q then (l.ifaces.get q).withdrawn else l.ifaces.get q) =
      match l.ifaces.get q with
        | .held t d v => if commit q || pop q then .answering (.error .withdrawn t.errorWords) else .held t d v
        | iface => iface := fun q => by
    cases hi : l.ifaces.get q <;> simp [Iface.withdrawn]
  have hanswered : (PerPort.each fun q => if commit q || pop q then (l.attn.get q).withdrawn (l.ifaces.get q)
      else l.attn.get q) = answered := congrArg PerPort.each <| funext fun q => by
    cases hi : l.ifaces.get q <;> simp [PortAttn.withdrawn]
  have hnotices : ∀ (y : Ctx) (a : PerPort PortAttn), y.applied = x.applied →
      noticed y c .cut ((if pop .A then Latch.empty else l.latch.get .A).holdsOf c ||
        (if pop .B then Latch.empty else l.latch.get .B).holdsOf c) a = noticed x c .cut (cut .A || cut .B) a :=
    fun y a hy => by rw [hcut, hcut, noticed_congr c hy]
  rw [l.withdraw_eq c rfl rfl hopened rfl rfl, Live.mk.injEq]
  refine ⟨rfl, rfl, congrArg PerPort.each (funext fun q => ?_), rfl, rfl, congrArg PerPort.each (funext hiface), ?_⟩
  · exact (congrArg (Latch.withdrawn c) (PerPort.get_each _ q)).trans (hlatch q)
  · rw [Live.withdrawing_ctx, ← hanswered]
    exact hnotices _ _ rfl

end Sys2Proof.Machine
end

section
/-! PROOFS. POP at a context with nothing ready, by its empty action (R63-R65), and POP while the latch holds an entry
(R56, R57). -/

namespace Sys2Proof.Machine

theorem Record.emptyAction_of_fill {r : Record} (h : r.emptyCode = 0) : r.emptyAction = .fill := by
  simp only [Record.emptyAction, h]

theorem Record.emptyAction_of_error {r : Record} (h : r.emptyCode = 1) : r.emptyAction = .error := by
  simp only [Record.emptyAction, h]

/-! ## A pop taken with nothing ready (R63, R64, R65) -/

section takePop
variable {l : Live} {c : Fin 8} {k : HeldPop} {t : Transfer} {d : Decode} {v : Option PathUnit}

theorem Live.takePop_fill (hr : l.ctxs[c].ready = 0) (he : l.ctxs[c].applied.emptyCode = 0)
    (hi : l.ifaces.get k.port = .held t d v) : l.takePop c k = { l.removeHeld c k.port with
      ifaces := l.ifaces.set k.port (.answering (.okRead (List.replicate k.burst.words l.ctxs[c].applied.fillWord)))
      latch := l.latch.set k.port .empty } := by
  rw [Live.takePop, if_pos hr, Live.takeEmpty, Record.emptyAction_of_fill he]
  exact congrArg (fun m : Live => m.setLatch k.port .empty) (Live.answerOk_held (l := l.removeHeld c k.port) _ hi)

theorem Live.takePop_error (hr : l.ctxs[c].ready = 0) (he : l.ctxs[c].applied.emptyCode = 1)
    (hi : l.ifaces.get k.port = .held t d v) : l.takePop c k = { l.removeHeld c k.port with
      ifaces := l.ifaces.set k.port (.answering (.error .empty t.errorWords))
      attn := l.attn.set k.port ((l.attn.get k.port).capture .empty t d.windowIndex)
      latch := l.latch.set k.port .empty } := by
  rw [Live.takePop, if_pos hr, Live.takeEmpty, Record.emptyAction_of_error he]
  exact congrArg (fun m : Live => m.setLatch k.port .empty) (Live.answerError_held (l := l.removeHeld c k.port) _ hi)

theorem Live.takePop_wait (hr : l.ctxs[c].ready = 0) (he : l.ctxs[c].applied.emptyCode = 2) :
    l.takePop c k = { l.holdItem c (.pop { k with stall := some (k.stall.getD l.ctxs[c].applied.stallLimit) }) with
      latch := l.latch.set k.port (.waiting c) } := by
  rw [Live.takePop, if_pos hr, Live.takeEmpty, (Record.emptyAction_eq_wait _).2 he]
  rfl

/-- The one item held, held again with the same port, keeps its place and takes the new count (R65). -/
theorem Live.holdItem_alone {i j : HeldItem} (hh : l.ctxs[c].held = [j]) (hp : j.port = i.port) :
    (l.holdItem c i).ctxs[c].held = [i] := by
  rw [Fin.getElem_fin] at hh ⊢
  rw [Live.holdItem, Live.modCtx_ctxs_self]
  simp [Ctx.holds, hh, hp]

end takePop

/-! ## A pop that arrives with nothing ready (R55, R57, R63-R65) -/

section arrive
variable {s : State} {p : Port} {t : Transfer} {w : Fin 16} {c : Fin 8} {cut : PerPort PortAttn}

/-- Under FILL, also where a latch HOLDING another entry was cut (R57, R63). -/
theorem State.ToRing.exec_pop_fill (h : s.ToRing p t w .pop) (hc : c = s.windows[w].applied.winCtx)
    (hlatch : (s.latch.get p = .empty ∧ cut = s.attn) ∨ ∃ d h payload r, d ≠ c ∧
      s.latch.get p = .holding d h payload r ∧ cut = noticed s.ctxs[d] d .cut true s.attn)
    (ht : s.popTaken p c) (hr : s.ctxs[c].ready = 0) (he : s.ctxs[c].applied.emptyCode = 0) :
    exec (.pop p) s = .next (closeEvent s { s with
      ifaces := s.ifaces.set p (.answering (.okRead (List.replicate t.burst.words s.ctxs[c].applied.fillWord)))
      attn := cut
      latch := s.latch.set p .empty }) := by
  obtain ⟨latch, hset, harrive⟩ := h.exec_pop_arrive hc hlatch
  have hn : (s.popping p t w c latch cut).ctxs[c].holds (HeldPop.mk p t.burst none).port = false := ht.2.1
  have htake := (Live.arrivePop_taken (s.popping p t w c latch cut) s.tick c ⟨p, t.burst, none⟩ ht).trans
    (Live.takePop_fill hr he (PerPort.get_set_self ..))
  rw [Live.removeHeld_of_not_holds _ _ hn] at htake
  refine (harrive _ htake).trans (closed_congr ?_)
  simp only [State.popping, hset, PerPort.set_set]

/-- Under ERROR (R64). -/
theorem State.ToRing.exec_pop_error (h : s.ToRing p t w .pop) (hc : c = s.windows[w].applied.winCtx)
    (hl : s.latch.get p = .empty) (ht : s.popTaken p c) (hr : s.ctxs[c].ready = 0)
    (he : s.ctxs[c].applied.emptyCode = 1) :
    exec (.pop p) s = .next (closeEvent s { s.erred p .empty t (BitVec.ofNat 5 w.val) with
      latch := s.latch.set p .empty }) := by
  obtain ⟨latch, hset, harrive⟩ := h.exec_pop_arrive (cut := s.attn) hc (.inl ⟨hl, rfl⟩)
  have hn : (s.popping p t w c latch s.attn).ctxs[c].holds (HeldPop.mk p t.burst none).port = false := ht.2.1
  have htake := (Live.arrivePop_taken (s.popping p t w c latch s.attn) s.tick c ⟨p, t.burst, none⟩ ht).trans
    (Live.takePop_error hr he (PerPort.get_set_self ..))
  rw [Live.removeHeld_of_not_holds _ _ hn] at htake
  refine (harrive _ htake).trans (closed_congr ?_)
  simp only [State.popping, State.erred, hset, PerPort.set_set]
  rfl

/-- Under WAIT (R65). -/
theorem State.ToRing.exec_pop_wait (h : s.ToRing p t w .pop) (hc : c = s.windows[w].applied.winCtx)
    (hl : s.latch.get p = .empty) (ht : s.popTaken p c) (hr : s.ctxs[c].ready = 0)
    (he : s.ctxs[c].applied.emptyCode = 2) :
    exec (.pop p) s = .next (closeEvent s { s with
      ifaces := s.ifaces.set p (.held t (.ring w c .pop) none)
      latch := s.latch.set p (.waiting c)
      ctxs := s.ctxs.set c { s.ctxs[c] with
        held := s.ctxs[c].held ++ [.pop ⟨p, t.burst, some s.ctxs[c].applied.stallLimit⟩] } }) := by
  obtain ⟨latch, hset, harrive⟩ := h.exec_pop_arrive (cut := s.attn) hc (.inl ⟨hl, rfl⟩)
  have htake := (Live.arrivePop_taken (s.popping p t w c latch s.attn) s.tick c ⟨p, t.burst, none⟩ ht).trans
    (Live.takePop_wait hr he)
  rw [Live.holdItem_of_not_holds _ _ _ ht.2.1] at htake
  refine (harrive _ htake).trans (closed_congr ?_)
  simp only [State.popping, hset]
  rfl

end arrive

/-- Settles O28: the answer moves no context and raises nothing, so the close leaves it as it stands. -/
theorem emptyPopUnderFill : Obligations.EmptyPopUnderFill := by
  refine ⟨fun s p t w c h hj hc hl ht hr he => ?_, fun l c k t d v hr he hi => Live.takePop_fill hr he hi⟩
  exact (h.exec_pop_fill hc (.inl ⟨hl, rfl⟩) ht hr he).trans
    (congrArg Host.Outcome.next (closeEvent_quiet hj rfl rfl rfl rfl rfl))

/-- Settles O29: the answer moves no context, so the close reports the fault record alone. -/
theorem emptyPopUnderError : Obligations.EmptyPopUnderError := by
  refine ⟨fun s p t w c h hj hc hl ht hr he => ?_, fun l c k t d v hr he hi => Live.takePop_error hr he hi⟩
  exact (h.exec_pop_error hc hl ht hr he).trans (congrArg Host.Outcome.next (closeEvent_reported hj rfl rfl))

/-- Settles O30: a pop that has a count is held again with the count it has. -/
theorem emptyPopUnderWait : Obligations.EmptyPopUnderWait := by
  refine ⟨fun s p t w c h hc hl ht hr he => h.exec_pop_wait hc hl ht hr he, fun l c k n hr he hh hn => ?_⟩
  have hkeep : ({ k with stall := some (k.stall.getD l.ctxs[c].applied.stallLimit) } : HeldPop) = k := by
    rw [hn, Option.getD_some, ← hn]
  rw [Live.takePop_wait hr he, hkeep]
  exact ⟨Live.holdItem_alone hh rfl, rfl⟩

/-! ## The latch holds an entry of the context (R56) -/

/-- A burst of `k` words served from the `r` words that the latch has left: what there is of them, then fill words
(R56). -/
theorem fillTo_latchWords (k : Nat) (h : Word) {payload : List Word} {r : Nat} (fill : Word)
    (hr : r ≤ payload.length) : fillTo k (latchWords h payload r) fill =
      ((h :: payload).drop (payload.length + 1 - r)).take (min k r) ++ List.replicate (k - r) fill := by
  have hlen : (latchWords h payload r).length = r := by
    simp only [latchWords, List.length_drop, List.length_cons]
    omega
  rw [fillTo, hlen, ← List.take_take, ← latchWords, List.take_of_length_le (Nat.le_of_eq hlen)]

/-- A POP of the context whose entry the latch holds, with `r` words left of it (R56). -/
theorem Live.popRead_holding {l : Live} {p : Port} {c : Fin 8} {h : Word} {payload : List Word} {r : Nat} {t : Transfer}
    {d : Decode} {v : Option PathUnit} (now : BitVec 16) (burst : Burst)
    (hl : l.latch.get p = .holding c h payload r) (hi : l.ifaces.get p = .held t d v) (hr : r ≤ payload.length) :
    l.popRead now p c burst = { l with
      ifaces := l.ifaces.set p (.answering (.okRead
        (((h :: payload).drop (payload.length + 1 - r)).take (min burst.words r) ++
          List.replicate (burst.words - r) l.ctxs[c].applied.fillWord)))
      latch := l.latch.set p (if r - min burst.words r = 0 then .empty
        else .holding c h payload (r - min burst.words r)) } := by
  have hleft : (if r ≤ burst.words then Latch.empty else .holding c h payload (r - burst.words)) =
      if r - min burst.words r = 0 then .empty else .holding c h payload (r - min burst.words r) := by
    by_cases hk : r ≤ burst.words
    · rw [if_pos hk, if_pos (by omega)]
    · rw [if_neg hk, if_neg (by omega), Nat.min_eq_left (Nat.le_of_not_le hk)]
  rw [Live.popRead, hl]
  dsimp only
  rw [if_pos rfl, Live.serveLatch, Live.answerOk_held _ hi, fillTo_latchWords _ _ _ hr, hleft]
  rfl

/-- Settles O31: the latch's own context is served from it, by the law of what it holds; at another context the latch is
cut, the read answered with fill words, and the close reports the CUT. -/
theorem popFromAHoldingLatch : Obligations.PopFromAHoldingLatch := by
  constructor
  · intro s p t w c x payload r h hj hlaw hc hl k
    subst hc
    obtain ⟨_, hr, _⟩ := hlaw p _ x payload r hl
    refine h.exec_pop.trans (congrArg Host.Outcome.next ?_)
    have hserved := Live.popRead_holding (l := s.setIface p (.held t (.ring w s.windows[w].applied.winCtx .pop) none))
      s.tick t.burst hl (PerPort.get_set_self ..) hr
    rw [Live.setIface_ifaces, PerPort.set_set] at hserved
    rw [State.onLive, hserved]
    exact closeEvent_quiet hj rfl rfl rfl rfl rfl
  · intro s p t w c d x payload r h hj hc hd hl ht hr he
    exact (h.exec_pop_fill hc (.inr ⟨d, x, payload, r, hd, hl, rfl⟩) ht hr he).trans
      (congrArg Host.Outcome.next (closeEvent_reported hj rfl rfl))

end Sys2Proof.Machine
end

section
/-! PROOFS. PEEK and STATE (R51-R53, R73). -/

namespace Sys2Proof.Machine

/-! ## The queue state word (R51, section 8.7) -/

theorem stateWord_fields (ready free latchWords assemblyWords : Nat) (m : Watermark) :
    let v := stateWord ready free latchWords m assemblyWords
    bits v 0 12 = ready % 2 ^ 12 ∧ bits v 12 12 = free % 2 ^ 12 ∧ bits v 24 3 = latchWords % 2 ^ 3 ∧
      bits v 27 2 = m.code % 2 ^ 2 ∧ bits v 29 3 = assemblyWords % 2 ^ 3 := by
  refine ⟨?_, ?_, ?_, ?_, ?_⟩ <;> refine bits_eq_mod _ _ _ _ fun i hi => ?_ <;>
    simp (disch := omega) only [stateWord, BitVec.getLsbD_or, getLsbD_field_outside, getLsbD_field_inside,
      Bool.false_or, Bool.or_false, Nat.add_sub_cancel_left]

theorem Watermark.code_mod (m : Watermark) : m.code % 2 ^ 2 = m.code := by
  cases m <;> rfl

theorem Latch.wordsLeft_other {latch : Latch} {c : Fin 8} (h : ∀ x payload r, latch ≠ .holding c x payload r) :
    latch.wordsLeft c = 0 := by
  cases latch with
  | holding d x payload r => exact if_neg fun (hd : d = c) => h x payload r (hd ▸ rfl)
  | empty => rfl
  | filling d slot burst withdrawn => rfl
  | waiting d => rfl

theorem Assembly.wordsFor_other {x : Assembly} {c : Fin 8} (h : ∀ words idle, x ≠ .opened c words idle) :
    x.wordsFor c = [] := by
  cases x with
  | opened d words idle => exact if_neg fun (hd : d = c) => h words idle (hd ▸ rfl)
  | empty => rfl
  | committing d length level words reserved => rfl

/-- Settles O33: the answer is the queue state word, read field by field. -/
theorem stateReadAnswersTheQueueWord : Obligations.StateReadAnswersTheQueueWord := by
  intro s p t w c h hj hc x
  subst hc
  obtain ⟨hready, hfree, hlatch, hmark, hassembly⟩ := stateWord_fields x.ready (x.capacity - x.occupied)
    ((s.latch.get p).wordsLeft s.windows[w].applied.winCtx)
    ((s.assembly.get p).wordsFor s.windows[w].applied.winCtx).length x.watermark
  refine ⟨s.queueState p s.windows[w].applied.winCtx, ?_, hready, hfree, fun y payload r e => ?_, fun hn => ?_, ?_,
    fun words idle e => ?_, fun hn => ?_⟩
  · refine h.exec_state.trans (congrArg Host.Outcome.next ?_)
    rw [State.onLive, Live.answerOk_held _ (PerPort.get_set_self ..), Live.setIface, Live.setIface, PerPort.set_set]
    exact closeEvent_quiet hj rfl rfl rfl rfl rfl
  · refine hlatch.trans ?_
    rw [e]
    exact congrArg (· % 2 ^ 3) (if_pos rfl)
  · refine hlatch.trans ?_
    rw [Latch.wordsLeft_other hn]
    rfl
  · refine (hmark.trans (Watermark.code_mod _)).trans ?_
    cases x.watermark <;> rfl
  · refine hassembly.trans ?_
    rw [e, Assembly.wordsFor, if_pos rfl]
    rfl
  · refine hassembly.trans ?_
    rw [Assembly.wordsFor_other hn]
    rfl

end Sys2Proof.Machine
end

section
/-! PROOFS. PEEK (R52, R53, R73): decided at its context, and the completion of its read. -/

namespace Sys2Proof.Machine

/-! ## PEEK at the context of its window (R52) -/

section peek
variable {s : State} {p : Port} {t : Transfer} {w : Fin 16} {c : Fin 8}

/-- With nothing ready the transfer handed on is answered with the fill word. -/
theorem State.takePeek_empty (d : Decode) (hr : s.ctxs[c].ready = 0) : (s.handOn p t d).takePeek p t d c =
    { s with ifaces := s.ifaces.set p (.answering (.okRead [s.ctxs[c].applied.fillWord])) } := by
  refine (if_pos hr).trans ?_
  rw [State.onLive, Live.answerOk_held _ (PerPort.get_set_self ..), Live.setIface, State.handOn, State.onLive_toLive,
    Live.setIface_ifaces, PerPort.set_set]
  rfl

theorem State.handedDown_handOn (d e : Decode) (u : PathUnit) :
    (s.handOn p t e).handedDown p t d u = s.handedDown p t d u := by
  unfold State.handedDown
  rw [State.handOn, State.onLive_paths]
  split <;> simp only [State.onLive, Live.setIface, PerPort.set_set]

/-- With an entry ready its one-word read goes down the path. -/
theorem State.takePeek_ready (d : Decode) (hr : s.ctxs[c].ready ≠ 0) : (s.handOn p t d).takePeek p t d c =
    s.handedDown p t d (peekUnit s.ctxs[c]) := by
  refine (if_neg hr).trans ?_
  rw [State.handDown_eq, State.handedDown_handOn]
  rfl

theorem State.ToRing.exec_peek_empty (h : s.ToRing p t w .peek) (hj : s.JobsPlaced)
    (hc : c = s.windows[w].applied.winCtx) (hr : s.ctxs[c].ready = 0) :
    exec (.peek p) s = .next { s with
      ifaces := s.ifaces.set p (.answering (.okRead [s.ctxs[c].applied.fillWord])) } := by
  subst hc
  rw [h.exec_peek, State.takePeek_empty _ hr]
  exact congrArg Host.Outcome.next (closeEvent_quiet hj rfl rfl rfl rfl rfl)

theorem State.ToRing.exec_peek_ready (h : s.ToRing p t w .peek) (hj : s.JobsPlaced)
    (hc : c = s.windows[w].applied.winCtx) (hr : s.ctxs[c].ready ≠ 0) :
    exec (.peek p) s = .next (s.handedDown p t (.ring w c .peek) (peekUnit s.ctxs[c])) := by
  subst hc
  rw [h.exec_peek, State.takePeek_ready _ hr, closeEvent_handedDown hj]

end peek

/-! ## The completion of the read (R53, R73) -/

section completion
variable {s : State} {p : Port} {u : PathUnit} {t : Transfer} {d : Decode}

/-- The words of a PEEK whose header passes: the header, damaged 0 (R52). -/
theorem Memory.peekWords (m : Memory) (a : Nat) :
    ((m.readBurst a [allEnabled]).map fun w => withDamaged w false) = [m.readWord a allEnabled &&& 0xBFFFFFFF] := by
  have hkeep : ∀ h : Word, withDamaged h false = h &&& 0xBFFFFFFF := fun h => by
    rw [← Bool.not_true, withDamaged_eq, if_pos rfl]
    exact BitVec.or_zero
  rw [Memory.readBurst, Memory.readBurst, List.map_singleton, hkeep]

/-- The completion of a PEEK unit, wanted or not (R53). -/
theorem State.PortUnit.exec_peekRead (h : s.PortUnit p u) (hu : u.work = .peek) :
    exec .peekReadCompletion s = .next (closeEvent s (s.completeUnit p u fun l =>
      if s.mem.burstGood u.address u.enables then
        l.answerOk p (.okRead ((s.mem.readBurst u.address u.enables).map fun w => withDamaged w false))
      else l.answerError p .parity)) := by
  have hposs : s.unitIs (fun w => w == .peek) = true := h.unitIs (by rw [hu]; rfl)
  rw [exec_peekReadCompletion, execPeekReadCompletion, event_possible hposs h.running]
  simp only [h.currentUnit]

theorem PathUnit.writes_peek (hu : u.work = .peek) (m : Memory) : u.writes m = [] := by
  rw [PathUnit.writes, hu]

theorem Memory.burstGood_word (m : Memory) (a : Nat) : m.burstGood a [allEnabled] = m.wordGood a allEnabled :=
  Bool.and_true _

theorem State.WantedUnit.exec_peekRead_good {a : Nat} (h : s.WantedUnit p ⟨.peek, a, [allEnabled], [], true⟩ t d)
    (hj : s.JobsPlaced) (hg : s.mem.wordGood a allEnabled = true) :
    exec .peekReadCompletion s = .next { s.pathFreed p with
      ifaces := s.ifaces.set p (.answering (.okRead [s.mem.readWord a allEnabled &&& 0xBFFFFFFF])) } := by
  refine (h.exec_peekRead rfl).trans (congrArg Host.Outcome.next ?_)
  simp only [Memory.burstGood_word, hg, if_true]
  rw [h.completeUnit, h.answerOk, PathUnit.writes_peek rfl, Memory.peekWords]
  exact closeEvent_quiet hj rfl rfl rfl rfl rfl

theorem State.WantedUnit.exec_peekRead_bad {a : Nat} (h : s.WantedUnit p ⟨.peek, a, [allEnabled], [], true⟩ t d)
    (hj : s.JobsPlaced) (hb : s.mem.wordGood a allEnabled = false) :
    exec .peekReadCompletion s = .next (s.reported ((s.pathFreed p).erred p .parity t d.windowIndex)) := by
  refine (h.exec_peekRead rfl).trans (congrArg Host.Outcome.next ?_)
  simp only [Memory.burstGood_word, hb, Bool.false_eq_true, if_false]
  rw [h.completeUnit, h.answerError, PathUnit.writes_peek rfl]
  exact closeEvent_reported hj rfl rfl

theorem State.PortUnit.exec_peekRead_dropped (h : s.PortUnit p u) (hj : s.JobsPlaced) (hw : u.wanted = false)
    (hu : u.work = .peek) : exec .peekReadCompletion s = .next (s.endsUnanswered p s.mem) := by
  refine (h.exec_peekRead hu).trans (congrArg Host.Outcome.next ?_)
  rw [h.completeUnit_dropped hw, PathUnit.writes_peek hu]
  exact closeEvent_endsUnanswered hj s.mem

end completion

/-- Settles O32, by where the PEEK is decided and by how its read ends. -/
theorem peekReadsTheNextHeader : Obligations.PeekReadsTheNextHeader :=
  ⟨fun _ _ _ _ _ h hj hc => ⟨h.exec_peek_empty hj hc, h.exec_peek_ready hj hc⟩,
    fun _ _ _ _ _ h hj => ⟨h.exec_peekRead_good hj, h.exec_peekRead_bad hj⟩,
    fun _ _ _ h hj hw hu => h.exec_peekRead_dropped hj hw hu⟩

end Sys2Proof.Machine
end

section
/-! PROOFS. What each operation on the queues does to the delivery latches (R54): all of them leave a latch as it is, or
leave it not HOLDING, but the service of a pop from its latch and the end of a copy, which keep words of one entry. -/

namespace Sys2Proof.Machine

/-- What a HOLDING latch holds (R54): some payload words of one entry, and never its header. -/
def Latch.Formed : Latch → Prop
  | .holding _ _ payload remaining => 0 < remaining ∧ remaining ≤ payload.length ∧ payload.length ≤ 7
  | .empty => True
  | .filling _ _ _ _ => True
  | .waiting _ => True

def Live.LatchesFormed (l : Live) : Prop := ∀ p : Port, (l.latch.get p).Formed

theorem State.latchLaw_iff (s : State) : s.LatchLaw ↔ s.LatchesFormed := by
  refine forall_congr' fun p => ⟨fun h => ?_, fun h c x payload r e => by rwa [e] at h⟩
  cases hl : s.latch.get p with
  | holding c x payload r => exact h c x payload r hl
  | empty => trivial
  | filling c slot burst withdrawn => trivial
  | waiting c => trivial

theorem Live.LatchesFormed.of_latch {l m : Live} (h : l.LatchesFormed) (e : m.latch = l.latch) : m.LatchesFormed :=
  fun p => by
    rw [e]
    exact h p

theorem Live.LatchesFormed.setLatch {l : Live} (h : l.LatchesFormed) (p : Port) {x : Latch} (hx : x.Formed) :
    (l.setLatch p x).LatchesFormed := fun q => by
  rw [Live.setLatch_latch]
  rcases Port.eq_or_eq_other p q with rfl | rfl
  · rwa [PerPort.get_set_self]
  · rw [PerPort.get_set_other]
    exact h _

/-! ## Operations that leave the latches alone -/

section same
variable (l : Live) (now : BitVec 16) (c : Fin 8) (p : Port)

@[simp] theorem Live.removeHeld_latch : (l.removeHeld c p).latch = l.latch := rfl
@[simp] theorem Live.holdItem_latch (i : HeldItem) : (l.holdItem c i).latch = l.latch := rfl
@[simp] theorem Live.joinCommit_latch (k : HeldCommit) : (l.joinCommit c k).latch = l.latch := rfl
@[simp] theorem Live.reserve_latch (k : HeldCommit) : (l.reserve now c k).latch = l.latch := rfl

@[simp] theorem Live.discard_latch (n : Nat) : (l.discard c n).latch = l.latch := by simp [Live.discard]

@[simp] theorem Live.discardAll_latch : (l.discardAll c).latch = l.latch := by
  unfold Live.discardAll
  split <;> simp

@[simp] theorem Live.refuseFull_latch (k : HeldCommit) : (l.refuseFull c k).latch = l.latch := by
  simp [Live.refuseFull]

@[simp] theorem Live.answerProducer_latch : (l.answerProducer c p).latch = l.latch := by
  unfold Live.answerProducer
  split <;> simp

@[simp] theorem Live.overwrite_latch (k : HeldCommit) : (l.overwrite now c k).latch = l.latch := by
  unfold Live.overwrite
  dsimp only
  split <;> simp

@[simp] theorem Live.takeCommit_latch (k : HeldCommit) : (l.takeCommit now c k).latch = l.latch := by
  unfold Live.takeCommit
  split
  · split
    · simp
    · rfl
    · split
      · rfl
      · split <;> simp
  · rfl

@[simp] theorem Live.cutAssembly_latch : (l.cutAssembly p c).latch = l.latch := by
  unfold Live.cutAssembly
  split
  · split <;> simp
  · rfl

@[simp] theorem Live.accountCopy_latch (r : CopyRead) : (l.accountCopy c p r).latch = l.latch := by
  unfold Live.accountCopy
  dsimp only
  split
  · split <;> simp
  · rfl

@[simp] theorem Live.withdrawAssembly_latch : (l.withdrawAssembly c p).latch = l.latch := by
  unfold Live.withdrawAssembly
  split
  · split <;> simp
  · rfl

theorem Live.rearm_latch : (l.rearm c).latch = l.latch := by
  unfold Live.rearm
  dsimp only
  split <;> rfl

theorem Live.installContext_latch (bound : Bool) (r : Record) : (l.installContext c bound r).latch = l.latch := by
  unfold Live.installContext
  dsimp only
  split
  · split
    · rfl
    · exact Live.rearm_latch _ c
  · rfl

theorem Live.presentJob_latch (prefer : Port) : ∀ (n : Nat) (l : Live), (Live.presentJob prefer n l).latch = l.latch
  | 0, _ => rfl
  | n + 1, l => by
    unfold Live.presentJob
    split
    · rfl
    · split
      · rfl
      · exact Live.presentJob_latch prefer n _
    · rfl

end same

/-! ## Held lists -/

section held
variable {l : Live} (h : l.LatchesFormed) (now : BitVec 16) (c : Fin 8)
include h

theorem Live.formed_claim (k : HeldPop) : (l.claim c k).LatchesFormed :=
  Live.LatchesFormed.setLatch (h.of_latch rfl) _ trivial

theorem Live.formed_takeEmpty (k : HeldPop) : (l.takeEmpty c k).LatchesFormed := by
  unfold Live.takeEmpty
  split <;> exact Live.LatchesFormed.setLatch (h.of_latch (by simp)) _ trivial

theorem Live.formed_takePop (k : HeldPop) : (l.takePop c k).LatchesFormed := by
  unfold Live.takePop
  split
  · exact Live.formed_takeEmpty h c k
  · exact Live.formed_claim h c k

theorem Live.formed_takeCommit (k : HeldCommit) : (l.takeCommit now c k).LatchesFormed :=
  h.of_latch (l.takeCommit_latch now c k)

theorem Live.formed_joinPop (k : HeldPop) : (l.joinPop c k).LatchesFormed :=
  Live.LatchesFormed.setLatch (h.of_latch rfl) _ trivial

end held

theorem formed_examineCommitList (now : BitVec 16) (c : Fin 8) : ∀ (ks : List HeldCommit) (l : Live),
    l.LatchesFormed → (examineCommitList now c ks l).LatchesFormed
  | [], _, h => h
  | k :: rest, l, h => by
    unfold examineCommitList
    dsimp only
    split
    · exact h
    · split
      · exact Live.formed_takeCommit h now c k
      · exact formed_examineCommitList now c rest _ (Live.formed_takeCommit h now c k)

theorem formed_examinePopList (c : Fin 8) : ∀ (ks : List HeldPop) (l : Live),
    l.LatchesFormed → (examinePopList c ks l).LatchesFormed
  | [], _, h => h
  | k :: rest, l, h => by
    unfold examinePopList
    split
    · exact h
    · exact formed_examinePopList c rest _ (Live.formed_takePop h c k)

theorem formed_examineStackList (now : BitVec 16) (c : Fin 8) : ∀ (is : List HeldItem) (l : Live),
    l.LatchesFormed → (examineStackList now c is l).LatchesFormed
  | [], _, h => h
  | i :: rest, l, h => by
    unfold examineStackList
    split
    · exact h
    · split
      · split
        · exact h
        · exact formed_examineStackList now c rest _ (Live.formed_takeCommit h now c _)
      · split
        · exact h
        · exact formed_examineStackList now c rest _ (Live.formed_takePop h c _)

section lists
variable {l : Live} (h : l.LatchesFormed) (now : BitVec 16) (c : Fin 8) (p : Port)
include h

theorem Live.formed_examineStack : (l.examineStack now c).LatchesFormed := formed_examineStackList now c _ l h

theorem Live.formed_examineCommits : (l.examineCommits now c).LatchesFormed := by
  unfold Live.examineCommits
  split
  · exact Live.formed_examineStack h now c
  · exact formed_examineCommitList now c _ l h

theorem Live.formed_examinePops : (l.examinePops now c).LatchesFormed := by
  unfold Live.examinePops
  split
  · exact Live.formed_examineStack h now c
  · exact formed_examinePopList c _ l h

theorem Live.formed_examineCommitOf : (l.examineCommitOf now p).LatchesFormed := by
  unfold Live.examineCommitOf
  split
  · exact h
  · split
    · exact Live.formed_examineCommits h now _
    · exact h

theorem Live.formed_examinePopOf : (l.examinePopOf now p).LatchesFormed := by
  unfold Live.examinePopOf
  split
  · exact h
  · split
    · exact Live.formed_examinePops h now _
    · exact h

theorem Live.formed_offerSpace (before : Live) : (Live.offerSpace before l now c).LatchesFormed := by
  unfold Live.offerSpace
  split
  · exact Live.formed_examineStack h now c
  · split
    · exact Live.formed_examineCommits h now c
    · exact h

theorem Live.formed_operationEnds : (l.operationEnds now c).LatchesFormed := by
  unfold Live.operationEnds
  refine Live.formed_examineStack ?_ now c
  split
  · exact h.of_latch (by simp)
  · exact h

theorem Live.formed_arriveCommit (k : HeldCommit) : (l.arriveCommit now c k).LatchesFormed := by
  have hj : (l.joinCommit c k).LatchesFormed := h.of_latch rfl
  unfold Live.arriveCommit
  split
  · split
    · exact Live.formed_takeCommit h now c k
    · exact Live.formed_examineStack hj now c
  · split
    · exact Live.formed_takeCommit h now c k
    · exact hj

theorem Live.formed_arrivePop (k : HeldPop) : (l.arrivePop now c k).LatchesFormed := by
  have hj := Live.formed_joinPop h c k
  unfold Live.arrivePop
  split
  · split
    · exact Live.formed_takePop h c k
    · exact Live.formed_examineStack hj now c
  · split
    · exact hj
    · split
      · exact Live.formed_takeEmpty h c k
      · split
        · exact Live.formed_claim h c k
        · exact hj

/-! ## Pushing and popping -/

theorem Live.formed_commit (level : Level) (words : List Word) : (l.commit now p c level words).LatchesFormed :=
  Live.formed_arriveCommit (h.of_latch (l.setAssembly_latch p _)) now c _

theorem Live.formed_append (idle : Option Nat) (t : Transfer) (last : Bool) :
    (l.append now idle p c t last).LatchesFormed := by
  have hcut : (l.cutAssembly p c).LatchesFormed := h.of_latch (l.cutAssembly_latch c p)
  unfold Live.append
  dsimp only
  split
  · exact hcut.of_latch (by simp [Live.overrun])
  · split
    · exact Live.formed_commit (hcut.of_latch (Live.setAssembly_latch _ p _)) now c p t.level _
    · exact hcut.of_latch (by simp)

theorem Live.formed_cutLatch : (l.cutLatch p c).LatchesFormed := Live.LatchesFormed.setLatch (h.of_latch rfl) p trivial

/-- A latch served in part keeps the rest of its words (R56). -/
theorem Live.formed_serveLatch (k : Nat) {x : Word} {payload : List Word} {r : Nat}
    (hl : (Latch.holding c x payload r).Formed) : (l.serveLatch p c k x payload r).LatchesFormed := by
  obtain ⟨_, hle, hmax⟩ := hl
  refine Live.LatchesFormed.setLatch (h.of_latch (by simp)) p ?_
  split
  · trivial
  · exact ⟨by omega, by omega, hmax⟩

theorem Live.formed_popRead (burst : Burst) : (l.popRead now p c burst).LatchesFormed := by
  unfold Live.popRead
  split
  · next d x payload r hl =>
    split
    · next hd =>
      have hp := h p
      rw [hl, hd] at hp
      exact Live.formed_serveLatch h c p burst.words hp
    · exact Live.formed_arrivePop (Live.formed_cutLatch h d p) now c _
  · exact Live.formed_arrivePop h now c _

end lists

/-! ## Completions -/

theorem foldl_formed {α : Type} (f : Live → α → Live) (hf : ∀ l a, l.LatchesFormed → (f l a).LatchesFormed)
    (xs : List α) {l : Live} (h : l.LatchesFormed) : (xs.foldl f l).LatchesFormed :=
  foldl_preserves Live.LatchesFormed f hf xs l h

theorem Live.formed_publishOne {l : Live} (h : l.LatchesFormed) (c : Fin 8) (w : WritingSlot) :
    (l.publishOne c w).LatchesFormed := by
  have hanswered : (((l.modCtx c fun x => x.publish w).countPublished c).answerProducer c w.port).LatchesFormed :=
    h.of_latch (by simp)
  unfold Live.publishOne
  dsimp only
  split
  · split
    · exact hanswered
    · exact Live.formed_claim hanswered c _
  · exact hanswered

theorem Live.formed_publishRun (c : Fin 8) : ∀ (run : List WritingSlot) (l : Live),
    l.LatchesFormed → (Live.publishRun run c l).LatchesFormed
  | [], _, h => h
  | w :: rest, _, h => Live.formed_publishRun c rest _ (Live.formed_publishOne h c w)

theorem Live.formed_entryWritten {l : Live} (h : l.LatchesFormed) (now : BitVec 16) (c : Fin 8) (slot : Nat)
    (p : Port) : (l.entryWritten now c slot p).LatchesFormed := by
  have hwritten : (l.modCtx c fun x => x.writeComplete slot p).LatchesFormed := h.of_latch rfl
  unfold Live.entryWritten
  dsimp only
  split
  · exact hwritten
  · refine foldl_formed _ (fun m w hm => Live.formed_examineCommitOf hm now w.port) _ ?_
    have hpublished := fun run => Live.formed_publishRun c run _ hwritten
    split
    · exact Live.formed_operationEnds (hpublished _) now c
    · exact Live.formed_examinePops (hpublished _) now c

/-- The entry read has no more payload than a slot can hold: seven words (R1, R59). -/
def CopyRead.Fits : CopyRead → Prop
  | .headerFailed => True
  | .passed _ payload _ => payload.length ≤ 7

/-- The length field of a header is three bits wide (R59, section 8.7). -/
theorem Memory.readEntry_fits (m : Memory) (address payloadMax : Nat) : (m.readEntry address payloadMax).Fits := by
  cases hg : m.wordGood address allEnabled with
  | false =>
    rw [Memory.readEntry_bad hg]
    trivial
  | true =>
    have hlen : headerLength (m.readWord address allEnabled) < 8 := BitVec.isLt _
    rw [Memory.readEntry_good hg]
    simp only [CopyRead.Fits, Memory.readBurst_replicate, List.length_map, List.length_range]
    omega

theorem burst_words_pos (b : Burst) : 0 < b.words := by
  cases b <;> decide

section copy
variable {l : Live} (h : l.LatchesFormed) (now : BitVec 16) (c : Fin 8) (p : Port) {r : CopyRead} (hr : r.Fits)
include h hr

/-- The claiming read is answered with at least the header, and the latch keeps the words that are left (R60, R61). -/
theorem Live.formed_fillLatch (burst : Burst) (withdrawn : Bool) :
    (l.fillLatch c p burst withdrawn r).LatchesFormed := by
  cases r with
  | headerFailed => exact Live.LatchesFormed.setLatch (h.of_latch (by simp)) p trivial
  | passed x payload good =>
    unfold Live.fillLatch
    dsimp only
    split
    · exact Live.LatchesFormed.setLatch (h.of_latch (by simp)) p trivial
    · refine Live.LatchesFormed.setLatch (h.of_latch (by simp)) p ?_
      have hpos := burst_words_pos burst
      split
      · trivial
      · exact ⟨by omega, by omega, hr⟩

theorem Live.formed_deliverCopy : (l.deliverCopy c p r).LatchesFormed := by
  unfold Live.deliverCopy
  split
  · exact h.of_latch rfl
  · split
    · exact Live.formed_fillLatch h c p hr _ _
    · exact h

theorem Live.formed_copyCompleted : (l.copyCompleted now c p r).LatchesFormed := by
  have hdone := Live.formed_deliverCopy (h.of_latch (l.accountCopy_latch c p r)) c p hr
  unfold Live.copyCompleted
  refine Live.formed_examinePopOf ?_ now p
  split
  · exact Live.formed_operationEnds hdone now c
  · exact Live.formed_offerSpace hdone now c l

end copy

/-! ## Withdrawal, FLUSH, ticks, resets -/

section ends
variable {l : Live} (h : l.LatchesFormed) (now : BitVec 16) (c : Fin 8) (p : Port)
include h

theorem Live.formed_withdrawItem (i : HeldItem) : (Live.withdrawItem c l i).LatchesFormed := by
  cases i with
  | commit k => exact h.of_latch (by simp [Live.withdrawItem])
  | pop k => exact Live.LatchesFormed.setLatch (h.of_latch (by simp)) _ trivial

theorem Live.formed_withdrawLatch : (l.withdrawLatch c p).LatchesFormed := by
  unfold Live.withdrawLatch
  split
  · split
    · exact Live.formed_cutLatch h c p
    · exact h
  · split
    · exact h.setLatch p trivial
    · exact h
  · exact h

theorem Live.formed_withdraw : (l.withdraw c).LatchesFormed := by
  unfold Live.withdraw
  have hstart : (l.modCtx c fun x => { x with held := [] }).LatchesFormed := h.of_latch rfl
  have hitems := foldl_formed (Live.withdrawItem c) (fun m i hm => Live.formed_withdrawItem hm c i) l.ctxs[c].held
    hstart
  exact Live.formed_withdrawLatch (Live.formed_withdrawLatch (hitems.of_latch (by simp)) c .A) c .B

theorem Live.formed_flush : (l.flush now c).LatchesFormed := by
  unfold Live.flush
  split
  · exact h.of_latch rfl
  · split
    · exact h
    · exact Live.formed_offerSpace (h.of_latch (l.discardAll_latch c)) now c l

theorem Live.formed_expireCommit : (l.expireCommit now c p).LatchesFormed :=
  Live.formed_examineCommits (h.of_latch (by simp)) now c

theorem Live.formed_expirePop : (l.expirePop now c p).LatchesFormed := by
  refine Live.formed_examinePops ?_ now c
  exact Live.LatchesFormed.setLatch (h.of_latch (by simp)) p trivial

theorem Live.formed_heldPart : (l.heldPart now p).LatchesFormed := by
  unfold Live.heldPart
  split
  · exact h
  · split
    · split
      · exact Live.formed_expireCommit h now _ p
      · exact h
    · split
      · exact Live.formed_expirePop h now _ p
      · exact h
    · exact h

theorem Live.formed_stalePart : (l.stalePart now c).LatchesFormed := by
  unfold Live.stalePart
  split
  · split
    · exact Live.formed_offerSpace (h.of_latch (by simp)) now c l
    · exact h.of_latch rfl
  · exact h

theorem Live.formed_tickPart (part : TickPart) : (Live.tickPart now l part).LatchesFormed := by
  cases part with
  | holdoff d =>
    refine h.of_latch ?_
    change (l.holdoffPart d).latch = _
    unfold Live.holdoffPart
    split <;> rfl
  | idle q =>
    refine h.of_latch ?_
    change (l.idlePart q).latch = _
    unfold Live.idlePart
    split <;> simp
  | held q => exact Live.formed_heldPart h now q
  | stale d => exact Live.formed_stalePart h now d

theorem Live.formed_resetPush : (l.resetPush now p).LatchesFormed := by
  unfold Live.resetPush
  split
  · exact h
  · exact h.of_latch (by simp)
  · exact h.of_latch rfl
  · exact Live.formed_examineCommits (h.of_latch (by simp)) now _

theorem Live.formed_resetPop : (l.resetPop now p).LatchesFormed := by
  unfold Live.resetPop
  split
  · exact h
  · refine Live.formed_examinePops ?_ now _
    exact Live.LatchesFormed.setLatch (h.of_latch (l.removeHeld_latch _ p)) p trivial
  · exact Live.LatchesFormed.of_latch (l := l.setLatch p .empty) (h.setLatch p trivial) rfl
  · exact h.setLatch p trivial

end ends

end Sys2Proof.Machine
end

section
/-! PROOFS. Every step keeps what a HOLDING latch may hold, and the canonical form of memory (R54, R158, log 5). -/

namespace Sys2Proof.Machine

/-- What happens from `s` to `t` keeps the forms of the latches and of memory. -/
structure State.KeepsForms (s t : State) : Prop where
  latches : s.LatchesFormed → t.LatchesFormed
  memory  : s.mem.wf = true → t.mem.wf = true

theorem State.KeepsForms.refl (s : State) : s.KeepsForms s := ⟨id, id⟩

theorem State.KeepsForms.trans {s t u : State} (h : s.KeepsForms t) (k : t.KeepsForms u) : s.KeepsForms u :=
  ⟨k.latches ∘ h.latches, k.memory ∘ h.memory⟩

/-- Where neither the latches nor memory are touched. -/
theorem State.KeepsForms.of_same {s t : State} (hl : t.latch = s.latch) (hm : t.mem = s.mem) : s.KeepsForms t :=
  ⟨fun h => h.of_latch hl, fun h => hm ▸ h⟩

/-- What happens after a change that touches neither. -/
theorem State.KeepsForms.after {s t u : State} (h : t.KeepsForms u) (hl : t.latch = s.latch) (hm : t.mem = s.mem) :
    s.KeepsForms u := (State.KeepsForms.of_same hl hm).trans h

theorem State.KeepsForms.onLive {s t : State} (h : s.KeepsForms t) {f : Live → Live}
    (hf : ∀ l : Live, l.LatchesFormed → (f l).LatchesFormed) : s.KeepsForms (t.onLive f) :=
  ⟨fun hs => hf _ (h.latches hs), h.memory⟩

/-- The close of an event touches neither. -/
theorem State.KeepsForms.closed {s t : State} (h : s.KeepsForms t) (b : State) : s.KeepsForms (closeEvent b t) :=
  h.trans (.of_same (closeEvent_latch b t) rfl)

theorem State.KeepsForms.of_event {possible : Bool} {s t : State} {f : State → State}
    (h : Machine.event possible s f = .next t) (hf : s.KeepsForms (f s)) : s.KeepsForms t := by
  rcases event_cases h with ⟨_, _, rfl⟩ | rfl
  · exact hf.closed s
  · exact .refl _

theorem State.KeepsForms.foldl {α : Type} {f : State → α → State}
    (hf : ∀ (u : State) (a : α), u.KeepsForms (f u a)) (xs : List α) (s : State) : s.KeepsForms (xs.foldl f s) :=
  foldl_preserves s.KeepsForms f (fun u a hu => hu.trans (hf u a)) xs s (.refl s)

/-! ## The decoder -/

section decoder
variable (s : State) (p : Port) (t : Transfer)

theorem State.forms_refuseTransfer (k : FaultKind) : s.KeepsForms (s.refuseTransfer p t k) := by
  rw [State.refuseTransfer_eq]
  exact .of_same rfl rfl

theorem State.forms_handDown (d : Decode) (u : PathUnit) : s.KeepsForms (s.handDown p t d u) := by
  unfold State.handDown
  split <;> exact .of_same rfl rfl

theorem State.forms_takePass : s.KeepsForms (s.takePass p t) := by
  unfold State.takePass
  split
  · exact s.forms_refuseTransfer p t _
  · exact s.forms_handDown p t _ _

theorem State.forms_takePlain : s.KeepsForms (s.takePlain p t) := by
  unfold State.takePlain
  split
  · dsimp only
    split
    · exact s.forms_handDown p t _ _
    · exact s.forms_refuseTransfer p t _
  · exact s.forms_refuseTransfer p t _

theorem State.forms_takeUnmapped : s.KeepsForms (s.takeUnmapped p t) := by
  unfold State.takeUnmapped
  split <;> exact s.forms_refuseTransfer p t _

theorem State.forms_takeCbRead : s.KeepsForms (s.takeCbRead p t) := by
  unfold State.takeCbRead
  split
  · exact s.forms_handDown p t _ _
  · exact s.forms_refuseTransfer p t _

theorem State.forms_takeCbWrite : s.KeepsForms (s.takeCbWrite p t) := by
  unfold State.takeCbWrite
  split
  · split
    · exact s.forms_handDown p t _ _
    · exact .of_same (Live.answerError_latch _ _ _) rfl
  · exact s.forms_refuseTransfer p t _

theorem State.forms_takeBitfield : s.KeepsForms (s.takeBitfield p t) := by
  unfold State.takeBitfield
  split
  · dsimp only
    split
    · exact s.forms_refuseTransfer p t _
    · split
      · exact s.forms_refuseTransfer p t _
      · exact s.forms_handDown p t _ _
  · exact s.forms_refuseTransfer p t _

theorem State.forms_takePeek (d : Decode) (c : Fin 8) : s.KeepsForms (s.takePeek p t d c) := by
  unfold State.takePeek
  split
  · exact .of_same (Live.answerOk_latch _ _ _) rfl
  · exact s.forms_handDown p t d _

theorem State.forms_takeTransfer {f : Transfer → State → State} (hf : ∀ u, s.KeepsForms (f u s)) :
    s.KeepsForms (s.takeTransfer p f) := by
  unfold State.takeTransfer
  split
  · exact hf _
  · exact .refl s

/-- A transfer in a RING window, by what its sub-range does at the context. -/
theorem State.forms_ring (sub : SubRange) {act : Transfer → Decode → Fin 8 → State → State}
    (ha : ∀ t d c (u : State), u.KeepsForms (act t d c u)) :
    s.KeepsForms (s.takeTransfer p fun t u => u.takeRing p t sub (act t)) := by
  refine s.forms_takeTransfer p fun t => ?_
  unfold State.takeRing
  split
  · dsimp only
    split
    · exact s.forms_refuseTransfer p t _
    · split
      · exact s.forms_refuseTransfer p t _
      · exact (ha t _ _ (s.handOn p t _)).after rfl rfl
  · exact s.forms_refuseTransfer p t _

theorem State.forms_takeStanding (standing : Option Transfer) : s.KeepsForms (s.takeStanding p standing) := by
  rw [State.takeStanding_eq]
  exact .of_same rfl rfl

end decoder

/-! ## Units and jobs -/

section units
variable (s : State) (p : Port)

theorem State.forms_finishUnit : s.KeepsForms s.finishUnit := ⟨id, s.finishUnit_wf⟩

theorem State.forms_leavePath : s.KeepsForms (s.leavePath p) := by
  unfold State.leavePath
  split <;> exact .of_same rfl rfl

theorem State.forms_completeUnit (u : PathUnit) {answer : Live → Live} (ha : ∀ l, (answer l).latch = l.latch) :
    s.KeepsForms (s.completeUnit p u answer) := by
  have hleft := s.forms_finishUnit.trans (s.finishUnit.forms_leavePath p)
  unfold State.completeUnit
  dsimp only
  split
  · exact hleft.onLive fun l hl => hl.of_latch (ha l)
  · exact hleft

theorem State.forms_completeRead : s.KeepsForms s.completeRead := by
  unfold State.completeRead
  split
  · exact .refl s
  · refine s.forms_completeUnit _ _ fun l => ?_
    split
    · unfold State.readPassed
      dsimp only
      split <;> simp
    · simp

theorem State.forms_completeBitfield : s.KeepsForms s.completeBitfield := by
  unfold State.completeBitfield
  split
  · split
    · refine s.forms_completeUnit _ _ fun l => ?_
      unfold State.bitAnswer
      split
      · simp
      · split <;> simp
    · exact .refl s
  · exact .refl s

theorem State.forms_grantJob : s.KeepsForms s.grantJob := by
  unfold State.grantJob
  split
  · exact .refl s
  · split <;> exact .of_same rfl rfl

theorem State.forms_grantMirror : s.KeepsForms s.grantMirror := by
  unfold State.grantMirror
  split
  · exact .refl s
  · next item rest _ => cases item <;> exact .of_same rfl rfl

theorem State.forms_grant : s.KeepsForms s.grant := by
  unfold State.grant
  split
  · exact .refl s
  · next r _ =>
    cases r with
    | portA => exact .of_same rfl rfl
    | portB => exact .of_same rfl rfl
    | engine => exact (State.forms_grantJob { s with pointer := .engine }).after rfl rfl
    | mirror => exact (State.forms_grantMirror { s with pointer := .mirror }).after rfl rfl

theorem State.forms_leaveJob : s.KeepsForms s.leaveJob := s.forms_finishUnit.onLive fun _ hl => hl.of_latch rfl

theorem State.forms_stampFetched (m : Memory) (c : Fin 8) (address : Nat) :
    s.KeepsForms (s.stampFetched m c address) := by
  unfold State.stampFetched
  split
  · split <;> exact .of_same rfl rfl
  · exact .refl s

end units

/-! ## The monitor (R136) -/

section monitor
variable (s : State) (p : Port)

theorem State.forms_globalAck (w : Word) : s.KeepsForms (s.globalAck p w) := by
  unfold State.globalAck
  dsimp only
  split <;> split <;> split <;> exact .of_same rfl rfl

theorem State.forms_applyWindow (w : Fin 16) : s.KeepsForms (s.applyWindow p w) := by
  unfold State.applyWindow
  split
  · exact .of_same rfl rfl
  · unfold State.installWindow
    dsimp only
    split
    · exact State.KeepsForms.after ((State.KeepsForms.refl _).onLive fun _ hl => Live.formed_withdraw hl _) rfl rfl
    · exact .of_same rfl rfl

theorem State.forms_applyContext (c : Fin 8) : s.KeepsForms (s.applyContext p c) := by
  unfold State.applyContext
  split
  · exact .of_same rfl rfl
  · exact .of_same (Live.installContext_latch _ _ _ _) rfl

theorem State.forms_command (c : Fin 8) (code : Nat) : s.KeepsForms (s.command p c code) := by
  unfold State.command
  split
  · exact .refl s
  · split
    · exact (State.KeepsForms.refl s).onLive fun _ hl => Live.formed_flush hl _ c
    · exact .of_same rfl rfl
  · exact .of_same rfl rfl

theorem State.forms_actWord (w : CbWord) : s.KeepsForms (s.actWord p w) := by
  unfold State.actWord
  split
  · split
    · unfold State.writeGlobal
      dsimp only
      split <;> exact .of_same rfl rfl
    · exact .of_same rfl rfl
    · split
      · exact s.forms_globalAck p _
      · exact .refl s
    · split
      · unfold State.contextAck
        split <;> exact .of_same rfl rfl
      · exact .refl s
    · exact s.forms_applyWindow p _
    · exact s.forms_applyContext p _
    · exact s.forms_command p _ _
    · exact .refl s
  · exact .refl s

theorem State.forms_stageWord (w : CbWord) : s.KeepsForms (s.stageWord w) := by
  unfold State.stageWord
  split
  · split <;> exact .of_same rfl rfl
  · exact .refl s

theorem State.forms_completeCbWrite : s.KeepsForms s.completeCbWrite := by
  unfold State.completeCbWrite
  split
  · exact .refl s
  · exact (s.forms_completeUnit _ _ fun l => Live.answerOk_latch _ _ _).trans
      ((State.KeepsForms.foldl State.forms_stageWord _ _).trans
        (State.KeepsForms.foldl (fun u w => u.forms_actWord _ w) _ _))

end monitor

/-! ## Ticks and resets -/

section time
variable (s : State)

theorem State.forms_tickEvent (order : List TickPart) : s.KeepsForms (s.tickEvent order) :=
  ⟨fun h => foldl_formed _ (fun _ part hl => Live.formed_tickPart hl _ part) _ (h.of_latch rfl), id⟩

theorem State.forms_clockPeriod : s.KeepsForms s.clockPeriod := by
  unfold State.clockPeriod
  split
  · exact .refl s
  · split
    · exact .of_same rfl rfl
    · exact (s.forms_tickEvent []).closed s

theorem State.forms_resetPort (p : Port) (late : Vector (BitVec 8) 8) : s.KeepsForms (s.resetPort p late) :=
  ⟨fun h => Live.LatchesFormed.of_latch (Live.formed_resetPop
    (Live.formed_resetPush (h.of_latch (m := (s.resetAttn p).resetIface p) rfl) s.tick p) s.tick p) rfl, id⟩

theorem settle_latch (t : State) : (settle s t).latch = t.latch := (settle_placed s t).latch

theorem Live.formed_reset : Live.reset.LatchesFormed := fun p => by
  cases p <;> trivial

end time

/-! ## Commands and steps -/

theorem exec_keepsForms {i : Instr} {s t : State} (h : exec i s = .next t) : s.KeepsForms t := by
  cases i with
  | transferArrival p u =>
    rw [exec_transferArrival, execTransferArrival] at h
    exact .of_event h (.of_same rfl rfl)
  | requestWithdrawal p =>
    rw [exec_requestWithdrawal, execRequestWithdrawal] at h
    exact .of_event h (.of_same rfl rfl)
  | passThrough p =>
    rw [exec_passThrough, execPassThrough] at h
    exact .of_event h (s.forms_takeTransfer p fun u => s.forms_takePass p u)
  | plainWindowTransfer p =>
    rw [exec_plainWindowTransfer, execPlainWindowTransfer] at h
    exact .of_event h (s.forms_takeTransfer p fun u => s.forms_takePlain p u)
  | unmapped p =>
    rw [exec_unmapped, execUnmapped] at h
    exact .of_event h (s.forms_takeTransfer p fun u => s.forms_takeUnmapped p u)
  | cbRead p =>
    rw [exec_cbRead, execCbRead] at h
    exact .of_event h (s.forms_takeTransfer p fun u => s.forms_takeCbRead p u)
  | cbWrite p =>
    rw [exec_cbWrite, execCbWrite] at h
    exact .of_event h (s.forms_takeTransfer p fun u => s.forms_takeCbWrite p u)
  | push p =>
    rw [exec_push, execPush] at h
    exact .of_event h (s.forms_ring p .push fun t _ c u =>
      (State.KeepsForms.refl u).onLive fun _ hl => Live.formed_append hl _ c p _ t false)
  | pushLast p =>
    rw [exec_pushLast, execPushLast] at h
    exact .of_event h (s.forms_ring p .pushLast fun t _ c u =>
      (State.KeepsForms.refl u).onLive fun _ hl => Live.formed_append hl _ c p _ t true)
  | pop p =>
    rw [exec_pop, execPop] at h
    exact .of_event h (s.forms_ring p .pop fun t _ c u =>
      (State.KeepsForms.refl u).onLive fun _ hl => Live.formed_popRead hl _ c p t.burst)
  | peek p =>
    rw [exec_peek, execPeek] at h
    exact .of_event h (s.forms_ring p .peek fun t d c u => u.forms_takePeek p t d c)
  | state p =>
    rw [exec_state, execState] at h
    exact .of_event h (s.forms_ring p .state fun _ _ _ u => .of_same (Live.answerOk_latch _ _ _) rfl)
  | bitfieldTransfer p =>
    rw [exec_bitfieldTransfer, execBitfieldTransfer] at h
    exact .of_event h (s.forms_takeTransfer p fun u => s.forms_takeBitfield p u)
  | bitfieldPlainWrite => exact .of_event h s.forms_completeBitfield
  | set => exact .of_event h s.forms_completeBitfield
  | clear => exact .of_event h s.forms_completeBitfield
  | toggle => exact .of_event h s.forms_completeBitfield
  | bitfieldPlainRead => exact .of_event h s.forms_completeBitfield
  | fetchAndClear => exact .of_event h s.forms_completeBitfield
  | compareRead => exact .of_event h s.forms_completeBitfield
  | arbiterGrant => exact .of_event h s.forms_grant
  | jobPresentation prefer =>
    rw [exec_jobPresentation, execJobPresentation] at h
    exact .of_event h (.of_same (Live.presentJob_latch prefer _ _) rfl)
  | portReadCompletion => exact .of_event h s.forms_completeRead
  | portWriteCompletion =>
    rw [exec_portWriteCompletion, execPortWriteCompletion] at h
    refine .of_event h ?_
    split
    · exact .refl s
    · exact s.forms_completeUnit _ _ fun l => Live.answerOk_latch _ _ _
  | noticeWordReadClear => exact .of_event h s.forms_completeRead
  | peekReadCompletion =>
    rw [exec_peekReadCompletion, execPeekReadCompletion] at h
    refine .of_event h ?_
    split
    · exact .refl s
    · refine s.forms_completeUnit _ _ fun l => ?_
      split <;> simp
  | entryWriteCompletion =>
    rw [exec_entryWriteCompletion, execEntryWriteCompletion] at h
    refine .of_event h ?_
    split
    · exact s.forms_leaveJob.onLive fun _ hl => Live.formed_entryWritten hl _ _ _ _
    · exact .refl s
  | entryCopyCompletion =>
    rw [exec_entryCopyCompletion, execEntryCopyCompletion] at h
    refine .of_event h ?_
    split
    · exact s.forms_leaveJob.onLive fun _ hl => Live.formed_copyCompleted hl _ _ _ (s.mem.readEntry_fits _ _)
    · exact .refl s
  | stampFetchCompletion =>
    rw [exec_stampFetchCompletion, execStampFetchCompletion] at h
    refine .of_event h ?_
    split
    · exact s.forms_leaveJob.trans (State.forms_stampFetched _ _ _ _)
    · exact .refl s
  | signalUpdateGrant => exact .of_event h s.forms_grant
  | signalUpdateCompletion =>
    rw [exec_signalUpdateCompletion, execSignalUpdateCompletion] at h
    refine .of_event h ?_
    split
    · split
      · exact s.forms_finishUnit
      · exact s.forms_finishUnit.trans (.of_same rfl rfl)
    · exact .refl s
  | mirrorWrite => exact .of_event h s.forms_grant
  | globalWord => exact .of_event h s.forms_completeCbWrite
  | enableWord => exact .of_event h s.forms_completeCbWrite
  | ackConfig => exact .of_event h s.forms_completeCbWrite
  | ackFault => exact .of_event h s.forms_completeCbWrite
  | ackEngine => exact .of_event h s.forms_completeCbWrite
  | contextAck => exact .of_event h s.forms_completeCbWrite
  | stageRecordWord => exact .of_event h s.forms_completeCbWrite
  | windowRecordApply => exact .of_event h s.forms_completeCbWrite
  | contextRecordApply => exact .of_event h s.forms_completeCbWrite
  | flush => exact .of_event h s.forms_completeCbWrite
  | cbPlainWrite => exact .of_event h s.forms_completeCbWrite
  | tick order => exact .of_event h (s.forms_tickEvent order)
  | idleExpiry p => exact .of_event h (s.forms_tickEvent _)
  | stallExpiry p => exact .of_event h (s.forms_tickEvent _)
  | waitExpiry p => exact .of_event h (s.forms_tickEvent _)
  | holdoffExpiry c => exact .of_event h (s.forms_tickEvent _)
  | stale c => exact .of_event h (s.forms_tickEvent _)
  | portReset p late =>
    cases h
    split
    · exact .of_same rfl rfl
    · split
      · exact .refl s
      · exact (s.forms_resetPort p late).trans (.of_same (settle_latch s _) rfl)
  | portResetRelease p standing =>
    cases h
    split
    · exact .of_same rfl rfl
    · split
      · exact (State.forms_takeStanding { s with portReset := s.portReset.set p false } p standing).after rfl rfl
      · exact .refl s
  | powerOnReset cbsel memsz =>
    cases h
    exact ⟨fun _ => Live.formed_reset, s.mem.wf_applyLanded _ _ _⟩
  | powerOnResetRelease a b =>
    cases h
    split
    · exact ((State.forms_takeStanding { s with inReset := false } .A a).trans
        (State.forms_takeStanding _ .B b)).after rfl rfl
    · exact .refl s
  | mirrorUnitCompletion => exact .of_event h s.forms_finishUnit

theorem step_keepsForms {s t : State} (h : step s = .next t) : s.KeepsForms t := by
  unfold step at h
  split at h
  · cases h
    exact s.forms_clockPeriod
  · next c rest _ => exact (exec_keepsForms h).after rfl rfl

/-- Settles O8: both forms survive every change a step makes to a latch or to memory. -/
theorem stepsKeepTheLatchAndMemoryForms : Obligations.StepsKeepTheLatchAndMemoryForms := by
  refine ⟨fun s t hs h => ?_, fun s t hs h => (step_keepsForms h).memory hs⟩
  rw [State.latchLaw_iff] at hs ⊢
  exact (step_keepsForms h).latches hs

end Sys2Proof.Machine
end

section
/-! PROOFS. One clock period on an empty queue (R74, R170), and the grants of the arbiter (R86, R152, R154, R156). -/

namespace Sys2Proof.Machine

/-! ## One clock period (R74, R170) -/

theorem step_of_no_command {s : State} (h : s.pending = []) : step s = .next s.clockPeriod := by
  unfold step
  rw [h]

/-- A period that completes the prescaler's count is the event of a tick (R74). -/
theorem State.clockPeriod_tick {s : State} (hr : s.inReset = false) (ht : tickClocks s.globalWord ≤ s.prescaler + 1) :
    s.clockPeriod = closeEvent s (s.tickEvent []) :=
  (if_neg (by rw [hr]; decide)).trans (if_neg (Nat.not_lt.2 ht))

/-- Settles O2, by the three cases of one clock period. -/
theorem idleStepCountsOneClockPeriod : Obligations.IdleStepCountsOneClockPeriod := by
  intro s hp
  rw [step_of_no_command hp]
  refine ⟨fun hr => congrArg _ (if_pos hr), fun hr ht => congrArg _ ?_, fun hr ht => ?_⟩
  · exact (if_neg (by rw [hr]; decide)).trans (if_pos ht)
  · rw [exec_tick, execTick, event_possible rfl hr, State.clockPeriod_tick hr ht]

/-! ## The arbiter's winner (R152) -/

section grant
variable {s : State} {r : Requester}

theorem State.winner_eq_none (h : s.busy ≠ none ∨ ∀ r, s.presents r = false) : s.winner = none := by
  unfold State.winner
  rcases h with h | h
  · rw [if_pos (Option.isSome_iff_ne_none.2 h)]
  · split
    · rfl
    · exact List.find?_eq_none.2 fun r _ => by simp [h r]

/-- The event of a grant: the memory goes to the arbiter's winner. -/
theorem State.grant_event {possible : Bool} (hposs : possible = true) (hr : s.inReset = false)
    (hw : s.winner = some r) : event possible s (fun s => s.grant) = .next (closeEvent s (s.grantTo r)) := by
  refine (event_possible hposs hr).trans (closed_congr ?_)
  unfold State.grant
  rw [hw]

theorem State.exec_arbiterGrant_to (hr : s.inReset = false) (hw : s.winner = some r) :
    exec .arbiterGrant s = .next (closeEvent s (s.grantTo r)) :=
  State.grant_event (by rw [hw]; rfl) hr hw

theorem State.exec_mirrorWrite_to (hr : s.inReset = false) (hw : s.winner = some .mirror) :
    exec .mirrorWrite s = .next (closeEvent s (s.grantTo .mirror)) :=
  State.grant_event (by rw [hw]; rfl) hr hw

theorem State.exec_signalUpdateGrant_to {c : Fin 8} {phase : Phase} {target : Option (Nat × Nat)}
    (hr : s.inReset = false) (hw : s.winner = some .engine)
    (hj : s.jobPresented = some ⟨.signalUpdate c, phase, target⟩) :
    exec .signalUpdateGrant s = .next (closeEvent s (s.grantTo .engine)) := by
  have hsignal : s.signalPresented = true := by
    unfold Live.signalPresented
    rw [hj]
  exact State.grant_event (by rw [hw, hsignal]; rfl) hr hw

/-! ## The grant of a job (R86, R154, R156) -/

/-- A granted SIGNAL_UPDATE leaves the list, the value of its bit fixed from the ready count (R86). -/
theorem State.grantJob_signal {c : Fin 8} {address bit : Nat}
    (h : s.jobPresented = some ⟨.signalUpdate c, .presented, some (address, bit)⟩) : s.grantJob = { s with
      jobs := s.jobs.eraseP fun e => e.phase == .presented
      busy := some (.signal c address bit (decide (s.ctxs[c].ready ≠ 0))) } := by
  unfold State.grantJob
  rw [h]
  simp only [Nat.pos_iff_ne_zero]

/-- Any other job goes into progress where it stands on the list (R156). -/
theorem State.grantJob_other {e : JobEntry} (h : s.jobPresented = some e) (hn : ∀ c, e.job ≠ .signalUpdate c) :
    s.grantJob = { s with
      jobs := s.jobs.map fun e => if e.phase == .presented then { e with phase := .inProgress } else e
      busy := some .job } := by
  unfold State.grantJob
  rw [h]
  dsimp only
  split
  · next c _ _ hj _ => exact absurd hj (hn c)
  · rfl

theorem State.grantJob_granted (h : s.jobPresented.isSome = true) :
    s.grantJob.pointer = s.pointer ∧ s.grantJob.busy ≠ none ∧ s.grantJob.mem = s.mem := by
  obtain ⟨e, he⟩ := Option.isSome_iff_exists.1 h
  unfold State.grantJob
  rw [he]
  dsimp only
  split <;> exact ⟨rfl, Option.some_ne_none _, rfl⟩

theorem State.grantMirror_granted (h : s.mirror ≠ []) :
    s.grantMirror.pointer = s.pointer ∧ s.grantMirror.busy ≠ none ∧ s.grantMirror.mem = s.mem := by
  unfold State.grantMirror
  split
  · next hm => exact absurd hm h
  · exact ⟨rfl, Option.some_ne_none _, rfl⟩

/-- Whoever is granted, the pointer moves to it, a unit is in progress, and memory stands (R152). -/
theorem State.grantTo_granted (h : s.presents r = true) :
    (s.grantTo r).pointer = r ∧ (s.grantTo r).busy ≠ none ∧ (s.grantTo r).mem = s.mem := by
  cases r with
  | portA => exact ⟨rfl, Option.some_ne_none _, rfl⟩
  | portB => exact ⟨rfl, Option.some_ne_none _, rfl⟩
  | engine => exact State.grantJob_granted (s := { s with pointer := .engine }) h
  | mirror =>
    refine State.grantMirror_granted (s := { s with pointer := .mirror }) fun hm => ?_
    simp [State.presents, show s.mirror = [] from hm] at h

end grant

/-- Settles O34: the winner is the requester met first, and what its grant does is read off its unit. -/
theorem arbiterGrantsRoundRobin : Obligations.ArbiterGrantsRoundRobin := by
  refine ⟨fun s hr hj => ⟨fun hnone => ?_, fun r hb hp hnear => ?_⟩, fun s c address bit hr hw hpres => ?_⟩
  · exact event_impossible (by rw [State.winner_eq_none hnone]; rfl)
  · have hw := s.winner_of_nearest r hb hp hnear
    have hgrant := State.exec_arbiterGrant_to hr hw
    have hport : ∀ p : Port, closeEvent s { s with pointer := r, busy := some (.port p) } =
        { s with pointer := r, busy := some (.port p) } := fun p => closeEvent_quiet hj rfl rfl rfl rfl rfl
    refine ⟨⟨_, hgrant, State.grantTo_granted hp⟩, ?_, ?_, ?_, ?_, ?_⟩
    · rintro rfl
      exact hgrant.trans (congrArg _ (hport .A))
    · rintro rfl
      exact hgrant.trans (congrArg _ (hport .B))
    · rintro e rfl he hn
      exact hgrant.trans (closed_congr (State.grantJob_other (s := { s with pointer := .engine }) he hn))
    · rintro ⟨c, address, bit, rfl, he⟩
      exact hgrant.trans (State.exec_signalUpdateGrant_to hr hw he).symm
    · rintro rfl
      exact hgrant.trans (State.exec_mirrorWrite_to hr hw).symm
  · exact (State.exec_signalUpdateGrant_to hr hw hpres).trans
      (closed_congr (State.grantJob_signal (s := { s with pointer := .engine }) hpres))

end Sys2Proof.Machine
end

section
/-! PROOFS. The completions of a STAMP_FETCH and of a SIGNAL_UPDATE, and the engine faults they report (R81, R86, R87,
R129). -/

namespace Sys2Proof.Machine

/-! ## The engine fault record (R120, R129) -/

/-- The record after an engine fault: captured while invalid, counted up to 15 while valid (R129). -/
def EngineFault.reported (cause : EngineCause) (c : Fin 8) (address : Nat) : Option EngineFault → EngineFault
  | none => ⟨cause, c, address, 0⟩
  | some r => { r with further := if r.further < 15 then r.further + 1 else 15 }

theorem State.engineFaultReport_eq (s : State) (cause : EngineCause) (c : Fin 8) (address : Nat) :
    s.engineFaultReport cause c address = { s with
      engineFault := some (EngineFault.reported cause c address s.engineFault)
      attn := raiseEngine s.attn (bits s.globalWord 28 2) } := by
  have hcount : ∀ n : Nat, min 15 (n + 1) = if n < 15 then n + 1 else 15 := fun n => by
    split <;> omega
  unfold State.engineFaultReport
  cases s.engineFault with
  | none => rfl
  | some r =>
    dsimp only
    rw [hcount]
    rfl

/-! ## STAMP_FETCH (R81) -/

section stampFetch
variable {s : State} {c : Fin 8} {slot address : Nat} {rest : List JobEntry}

/-- The event of the completion: the job leaves the list, memory stands, and the context judges what was read. -/
theorem State.JobUnit.exec_stampFetch (h : s.JobUnit (.stampFetch c slot address) rest) :
    exec .stampFetchCompletion s =
      .next (closeEvent s (({ s with busy := none, jobs := rest } : State).stampFetched s.mem c address)) := by
  have hleave : s.leaveJob = { s with busy := none, jobs := rest } := by
    rw [h.leaveJob, h.busyWrites_stampFetch]
    rfl
  rw [exec_stampFetchCompletion, execStampFetchCompletion, event_possible (by rw [h.currentJob]; rfl) h.running]
  refine closed_congr ?_
  rw [h.currentJob]
  exact congrArg (fun t : State => t.stampFetched s.mem c address) hleave

variable {m : Memory}

theorem State.stampFetched_accepted (hc : s.ctxs[c].cache.fetchCurrent = true) (hg : m.wordGood address allEnabled = true) :
    s.stampFetched m c address =
      s.onLive fun l => l.modCtx c fun x => x.acceptStamp (headerStamp (m.readWord address allEnabled)) :=
  (if_pos hc).trans (if_pos hg)

theorem State.stampFetched_failed (hc : s.ctxs[c].cache.fetchCurrent = true) (hg : m.wordGood address allEnabled = false) :
    s.stampFetched m c address = (s.onLive fun l => l.modCtx c Ctx.failStamp).engineFaultReport .stamp c address :=
  (if_pos hc).trans (if_neg (by rw [hg]; decide))

theorem State.stampFetched_overtaken (hc : s.ctxs[c].cache.fetchCurrent = false) : s.stampFetched m c address = s :=
  if_neg (by rw [hc]; decide)

end stampFetch

/-- Settles O43, by the fetch current flag and the parity of the word read. -/
theorem stampFetchCompletes : Obligations.StampFetchCompletes := by
  intro s c slot address rest h x
  refine ⟨fun hc hg => ?_, fun hc hg => ?_, fun hc => ?_⟩
  · exact h.exec_stampFetch.trans (closed_congr (State.stampFetched_accepted hc hg))
  · exact h.exec_stampFetch.trans
      (closed_congr ((State.stampFetched_failed (s := { s with busy := none, jobs := rest }) hc hg).trans
        (State.engineFaultReport_eq _ _ _ _)))
  · exact h.exec_stampFetch.trans (closed_congr (State.stampFetched_overtaken hc))

/-! ## SIGNAL_UPDATE (R86, R87) -/

/-- One bit is set as asked, the other 31 stand (R86). -/
theorem getLsbD_withBit (w : Word) {bit : Nat} (v : Bool) (i : Nat) (hb : bit < 32) :
    (withBit w bit v).getLsbD i = if i = bit then v else w.getLsbD i := by
  have hone : ∀ j, ((1 : Word) <<< bit).getLsbD j = decide (j = bit) := fun j => by
    rw [show (1 : Word) = 1#32 from rfl, BitVec.getLsbD_shiftLeft, BitVec.getLsbD_one, Bool.eq_iff_iff]
    simp only [Bool.and_eq_true, Bool.not_eq_true', decide_eq_true_eq, decide_eq_false_iff_not]
    omega
  unfold withBit
  generalize (1 : Word) <<< bit = mask at hone ⊢
  by_cases h : i = bit
  · subst h
    cases v <;> simp [hone, hb]
  · have hin : w.getLsbD i = true → i < 32 := BitVec.lt_of_getLsbD
    cases v <;> simpa [hone, h] using hin

section signal
variable {s : State} {c : Fin 8} {address bit : Nat} {v : Bool}

theorem State.signal_finishUnit_good (hb : s.busy = some (.signal c address bit v))
    (hg : s.mem.wordGood address allEnabled = true) : s.finishUnit = { s with
      mem := s.mem.writeWord address allEnabled (withBit (s.mem.readWord address allEnabled) bit v)
      busy := none } := by
  unfold State.finishUnit State.busyWrites
  rw [hb]
  dsimp only
  rw [if_pos hg]
  rfl

theorem State.signal_finishUnit_bad (hb : s.busy = some (.signal c address bit v))
    (hg : s.mem.wordGood address allEnabled = false) : s.finishUnit = { s with busy := none } := by
  unfold State.finishUnit State.busyWrites
  rw [hb]
  dsimp only
  rw [if_neg (by rw [hg]; decide)]
  rfl

/-- The event of the completion: the word is written back, or the write is abandoned with an engine fault. -/
theorem State.exec_signalUpdate (hr : s.inReset = false) (hb : s.busy = some (.signal c address bit v)) :
    exec .signalUpdateCompletion s = .next (closeEvent s
      (if s.mem.wordGood address allEnabled then s.finishUnit
       else s.finishUnit.engineFaultReport .signal c address)) := by
  have hbusy : s.signalBusy = true := by
    unfold State.signalBusy
    rw [hb]
  rw [exec_signalUpdateCompletion, execSignalUpdateCompletion, event_possible hbusy hr]
  refine closed_congr ?_
  rw [hb]

end signal

/-- Settles O44, by the parity of the signal word. -/
theorem signalUpdateCompletes : Obligations.SignalUpdateCompletes := by
  intro s c address bit v hr hj hb hbit
  have hexec := State.exec_signalUpdate hr hb
  refine ⟨fun hg => ⟨withBit (s.mem.readWord address allEnabled) bit v, ?_, ?_, fun i hi => ?_⟩, fun hg => ?_⟩
  · rw [if_pos hg, State.signal_finishUnit_good hb hg] at hexec
    exact hexec.trans (congrArg _ (closeEvent_quiet hj rfl rfl rfl rfl rfl))
  · rw [getLsbD_withBit _ _ _ hbit, if_pos rfl]
  · rw [getLsbD_withBit _ _ _ hbit, if_neg hi]
  · rw [if_neg (by rw [hg]; decide), State.signal_finishUnit_bad hb hg, State.engineFaultReport_eq] at hexec
    exact hexec.trans (congrArg _ (closeEvent_reported hj rfl rfl))

end Sys2Proof.Machine
end

section
/-! PROOFS. The close of an event: the watermarks with their notices (R76, R125), the context jobs (R80, R85, R156), and
what it leaves alone. -/

namespace Sys2Proof.Machine

/-! ## The notices of the watermarks (R76, R119, R125) -/

/-- The kinds of a set become pending for context `c`; those that were not start with their shown marks clear (R119,
R125). -/
def PortAttn.raiseKinds (a : PortAttn) (c : Fin 8) (kinds : BitVec 8) : PortAttn :=
  { a with
    pending := a.pending.set c (a.pending[c] ||| kinds)
    shown := a.shown.set c (a.shown[c] &&& (a.pending[c] ||| ~~~kinds)) }

theorem PortAttn.raise_eq_raiseKinds (a : PortAttn) (c : Fin 8) (k : Kind) : a.raise c k = a.raiseKinds c k.mask := rfl

/-- Every mark stands where no kind is raised. -/
theorem shown_none (pending shown : BitVec 8) : shown &&& (pending ||| ~~~0#8) = shown := by
  rw [show ~~~0#8 = BitVec.allOnes 8 from rfl, BitVec.or_allOnes, BitVec.and_allOnes]

section raiseKinds
variable (a : PortAttn) (c d : Fin 8) (kinds : BitVec 8)

theorem PortAttn.raiseKinds_zero : a.raiseKinds c 0#8 = a := by
  simp only [PortAttn.raiseKinds, BitVec.or_zero, shown_none, Fin.getElem_fin, Vector.set_getElem_self]

theorem PortAttn.raiseKinds_pending :
    (a.raiseKinds c kinds).pending[d] = a.pending[d] ||| if d = c then kinds else 0#8 := by
  by_cases h : d = c
  · subst h
    simp [PortAttn.raiseKinds]
  · rw [if_neg h, BitVec.or_zero]
    exact vector_getElem_set_ne _ _ (Ne.symm h)

theorem PortAttn.raiseKinds_shown :
    (a.raiseKinds c kinds).shown[d] = a.shown[d] &&& (a.pending[d] ||| ~~~(if d = c then kinds else 0#8)) := by
  by_cases h : d = c
  · subst h
    simp [PortAttn.raiseKinds]
  · rw [if_neg h, shown_none]
    exact vector_getElem_set_ne _ _ (Ne.symm h)

end raiseKinds

/-- Kinds raised for several contexts, one after the other: each context gets its own. -/
theorem foldl_raiseKinds (kinds : Fin 8 → BitVec 8) (d : Fin 8) : ∀ (cs : List (Fin 8)) (a : PortAttn),
    (cs.foldl (fun a c => a.raiseKinds c (kinds c)) a).pending[d] =
        a.pending[d] ||| (if d ∈ cs then kinds d else 0#8) ∧
      (cs.foldl (fun a c => a.raiseKinds c (kinds c)) a).shown[d] =
        a.shown[d] &&& (a.pending[d] ||| ~~~(if d ∈ cs then kinds d else 0#8))
  | [], a => ⟨BitVec.or_zero.symm, (shown_none _ _).symm⟩
  | c :: rest, a => by
    obtain ⟨hp, hs⟩ := foldl_raiseKinds kinds d rest (a.raiseKinds c (kinds c))
    rw [List.foldl_cons, hp, hs, PortAttn.raiseKinds_pending, PortAttn.raiseKinds_shown]
    by_cases hc : d = c
    · subst hc
      rw [if_pos rfl, if_pos List.mem_cons_self]
      split
      · exact ⟨by rw [BitVec.or_assoc, BitVec.or_self], shown_same _ _ _⟩
      · exact ⟨BitVec.or_zero, shown_none _ _⟩
    · simp only [hc, if_false, BitVec.or_zero, shown_none, List.mem_cons, false_or, and_self]

/-- The kinds that the watermark of context `c` raises at port `p` where the event went from `b` to `l` (R76). -/
def Live.watermarkKinds (b l : Live) (p : Port) (c : Fin 8) : BitVec 8 :=
  match (closeWatermark b.ctxs[c] l.ctxs[c]).2 with
  | none => 0#8
  | some k => if routeNames (l.ctxs[c].applied.route k) p then k.mask else 0#8

theorem raiseRouted_get (a : PerPort PortAttn) (route : Nat) (c : Fin 8) (k : Kind) (p : Port) :
    (raiseRouted a route c k).get p = (a.get p).raiseKinds c (if routeNames route p then k.mask else 0#8) := by
  split
  · next h => cases p <;> exact if_pos h
  · next h =>
    rw [PortAttn.raiseKinds_zero]
    cases p <;> exact if_neg h

/-- The watermarks' notices at one port, context by context. -/
theorem closeWatermarks_attn (b l : Live) (p : Port) : (closeWatermarks b l).attn.get p =
    allCtxs.foldl (fun a c => a.raiseKinds c (Live.watermarkKinds b l p c)) (l.attn.get p) := by
  refine (List.foldl_hom (fun a : PerPort PortAttn => a.get p) fun a c => ?_).symm
  unfold Live.watermarkKinds
  cases (closeWatermark b.ctxs[c] l.ctxs[c]).2 with
  | none => exact PortAttn.raiseKinds_zero _ _
  | some k => exact (raiseRouted_get _ _ _ _ _).symm

section closeNotices
variable (s u : State) (p : Port) (c : Fin 8)

theorem closeEvent_attn : (closeEvent s u).attn.get p =
    allCtxs.foldl (fun a c => a.raiseKinds c (Live.watermarkKinds s.toLive u.toLive p c)) (u.attn.get p) := by
  rw [closeEvent_toLive, (placed_closeJobs _ _).attn, closeWatermarks_attn]

/-- The pending kinds that the close of an event leaves: the watermark's among them (R76). -/
theorem closeEvent_kinds : ((closeEvent s u).attn.get p).pending[c] =
    (u.attn.get p).pending[c] ||| Live.watermarkKinds s.toLive u.toLive p c := by
  rw [closeEvent_attn, (foldl_raiseKinds _ c allCtxs _).1, if_pos (mem_allCtxs c)]

/-- The shown marks that the close of an event leaves: a kind that becomes pending starts unshown (R125). -/
theorem closeEvent_shown : ((closeEvent s u).attn.get p).shown[c] =
    (u.attn.get p).shown[c] &&& ((u.attn.get p).pending[c] ||| ~~~Live.watermarkKinds s.toLive u.toLive p c) := by
  rw [closeEvent_attn, (foldl_raiseKinds _ c allCtxs _).2, if_pos (mem_allCtxs c)]

/-- The close raises kinds of contexts and nothing else. -/
theorem closeEvent_attn_frame : ((closeEvent s u).attn.get p).config = (u.attn.get p).config ∧
    ((closeEvent s u).attn.get p).fault = (u.attn.get p).fault ∧
    ((closeEvent s u).attn.get p).engine = (u.attn.get p).engine ∧
    ((closeEvent s u).attn.get p).enable = (u.attn.get p).enable ∧
    ((closeEvent s u).attn.get p).record = (u.attn.get p).record := by
  rw [closeEvent_attn]
  exact foldl_preserves (fun a : PortAttn => a.config = (u.attn.get p).config ∧ a.fault = (u.attn.get p).fault ∧
    a.engine = (u.attn.get p).engine ∧ a.enable = (u.attn.get p).enable ∧ a.record = (u.attn.get p).record)
    (fun a c => a.raiseKinds c (Live.watermarkKinds s.toLive u.toLive p c)) (fun _ _ h => h) allCtxs _
    ⟨rfl, rfl, rfl, rfl, rfl⟩

variable {s u c}

theorem Live.watermarkKinds_of_ready (h : s.ctxs[c].ready = u.ctxs[c].ready) :
    Live.watermarkKinds s.toLive u.toLive p c = 0 := by
  unfold Live.watermarkKinds closeWatermark
  rw [if_pos h]
  rfl

end closeNotices

/-! ## The evaluation of a watermark (R76) -/

section evaluate
variable {s u : State} {c : Fin 8} {w : Watermark}

theorem closeWatermark_of_ready_ne {x y : Ctx} (h : x.ready ≠ y.ready) : closeWatermark x y = y.evaluate := if_neg h

/-- An evaluation that raises no notice leaves the watermark it finds right. -/
theorem closeEvent_evaluates_quiet (h : s.ctxs[c].ready ≠ u.ctxs[c].ready) (he : u.ctxs[c].evaluate = (w, none)) :
    (closeEvent s u).ctxs[c].watermark = w ∧
      ∀ p : Port, ((closeEvent s u).attn.get p).pending[c] = (u.attn.get p).pending[c] := by
  have hw : closeWatermark s.ctxs[c] u.ctxs[c] = (w, none) := (closeWatermark_of_ready_ne h).trans he
  refine ⟨(closeEvent_watermark s u c).trans (congrArg Prod.fst hw), fun p => ?_⟩
  rw [closeEvent_kinds, Live.watermarkKinds, hw]
  exact BitVec.or_zero

/-- An evaluation that raises `k` has it routed by the record. -/
theorem closeEvent_evaluates_raising {k : Kind} (h : s.ctxs[c].ready ≠ u.ctxs[c].ready)
    (he : u.ctxs[c].evaluate = (w, some k)) :
    (closeEvent s u).ctxs[c].watermark = w ∧
      ∀ p : Port, ((closeEvent s u).attn.get p).pending[c] = (u.attn.get p).pending[c] |||
        if routeNames (u.ctxs[c].applied.route k) p then k.mask else 0 := by
  have hw : closeWatermark s.ctxs[c] u.ctxs[c] = (w, some k) := (closeWatermark_of_ready_ne h).trans he
  refine ⟨(closeEvent_watermark s u c).trans (congrArg Prod.fst hw), fun p => ?_⟩
  rw [closeEvent_kinds, Live.watermarkKinds, hw]
  rfl

end evaluate

/-- Settles O9, by the watermark state and what the evaluation makes of it. -/
theorem watermarkAtTheClose : Obligations.WatermarkAtTheClose := by
  intro s u c h
  refine ⟨fun hw hh h0 => ?_, fun hw hh h0 => ?_, fun hw hh => ?_, fun n hw => ?_, fun hw hl => ?_, fun hw hl => ?_⟩
  · exact closeEvent_evaluates_raising h (by rw [Ctx.evaluate, hw]; simp only [hh, h0, if_true])
  · exact closeEvent_evaluates_quiet h (by rw [Ctx.evaluate, hw]; simp only [hh, h0, if_true, if_false])
  · exact closeEvent_evaluates_quiet h (by rw [Ctx.evaluate, hw]; simp only [Nat.not_le.2 hh, if_false])
  · refine closeEvent_evaluates_quiet h ?_
    rw [Ctx.evaluate, hw]
    by_cases hr : u.ctxs[c].ready < u.ctxs[c].applied.high
    · simp only [hr, Nat.not_le.2 hr, if_true, if_false]
    · simp only [hr, Nat.not_lt.1 hr, if_true, if_false]
  · exact closeEvent_evaluates_raising h (by rw [Ctx.evaluate, hw]; simp only [hl, if_true])
  · exact closeEvent_evaluates_quiet h (by rw [Ctx.evaluate, hw]; simp only [Nat.not_le.2 hl, if_false])

/-! ## The jobs of one context (R80, R85) -/

/-- The STAMP_FETCH that context `c` owes, if it owes one (R80). -/
def Live.owedFetch (l : Live) (c : Fin 8) : List JobEntry :=
  if l.needsFetch c then
    [⟨.stampFetch c l.ctxs[c].nextSlot (l.ctxs[c].applied.slotAddress l.ctxs[c].nextSlot), .waiting, none⟩]
  else []

/-- The SIGNAL_UPDATE that context `c` owes where the event began at `b`, if it owes one (R85). -/
def Live.owedSignal (b l : Live) (c : Fin 8) : List JobEntry :=
  if Live.needsSignal b l c then [⟨.signalUpdate c, .waiting, none⟩] else []

/-- The jobs that context `c` owes: its STAMP_FETCH before its SIGNAL_UPDATE (R156). -/
def Live.owedJobs (b l : Live) (c : Fin 8) : List JobEntry := l.owedFetch c ++ Live.owedSignal b l c

/-- The jobs of context `c` placed, as the close of an event does for each context. -/
def Live.placeJobs (b l : Live) (c : Fin 8) : Live := Live.placeSignal b (l.placeFetch c) c

theorem Live.owesFetch_iff (l : Live) (c : Fin 8) : l.owesFetch c ↔ l.needsFetch c = true := by
  simp [Live.owesFetch, Live.needsFetch, and_assoc]

theorem Live.owesSignal_iff (b l : Live) (c : Fin 8) : Live.owesSignal b l c ↔ Live.needsSignal b l c = true := by
  simp [Live.owesSignal, Live.needsSignal]

section placeJobs
variable (b l : Live) {c d : Fin 8}

theorem Live.placeFetch_jobs (c : Fin 8) : (l.placeFetch c).jobs = l.jobs ++ l.owedFetch c := by
  unfold Live.placeFetch Live.owedFetch
  split
  · rfl
  · exact (List.append_nil _).symm

theorem Live.placeFetch_ctx_ne (h : d ≠ c) : (l.placeFetch c).ctxs[d] = l.ctxs[d] := by
  unfold Live.placeFetch
  split
  · exact Live.modCtx_ctxs_ne _ _ _ _ h
  · rfl

theorem Live.placeFetch_cache (c : Fin 8) : (l.placeFetch c).ctxs[c].cache =
    if l.needsFetch c then { l.ctxs[c].cache with fetchCurrent := true } else l.ctxs[c].cache := by
  unfold Live.placeFetch
  split
  · rw [Fin.getElem_fin, Live.modCtx_ctxs_self]
    rfl
  · rfl

/-- The placing of a STAMP_FETCH changes nothing that R85 reads. -/
theorem Live.placeFetch_needsSignal (c : Fin 8) : Live.needsSignal b (l.placeFetch c) c = Live.needsSignal b l c := by
  have hfetch : (l.owedFetch c).any (fun e => e.job.isSignalOf c) = false := by
    unfold Live.owedFetch
    split <;> rfl
  have hcore := Live.Placed.core (l.placed_placeFetch c) c
  obtain ⟨ha, _⟩ := Ctx.core_eq_fields hcore
  have hr := Ctx.core_ready hcore
  have hd := (l.placeFetch_marks c c).1
  simp only [Live.needsSignal, Fin.getElem_fin, ha, hr, hd, Live.placeFetch_jobs, List.any_append, hfetch, Bool.or_false]

theorem Live.placeSignal_jobs (c : Fin 8) : (Live.placeSignal b l c).jobs = l.jobs ++ Live.owedSignal b l c := by
  unfold Live.placeSignal Live.owedSignal
  split
  · rfl
  · exact (List.append_nil _).symm

theorem Live.placeJobs_jobs (c : Fin 8) : (Live.placeJobs b l c).jobs = l.jobs ++ Live.owedJobs b l c := by
  have hsignal : Live.owedSignal b (l.placeFetch c) c = Live.owedSignal b l c := by
    unfold Live.owedSignal
    rw [Live.placeFetch_needsSignal]
  rw [Live.placeJobs, Live.placeSignal_jobs, Live.placeFetch_jobs, hsignal, List.append_assoc, Live.owedJobs]

theorem Live.placeJobs_cache (c : Fin 8) : (Live.placeJobs b l c).ctxs[c].cache =
    if l.needsFetch c then { l.ctxs[c].cache with fetchCurrent := true } else l.ctxs[c].cache := by
  rw [← Live.placeFetch_cache, Live.placeJobs, Fin.getElem_fin, Live.placeSignal_ctxs, if_pos rfl]
  rfl

theorem Live.placeJobs_ctx_ne (h : d ≠ c) : (Live.placeJobs b l c).ctxs[d] = l.ctxs[d] := by
  rw [Live.placeJobs, Fin.getElem_fin, Live.placeSignal_ctxs, if_neg h]
  exact l.placeFetch_ctx_ne h

/-- A context's jobs are no other context's. -/
theorem Live.owedJobs_other (h : d ≠ c) :
    ∀ e ∈ Live.owedJobs b l c, e.job.isFetchOf d = false ∧ e.job.isSignalOf d = false := by
  intro e he
  unfold Live.owedJobs Live.owedFetch Live.owedSignal at he
  rcases List.mem_append.1 he with he | he
  · split at he
    · rw [List.mem_singleton.1 he]
      exact ⟨decide_eq_false h, rfl⟩
    · cases he
  · split at he
    · rw [List.mem_singleton.1 he]
      exact ⟨rfl, decide_eq_false h⟩
    · cases he

/-- Placing the jobs of one context leaves what another owes. -/
theorem Live.placeJobs_needs (h : d ≠ c) : (Live.placeJobs b l c).needsFetch d = l.needsFetch d ∧
    Live.needsSignal b (Live.placeJobs b l c) d = Live.needsSignal b l d := by
  have hother := Live.owedJobs_other b l h
  have hfetch : (Live.owedJobs b l c).any (fun e => e.job.isFetchOf d) = false :=
    List.any_eq_false.2 fun e he => by simp [(hother e he).1]
  have hsignal : (Live.owedJobs b l c).any (fun e => e.job.isSignalOf d) = false :=
    List.any_eq_false.2 fun e he => by simp [(hother e he).2]
  have hctx := Live.placeJobs_ctx_ne b l h
  constructor
  · simp only [Live.needsFetch, hctx, Live.placeJobs_jobs, List.any_append, hfetch, Bool.or_false]
  · simp only [Live.needsSignal, hctx, Live.placeJobs_jobs, List.any_append, hsignal, Bool.or_false]

theorem Live.placeJobs_owedJobs (h : d ≠ c) : Live.owedJobs b (Live.placeJobs b l c) d = Live.owedJobs b l d := by
  obtain ⟨hf, hs⟩ := Live.placeJobs_needs b l h
  simp only [Live.owedJobs, Live.owedFetch, Live.owedSignal, hf, hs, Live.placeJobs_ctx_ne b l h]

end placeJobs

/-! ## The jobs of all contexts (R156) -/

section closeJobs
variable (b : Live)

/-- Contexts placed one after the other: each one's jobs join the end of the list in its turn. -/
theorem foldl_placeJobs_jobs : ∀ (cs : List (Fin 8)) (l : Live), cs.Nodup →
    (cs.foldl (Live.placeJobs b) l).jobs = l.jobs ++ cs.flatMap (Live.owedJobs b l)
  | [], l, _ => (List.append_nil _).symm
  | c :: rest, l, h => by
    obtain ⟨hc, hrest⟩ := List.nodup_cons.1 h
    have hsame : rest.flatMap (Live.owedJobs b (Live.placeJobs b l c)) = rest.flatMap (Live.owedJobs b l) :=
      List.flatMap_congr fun d hd => Live.placeJobs_owedJobs b l fun e => hc (e ▸ hd)
    rw [List.foldl_cons, foldl_placeJobs_jobs rest _ hrest, Live.placeJobs_jobs, hsame, List.flatMap_cons,
      List.append_assoc]

theorem foldl_placeJobs_ctx {d : Fin 8} : ∀ (cs : List (Fin 8)) (l : Live), d ∉ cs →
    (cs.foldl (Live.placeJobs b) l).ctxs[d] = l.ctxs[d]
  | [], _, _ => rfl
  | c :: rest, l, h => by
    obtain ⟨hc, hrest⟩ := not_or.1 (List.mem_cons.not.1 h)
    rw [List.foldl_cons, foldl_placeJobs_ctx rest _ hrest, Live.placeJobs_ctx_ne b l hc]

theorem foldl_placeJobs_cache {d : Fin 8} : ∀ (cs : List (Fin 8)) (l : Live), cs.Nodup → d ∈ cs →
    (cs.foldl (Live.placeJobs b) l).ctxs[d].cache =
      if l.needsFetch d then { l.ctxs[d].cache with fetchCurrent := true } else l.ctxs[d].cache
  | [], _, _, hd => absurd hd List.not_mem_nil
  | c :: rest, l, h, hd => by
    obtain ⟨hc, hrest⟩ := List.nodup_cons.1 h
    rw [List.foldl_cons]
    rcases List.mem_cons.1 hd with rfl | hd
    · rw [foldl_placeJobs_ctx b rest _ hc, Live.placeJobs_cache]
    · have hne : d ≠ c := fun e => hc (e ▸ hd)
      rw [foldl_placeJobs_cache rest _ hrest hd, (Live.placeJobs_needs b l hne).1, Live.placeJobs_ctx_ne b l hne]

end closeJobs

theorem nodup_allCtxs : allCtxs.Nodup := by decide

section closed
variable (s u : State)

/-- The watermarks change nothing that R80 and R85 read. -/
theorem closeWatermarks_needs (c : Fin 8) :
    (closeWatermarks s.toLive u.toLive).needsFetch c = u.needsFetch c ∧
      Live.needsSignal s.toLive (closeWatermarks s.toLive u.toLive) c = Live.needsSignal s.toLive u.toLive c := by
  constructor
  · simp only [Live.needsFetch, Fin.getElem_fin, closeWatermarks_ctxs, closeWatermarks_jobs]
  · simp only [Live.needsSignal, Fin.getElem_fin, closeWatermarks_ctxs, closeWatermarks_jobs]

theorem closeWatermarks_owedJobs (c : Fin 8) : Live.owedJobs s.toLive (closeWatermarks s.toLive u.toLive) c =
    Live.owedJobs s.toLive u.toLive c := by
  obtain ⟨hf, hs⟩ := closeWatermarks_needs s u c
  have hslot : ∀ (x : Ctx) (w : Watermark), { x with watermark := w }.nextSlot = x.nextSlot := fun _ _ => rfl
  simp only [Live.owedJobs, Live.owedFetch, Live.owedSignal, hf, hs, Fin.getElem_fin, closeWatermarks_ctxs, hslot]

/-- The jobs that an event owes join the end of the list in increasing context order (R156). -/
theorem closeEvent_owedJobs :
    (closeEvent s u).jobs = u.jobs ++ allCtxs.flatMap (Live.owedJobs s.toLive u.toLive) := by
  rw [closeEvent_toLive]
  exact (foldl_placeJobs_jobs _ _ _ nodup_allCtxs).trans
    (congrArg (u.jobs ++ ·) (List.flatMap_congr fun c _ => closeWatermarks_owedJobs s u c))

theorem closeEvent_cache (c : Fin 8) : (closeEvent s u).ctxs[c].cache =
    if u.needsFetch c then { u.ctxs[c].cache with fetchCurrent := true } else u.ctxs[c].cache := by
  rw [closeEvent_toLive, ← (closeWatermarks_needs s u c).1]
  refine (foldl_placeJobs_cache _ _ _ nodup_allCtxs (mem_allCtxs c)).trans ?_
  simp only [Fin.getElem_fin, closeWatermarks_ctxs]

end closed

/-- Settles O10: each context's jobs join in its turn, and its turn finds it owing what the event left it owing. -/
theorem contextJobsAtTheClose : Obligations.ContextJobsAtTheClose := by
  refine fun s u => ⟨⟨_, closeEvent_owedJobs s u, fun c => ⟨u.owedFetch c, Live.owedSignal s.toLive u.toLive c, rfl,
    fun h => ?_, fun h => ?_, fun h => ?_, fun h => ?_⟩⟩, fun c => ⟨fun h => ?_, fun h => ?_⟩⟩
  · exact if_pos ((u.owesFetch_iff c).1 h)
  · exact if_neg fun hn => h ((u.owesFetch_iff c).2 hn)
  · exact if_pos ((Live.owesSignal_iff _ _ c).1 h)
  · exact if_neg fun hn => h ((Live.owesSignal_iff _ _ c).2 hn)
  · exact (closeEvent_cache s u c).trans (if_pos ((u.owesFetch_iff c).1 h))
  · exact (closeEvent_cache s u c).trans (if_neg fun hn => h ((u.owesFetch_iff c).2 hn))

/-! ## What the close leaves alone -/

/-- The marks kept where kinds become pending, by what became pending (R125). -/
theorem or_not_eq_not_new (pending kinds : BitVec 8) :
    pending ||| ~~~kinds = ~~~((pending ||| kinds) &&& ~~~pending) := by
  refine BitVec.eq_of_getLsbD_eq fun i hi => ?_
  simp only [BitVec.getLsbD_and, BitVec.getLsbD_or, BitVec.getLsbD_not, hi, decide_true, Bool.true_and]
  cases pending.getLsbD i <;> cases kinds.getLsbD i <;> rfl

/-- Settles O12, clause by clause: the rules of the parts of the close. -/
theorem closeChangesNothingElse : Obligations.CloseChangesNothingElse := by
  intro s u
  refine ⟨closeEvent_outer s u, closeEvent_ifaces s u, closeEvent_assembly s u, closeEvent_latch s u,
    closeEvent_dropped s u, closeEvent_core s u, fun c hr => ⟨closeEvent_watermark_of_ready s u c hr, fun p => ?_⟩,
    fun p c => ?_, closeEvent_attn_frame s u, fun hj hc hjobs => closeEvent_reported hj hc hjobs,
    fun hj hc hjobs ha hs he => closeEvent_quiet hj hc hjobs ha hs he⟩
  · rw [closeEvent_kinds, Live.watermarkKinds_of_ready p hr]
    exact BitVec.or_zero
  · rw [closeEvent_shown, closeEvent_kinds, or_not_eq_not_new]

end Sys2Proof.Machine
end

section
/-! PROOFS. The presentation of a job (R86, R157): which jobs are eligible, and the one the engine chooses. -/

namespace Sys2Proof.Machine

/-! ## Eligible jobs (R157) -/

/-- The jobs of a list that wait to be presented, oldest first (R157). -/
def waitingJobs (jobs : List JobEntry) : List Job := (jobs.filter fun e => e.phase == .waiting).map JobEntry.job

theorem mem_waitingJobs {jobs : List JobEntry} {j : Job} :
    j ∈ waitingJobs jobs ↔ ∃ e ∈ jobs, e.phase = .waiting ∧ e.job = j := by
  simp [waitingJobs, and_assoc]

section eligible
variable {j : Job} {older : List Job}

theorem Job.eligibleAfter_context (h : j.owner = none) : j.eligibleAfter older = true ↔ older = [] := by
  unfold Job.eligibleAfter
  rw [h]
  exact List.isEmpty_iff

theorem Job.eligibleAfter_port {p : Port} (h : j.owner = some p) :
    j.eligibleAfter older = true ↔ ∀ k ∈ older, k.owner = some p.other := by
  unfold Job.eligibleAfter
  rw [h]
  simp

/-- The oldest waiting job is eligible. -/
theorem Job.eligibleAfter_nil (j : Job) : j.eligibleAfter [] = true := by
  cases h : j.owner with
  | none => exact (Job.eligibleAfter_context h).2 rfl
  | some p => exact (Job.eligibleAfter_port h).2 fun _ hk => absurd hk List.not_mem_nil

end eligible

theorem waitingJobs_nil : waitingJobs [] = [] := rfl

theorem waitingJobs_cons (e : JobEntry) (rest : List JobEntry) :
    waitingJobs (e :: rest) = if e.phase = .waiting then e.job :: waitingJobs rest else waitingJobs rest := by
  unfold waitingJobs
  by_cases h : e.phase = .waiting <;> simp [h]

/-- An entry of a list with the entries before it: the head with none, or an entry of the tail with the head before it. -/
theorem exists_split_cons {α : Type} {a : α} {rest : List α} (P : List α → α → Prop) :
    (∃ before o after, a :: rest = before ++ o :: after ∧ P before o) ↔
      P [] a ∨ ∃ before o after, rest = before ++ o :: after ∧ P (a :: before) o := by
  constructor
  · rintro ⟨before, o, after, h, hP⟩
    cases before with
    | nil =>
      cases h
      exact .inl hP
    | cons b before =>
      cases h
      exact .inr ⟨before, o, after, rfl, hP⟩
  · rintro (hP | ⟨before, o, after, rfl, hP⟩)
    · exact ⟨[], a, rest, rfl, hP⟩
    · exact ⟨a :: before, o, after, rfl, hP⟩

/-- A job is among the eligible ones with its place exactly where it waits there and is eligible after the older jobs that
wait. -/
theorem mem_eligibleJobs : ∀ {jobs : List JobEntry} {n : Nat} {older : List Job} {i : Nat} {j : Job},
    (i, j) ∈ eligibleJobs jobs n older ↔ ∃ before e after, jobs = before ++ e :: after ∧ i = n + before.length ∧
      e.job = j ∧ e.phase = .waiting ∧ j.eligibleAfter (older ++ waitingJobs before) = true
  | [], n, older, i, j => by simp [eligibleJobs]
  | e :: rest, n, older, i, j => by
    rw [exists_split_cons fun before o => i = n + before.length ∧ o.job = j ∧ o.phase = .waiting ∧
      j.eligibleAfter (older ++ waitingJobs before) = true]
    have hlength : ∀ before : List JobEntry, n + 1 + before.length = n + (e :: before).length := fun before => by
      rw [List.length_cons]
      omega
    unfold eligibleJobs
    by_cases hw : e.phase = .waiting
    · rw [if_pos (beq_iff_eq.2 hw), List.mem_append, mem_eligibleJobs]
      refine or_congr ?_ ?_
      · split
        · next he =>
          rw [List.mem_singleton, Prod.mk.injEq]
          constructor
          · rintro ⟨rfl, rfl⟩
            exact ⟨rfl, rfl, hw, by rwa [waitingJobs_nil, List.append_nil]⟩
          · rintro ⟨hi, hj, -, -⟩
            exact ⟨hi, hj.symm⟩
        · next he =>
          refine iff_of_false List.not_mem_nil ?_
          rintro ⟨-, rfl, -, h⟩
          exact he (by rwa [waitingJobs_nil, List.append_nil] at h)
      · simp only [hlength, waitingJobs_cons, hw, if_true, List.append_assoc, List.singleton_append]
    · rw [if_neg (by simpa using hw), mem_eligibleJobs]
      simp only [hlength, waitingJobs_cons, hw, if_false, false_and, and_false, false_or]

/-! ## The job the engine chooses (R157, log 22) -/

section choose
variable {prefer : Port} {jobs : List JobEntry}

/-- Where a job waits, the engine chooses one. -/
theorem chooseJob_of_waiting (h : ∃ e ∈ jobs, e.phase = .waiting) : ∃ i j, chooseJob prefer jobs = some (i, j) := by
  obtain ⟨o, ho, hw⟩ := h
  obtain ⟨e, he⟩ := Option.isSome_iff_exists.1
    (List.find?_isSome.2 ⟨o, ho, beq_iff_eq.2 hw⟩ : (jobs.find? fun e => e.phase == .waiting).isSome = true)
  obtain ⟨hphase, before, after, hl, hbefore⟩ := List.find?_eq_some_iff_append.1 he
  have hnone : waitingJobs before = [] := by
    rw [waitingJobs, List.filter_eq_nil_iff.2 fun b hb => by simpa using hbefore b hb, List.map_nil]
  have hfirst : (before.length, e.job) ∈ eligibleJobs jobs 0 [] :=
    mem_eligibleJobs.2 ⟨before, e, after, hl, (Nat.zero_add _).symm, rfl, beq_iff_eq.1 hphase,
      by rw [hnone]; exact e.job.eligibleAfter_nil⟩
  have hsome : (chooseJob prefer jobs).isSome = true := by
    unfold chooseJob
    rw [Option.isSome_or, Bool.or_eq_true, List.isSome_head?]
    exact .inr (by simpa using List.ne_nil_of_mem hfirst)
  obtain ⟨⟨i, j⟩, hij⟩ := Option.isSome_iff_exists.1 hsome
  exact ⟨i, j, hij⟩

variable {i : Nat} {j : Job} (h : chooseJob prefer jobs = some (i, j))
include h

theorem chooseJob_eligible : (i, j) ∈ eligibleJobs jobs 0 [] := by
  unfold chooseJob at h
  rcases Option.or_eq_some_iff.1 h with h | ⟨_, h⟩
  · exact List.mem_of_find?_eq_some h
  · exact List.mem_of_mem_head? h

/-- Where the job chosen is not the preferred port's, that port has no eligible one. -/
theorem chooseJob_not_preferred (hj : j.owner ≠ some prefer) {x : Nat × Job} (hx : x ∈ eligibleJobs jobs 0 []) :
    x.2.owner ≠ some prefer := by
  unfold chooseJob at h
  rcases Option.or_eq_some_iff.1 h with h | ⟨hnone, _⟩
  · have hfound := List.find?_some h
    exact absurd (beq_iff_eq.1 hfound) hj
  · simpa using List.find?_eq_none.1 hnone x hx

end choose

/-! ## The job is presented (R86, R157) -/

/-- What the presentation of a job fixes: the signal word's address and bit of a SIGNAL_UPDATE (R86). -/
def Live.presentedTarget (l : Live) : Job → Option (Nat × Nat)
  | .signalUpdate c => some (l.ctxs[c].applied.signalAddress, l.ctxs[c].applied.signalBit)
  | .entryWrite _ _ _ _ _ _ => none
  | .entryCopy _ _ _ _ _ => none
  | .stampFetch _ _ _ => none

/-- The chosen job is presented in its place, but for a SIGNAL_UPDATE found disabled. -/
theorem Live.presentJob_chosen {prefer : Port} {l : Live} {i : Nat} {j : Job} (n : Nat)
    (h : chooseJob prefer l.jobs = some (i, j))
    (hs : ∀ c, j = .signalUpdate c → l.ctxs[c].applied.signalEnable = true) :
    Live.presentJob prefer (n + 1) l = { l with jobs := l.jobs.set i ⟨j, .presented, l.presentedTarget j⟩ } := by
  unfold Live.presentJob
  rw [h]
  cases j with
  | signalUpdate c => exact if_pos (hs c rfl)
  | entryWrite => rfl
  | entryCopy => rfl
  | stampFetch => rfl

/-- A SIGNAL_UPDATE found disabled leaves the list (R86). -/
theorem Live.presentJob_disabled {prefer : Port} {l : Live} {i : Nat} {c : Fin 8} (n : Nat)
    (h : chooseJob prefer l.jobs = some (i, .signalUpdate c)) (hs : l.ctxs[c].applied.signalEnable = false) :
    Live.presentJob prefer (n + 1) l = Live.presentJob prefer n { l with jobs := l.jobs.eraseIdx i } := by
  simp only [Live.presentJob, h, hs, Bool.false_eq_true, if_false]

section present
variable {s : State} {prefer : Port}

theorem State.exec_jobPresentation (hr : s.inReset = false) (hnone : s.jobPresented = none)
    (hw : ∃ e ∈ s.jobs, e.phase = .waiting) : exec (.jobPresentation prefer) s =
      .next (closeEvent s (s.onLive (Live.presentJob prefer s.jobs.length))) := by
  have hany : (s.jobs.any fun e => e.phase == .waiting) = true := by
    obtain ⟨e, he, hphase⟩ := hw
    exact List.any_eq_true.2 ⟨e, he, beq_iff_eq.2 hphase⟩
  have hposs : (s.jobPresented.isNone && s.jobs.any fun e => e.phase == .waiting) = true := by
    rw [hnone, hany]
    rfl
  rw [Machine.exec_jobPresentation, execJobPresentation, event_possible hposs hr]
  rfl

/-- An event that moves jobs on in their places, the same jobs in the same order, owes and reports nothing at its close. -/
theorem closeEvent_same_jobs {t : State} (hj : s.JobsPlaced) (hc : t.ctxs = s.ctxs)
    (h : t.jobs.map JobEntry.job = s.jobs.map JobEntry.job) (ha : t.attn = s.attn)
    (hs : t.configStatus = s.configStatus) (he : t.engineFault = s.engineFault) : closeEvent s t = t := by
  have hplaced : t.JobsPlaced := fun c => by
    have hany := congrArg (List.any · (Job.isFetchOf c)) h
    rw [List.any_map, List.any_map] at hany
    have hfetch : (t.jobs.any fun e => e.job.isFetchOf c) = s.jobs.any fun e => e.job.isFetchOf c := hany
    simpa only [Live.needsFetch, hc, hfetch] using hj c
  rw [closeEvent_contexts hc hplaced, dirtied_eq_nil s t _ (fun c => (hplaced c).2.2) ha hs he (fun _ => by rw [hc])
    fun _ => by rw [hc]]
  simp

end present

/-- Settles O36: the job chosen is the first eligible one that the preferred port owns, or the first eligible one. -/
theorem jobPresentationTakesAnEligibleJob : Obligations.JobPresentationTakesAnEligibleJob := by
  refine ⟨fun s prefer hr hj hnone hw hsignals => ?_, fun s prefer c v hr hjobs hs => ?_⟩
  · obtain ⟨i, j, hchoose⟩ := chooseJob_of_waiting (prefer := prefer) hw
    obtain ⟨before, e, after, hl, hi, rfl, hphase, helig⟩ := mem_eligibleJobs.1 (chooseJob_eligible hchoose)
    rw [Nat.zero_add] at hi
    rw [List.nil_append] at helig
    subst hi
    have hset : ∀ o, s.jobs.set before.length o = before ++ o :: after := fun o => by simp [hl]
    refine ⟨before, after, e, s.presentedTarget e.job, hl, hphase, ?_, fun ho o hmem hwait => ?_,
      fun p ho o hmem hwait => ?_, fun c hc => by rw [hc]; rfl, fun ho pre o post hpre hwait howner => ?_⟩
    · have hlength : s.jobs.length = s.jobs.length - 1 + 1 := by
        rw [hl, List.length_append, List.length_cons]
        omega
      have hpresent := Live.presentJob_chosen (l := s.toLive) (s.jobs.length - 1) hchoose fun c hc =>
        hsignals e (by rw [hl]; simp) c hc
      rw [← hlength, hset] at hpresent
      refine (State.exec_jobPresentation hr hnone hw).trans (congrArg Host.Outcome.next ?_)
      rw [State.onLive, hpresent]
      exact closeEvent_same_jobs hj rfl (by simp [hl]) rfl rfl rfl
    · have := (Job.eligibleAfter_context ho).1 helig
      exact List.not_mem_nil (this ▸ mem_waitingJobs.2 ⟨o, hmem, hwait, rfl⟩)
    · exact (Job.eligibleAfter_port ho).1 helig _ (mem_waitingJobs.2 ⟨o, hmem, hwait, rfl⟩)
    · by_contra hall
      push Not at hall
      refine chooseJob_not_preferred hchoose ho (x := (pre.length, o.job)) ?_ howner
      refine mem_eligibleJobs.2 ⟨pre, o, post, hpre, (Nat.zero_add _).symm, rfl, hwait, ?_⟩
      refine (Job.eligibleAfter_port howner).2 fun k hk => ?_
      obtain ⟨b, hb, hbw, rfl⟩ := mem_waitingJobs.1 hk
      exact hall b hb hbw
  · have hchoose : chooseJob prefer s.jobs = some (0, .signalUpdate c) := by
      rw [hjobs]
      rfl
    have hpresent := Live.presentJob_disabled (l := s.toLive) 0 hchoose hs
    have hnone : s.jobPresented = none := by
      unfold Live.jobPresented
      rw [hjobs]
      rfl
    refine (State.exec_jobPresentation hr hnone ⟨_, by rw [hjobs]; exact List.mem_singleton_self _, rfl⟩).trans
      (closed_congr ?_)
    rw [hjobs] at hpresent ⊢
    rw [State.onLive, List.length_singleton, hpresent]
    rfl

end Sys2Proof.Machine
end

section
/-! PROOFS. A tick with no part due (R74), and the tick that finds the next entry of a context older than the age limit
(R82, R83). -/

namespace Sys2Proof.Machine

/-! ## A tick that only counts (R74) -/

theorem Live.tickTook_countDown (l : Live) (x : TickPart) : l.TickTook x l.countDown where
  watermark c _ := by
    rw [Live.countDown_ctxs]
    rfl
  assembly p := .inr (l.countDown_assembly p)
  item c p _ := by rw [Live.countDown_ctxs, Ctx.countDown_itemOf]
  judged c now := by
    rw [Live.countDown_ctxs]
    exact Ctx.judgedStale_congr rfl rfl rfl rfl rfl now

/-- What the counts leave of a part that is not due does nothing. -/
theorem State.countDown_not_acts {s : State} {y : TickPart} (hd : s.partDue y = false) :
    ¬s.countDown.partActs (s.tick + 1) y := by
  obtain ⟨x, hx⟩ : ∃ x, y ≠ x := by
    cases y with
    | holdoff c => exact ⟨.idle .A, TickPart.noConfusion⟩
    | idle p => exact ⟨.holdoff 0, TickPart.noConfusion⟩
    | held p => exact ⟨.holdoff 0, TickPart.noConfusion⟩
    | stale c => exact ⟨.holdoff 0, TickPart.noConfusion⟩
  exact (s.toLive.tickTook_countDown x).not_acts hx hd

theorem State.tickEvent_none {s : State} (order : List TickPart) (hd : ∀ x, s.partDue x = false) :
    s.tickEvent order = s.ticked := by
  have hfold : (partsInOrder order).foldl (Live.tickPart (s.tick + 1)) s.countDown = s.countDown :=
    foldl_eq_self fun x _ => Live.tickPart_of_not_acts (State.countDown_not_acts (hd x))
  unfold State.tickEvent State.onLive
  dsimp only
  rw [hfold]
  rfl

theorem State.exec_tick_none {s : State} (order : List TickPart) (hr : s.inReset = false)
    (hd : ∀ x, s.partDue x = false) : exec (.tick order) s = .next (closeEvent s s.ticked) :=
  (event_possible rfl hr).trans (closed_congr (State.tickEvent_none order hd))

/-! ## The age judgement (R82) -/

/-- An entry older than the limit is judged stale, but for a discard that a running LIFO operation holds back (R83). -/
theorem Ctx.judgedStale_of_aged {x : Ctx} {now : BitVec 16} (hlimit : x.applied.ageLimit ≠ 0) (hready : x.ready ≠ 0)
    (hvalid : x.cache.valid = true) (hraised : x.cache.staleRaised = false)
    (hage : x.applied.ageLimit < (now - x.cache.stamp).toNat) :
    x.judgedStale now = !(x.applied.staleDiscard && x.isLifo && x.opRunning) := by
  simp only [Ctx.judgedStale, hlimit, Nat.pos_of_ne_zero hready, hvalid, hraised, hage, ne_eq, not_false_eq_true,
    decide_true, Bool.not_false, Bool.and_self, Bool.true_and]

section stalePart
variable {l : Live} {c : Fin 8} {now : BitVec 16} (hj : l.ctxs[c].judgedStale now = true)
include hj

/-- Under NOTIFY the entry stays, and STALE is raised and marked raised (R82). -/
theorem Live.stalePart_notify (hs : l.ctxs[c].applied.staleDiscard = false) : l.stalePart now c = { l with
    ctxs := l.ctxs.set c { l.ctxs[c] with cache := { l.ctxs[c].cache with staleRaised := true } }
    attn := noticed l.ctxs[c] c .stale true l.attn } :=
  (if_pos hj).trans (if_neg (by rw [hs]; decide))

/-- Under DISCARD the next entry leaves the ring, which it leaves as `y` with no commit that waits for its space (R83). -/
theorem Live.stalePart_discard (hs : l.ctxs[c].applied.staleDiscard = true) {y : Ctx} (hy : l.ctxs[c].dropReady 1 = y)
    (hh : y.held = [] ∨ (y.isLifo = false ∧ heldCommits y.held = [])) : l.stalePart now c = { l with
    ctxs := l.ctxs.set c { y with discarded := l.ctxs[c].discarded + 1, gap := true }
    attn := lossNotices l.ctxs[c] c 1 (noticed l.ctxs[c] c .stale true l.attn) } := by
  have hdiscard : (l.raise c .stale).discard c 1 = { l with
      ctxs := l.ctxs.set c { y with discarded := l.ctxs[c].discarded + 1, gap := true }
      attn := lossNotices l.ctxs[c] c 1 (noticed l.ctxs[c] c .stale true l.attn) } := by
    rw [← hy]
    exact Live.discard_eq _ c 1
  refine ((if_pos hj).trans (if_pos hs)).trans ?_
  rw [hdiscard]
  rcases hh with hh | ⟨hl, hh⟩
  · refine Live.offerSpace_nil _ _ _ _ ?_
    rw [Fin.getElem_fin, Vector.getElem_set_self]
    exact hh
  · refine Live.offerSpace_no_commits _ ?_ ?_
    · rw [Fin.getElem_fin, Vector.getElem_set_self]
      exact hl
    · rw [Fin.getElem_fin, Vector.getElem_set_self]
      exact hh

end stalePart

/-! ## The next entry leaves the ring (R14, R15, R16) -/

section dropReady
variable {x : Ctx}

/-- The slot of a discarded head with none held before it is released at once (R15). -/
theorem Ctx.dropReady_one_free (hl : x.applied.isLifo = false) (hh : x.heldRun = []) : x.dropReady 1 = { x with
    ready := x.ready - 1
    head := (x.head + 1) % x.applied.capacity
    release := (x.release + 1) % x.applied.capacity
    cache := x.cache.unknown } := by
  simp [Ctx.dropReady, Ctx.isLifo, hl, Ctx.releaseStep, hh, Ctx.cacheInvalid, StampCache.unknown, Ctx.capacity,
    HeldSlot.isSpent, List.takeWhile]

/-- Behind a slot in copy it stays held (R15). -/
theorem Ctx.dropReady_one_behind {q : Port} {more : List HeldSlot} (hl : x.applied.isLifo = false)
    (hh : x.heldRun = .copying q :: more) : x.dropReady 1 = { x with
    ready := x.ready - 1
    head := (x.head + 1) % x.applied.capacity
    release := x.release % x.applied.capacity
    heldRun := x.heldRun ++ [.spent]
    cache := x.cache.unknown } := by
  simp [Ctx.dropReady, Ctx.isLifo, hl, Ctx.releaseStep, hh, Ctx.cacheInvalid, StampCache.unknown, Ctx.capacity,
    HeldSlot.isSpent]

/-- The top of a stack is free at once (R16). -/
theorem Ctx.dropReady_one_stack (hl : x.applied.isLifo = true) : x.dropReady 1 = { x with
    ready := x.ready - 1
    depth := x.depth - 1
    cache := x.cache.unknown } := by
  simp [Ctx.dropReady, Ctx.isLifo, hl, Ctx.cacheInvalid, StampCache.unknown]

theorem Ctx.dropReady_watermark_held (x : Ctx) (n : Nat) :
    (x.dropReady n).watermark = x.watermark ∧ (x.dropReady n).held = x.held := by
  unfold Ctx.dropReady
  split <;> exact ⟨rfl, rfl⟩

end dropReady

/-! ## The tick that judges one entry stale (R74, R82, R83) -/

/-- A change of one context that keeps its watermark and its held list shows every part but its own age judgement what it
saw before. -/
theorem Live.partActs_of_set {l m : Live} {c : Fin 8} {y : Ctx} {now : BitVec 16} {x : TickPart}
    (hctxs : m.ctxs = l.ctxs.set c y) (ha : m.assembly = l.assembly) (hw : y.watermark = l.ctxs[c].watermark)
    (hh : y.held = l.ctxs[c].held) (hx : x ≠ .stale c) (h : m.partActs now x) : l.partActs now x := by
  have hother : ∀ d, d ≠ c → m.ctxs[d] = l.ctxs[d] := fun d hd => by
    rw [hctxs, vector_getElem_set_ne _ _ hd.symm]
  have hself : m.ctxs[c] = y := by rw [hctxs, Fin.getElem_fin, Vector.getElem_set_self]
  have hitem : ∀ (d : Fin 8) (p : Port), m.ctxs[d].itemOf p = l.ctxs[d].itemOf p := fun d p => by
    by_cases hd : d = c
    · subst hd
      rw [hself, Ctx.itemOf, hh, Ctx.itemOf]
    · rw [hother d hd]
  cases x with
  | holdoff d =>
    have hm : m.ctxs[d].watermark = .arming 0 := h
    show l.ctxs[d].watermark = .arming 0
    by_cases hd : d = c
    · subst hd
      rw [← hw, ← hself, hm]
    · rw [← hother d hd, hm]
  | idle p =>
    obtain ⟨d, words, h⟩ := h
    exact ⟨d, words, ha ▸ h⟩
  | held p =>
    obtain ⟨d, i, hf, hi, hs⟩ := h
    rw [Live.findHeld_of_itemOf fun d => congrArg Option.isSome (hitem d p)] at hf
    exact ⟨d, i, hf, hitem d p ▸ hi, hs⟩
  | stale d =>
    have hm : m.ctxs[d].judgedStale now = true := h
    show l.ctxs[d].judgedStale now = true
    rw [← hother d fun e => hx (e ▸ rfl), hm]

section stale
variable {s : State} {c : Fin 8}

theorem State.ticked_judgedStale (hj : s.ctxs[c].judgedStale (s.tick + 1) = true) :
    s.ticked.ctxs[c].judgedStale (s.tick + 1) = true := by
  rw [State.ticked_ctxs]
  exact (Ctx.judgedStale_congr rfl rfl rfl rfl rfl _).trans hj

variable (hr : s.inReset = false) (hj : s.ctxs[c].judgedStale (s.tick + 1) = true)
  (hd : ∀ x, x ≠ .stale c → s.partDue x = false)
include hr hj hd

/-- The event of STALE with no other part due: the counts, and what the age judgement leaves of its context. -/
theorem State.exec_stale_alone {m : Live} {y : Ctx} (hm : s.ticked.stalePart (s.tick + 1) c = m)
    (hctxs : m.ctxs = s.ticked.ctxs.set c y) (ha : m.assembly = s.ticked.assembly)
    (hw : y.watermark = s.ticked.ctxs[c].watermark) (hh : y.held = s.ticked.ctxs[c].held) :
    exec (.stale c) s = .next (closeEvent s { s with toLive := m, tick := s.tick + 1, prescaler := 0 }) := by
  have hothers : ∀ x ∈ allParts.filter fun x => !([.stale c] : List TickPart).contains x,
      Live.tickPart (s.tick + 1) m x = m := fun x hx => by
    have hne : x ≠ .stale c := by simpa using (List.mem_filter.1 hx).2
    refine Live.tickPart_of_not_acts fun hact => ?_
    exact State.countDown_not_acts (hd x hne) (Live.partActs_of_set (l := s.countDown) hctxs ha hw hh hne hact)
  have hfold : (partsInOrder [.stale c]).foldl (Live.tickPart (s.tick + 1)) s.countDown = m := by
    rw [partsInOrder, List.singleton_append, List.foldl_cons]
    refine Eq.trans ?_ (foldl_eq_self hothers)
    exact congrArg (fun l => List.foldl _ l _) hm
  have hevent : s.tickEvent [.stale c] = { s with toLive := m, tick := s.tick + 1, prescaler := 0 } := by
    unfold State.tickEvent State.onLive
    dsimp only
    rw [hfold]
  exact (event_possible hj hr).trans (closed_congr hevent)

theorem State.exec_stale_notify (hs : s.ticked.ctxs[c].applied.staleDiscard = false) :
    exec (.stale c) s = .next (closeEvent s { s.ticked with
      ctxs := s.ticked.ctxs.set c
        { s.ticked.ctxs[c] with cache := { s.ticked.ctxs[c].cache with staleRaised := true } }
      attn := noticed s.ticked.ctxs[c] c .stale true s.attn }) :=
  State.exec_stale_alone hr hj hd (Live.stalePart_notify (State.ticked_judgedStale hj) hs) rfl rfl rfl rfl

/-- A stale discard that leaves the ring as `y`, with no commit that waits for its space (R83). -/
theorem State.exec_stale_discard (hs : s.ticked.ctxs[c].applied.staleDiscard = true) {y : Ctx}
    (hy : s.ticked.ctxs[c].dropReady 1 = y)
    (hh : y.held = [] ∨ (y.isLifo = false ∧ heldCommits y.held = [])) :
    exec (.stale c) s = .next (closeEvent s { s.ticked with
      ctxs := s.ticked.ctxs.set c { y with discarded := s.ticked.ctxs[c].discarded + 1, gap := true }
      attn := lossNotices s.ticked.ctxs[c] c 1 (noticed s.ticked.ctxs[c] c .stale true s.attn) }) := by
  obtain ⟨hw, hheld⟩ := Ctx.dropReady_watermark_held s.ticked.ctxs[c] 1
  rw [hy] at hw hheld
  exact State.exec_stale_alone hr hj hd (Live.stalePart_discard (State.ticked_judgedStale hj) hs hy hh) rfl rfl hw hheld

end stale

/-- Settles O56: a tick with no part due only counts; the one that judges an entry stale takes its action as well. -/
theorem tickCountsAndJudgesAges : Obligations.TickCountsAndJudgesAges := by
  refine ⟨fun s order hr => ⟨⟨_, event_possible rfl hr, rfl⟩, State.exec_tick_none order hr⟩, ?_⟩
  intro s c hr hlimit hready hvalid hraised hage hd x stale
  have hjudged := Ctx.judgedStale_of_aged hlimit hready hvalid hraised hage
  have hx : x = s.ctxs[c].countDown := s.ticked_ctxs c
  have happlied : x.applied = s.ctxs[c].applied := by rw [hx]; rfl
  have hrunning : x.opRunning = s.ctxs[c].opRunning := by rw [hx]; rfl
  have hfifo : x.applied.isLifo = false → s.ctxs[c].judgedStale (s.tick + 1) = true := fun hl => by
    rw [hjudged, Ctx.isLifo, ← happlied, hl]
    simp
  refine ⟨fun hs => ?_, fun hs hl hrun hh => ?_, fun q more hs hl hrun hh => ?_, fun order hs hl hop => ?_,
    fun hs hl hw hc hh => ?_⟩
  · refine State.exec_stale_notify hr ?_ hd hs
    rw [hjudged, ← happlied, hs]
    rfl
  · exact (State.exec_stale_discard hr (hfifo hl) hd hs (Ctx.dropReady_one_free hl hrun) (.inl hh) :)
  · exact (State.exec_stale_discard hr (hfifo hl) hd hs (Ctx.dropReady_one_behind hl hrun)
      (.inr ⟨hl, heldCommits_eq_nil hh⟩) :)
  · refine State.exec_tick_none order hr fun y => ?_
    by_cases hy : y = .stale c
    · rw [hy]
      refine hjudged.trans ?_
      rw [Ctx.isLifo, ← happlied, hs, hl, ← hrunning, Ctx.opRunning_of_pos hop]
      rfl
    · exact hd y hy
  · have hstale : s.ctxs[c].judgedStale (s.tick + 1) = true := by
      rw [hjudged, ← hrunning, Ctx.opRunning_of_idle hw hc, Bool.and_false]
      rfl
    exact (State.exec_stale_discard hr hstale hd hs (Ctx.dropReady_one_stack hl) (.inl hh) :)

end Sys2Proof.Machine
end

section
/-! PROOFS. Which contexts are INITIALISED: no operation on the queues takes that away, and an applied context record
alone gives it (R20). -/

namespace Sys2Proof.Machine

/-- Which contexts are INITIALISED (R3). -/
def Live.initialised (l : Live) : Fin 8 → Bool := fun c => l.ctxs[c.val].initialised

theorem Live.initialised_of_ctxs {l m : Live} (h : m.ctxs = l.ctxs) : m.initialised = l.initialised := by
  unfold Live.initialised
  rw [h]

theorem Live.initialised_modCtx (l : Live) (c : Fin 8) {f : Ctx → Ctx}
    (hf : (f l.ctxs[c.val]).initialised = l.ctxs[c.val].initialised) : (l.modCtx c f).initialised = l.initialised := by
  funext d
  simp only [Live.initialised, Live.modCtx_ctxs]
  split
  · next e => rw [hf, e]
  · rfl

/-! ## Ring events and held lists -/

section queues
variable (l : Live) (now : BitVec 16) (c : Fin 8) (p : Port)

@[simp] theorem Live.initialised_addJob (j : Job) : (l.addJob j).initialised = l.initialised := rfl
@[simp] theorem Live.initialised_raise (k : Kind) : (l.raise c k).initialised = l.initialised := rfl
@[simp] theorem Live.initialised_setAssembly (x : Assembly) : (l.setAssembly p x).initialised = l.initialised := rfl
@[simp] theorem Live.initialised_setLatch (x : Latch) : (l.setLatch p x).initialised = l.initialised := rfl
@[simp] theorem Live.initialised_setIface (x : Iface) : (l.setIface p x).initialised = l.initialised := rfl

@[simp] theorem Live.initialised_answerOk (a : Answer) : (l.answerOk p a).initialised = l.initialised :=
  Live.initialised_of_ctxs (by simp)

@[simp] theorem Live.initialised_answerError (k : FaultKind) : (l.answerError p k).initialised = l.initialised :=
  Live.initialised_of_ctxs (by simp)

@[simp] theorem Live.initialised_removeHeld : (l.removeHeld c p).initialised = l.initialised :=
  l.initialised_modCtx c rfl

@[simp] theorem Live.initialised_holdItem (i : HeldItem) : (l.holdItem c i).initialised = l.initialised :=
  l.initialised_modCtx c rfl

@[simp] theorem Live.initialised_countRejected : (l.countRejected c).initialised = l.initialised :=
  (Live.initialised_of_ctxs (l.countRejected_ctxs c)).trans (l.initialised_modCtx c rfl)

@[simp] theorem Live.initialised_reject : (l.reject c).initialised = l.initialised := l.initialised_countRejected c

@[simp] theorem Live.initialised_countDiscarded (n : Nat) : (l.countDiscarded c n).initialised = l.initialised :=
  (Live.initialised_of_ctxs (l.countDiscarded_ctxs c n)).trans (l.initialised_modCtx c rfl)

@[simp] theorem Live.initialised_countDelivered : (l.countDelivered c).initialised = l.initialised :=
  (Live.initialised_of_ctxs (l.countDelivered_ctxs c)).trans (l.initialised_modCtx c rfl)

@[simp] theorem Live.initialised_countPublished : (l.countPublished c).initialised = l.initialised :=
  (Live.initialised_of_ctxs (l.countPublished_ctxs c)).trans (l.initialised_modCtx c rfl)

@[simp] theorem Live.initialised_discard (n : Nat) : (l.discard c n).initialised = l.initialised := by
  simp only [Live.discard, Live.initialised_raise, Live.initialised_countDiscarded]
  refine l.initialised_modCtx c ?_
  unfold Ctx.dropReady
  split <;> rfl

@[simp] theorem Live.initialised_discardAll : (l.discardAll c).initialised = l.initialised := by
  unfold Live.discardAll
  split <;> simp

@[simp] theorem Live.initialised_reserve (k : HeldCommit) : (l.reserve now c k).initialised = l.initialised := by
  simp only [Live.reserve, Live.initialised_setAssembly, Live.initialised_removeHeld]
  exact Live.initialised_modCtx _ c rfl

@[simp] theorem Live.initialised_claim (k : HeldPop) : (l.claim c k).initialised = l.initialised := by
  simp only [Live.claim, Live.initialised_setLatch, Live.initialised_removeHeld]
  exact Live.initialised_modCtx _ c rfl

@[simp] theorem Live.initialised_refuseFull (k : HeldCommit) : (l.refuseFull c k).initialised = l.initialised := by
  simp [Live.refuseFull]

@[simp] theorem Live.initialised_answerProducer : (l.answerProducer c p).initialised = l.initialised :=
  Live.initialised_of_ctxs (l.answerProducer_ctxs c p)

@[simp] theorem Live.initialised_publishOne (w : WritingSlot) : (l.publishOne c w).initialised = l.initialised := by
  have hpublish : (l.modCtx c fun x => x.publish w).initialised = l.initialised := by
    refine l.initialised_modCtx c ?_
    simp only [Ctx.publish]
    split <;> rfl
  unfold Live.publishOne
  dsimp only
  split
  · split <;> simp [hpublish]
  · simp [hpublish]

@[simp] theorem Live.initialised_publishRun : ∀ (run : List WritingSlot) (l : Live),
    (Live.publishRun run c l).initialised = l.initialised
  | [], _ => rfl
  | w :: rest, l => (Live.initialised_publishRun rest _).trans (l.initialised_publishOne c w)

@[simp] theorem Live.initialised_overwrite (k : HeldCommit) : (l.overwrite now c k).initialised = l.initialised := by
  unfold Live.overwrite
  dsimp only
  split <;> simp

@[simp] theorem Live.initialised_takeCommit (k : HeldCommit) : (l.takeCommit now c k).initialised = l.initialised := by
  unfold Live.takeCommit
  split
  · split
    · simp
    · exact l.initialised_holdItem c _
    · split
      · simp
      · split <;> simp
  · simp

@[simp] theorem Live.initialised_takeEmpty (k : HeldPop) : (l.takeEmpty c k).initialised = l.initialised := by
  unfold Live.takeEmpty
  split <;> simp

@[simp] theorem Live.initialised_takePop (k : HeldPop) : (l.takePop c k).initialised = l.initialised := by
  unfold Live.takePop
  split <;> simp

theorem initialised_examineCommitList : ∀ (ks : List HeldCommit) (l : Live),
    (examineCommitList now c ks l).initialised = l.initialised
  | [], _ => rfl
  | k :: rest, l => by
    unfold examineCommitList
    dsimp only
    split
    · rfl
    · split
      · simp
      · exact (initialised_examineCommitList rest _).trans (l.initialised_takeCommit now c k)

theorem initialised_examinePopList : ∀ (ks : List HeldPop) (l : Live),
    (examinePopList c ks l).initialised = l.initialised
  | [], _ => rfl
  | k :: rest, l => by
    unfold examinePopList
    split
    · rfl
    · exact (initialised_examinePopList rest _).trans (l.initialised_takePop c k)

theorem initialised_examineStackList : ∀ (is : List HeldItem) (l : Live),
    (examineStackList now c is l).initialised = l.initialised
  | [], _ => rfl
  | i :: rest, l => by
    unfold examineStackList
    split
    · rfl
    · split
      · split
        · rfl
        · exact (initialised_examineStackList rest _).trans (l.initialised_takeCommit now c _)
      · split
        · rfl
        · exact (initialised_examineStackList rest _).trans (l.initialised_takePop c _)

@[simp] theorem Live.initialised_examineStack : (l.examineStack now c).initialised = l.initialised :=
  initialised_examineStackList now c _ l

@[simp] theorem Live.initialised_examineCommits : (l.examineCommits now c).initialised = l.initialised := by
  unfold Live.examineCommits
  split
  · simp
  · exact initialised_examineCommitList now c _ l

@[simp] theorem Live.initialised_examinePops : (l.examinePops now c).initialised = l.initialised := by
  unfold Live.examinePops
  split
  · simp
  · exact initialised_examinePopList c _ l

@[simp] theorem Live.initialised_examineCommitOf : (l.examineCommitOf now p).initialised = l.initialised := by
  unfold Live.examineCommitOf
  split
  · rfl
  · split <;> simp

@[simp] theorem Live.initialised_examinePopOf : (l.examinePopOf now p).initialised = l.initialised := by
  unfold Live.examinePopOf
  split
  · rfl
  · split <;> simp

@[simp] theorem Live.initialised_offerSpace (before : Live) :
    (Live.offerSpace before l now c).initialised = l.initialised := by
  unfold Live.offerSpace
  split
  · simp
  · split <;> simp

@[simp] theorem Live.initialised_operationEnds : (l.operationEnds now c).initialised = l.initialised := by
  have hflag : (l.modCtx c fun x => { x with pendingFlush := false }).initialised = l.initialised :=
    l.initialised_modCtx c rfl
  unfold Live.operationEnds
  split <;> simp [hflag]

@[simp] theorem Live.initialised_arriveCommit (k : HeldCommit) :
    (l.arriveCommit now c k).initialised = l.initialised := by
  unfold Live.arriveCommit
  split <;> split <;> simp [Live.joinCommit]

@[simp] theorem Live.initialised_arrivePop (k : HeldPop) : (l.arrivePop now c k).initialised = l.initialised := by
  have hjoin : (l.joinPop c k).initialised = l.initialised := by simp [Live.joinPop]
  unfold Live.arrivePop
  split
  · split <;> simp [hjoin]
  · split
    · exact hjoin
    · split
      · simp
      · split <;> simp [hjoin]

end queues

/-! ## Pushing, popping and completions -/

section ports
variable (l : Live) (now : BitVec 16) (c : Fin 8) (p : Port)

theorem Live.initialised_append (idle : Option Nat) (t : Transfer) (last : Bool) :
    (l.append now idle p c t last).initialised = l.initialised := by
  have hcut : (l.cutAssembly p c).initialised = l.initialised := by
    unfold Live.cutAssembly
    split
    · split <;> simp
    · rfl
  unfold Live.append
  dsimp only
  split
  · simp [Live.overrun, hcut]
  · split <;> simp [Live.commit, hcut]

theorem Live.initialised_popRead (burst : Burst) : (l.popRead now p c burst).initialised = l.initialised := by
  unfold Live.popRead
  split
  · split <;> simp [Live.serveLatch, Live.cutLatch]
  · simp

theorem foldl_initialised {α : Type} (f : Live → α → Live) (hf : ∀ l a, (f l a).initialised = l.initialised)
    (xs : List α) (l : Live) : (xs.foldl f l).initialised = l.initialised :=
  foldl_preserves (fun m => m.initialised = l.initialised) f (fun m a hm => (hf m a).trans hm) xs l rfl

theorem Live.initialised_entryWritten (slot : Nat) : (l.entryWritten now c slot p).initialised = l.initialised := by
  have hwrite : (l.modCtx c fun x => x.writeComplete slot p).initialised = l.initialised :=
    l.initialised_modCtx c rfl
  unfold Live.entryWritten
  dsimp only
  split
  · exact hwrite
  · rw [foldl_initialised _ fun m (w : WritingSlot) => m.initialised_examineCommitOf now w.port]
    split <;> simp [hwrite]

theorem Live.initialised_accountCopy (r : CopyRead) : (l.accountCopy c p r).initialised = l.initialised := by
  have hdone : (l.modCtx c fun x => x.copyDone p).initialised = l.initialised := by
    refine l.initialised_modCtx c ?_
    unfold Ctx.copyDone
    split <;> rfl
  unfold Live.accountCopy
  dsimp only
  split
  · split <;> simp [hdone]
  · rfl

theorem Live.initialised_deliverCopy (r : CopyRead) : (l.deliverCopy c p r).initialised = l.initialised := by
  unfold Live.deliverCopy
  split
  · rfl
  · split
    · unfold Live.fillLatch
      split
      · simp
      · split <;> simp
    · rfl

theorem Live.initialised_copyCompleted (r : CopyRead) :
    (l.copyCompleted now c p r).initialised = l.initialised := by
  unfold Live.copyCompleted
  dsimp only
  split <;> simp [Live.initialised_deliverCopy, Live.initialised_accountCopy]

theorem Live.initialised_presentJob (prefer : Port) : ∀ (n : Nat) (l : Live),
    (Live.presentJob prefer n l).initialised = l.initialised
  | 0, _ => rfl
  | n + 1, l => by
    unfold Live.presentJob
    split
    · rfl
    · split
      · rfl
      · exact Live.initialised_presentJob prefer n _
    · rfl

end ports

/-! ## Withdrawal, FLUSH, ticks, resets -/

section records
variable (l : Live) (now : BitVec 16) (c : Fin 8) (p : Port)

theorem Live.initialised_withdrawItem (i : HeldItem) : (Live.withdrawItem c l i).initialised = l.initialised := by
  cases i <;> simp [Live.withdrawItem]

@[simp] theorem Live.initialised_withdrawAssembly : (l.withdrawAssembly c p).initialised = l.initialised := by
  unfold Live.withdrawAssembly
  split
  · split <;> simp
  · rfl

@[simp] theorem Live.initialised_withdrawLatch : (l.withdrawLatch c p).initialised = l.initialised := by
  unfold Live.withdrawLatch
  split
  · split <;> simp [Live.cutLatch]
  · split <;> simp
  · rfl

theorem Live.initialised_withdraw : (l.withdraw c).initialised = l.initialised := by
  simp only [Live.withdraw, Live.initialised_withdrawLatch, Live.initialised_withdrawAssembly]
  exact (foldl_initialised _ (fun m i => m.initialised_withdrawItem c i) _ _).trans
    (l.initialised_modCtx c (f := fun x => { x with held := [] }) rfl)

theorem Live.initialised_setWatermark (w : Watermark) :
    (l.modCtx c fun x => { x with watermark := w }).initialised = l.initialised := l.initialised_modCtx c rfl

theorem Live.initialised_flush : (l.flush now c).initialised = l.initialised := by
  unfold Live.flush
  split
  · exact l.initialised_modCtx c rfl
  · split <;> simp

/-- A context record that is applied initialises its context, or leaves it INITIALISED as it was (R140, R141). -/
theorem Live.initialised_installContext (bound : Bool) (r : Record) {d : Fin 8} (hd : l.initialised d = true) :
    (l.installContext c bound r).initialised d = true := by
  have hsoft : (l.modCtx c fun x => x.softApply r).initialised = l.initialised := l.initialised_modCtx c rfl
  have hrearm : ∀ m : Live, (m.rearm c).initialised = m.initialised := fun m => by
    unfold Live.rearm
    dsimp only
    split <;> exact m.initialised_setWatermark c _
  unfold Live.installContext
  split
  · dsimp only
    split
    · rwa [hsoft]
    · rwa [hrearm, hsoft]
  · unfold Live.initialised
    rw [Live.modCtx_ctxs]
    split
    · rfl
    · exact hd

theorem Live.initialised_tickPart (part : TickPart) : (Live.tickPart now l part).initialised = l.initialised := by
  cases part with
  | holdoff c =>
    change (l.holdoffPart c).initialised = _
    unfold Live.holdoffPart
    split
    · exact l.initialised_setWatermark c _
    · rfl
  | idle p =>
    change (l.idlePart p).initialised = _
    unfold Live.idlePart
    split <;> simp
  | held p =>
    change (l.heldPart now p).initialised = _
    unfold Live.heldPart
    split
    · rfl
    · split
      · split <;> simp [Live.expireCommit]
      · split <;> simp [Live.expirePop]
      · rfl
  | stale c =>
    change (l.stalePart now c).initialised = _
    unfold Live.stalePart
    split
    · split
      · simp
      · exact Live.initialised_modCtx _ c rfl
    · rfl

theorem Live.initialised_countDown : l.countDown.initialised = l.initialised := by
  funext c
  simp [Live.initialised, Live.countDown, Ctx.countDown]

theorem Live.initialised_resetQueues : (l.resetQueues now p).initialised = l.initialised := by
  have hpush : (l.resetPush now p).initialised = l.initialised := by
    unfold Live.resetPush
    split <;> simp
  rw [← hpush]
  unfold Live.resetQueues Live.resetPop
  split
  · rfl
  · simp
  · rfl
  · rfl

/-- The close of an event leaves the core of each context as it is. -/
theorem Live.Placed.initialised {l m : Live} (h : l.Placed m) : m.initialised = l.initialised :=
  funext fun d => (Ctx.core_eq_fields (h.core d)).2.2.1

theorem closeWatermarks_initialised (b : Live) : (closeWatermarks b l).initialised = l.initialised := by
  funext d
  unfold Live.initialised
  rw [closeWatermarks_ctxs]

theorem State.initialised_resetPort (s : State) (late : Vector (BitVec 8) 8) :
    (s.resetPort p late).initialised = s.initialised :=
  (closeWatermarks_initialised _ s.toLive).trans
    (Live.initialised_resetQueues ((s.toLive.resetAttn p).resetIface p) s.tick p)

end records

end Sys2Proof.Machine
end

section
/-! PROOFS. The binding law (R101): every step but power-on reset and the application of a window record leaves the
applied window records as they are, and no context loses its initialisation while they stand. -/

namespace Sys2Proof.Machine

/-! ## What an event leaves of the contexts -/

theorem State.Monitored.initialised {s : State} {l : Live} (h : s.Monitored l) {c : Fin 8}
    (hc : s.initialised c = true) : l.initialised c = true := by
  cases h with
  | quiet u hu => rwa [Live.initialised_of_ctxs hu.1]
  | withdrawn d => rwa [Live.initialised_withdraw]
  | installed d _ => exact Live.initialised_installContext _ d _ _ hc
  | flushed d => rwa [Live.initialised_flush]

/-- No event takes the initialisation of a context away (R20). -/
theorem State.Acted.initialised {s : State} {l : Live} (h : s.Acted l) {c : Fin 8} (hc : s.initialised c = true) :
    l.initialised c = true := by
  cases h with
  | quiet u hu => rwa [Live.initialised_of_ctxs hu.1]
  | pushed i idle p d t last => rwa [Live.initialised_append, Live.initialised_setIface]
  | popped i p d burst => rwa [Live.initialised_popRead, Live.initialised_setIface]
  | presented prefer => rwa [Live.initialised_presentJob]
  | granted r => rwa [Live.initialised_of_ctxs (State.grantJob_ctxs { s with pointer := r })]
  | written d slot address header payload p _ => rwa [Live.initialised_entryWritten]
  | copied d slot address payloadMax p r _ => rwa [Live.initialised_copyCompleted]
  | fetched d slot address cache u _ hu _ =>
    rwa [Live.initialised_of_ctxs hu, Live.initialised_modCtx _ d rfl]
  | monitored u p words hu =>
    exact State.monitorActs_keeps (P := fun m => m.initialised c = true)
      (fun _ _ hv h => by rwa [Live.initialised_of_ctxs hv.1])
      (fun m d r h => by rwa [Live.initialised_modCtx m d rfl])
      (fun _ _ h hm => hm.initialised h) (by rwa [Live.initialised_of_ctxs hu.1]) p words
  | ticked order => rwa [foldl_initialised _ fun m part => m.initialised_tickPart _ part, Live.initialised_countDown]

/-! ## Events that apply no window record -/

theorem State.bindingLaw_iff (s : State) : s.BindingLaw ↔
    (∀ v w : Fin 16, s.windows[v].applied.isRing = true → s.windows[w].applied.isRing = true →
      s.windows[v].applied.winCtx = s.windows[w].applied.winCtx → v = w) ∧
    ∀ w : Fin 16, s.windows[w].applied.isRing = true → s.initialised s.windows[w].applied.winCtx = true := Iff.rfl

/-- The applied window records of `t` are those of `s`, and every context INITIALISED in `s` is so in `t`. -/
structure State.LeavesBindings (s t : State) : Prop where
  windows     : ∀ w : Fin 16, t.windows[w].applied = s.windows[w].applied
  initialised : ∀ c : Fin 8, s.initialised c = true → t.initialised c = true

theorem State.LeavesBindings.bindingLaw {s t : State} (h : s.LeavesBindings t) (hs : s.BindingLaw) : t.BindingLaw := by
  rw [State.bindingLaw_iff] at hs ⊢
  obtain ⟨hone, hinit⟩ := hs
  refine ⟨fun v w => ?_, fun w hw => ?_⟩
  · rw [h.windows v, h.windows w]
    exact hone v w
  · rw [h.windows w] at hw ⊢
    exact h.initialised _ (hinit w hw)

/-- What leaves the windows and the contexts as they are. -/
theorem State.LeavesBindings.of_same {s t : State} (hw : t.windows = s.windows) (hc : t.ctxs = s.ctxs) :
    s.LeavesBindings t :=
  ⟨fun w => by rw [hw], fun c h => by rwa [Live.initialised_of_ctxs hc]⟩

/-- The close of an event leaves both as they are. -/
theorem State.LeavesBindings.close (s t : State) : t.LeavesBindings (closeEvent s t) :=
  ⟨fun _ => rfl, fun c hc => (congrArg (· = true) (Ctx.core_eq_fields (closeEvent_core s t c)).2.2.1).mpr hc⟩

theorem State.LeavesBindings.trans {s t u : State} (h : s.LeavesBindings t) (k : t.LeavesBindings u) :
    s.LeavesBindings u :=
  ⟨fun w => (k.windows w).trans (h.windows w), fun c hc => k.initialised c (h.initialised c hc)⟩

theorem State.LeavesBindings.of_acted {s t : State} (hw : t.windows = s.windows) (ha : s.Acted t.toLive) :
    s.LeavesBindings (closeEvent s t) :=
  State.LeavesBindings.trans ⟨fun w => by rw [hw], fun _ hc => ha.initialised hc⟩ (.close s t)

theorem State.LeavesBindings.of_event {possible : Bool} {s t : State} {f : State → State}
    (h : Machine.event possible s f = .next t) (hw : (f s).windows = s.windows) (ha : s.Acted (f s).toLive) :
    s.LeavesBindings t := by
  rcases event_cases h with ⟨_, _, rfl⟩ | rfl
  · exact .of_acted hw ha
  · exact .of_same rfl rfl

theorem State.LeavesBindings.of_still {possible : Bool} {s t : State} {f : State → State}
    (h : Machine.event possible s f = .next t) (hw : (f s).windows = s.windows) (hf : s.Still (f s)) :
    s.LeavesBindings t := .of_event h hw (.quiet _ hf)

section windows
variable (s : State) (p : Port) (t : Transfer)

@[simp] theorem State.refuseTransfer_windows (k : FaultKind) : (s.refuseTransfer p t k).windows = s.windows := rfl

@[simp] theorem State.handDown_windows (d : Decode) (u : PathUnit) : (s.handDown p t d u).windows = s.windows := by
  unfold State.handDown
  split <;> rfl

@[simp] theorem State.takePass_windows : (s.takePass p t).windows = s.windows := by
  unfold State.takePass
  split <;> simp

@[simp] theorem State.takePlain_windows : (s.takePlain p t).windows = s.windows := by
  unfold State.takePlain
  split
  · dsimp only
    split <;> simp
  · rfl

@[simp] theorem State.takeUnmapped_windows : (s.takeUnmapped p t).windows = s.windows := by
  unfold State.takeUnmapped
  split <;> rfl

@[simp] theorem State.takeCbRead_windows : (s.takeCbRead p t).windows = s.windows := by
  unfold State.takeCbRead
  split <;> simp

@[simp] theorem State.takeCbWrite_windows : (s.takeCbWrite p t).windows = s.windows := by
  unfold State.takeCbWrite
  split
  · split <;> simp
  · rfl

@[simp] theorem State.takeBitfield_windows : (s.takeBitfield p t).windows = s.windows := by
  unfold State.takeBitfield
  split
  · dsimp only
    split
    · rfl
    · split <;> simp
  · rfl

@[simp] theorem State.takePeek_windows (d : Decode) (c : Fin 8) : (s.takePeek p t d c).windows = s.windows := by
  unfold State.takePeek
  split <;> simp

theorem State.takeTransfer_windows {f : Transfer → State → State} (hf : ∀ t, (f t s).windows = s.windows) :
    (s.takeTransfer p f).windows = s.windows := by
  unfold State.takeTransfer
  split
  · exact hf _
  · rfl

theorem State.ring_windows (sub : SubRange) {act : Transfer → Decode → Fin 8 → State → State}
    (ha : ∀ t d c (u : State), (act t d c u).windows = u.windows) :
    (s.takeTransfer p fun t u => u.takeRing p t sub (act t)).windows = s.windows := by
  refine s.takeTransfer_windows p fun t => ?_
  unfold State.takeRing
  split
  · dsimp only
    split
    · rfl
    · split
      · rfl
      · exact ha _ _ _ _
  · rfl

@[simp] theorem State.completeUnit_windows (u : PathUnit) (answer : Live → Live) :
    (s.completeUnit p u answer).windows = s.windows := by
  have hleft : (s.finishUnit.leavePath p).windows = s.windows := by
    unfold State.leavePath
    split <;> rfl
  unfold State.completeUnit
  dsimp only
  split <;> exact hleft

theorem State.completeRead_windows : s.completeRead.windows = s.windows := by
  unfold State.completeRead
  split <;> simp

theorem State.completeBitfield_windows : s.completeBitfield.windows = s.windows := by
  unfold State.completeBitfield
  split
  · split <;> simp
  · rfl

theorem State.grant_windows : s.grant.windows = s.windows := by
  unfold State.grant
  split
  · rfl
  · next r _ =>
    cases r with
    | portA => rfl
    | portB => rfl
    | engine =>
      unfold State.grantTo State.grantJob
      dsimp only
      split
      · rfl
      · split <;> rfl
    | mirror =>
      unfold State.grantTo State.grantMirror
      dsimp only
      split <;> rfl

theorem State.takeStanding_windows (standing : Option Transfer) :
    (s.takeStanding p standing).windows = s.windows := by
  rw [State.takeStanding_eq]

theorem State.stampFetched_windows (m : Memory) (c : Fin 8) (address : Nat) :
    (s.stampFetched m c address).windows = s.windows := by
  unfold State.stampFetched
  split
  · split <;> rfl
  · rfl

end windows

/-! ## The monitor (R136) -/

/-- The window record at each place after the record of window `v` was replaced. -/
theorem windows_set (ws : Vector Window 16) (v w : Fin 16) (r : Window) :
    (ws.set v r)[w] = if w = v then r else ws[w] := by
  split
  · next e => exact e ▸ Vector.getElem_set_self _
  · next e => exact Vector.getElem_set_ne v.isLt w.isLt fun e' => e (Fin.ext e'.symm)

section monitor
variable (s : State) (p : Port)

theorem State.globalAck_windows (w : Word) : (s.globalAck p w).windows = s.windows := by
  unfold State.globalAck
  dsimp only
  split <;> split <;> split <;> rfl

/-- A word that acts leaves the windows as they are, or installs a staged record that passes its checks at its window
(R136, R138). -/
theorem State.actWord_windows (w : CbWord) : (s.actWord p w).windows = s.windows ∨
    ∃ v : Fin 16, s.windowReason v s.windows[v].staged = none ∧
      (s.actWord p w).windows = s.windows.set v { s.windows[v] with applied := s.windows[v].staged } := by
  unfold State.actWord
  split
  · split
    · unfold State.writeGlobal
      dsimp only
      split <;> exact .inl rfl
    · exact .inl rfl
    · split
      · exact .inl (s.globalAck_windows p _)
      · exact .inl rfl
    · split
      · unfold State.contextAck
        split <;> exact .inl rfl
      · exact .inl rfl
    · next v _ =>
      unfold State.applyWindow
      split
      · exact .inl rfl
      · next hr =>
        refine .inr ⟨v, hr, ?_⟩
        unfold State.installWindow
        dsimp only
        split <;> rfl
    · unfold State.applyContext
      split <;> exact .inl rfl
    · unfold State.command
      split
      · exact .inl rfl
      · split <;> exact .inl rfl
      · exact .inl rfl
    · exact .inl rfl
  · exact .inl rfl

variable {s}

/-- A window record that passes keeps the law: where it is an enabled RING record, its context is INITIALISED and no
other window binds it (R90, R101). -/
theorem State.BindingLaw.install (hs : s.BindingLaw) {t : State} (v : Fin 16) (r : Window)
    (hr : s.windowReason v r.applied = none) (hw : t.windows = s.windows.set v r)
    (hi : ∀ c : Fin 8, s.initialised c = true → t.initialised c = true) : t.BindingLaw := by
  rw [State.bindingLaw_iff] at hs ⊢
  obtain ⟨hone, hinit⟩ := hs
  have hwin : ∀ w : Fin 16, t.windows[w] = if w = v then r else s.windows[w] := fun w => by
    rw [hw, windows_set]
  have hpass : r.applied.isRing = true → s.ctxs[r.applied.winCtx].initialised = true ∧
      ∀ w : Fin 16, w ≠ v → s.windows[w].applied.isRing = true →
        s.windows[w].applied.winCtx ≠ r.applied.winCtx := fun hring => by
    obtain ⟨hen, hkind⟩ : r.applied.winEnable = true ∧ r.applied.kind = .ring := by
      simpa [Record.isRing] using hring
    obtain hoff | ⟨_, _, _, _, _, _, _, hbind⟩ := (s.windowReason_eq_none v r.applied).1 hr
    · simp [hen] at hoff
    · exact hbind hkind
  refine ⟨fun a b => ?_, fun w => ?_⟩
  · rw [hwin a, hwin b]
    split
    · next ea =>
      split
      · next eb => exact fun _ _ _ => ea.trans eb.symm
      · next eb => exact fun ha hb e => absurd e.symm ((hpass ha).2 b eb hb)
    · next ea =>
      split
      · next eb => exact fun ha hb e => absurd e ((hpass hb).2 a ea ha)
      · exact hone a b
  · rw [hwin w]
    split
    · exact fun hring => hi _ (hpass hring).1
    · exact fun hring => hi _ (hinit w hring)

theorem State.BindingLaw.actWord (hs : s.BindingLaw) (w : CbWord) : (s.actWord p w).BindingLaw := by
  have hi : ∀ c : Fin 8, s.initialised c = true → (s.actWord p w).initialised c = true :=
    fun _ hc => (s.monitored_actWord p w).initialised hc
  obtain h | ⟨v, hr, h⟩ := s.actWord_windows p w
  · exact State.LeavesBindings.bindingLaw ⟨fun v => by rw [h], hi⟩ hs
  · exact hs.install v _ hr h hi

/-- The first pass writes staged records alone (R137). -/
theorem State.leavesBindings_stageWord (s : State) (w : CbWord) : s.LeavesBindings (s.stageWord w) := by
  refine ⟨fun v => ?_, fun c hc => ?_⟩
  · unfold State.stageWord
    split
    · split
      · rw [windows_set]
        split
        · next e => rw [e]
        · rfl
      · rfl
      · rfl
    · rfl
  · rcases s.stageWord_cases w with h | ⟨d, r, h⟩
    · rwa [Live.initialised_of_ctxs h.1]
    · rwa [h, Live.initialised_modCtx _ d rfl]

theorem State.BindingLaw.completeCbWrite (hs : s.BindingLaw) : s.completeCbWrite.BindingLaw := by
  unfold State.completeCbWrite
  split
  · exact hs
  · next q u _ =>
    have hdone : s.LeavesBindings (s.completeUnit q u fun l => l.answerOk q .okWrite) :=
      .of_same (s.completeUnit_windows q u _) (s.still_completeUnit q u _ fun l => ⟨by simp, by simp⟩).1
    exact foldl_preserves State.BindingLaw _ (fun _ w hu => hu.actWord q w) _ _
      (foldl_preserves State.BindingLaw _ (fun u w hu => (u.leavesBindings_stageWord w).bindingLaw hu) _ _
        (hdone.bindingLaw hs))

end monitor

/-! ## Commands and steps -/

theorem State.BindingLaw.of_cbWrite {possible : Bool} {s t : State} (hs : s.BindingLaw)
    (h : Machine.event possible s (fun s => s.completeCbWrite) = .next t) : t.BindingLaw := by
  rcases event_cases h with ⟨_, _, rfl⟩ | rfl
  · exact (State.LeavesBindings.close s _).bindingLaw hs.completeCbWrite
  · exact hs

theorem exec_bindingLaw {i : Instr} {s t : State} (hs : s.BindingLaw) (h : exec i s = .next t) : t.BindingLaw := by
  have quiet : ∀ {possible : Bool} {f : State → State}, Machine.event possible s f = .next t →
      (f s).windows = s.windows → s.Still (f s) → t.BindingLaw := fun h hw hf =>
    (State.LeavesBindings.of_still h hw hf).bindingLaw hs
  have acts : ∀ {possible : Bool} {f : State → State}, Machine.event possible s f = .next t →
      (f s).windows = s.windows → s.Acted (f s).toLive → t.BindingLaw := fun h hw ha =>
    (State.LeavesBindings.of_event h hw ha).bindingLaw hs
  cases i with
  | transferArrival p u =>
    rw [exec_transferArrival, execTransferArrival] at h
    exact quiet h rfl ⟨rfl, rfl⟩
  | requestWithdrawal p =>
    rw [exec_requestWithdrawal, execRequestWithdrawal] at h
    exact quiet h rfl ⟨rfl, rfl⟩
  | passThrough p =>
    rw [exec_passThrough, execPassThrough] at h
    exact quiet h (s.takeTransfer_windows p (s.takePass_windows p)) (s.still_takeTransfer p _ (s.still_takePass p))
  | plainWindowTransfer p =>
    rw [exec_plainWindowTransfer, execPlainWindowTransfer] at h
    exact quiet h (s.takeTransfer_windows p (s.takePlain_windows p)) (s.still_takeTransfer p _ (s.still_takePlain p))
  | unmapped p =>
    rw [exec_unmapped, execUnmapped] at h
    exact quiet h (s.takeTransfer_windows p (s.takeUnmapped_windows p))
      (s.still_takeTransfer p _ (s.still_takeUnmapped p))
  | cbRead p =>
    rw [exec_cbRead, execCbRead] at h
    exact quiet h (s.takeTransfer_windows p (s.takeCbRead_windows p))
      (s.still_takeTransfer p _ (s.still_takeCbRead p))
  | cbWrite p =>
    rw [exec_cbWrite, execCbWrite] at h
    exact quiet h (s.takeTransfer_windows p (s.takeCbWrite_windows p))
      (s.still_takeTransfer p _ (s.still_takeCbWrite p))
  | push p =>
    rw [exec_push, execPush] at h
    exact acts h (s.ring_windows p .push fun _ _ _ _ => rfl)
      (s.acted_ring p .push _ fun u _ c => .pushed _ _ p c u false)
  | pushLast p =>
    rw [exec_pushLast, execPushLast] at h
    exact acts h (s.ring_windows p .pushLast fun _ _ _ _ => rfl)
      (s.acted_ring p .pushLast _ fun u _ c => .pushed _ _ p c u true)
  | pop p =>
    rw [exec_pop, execPop] at h
    exact acts h (s.ring_windows p .pop fun _ _ _ _ => rfl)
      (s.acted_ring p .pop _ fun u _ c => .popped _ p c u.burst)
  | peek p =>
    rw [exec_peek, execPeek] at h
    exact acts h (s.ring_windows p .peek fun t d c u => u.takePeek_windows p t d c)
      (s.acted_ring p .peek _ fun u d c => .quiet _ (State.still_takePeek (s.handOn p u d) p u d c))
  | state p =>
    rw [exec_state, execState] at h
    exact acts h (s.ring_windows p .state fun _ _ _ _ => rfl)
      (s.acted_ring p .state _ fun u d c => .quiet (State.onLive (s.handOn p u d) _)
        ⟨Live.answerOk_ctxs _ _ _, Live.answerOk_jobs _ _ _⟩)
  | bitfieldTransfer p =>
    rw [exec_bitfieldTransfer, execBitfieldTransfer] at h
    exact quiet h (s.takeTransfer_windows p (s.takeBitfield_windows p))
      (s.still_takeTransfer p _ (s.still_takeBitfield p))
  | bitfieldPlainWrite => exact quiet h s.completeBitfield_windows s.still_completeBitfield
  | set => exact quiet h s.completeBitfield_windows s.still_completeBitfield
  | clear => exact quiet h s.completeBitfield_windows s.still_completeBitfield
  | toggle => exact quiet h s.completeBitfield_windows s.still_completeBitfield
  | bitfieldPlainRead => exact quiet h s.completeBitfield_windows s.still_completeBitfield
  | fetchAndClear => exact quiet h s.completeBitfield_windows s.still_completeBitfield
  | compareRead => exact quiet h s.completeBitfield_windows s.still_completeBitfield
  | arbiterGrant => exact acts h s.grant_windows s.acted_grant
  | jobPresentation prefer =>
    rw [exec_jobPresentation, execJobPresentation] at h
    exact acts h rfl (.presented prefer)
  | portReadCompletion => exact quiet h s.completeRead_windows s.still_completeRead
  | portWriteCompletion =>
    rw [exec_portWriteCompletion, execPortWriteCompletion] at h
    refine quiet h ?_ ?_
    · split <;> simp
    · split
      · exact .refl s
      · exact s.still_completeUnit _ _ _ fun l => ⟨by simp, by simp⟩
  | noticeWordReadClear => exact quiet h s.completeRead_windows s.still_completeRead
  | peekReadCompletion =>
    rw [exec_peekReadCompletion, execPeekReadCompletion] at h
    refine quiet h ?_ ?_
    · split <;> simp
    · split
      · exact .refl s
      · refine s.still_completeUnit _ _ _ fun l => ?_
        split <;> simp
  | entryWriteCompletion =>
    rw [exec_entryWriteCompletion, execEntryWriteCompletion] at h
    refine acts h ?_ ?_
    · split <;> rfl
    · split
      · next hj => exact .written _ _ _ _ _ _ (s.currentJob_inProgress hj)
      · exact .quiet _ (.refl s)
  | entryCopyCompletion =>
    rw [exec_entryCopyCompletion, execEntryCopyCompletion] at h
    refine acts h ?_ ?_
    · split <;> rfl
    · split
      · next hj => exact .copied _ _ _ _ _ _ (s.currentJob_inProgress hj)
      · exact .quiet _ (.refl s)
  | stampFetchCompletion =>
    rw [exec_stampFetchCompletion, execStampFetchCompletion] at h
    refine acts h ?_ ?_
    · split
      · exact s.leaveJob.stampFetched_windows _ _ _
      · rfl
    · split
      · next c slot address hj =>
        obtain ⟨cache, h1, h2⟩ := s.leaveJob.stampFetched_cases s.mem c address
        exact .fetched c slot address cache _ (s.currentJob_inProgress hj) h1 h2
      · exact .quiet _ (.refl s)
  | signalUpdateGrant => exact acts h s.grant_windows s.acted_grant
  | signalUpdateCompletion =>
    rw [exec_signalUpdateCompletion, execSignalUpdateCompletion] at h
    refine quiet h ?_ ?_
    · split
      · split <;> rfl
      · rfl
    · split
      · split <;> exact ⟨rfl, rfl⟩
      · exact .refl s
  | mirrorWrite => exact acts h s.grant_windows s.acted_grant
  | globalWord => exact hs.of_cbWrite h
  | enableWord => exact hs.of_cbWrite h
  | ackConfig => exact hs.of_cbWrite h
  | ackFault => exact hs.of_cbWrite h
  | ackEngine => exact hs.of_cbWrite h
  | contextAck => exact hs.of_cbWrite h
  | stageRecordWord => exact hs.of_cbWrite h
  | windowRecordApply => exact hs.of_cbWrite h
  | contextRecordApply => exact hs.of_cbWrite h
  | flush => exact hs.of_cbWrite h
  | cbPlainWrite => exact hs.of_cbWrite h
  | tick order => exact acts h rfl (s.acted_tick order)
  | idleExpiry p => exact acts h rfl (s.acted_tick _)
  | stallExpiry p => exact acts h rfl (s.acted_tick _)
  | waitExpiry p => exact acts h rfl (s.acted_tick _)
  | holdoffExpiry c => exact acts h rfl (s.acted_tick _)
  | stale c => exact acts h rfl (s.acted_tick _)
  | portReset p late =>
    cases h
    refine State.LeavesBindings.bindingLaw ?_ hs
    split
    · exact .of_same rfl rfl
    · split
      · exact .of_same rfl rfl
      · refine ⟨fun _ => rfl, fun c hc => ?_⟩
        rwa [(settle_placed s _).initialised, State.initialised_resetPort]
  | portResetRelease p standing =>
    cases h
    refine State.LeavesBindings.bindingLaw ?_ hs
    split
    · exact .of_same rfl rfl
    · split
      · exact .of_same (State.takeStanding_windows _ p standing) (State.still_takeStanding _ p standing).1
      · exact .of_same rfl rfl
  | powerOnReset cbsel memsz =>
    cases h
    exact (State.LeavesBindings.of_same (s := State.reset) rfl rfl).bindingLaw State.reset_bindingLaw
  | powerOnResetRelease a b =>
    cases h
    refine State.LeavesBindings.bindingLaw ?_ hs
    split
    · exact .of_same ((State.takeStanding_windows _ .B b).trans (State.takeStanding_windows _ .A a))
        ((State.still_takeStanding { s with inReset := false } .A a).trans (State.still_takeStanding _ .B b)).1
    · exact .of_same rfl rfl
  | mirrorUnitCompletion => exact quiet h rfl ⟨rfl, rfl⟩

/-- Settles O6: a step installs a window record only where it passes its checks, which are those of the law; whatever
else it does leaves the applied window records as they are and every INITIALISED context INITIALISED. -/
theorem stepsKeepTheBindingLaw : Obligations.StepsKeepTheBindingLaw := by
  intro s t hs h
  unfold step at h
  split at h
  · cases h
    refine State.LeavesBindings.bindingLaw ?_ hs
    unfold State.clockPeriod
    split
    · exact .of_same rfl rfl
    · split
      · exact .of_same rfl rfl
      · exact .of_acted rfl (s.acted_tick [])
  · next c rest _ => exact exec_bindingLaw (s := { s with pending := rest }) hs h

end Sys2Proof.Machine
end

section
/-! PROOFS. The class of an address, the decision of a burst, rights, levels and shapes (R91, R92, R95-R98). -/

namespace Sys2Proof

theorem Transfer.isWrite_iff (t : Transfer) : t.isWrite = true ↔ t.dir = .write := beq_iff_eq

end Sys2Proof

namespace Sys2Proof.Machine

/-! ## The class of an address (R91) -/

/-- The window is enabled and its aperture holds the address (R91). -/
def Record.Covers (r : Record) (a : Nat) : Prop :=
  r.winEnable = true ∧ r.apertureBase ≤ a ∧ a < r.apertureBase + r.apertureSize

theorem mem_allWindows : ∀ w : Fin 16, w ∈ allWindows := by decide

/-- The windows in index order: those before window `w` have a lower index. -/
theorem allWindows_split : ∀ w : Fin 16, allWindows = allWindows.take w.val ++ w :: allWindows.drop (w.val + 1) ∧
    ∀ v ∈ allWindows.take w.val, v < w := by decide

section address
variable {s : State} {a : Nat}

theorem State.covers_iff (s : State) (a : Nat) (w : Fin 16) :
    (s.windows[w].applied.winEnable && decide (s.windows[w].applied.apertureBase ≤ a) &&
      decide (a < s.windows[w].applied.apertureBase + s.windows[w].applied.apertureSize)) = true ↔
        s.windows[w].applied.Covers a := by
  simp only [Record.Covers, Bool.and_eq_true, decide_eq_true_eq, and_assoc]

theorem State.windowAt_first {w : Fin 16} (hw : s.windows[w].applied.Covers a)
    (hv : ∀ v : Fin 16, v < w → ¬s.windows[v].applied.Covers a) : s.windowAt a = some w := by
  obtain ⟨hsplit, hlower⟩ := allWindows_split w
  refine List.find?_eq_some_iff_append.2 ⟨(s.covers_iff a w).2 hw, _, _, hsplit, fun v hmem => ?_⟩
  rw [Bool.not_eq_true', ← Bool.not_eq_true, s.covers_iff a v]
  exact hv v (hlower v hmem)

theorem State.windowAt_none (hv : ∀ v : Fin 16, ¬s.windows[v].applied.Covers a) : s.windowAt a = none :=
  List.find?_eq_none.2 fun v _ => (s.covers_iff a v).not.2 (hv v)

theorem State.classify_beyond (h : 67108864 ≤ a) : s.classify a = .unmapped := if_pos h

theorem State.classify_controlBlock (h : a < 67108864) (hc : s.cbBase ≤ a ∧ a < s.cbBase + 4096) :
    s.classify a = .cb :=
  (if_neg (Nat.not_le.2 h)).trans (if_pos hc)

/-- Outside the control block the window that decides gives the class (R91). -/
theorem State.classify_outside (h : a < 67108864) (hc : ¬(s.cbBase ≤ a ∧ a < s.cbBase + 4096)) {found : Option (Fin 16)}
    (hw : s.windowAt a = found) : s.classify a =
      found.elim (if a < s.installed then .pass else .unmapped) .window := by
  subst hw
  refine (if_neg (Nat.not_le.2 h)).trans ((if_neg hc).trans ?_)
  cases s.windowAt a <;> rfl

end address

/-- Settles O17, test by test: the control block, the lowest window that covers the address, installed memory. -/
theorem classOfAnAddress : Obligations.ClassOfAnAddress := fun _ _ h =>
  ⟨State.classify_controlBlock h, fun hc _ hw hv => State.classify_outside h hc (State.windowAt_first hw hv),
    fun hc hv => State.classify_outside h hc (State.windowAt_none hv)⟩

/-! ## The decision of a burst (R92) -/

section burst
variable {s : State} {p : Port} {t : Transfer}

/-- A burst whose words are of two classes is UNMAPPED where none is of the control block or a window, else mixed. -/
theorem State.decision_of_differ
    (h : ∃ a ∈ t.addresses, ∃ b ∈ t.addresses, s.classify a ≠ s.classify b) : s.decision t =
      if ∀ a ∈ t.addresses, s.classify a = .pass ∨ s.classify a = .unmapped then .unmapped else .mixed := by
  have hfirst : ¬(t.addresses.map s.classify).all (· == s.firstClass t) = true := by
    obtain ⟨a, ha, b, hb, hab⟩ := h
    simp only [List.all_map, List.all_eq_true, Function.comp, beq_iff_eq]
    exact fun hall => hab ((hall a ha).trans (hall b hb).symm)
  unfold State.decision decisionOf
  rw [if_neg hfirst]
  refine if_congr ?_ rfl rfl
  simp only [List.all_map, List.all_eq_true, Function.comp, Bool.or_eq_true, beq_iff_eq]

theorem State.decision_unmapped (h : ∃ a ∈ t.addresses, s.classify a = .unmapped)
    (hall : ∀ a ∈ t.addresses, s.classify a = .pass ∨ s.classify a = .unmapped) : s.decision t = .unmapped := by
  by_cases hu : ∀ a ∈ t.addresses, s.classify a = .unmapped
  · exact s.decision_of_all t .unmapped hu
  · obtain ⟨a, ha, hac⟩ := h
    simp only [not_forall, exists_prop] at hu
    obtain ⟨b, hb, hbc⟩ := hu
    rw [State.decision_of_differ ⟨a, ha, b, hb, fun e => hbc (e.symm.trans hac)⟩, if_pos hall]

theorem State.decision_mixed (h : ∃ a ∈ t.addresses, ∃ b ∈ t.addresses, s.classify a ≠ s.classify b)
    (hother : ∃ a ∈ t.addresses, s.classify a ≠ .pass ∧ s.classify a ≠ .unmapped) : s.decision t = .mixed := by
  obtain ⟨a, ha, hpass, hunmapped⟩ := hother
  rw [State.decision_of_differ h, if_neg fun hall => (hall a ha).elim hpass hunmapped]

theorem State.refusalOf_unmapped (h : s.decision t = .unmapped) : s.refusalOf p t = some .unmapped := by
  unfold State.refusalOf
  rw [h]

theorem State.refusalOf_mixed (h : s.decision t = .mixed) : s.refusalOf p t = some .shape := by
  unfold State.refusalOf
  rw [h]

end burst

/-! ## Rights and levels (R95) -/

/-- The right that the operation calls for, by its direction. -/
theorem Record.hasRight_iff (r : Record) (p : Port) (t : Transfer) (fetchClear : Bool) :
    r.hasRight p t fetchClear = true ↔
      (t.dir = .write → r.rights p = 2 ∨ r.rights p = 3) ∧ (t.dir = .read → fetchClear = true → r.rights p = 3) ∧
        (t.dir = .read → fetchClear = false → r.rights p = 1 ∨ r.rights p = 3) := by
  unfold Record.hasRight Transfer.isWrite Record.mayWrite Record.mayRead
  cases t.dir with
  | write => simp
  | read => cases fetchClear <;> simp

theorem Record.admits_iff (r : Record) (p : Port) (t : Transfer) (fetchClear : Bool) :
    r.admits p t fetchClear = true ↔
      (t.dir = .write → r.rights p = 2 ∨ r.rights p = 3) ∧ (t.dir = .read → fetchClear = true → r.rights p = 3) ∧
        (t.dir = .read → fetchClear = false → r.rights p = 1 ∨ r.rights p = 3) ∧ t.level.toNat ≤ r.minLevel p := by
  rw [Record.admits, Bool.and_eq_true, r.hasRight_iff, decide_eq_true_iff, and_assoc, and_assoc]

/-! ## Edges inside a window (R96-R98) -/

/-- The edges of the five sub-ranges (R97). -/
theorem subRangeOf_iff (offset : Nat) :
    (subRangeOf offset = .push ↔ offset < 0x400) ∧
      (subRangeOf offset = .pushLast ↔ 0x400 ≤ offset ∧ offset < 0x800) ∧
      (subRangeOf offset = .pop ↔ 0x800 ≤ offset ∧ offset < 0xC00) ∧
      (subRangeOf offset = .peek ↔ 0xC00 ≤ offset ∧ offset < 0xE00) ∧
      (subRangeOf offset = .state ↔ 0xE00 ≤ offset) := by
  unfold subRangeOf
  split_ifs <;> simp <;> omega

/-- The edges of the four quarters of an aperture of `4 * n` bytes (R98). -/
theorem quarterOf_iff {n offset : Nat} (q : Quarter) (h : offset < 4 * n) :
    quarterOf (4 * n) offset = q ↔ q.index * n ≤ offset ∧ offset < (q.index + 1) * n := by
  have hn : 4 * n / 4 = n := Nat.mul_div_cancel_left n (by decide)
  unfold quarterOf
  rw [hn]
  cases q <;> simp only [Quarter.index] <;> split_ifs <;> simp <;> omega

theorem Record.apertureSize_eq (r : Record) : r.apertureSize = 4 * (1024 * 2 ^ r.sizeCode) := by
  unfold Record.apertureSize
  omega

/-- The shape that a sub-range accepts (R96). -/
theorem Record.ringShape_iff (r : Record) (t : Transfer) (sub : SubRange) : r.ringShape t sub = true ↔
    (∀ be ∈ t.wordEnables, be = 0xF) ∧ (∀ a ∈ t.addresses, subRangeOf (a - r.apertureBase) = sub) ∧
      (t.dir = .write ↔ sub = .push ∨ sub = .pushLast) ∧ (sub = .peek ∨ sub = .state → t.burst = .one) := by
  have hone : t.k = 1 ↔ t.burst = .one := by
    unfold Transfer.k
    cases t.burst <;> decide
  have hread : t.isWrite = false ↔ ¬t.dir = .write := by rw [← t.isWrite_iff, Bool.not_eq_true]
  simp only [Record.ringShape, Bool.and_eq_true, List.all_eq_true, beq_iff_eq, and_assoc, allEnabled]
  refine and_congr_right fun _ => and_congr_right fun _ => ?_
  cases sub <;> simp [t.isWrite_iff, hread, hone]

theorem Record.inQuarter_iff (r : Record) (t : Transfer) : r.inQuarter t = true ↔ ∀ a ∈ t.addresses,
    quarterOf r.apertureSize (a - r.apertureBase) = quarterOf r.apertureSize (t.address - r.apertureBase) := by
  simp only [Record.inQuarter, Record.offsetOf, List.all_eq_true, beq_iff_eq]

/-! ## The refusal of a window (R95, R96) -/

/-- The operation of the transfer at the window is a fetch-and-clear, which calls for both rights (R95, R107). -/
def Record.fetchClears (r : Record) (t : Transfer) : Bool :=
  r.kind == .bitfield && quarterOf r.apertureSize (t.address - r.apertureBase) == .q1

/-- The shape rule of the window's kind (R96). -/
def Record.acceptsShape (r : Record) (t : Transfer) : Bool :=
  match r.kind with
  | .plain => true
  | .ring => r.ringShape t (subRangeOf (t.address - r.apertureBase))
  | .bitfield => r.inQuarter t

/-- A window refuses with ACCESS by the rights and the level, before it refuses with SHAPE. -/
theorem State.refusalOf_window {s : State} {t : Transfer} {w : Fin 16} (p : Port) (h : s.decision t = .window w) :
    s.refusalOf p t =
      if s.windows[w].applied.admits p t (s.windows[w].applied.fetchClears t) then
        if s.windows[w].applied.acceptsShape t then none else some .shape
      else some .access := by
  unfold State.refusalOf Record.fetchClears Record.acceptsShape
  rw [h]
  dsimp only
  generalize s.windows[w].applied = r
  cases r.kind <;> rfl

/-- Settles O18, rule by rule: the decision, the right and the level, the edges, the shapes, and the refusals. -/
theorem decisionRightsAndLevel : Obligations.DecisionRightsAndLevel := by
  refine ⟨fun s t p => ⟨rfl, fun _ => State.classify_beyond, s.decision_of_all t .cb,
    fun w => s.decision_of_all t (.window w), s.decision_of_all t .pass, fun h hall => ?_, fun h hother => ?_⟩,
    Record.admits_iff, fun offset _ => subRangeOf_iff offset, fun r offset q h => ?_,
    fun r t sub => ⟨r.ringShape_iff t sub, r.inQuarter_iff t⟩, fun s t p w h => ?_⟩
  · exact ⟨State.decision_unmapped h hall, State.refusalOf_unmapped (State.decision_unmapped h hall)⟩
  · exact ⟨State.decision_mixed h hother, State.refusalOf_mixed (State.decision_mixed h hother)⟩
  · rw [r.apertureSize_eq]
    exact quarterOf_iff q (by omega)
  · intro r fetchClear
    refine ⟨fun ha => (s.refusalOf_window p h).trans (if_neg (Bool.eq_false_iff.1 ha)), fun ha => ?_⟩
    have hshape : s.refusalOf p t = if r.acceptsShape t then none else some .shape :=
      (s.refusalOf_window p h).trans (if_pos ha)
    unfold Record.acceptsShape at hshape
    refine ⟨fun hk => ?_, fun hk => ?_, fun hk => ?_⟩ <;> rwa [hk] at hshape

end Sys2Proof.Machine
end

section
/-! PROOFS. A transfer before the decoder: refused, whichever row takes it, or handed down its port's path (R92-R96,
R98, R99, R107, R151, R163). -/

namespace Sys2Proof.Machine

/-! ## What a window's row does with a transfer (R94-R98) -/

section takes
variable {s : State} {t : Transfer} {w : Fin 16} (p : Port)

theorem State.takePlain_window (h : s.decision t = .window w) : s.takePlain p t =
    if s.windows[w].applied.admits p t false then
      s.handDown p t (.plain w (s.windows[w].applied.translate t.address))
        (Transfer.pathUnit t (plainWork t) (s.windows[w].applied.translate t.address))
    else s.refuseTransfer p t .access := by
  unfold State.takePlain
  rw [h]

theorem State.takeRing_window (h : s.decision t = .window w) (sub : SubRange) (act : Decode → Fin 8 → State → State) :
    s.takeRing p t sub act =
      if s.windows[w].applied.admits p t false then
        if s.windows[w].applied.ringShape t sub then
          act (.ring w s.windows[w].applied.winCtx sub) s.windows[w].applied.winCtx
            (s.handOn p t (.ring w s.windows[w].applied.winCtx sub))
        else s.refuseTransfer p t .shape
      else s.refuseTransfer p t .access := by
  unfold State.takeRing
  rw [h]
  simp only [Bool.not_eq_true', ← Bool.not_eq_true, ite_not]

theorem State.takeBitfield_window (h : s.decision t = .window w) {q : Quarter}
    (hq : q = quarterOf s.windows[w].applied.apertureSize (t.address - s.windows[w].applied.apertureBase)) :
    s.takeBitfield p t =
      if s.windows[w].applied.admits p t (q == .q1) then
        if s.windows[w].applied.inQuarter t then
          s.handDown p t (.bitfield w q (s.windows[w].applied.bitAddress t) s.windows[w].applied.protectedMask
              s.windows[w].applied.compareWord)
            (Transfer.pathUnit t (.bitfield (bitOpOf q t.dir) t.level s.windows[w].applied.protectedMask
              s.windows[w].applied.compareWord) (s.windows[w].applied.bitAddress t))
        else s.refuseTransfer p t .shape
      else s.refuseTransfer p t .access := by
  subst hq
  unfold State.takeBitfield
  rw [h]
  simp only [Bool.not_eq_true', ← Bool.not_eq_true, ite_not]
  rfl

variable (h : s.decision t = .mixed)
include h

theorem State.takePlain_mixed : s.takePlain p t = s.refuseTransfer p t .shape := by
  unfold State.takePlain
  rw [h]

theorem State.takeRing_mixed (sub : SubRange) (act : Decode → Fin 8 → State → State) :
    s.takeRing p t sub act = s.refuseTransfer p t .shape := by
  unfold State.takeRing
  rw [h]

theorem State.takeBitfield_mixed : s.takeBitfield p t = s.refuseTransfer p t .shape := by
  unfold State.takeBitfield
  rw [h]

end takes

/-! ## Refusals (R92, R95, R96, R99) -/

/-- The command of `row` is the event of that row, and the row refuses the transfer `t` with fault kind `k`. -/
def State.Refuses (s : State) (p : Port) (t : Transfer) (row : DecodeRow) (k : FaultKind) : Prop :=
  ∃ take : Transfer → State → State,
    exec (row.command p) s = event (s.decodes p row) s (fun u => u.takeTransfer p take) ∧
      take t s = s.refuseTransfer p t k

section refusal
variable {s : State} {p : Port} {t : Transfer} {w : Fin 16} {k : FaultKind}

/-- The command of a RING sub-range refuses where the decoder refuses the transfer, whatever the sub-range would do at
the context. -/
theorem State.Refuses.of_ring {sub : SubRange}
    (h : ∀ act : Decode → Fin 8 → State → State, s.takeRing p t sub act = s.refuseTransfer p t k) :
    s.Refuses p t sub.row k := by
  cases sub <;> exact ⟨_, rfl, h _⟩

/-- Every row refuses a burst of mixed classes with SHAPE (R92). -/
theorem State.refuses_mixed (h : s.decision t = .mixed) (row : DecodeRow) : s.Refuses p t row .shape := by
  cases row with
  | passThrough => exact ⟨fun t s => s.takePass p t, rfl, if_pos h⟩
  | plainWindow => exact ⟨fun t s => s.takePlain p t, rfl, State.takePlain_mixed p h⟩
  | unmapped => exact ⟨fun t s => s.takeUnmapped p t, rfl, if_neg (by rw [h]; decide)⟩
  | cbRead => exact ⟨fun t s => s.takeCbRead p t, rfl, if_neg (by rw [h]; decide)⟩
  | cbWrite => exact ⟨fun t s => s.takeCbWrite p t, rfl, if_neg (by rw [h]; decide)⟩
  | push => exact .of_ring (State.takeRing_mixed p h .push)
  | pushLast => exact .of_ring (State.takeRing_mixed p h .pushLast)
  | pop => exact .of_ring (State.takeRing_mixed p h .pop)
  | peek => exact .of_ring (State.takeRing_mixed p h .peek)
  | state => exact .of_ring (State.takeRing_mixed p h .state)
  | bitfield => exact ⟨fun t s => s.takeBitfield p t, rfl, State.takeBitfield_mixed p h⟩

theorem State.decodeRow_unmapped (h : s.decision t = .unmapped) : s.decodeRow t = .unmapped := if_pos h

theorem State.decodeRow_pass (h : s.decision t = .pass) : s.decodeRow t = .passThrough := by
  unfold State.decodeRow
  rw [if_neg (by rw [h]; decide), State.firstClass_of_pass h]

theorem State.decodeRow_window (h : s.decision t = .window w) : s.decodeRow t = s.windows[w].applied.row t := by
  unfold State.decodeRow
  rw [if_neg (by rw [h]; nofun), State.firstClass_of_window h]

theorem Record.row_plain {r : Record} (h : r.kind = .plain) : r.row t = .plainWindow := by
  unfold Record.row
  rw [h]

theorem Record.row_ring {r : Record} (h : r.kind = .ring) : r.row t = (subRangeOf (r.offsetOf t)).row := by
  unfold Record.row
  rw [h]

theorem Record.row_bitfield {r : Record} (h : r.kind = .bitfield) : r.row t = .bitfield := by
  unfold Record.row
  rw [h]

theorem State.refuses_unmapped (h : s.decision t = .unmapped) : s.Refuses p t .unmapped .unmapped :=
  ⟨fun t s => s.takeUnmapped p t, rfl, if_pos h⟩

/-- Why a window refuses: the right or the level first, then the shape (R95, R96). -/
theorem State.refusalOf_window_cases (h : s.decision t = .window w) (hk : s.refusalOf p t = some k) :
    (s.windows[w].applied.admits p t (s.windows[w].applied.fetchClears t) = false ∧ k = .access) ∨
      (s.windows[w].applied.admits p t (s.windows[w].applied.fetchClears t) = true ∧
        s.windows[w].applied.acceptsShape t = false ∧ k = .shape) := by
  rw [s.refusalOf_window p h] at hk
  split at hk
  · next ha =>
    split at hk
    · cases hk
    · next hs => cases hk; exact .inr ⟨ha, Bool.eq_false_iff.2 hs, rfl⟩
  · next ha => cases hk; exact .inl ⟨Bool.eq_false_iff.2 ha, rfl⟩

/-- The row of a window refuses what the decoder refuses there. -/
theorem State.refuses_window (h : s.decision t = .window w) (hk : s.refusalOf p t = some k) :
    s.Refuses p t (s.decodeRow t) k := by
  have hwhy := State.refusalOf_window_cases h hk
  rw [State.decodeRow_window h]
  cases hkind : s.windows[w].applied.kind with
  | plain =>
    simp only [Record.fetchClears, Record.acceptsShape, hkind] at hwhy
    rw [Record.row_plain hkind]
    refine ⟨fun t s => s.takePlain p t, rfl, ?_⟩
    obtain ⟨ha, rfl⟩ | ⟨_, hs, _⟩ := hwhy
    · exact (State.takePlain_window p h).trans (if_neg (Bool.eq_false_iff.1 ha))
    · cases hs
  | ring =>
    simp only [Record.fetchClears, Record.acceptsShape, hkind] at hwhy
    rw [Record.row_ring hkind]
    refine .of_ring fun act => (State.takeRing_window p h _ act).trans ?_
    obtain ⟨ha, rfl⟩ | ⟨ha, hs, rfl⟩ := hwhy
    · exact if_neg (Bool.eq_false_iff.1 ha)
    · exact (if_pos ha).trans (if_neg (Bool.eq_false_iff.1 hs))
  | bitfield =>
    simp only [Record.fetchClears, Record.acceptsShape, hkind] at hwhy
    rw [Record.row_bitfield hkind]
    refine ⟨fun t s => s.takeBitfield p t, rfl, (State.takeBitfield_window p h rfl).trans ?_⟩
    obtain ⟨ha, rfl⟩ | ⟨ha, hs, rfl⟩ := hwhy
    · exact if_neg (Bool.eq_false_iff.1 ha)
    · exact (if_pos ha).trans (if_neg (Bool.eq_false_iff.1 hs))

/-- The row that takes a transfer refuses it where the decoder does. -/
theorem State.refuses_decodeRow (hk : s.refusalOf p t = some k) : s.Refuses p t (s.decodeRow t) k := by
  cases h : s.decision t with
  | cb => simp [State.refusalOf, h] at hk
  | pass => simp [State.refusalOf, h] at hk
  | window w => exact State.refuses_window h hk
  | unmapped =>
    cases (State.refusalOf_unmapped (p := p) h).symm.trans hk
    rw [State.decodeRow_unmapped h]
    exact State.refuses_unmapped h
  | mixed =>
    cases (State.refusalOf_mixed (p := p) h).symm.trans hk
    exact State.refuses_mixed h _

/-- The event of a refusal: ERROR at the port, the fault record, and the dirty items (R99, R146). -/
theorem State.Refuses.exec {row : DecodeRow} (h : s.Refuses p t row k) (hd : s.Decoding p t) (hj : s.JobsPlaced)
    (hrow : s.decodeRow t = row) {i : BitVec 5} (hi : (Decode.refused (s.firstWindow t)).windowIndex = i) :
    exec (row.command p) s = .next (s.reported (s.erred p k t i)) := by
  obtain ⟨take, hexec, htake⟩ := h
  subst hi
  rw [hexec, hd.event hrow, htake, State.refuseTransfer_eq, ← State.refused_windowIndex]
  exact congrArg Host.Outcome.next (closeEvent_reported hj rfl rfl)

end refusal

/-- A burst whose decision is UNMAPPED begins outside every window (R92). -/
theorem State.firstWindow_of_unmapped {s : State} {t : Transfer} (h : s.decision t = .unmapped) :
    s.firstWindow t = none := by
  have hfirst : s.firstClass t = .pass ∨ s.firstClass t = .unmapped := by
    unfold State.decision decisionOf at h
    split at h
    · split at h <;> simp_all
    · split at h
      · next hall =>
        simp only [List.all_map, List.all_eq_true, Function.comp, Bool.or_eq_true, beq_iff_eq] at hall
        exact hall _ t.address_mem
      · cases h
  unfold State.firstWindow
  obtain e | e := hfirst <;> rw [e]

/-- Settles O19, by what decides the transfer: the row of its first word refuses it, and the row UNMAPPED an unmapped
one. -/
theorem refusedTransferIsAnsweredError : Obligations.RefusedTransferIsAnsweredError := by
  refine ⟨fun s p t k hd hj hk => ?_, fun s p t hd hj h => ?_⟩
  · exact (State.refuses_decodeRow hk).exec hd hj rfl (s.refused_windowIndex t)
  · exact (State.refuses_unmapped h).exec hd hj (State.decodeRow_unmapped h)
      (congrArg (fun w => (Decode.refused w).windowIndex) (State.firstWindow_of_unmapped h))

/-! ## Transfers handed down (R93, R94, R98, R107, R151, R163) -/

theorem Transfer.pathUnit_eq (t : Transfer) (work : UnitWork) (address : Nat) : Transfer.pathUnit t work address =
    ⟨work, address, t.wordEnables, if t.dir = .write then t.wordData else [], true⟩ := by
  unfold Transfer.pathUnit
  simp only [t.isWrite_iff]

theorem plainWork_eq (t : Transfer) : plainWork t = if t.dir = .write then .write else .read :=
  if_congr t.isWrite_iff rfl rfl

/-- The event of the row that hands its transfer down: it reports nothing. -/
theorem State.Decoding.exec_handedDown {s : State} {p : Port} {t : Transfer} (hd : s.Decoding p t) (hj : s.JobsPlaced)
    {row : DecodeRow} (hrow : s.decodeRow t = row) {take : Transfer → State → State} {d : Decode} {u : PathUnit}
    (htake : take t s = s.handDown p t d u) :
    Machine.event (s.decodes p row) s (fun v => v.takeTransfer p take) = .next (s.handedDown p t d u) := by
  rw [hd.event hrow, htake, State.handDown_eq, closeEvent_handedDown hj]

/-- Settles O20, by what decides the transfer: pass-through, or a PLAIN window. -/
theorem passThroughAndPlainAreHandedDown : Obligations.PassThroughAndPlainAreHandedDown := by
  intro s p t i d address hd hj h u
  have hu : u = Transfer.pathUnit t (plainWork t) address := by rw [Transfer.pathUnit_eq, plainWork_eq]
  obtain ⟨hdec, rfl, rfl, rfl⟩ | ⟨w, hdec, hkind, ha, rfl, rfl, haddress⟩ := h
  · have htake : s.takePass p t = s.handDown p t .pass u := by
      rw [hu]
      exact if_neg (by rw [hdec]; decide)
    exact hd.exec_handedDown hj (State.decodeRow_pass hdec) htake
  · have htake : s.takePlain p t = s.handDown p t (.plain w address) u := by
      rw [hu, haddress]
      exact (State.takePlain_window p hdec).trans (if_pos ha)
    exact hd.exec_handedDown hj ((State.decodeRow_window hdec).trans (Record.row_plain hkind)) htake

/-- The operation of each quarter and direction (R107). -/
theorem bitOpOf_eq {q : Quarter} {d : Dir} {op : BitOp}
    (h : (q, d, op) ∈ [(Quarter.q0, Dir.write, BitOp.plainWrite), (.q1, .write, .set), (.q2, .write, .clear),
      (.q3, .write, .toggle), (.q0, .read, .plainRead), (.q1, .read, .fetchClear), (.q2, .read, .compare),
      (.q3, .read, .plainRead)]) : bitOpOf q d = op := by
  simp only [List.mem_cons, Prod.mk.injEq, List.not_mem_nil, or_false] at h
  rcases h with ⟨rfl, rfl, rfl⟩ | ⟨rfl, rfl, rfl⟩ | ⟨rfl, rfl, rfl⟩ | ⟨rfl, rfl, rfl⟩ | ⟨rfl, rfl, rfl⟩ |
    ⟨rfl, rfl, rfl⟩ | ⟨rfl, rfl, rfl⟩ | ⟨rfl, rfl, rfl⟩ <;> rfl

/-- Settles O22: the transfer becomes the unit of its quarter and direction, at its offset within the quarter. -/
theorem bitfieldTransferIsHandedDown : Obligations.BitfieldTransferIsHandedDown := by
  intro s p t w q op hd hj hdec hkind hq ha hin hop r address
  have htake : s.takeBitfield p t = s.handDown p t (.bitfield w q address r.protectedMask r.compareWord)
      ⟨.bitfield op t.level r.protectedMask r.compareWord, address, t.wordEnables,
        if t.dir = .write then t.wordData else [], true⟩ := by
    have haddress : address = r.bitAddress t := by
      subst hq
      rfl
    rw [← Transfer.pathUnit_eq, ← bitOpOf_eq hop, haddress]
    exact (State.takeBitfield_window p hdec hq).trans ((if_pos ha).trans (if_pos hin))
  exact hd.exec_handedDown hj ((State.decodeRow_window hdec).trans (Record.row_bitfield hkind)) htake

end Sys2Proof.Machine
end

section
/-! PROOFS. The completions of port reads and port writes (R93, R94, R126, R134, R151, R159, R163, R171, R172). -/

namespace Sys2Proof.Machine

/-! ## Notice words (R126, section 8.6) -/

theorem cbBaseOf_aligned : ∀ cbsel memsz : BitVec 2, cbBaseOf cbsel memsz % 4 = 0 := by decide

/-- A word whose offset is that of no notice word of the port lies at none (section 8.6). -/
theorem noticeContext_eq_none {p : Port} {offset : Nat} (ha : offset % 4 = 0)
    (h : ∀ c : Fin 8, offset ≠ (Item.notice p c).offset) : noticeContext p offset = none := by
  cases p with
  | A =>
    refine if_neg fun hr => h (Fin.ofNat 8 ((offset - 0x804) / 4)) ?_
    simp only [Item.offset, Fin.val_ofNat]
    omega
  | B =>
    refine if_neg fun hr => h (Fin.ofNat 8 ((offset - 0x844) / 4)) ?_
    simp only [Item.offset, Fin.val_ofNat]
    omega

/-- A READCLEAR read that covers no notice word of its port clears nothing (R126). -/
theorem PortAttn.readClearBurst_eq_self (p : Port) : ∀ (words : List Word) (offset : Nat) (a : PortAttn),
    (∀ m < words.length, noticeContext p (offset + 4 * m) = none) → a.readClearBurst p offset words = a
  | [], _, _, _ => rfl
  | w :: rest, offset, a, h => by
    have hword : a.readClearWord p offset w = a := by
      unfold PortAttn.readClearWord
      rw [show noticeContext p offset = none from h 0 (Nat.succ_pos _)]
    rw [PortAttn.readClearBurst, hword]
    refine PortAttn.readClearBurst_eq_self p rest (offset + 4) a fun m hm => ?_
    rw [show offset + 4 + 4 * m = offset + 4 * (m + 1) by omega]
    exact h (m + 1) (Nat.succ_lt_succ hm)

section read
variable {s : State} {p : Port} {u : PathUnit} {t : Transfer} {d : Decode}

/-- A read that covers no notice word of its port: the words of the unit lie at none (R126, R133). -/
theorem State.noticeContext_of_unit {address n : Nat} (hb : s.cbBase ≤ address) (ha : address % 4 = 0)
    (h : ∀ m < n, ∀ c : Fin 8, address + 4 * m ≠ s.cbBase + (Item.notice p c).offset) :
    ∀ m < n, noticeContext p (address - s.cbBase + 4 * m) = none := fun m hm => by
  have hbase : s.cbBase % 4 = 0 := cbBaseOf_aligned s.cbsel s.memsz
  refine noticeContext_eq_none (by omega) fun c e => h m hm c ?_
  omega

/-- The unit is a read, and where it reads the control block under READCLEAR it covers no notice word of its port
(R126). -/
def State.ReadsNoNotice (s : State) (p : Port) (u : PathUnit) : Prop :=
  u.work = .read ∨ (u.work = .cbRead ∧ (readClear s.globalWord = false ∨
    (s.cbBase ≤ u.address ∧ u.address % 4 = 0 ∧ ∀ m < u.enables.length, ∀ c : Fin 8,
      u.address + 4 * m ≠ s.cbBase + (Item.notice p c).offset)))

/-- The data of a read that clears nothing only answers the port (R93, R126). -/
theorem State.readPassed_eq (l : Live) (h : s.ReadsNoNotice p u) :
    s.readPassed p u l = l.answerOk p (.okRead (s.mem.readBurst u.address u.enables)) := by
  unfold State.readPassed
  dsimp only
  obtain hw | ⟨hw, hclear | ⟨hb, ha, hn⟩⟩ := h
  · rw [hw]
    rfl
  · rw [hclear, Bool.and_false]
    rfl
  · have hnone : ∀ m < (s.mem.readBurst u.address u.enables).length,
        noticeContext p (u.address - s.cbBase + 4 * m) = none := by
      rw [Memory.readBurst_length]
      exact State.noticeContext_of_unit hb ha hn
    rw [PortAttn.readClearBurst_eq_self p _ _ _ hnone, PerPort.set_get_self, ite_self]

/-! ## The completion of a read (R93, R134, R151, R159) -/

/-- The completion of a port read, wanted or not. -/
theorem State.PortUnit.exec_portRead (h : s.PortUnit p u) (hu : u.work = .read ∨ u.work = .cbRead) :
    exec .portReadCompletion s = .next (closeEvent s (s.completeUnit p u fun l =>
      if s.mem.burstGood u.address u.enables then s.readPassed p u l else l.answerError p .parity)) := by
  have hposs : s.unitIs (fun w => w == .read || w == .cbRead) = true :=
    h.unitIs (by rcases hu with e | e <;> rw [e] <;> rfl)
  rw [exec_portReadCompletion, execPortReadCompletion, event_possible hposs h.running, State.completeRead,
    h.currentUnit]

/-- A read unit stores nothing (R150). -/
theorem PathUnit.writes_read (hu : u.work = .read ∨ u.work = .cbRead) (m : Memory) : u.writes m = [] := by
  unfold PathUnit.writes
  rcases hu with e | e <;> rw [e]

theorem State.WantedUnit.exec_portRead_good (h : s.WantedUnit p u t d) (hj : s.JobsPlaced) (hu : s.ReadsNoNotice p u)
    (hg : s.mem.burstGood u.address u.enables = true) :
    exec .portReadCompletion s = .next { s.pathFreed p with
      ifaces := s.ifaces.set p (.answering (.okRead (s.mem.readBurst u.address u.enables))) } := by
  have hwork : u.work = .read ∨ u.work = .cbRead := hu.imp_right And.left
  refine (h.exec_portRead hwork).trans (congrArg Host.Outcome.next ?_)
  simp only [hg, if_true, State.readPassed_eq _ hu]
  rw [h.completeUnit, h.answerOk, PathUnit.writes_read hwork]
  exact closeEvent_quiet hj rfl rfl rfl rfl rfl

theorem State.WantedUnit.exec_portRead_bad (h : s.WantedUnit p u t d) (hj : s.JobsPlaced)
    (hu : u.work = .read ∨ u.work = .cbRead) (hb : s.mem.burstGood u.address u.enables = false) :
    exec .portReadCompletion s = .next (s.reported ((s.pathFreed p).erred p .parity t d.windowIndex)) := by
  refine (h.exec_portRead hu).trans (congrArg Host.Outcome.next ?_)
  simp only [hb, Bool.false_eq_true, if_false]
  rw [h.completeUnit, h.answerError, PathUnit.writes_read hu]
  exact closeEvent_reported hj rfl rfl

theorem State.PortUnit.exec_portRead_dropped (h : s.PortUnit p u) (hj : s.JobsPlaced) (hw : u.wanted = false)
    (hu : u.work = .read ∨ u.work = .cbRead) : exec .portReadCompletion s = .next (s.endsUnanswered p s.mem) := by
  refine (h.exec_portRead hu).trans (congrArg Host.Outcome.next ?_)
  rw [h.completeUnit_dropped hw, PathUnit.writes_read hu]
  exact closeEvent_endsUnanswered hj s.mem

end read

/-! ## The end of a unit whose port was reset (R151, R163) -/

section ends
variable {s : State} {p : Port}

theorem State.endsUnanswered_of_free (h : ∀ t d v, s.ifaces.get p ≠ .held t d (some v)) (m : Memory) :
    s.endsUnanswered p m = { s.pathFreed p with mem := m } := by
  unfold State.endsUnanswered
  split
  · next t d v e => exact absurd e (h t d v)
  · rfl

theorem State.endsUnanswered_of_waiting {t : Transfer} {d : Decode} {v : PathUnit}
    (h : s.ifaces.get p = .held t d (some v)) (m : Memory) : s.endsUnanswered p m = { s with
      mem := m
      busy := none
      paths := s.paths.set p (some v)
      ifaces := s.ifaces.set p (.held t d none) } := by
  unfold State.endsUnanswered
  rw [h]

end ends

/-- Settles O38, by whether the port still wants the answer, whether the bytes pass, and whether a transfer waits for
the path. -/
theorem portReadCompletes : Obligations.PortReadCompletes := by
  refine ⟨fun s p u t d h hj => ⟨h.exec_portRead_good hj, h.exec_portRead_bad hj⟩, fun s p u h hj hw hu => ?_⟩
  have hends := h.exec_portRead_dropped hj hw hu
  exact ⟨fun hi => hends.trans (congrArg _ (State.endsUnanswered_of_free hi s.mem)),
    fun t d v hi => hends.trans (congrArg _ (State.endsUnanswered_of_waiting hi s.mem))⟩

/-! ## The completion of a write (R93, R94, R151) -/

section write
variable {s : State} {p : Port} {u : PathUnit} {t : Transfer} {d : Decode}

/-- The completion of a port write, wanted or not. -/
theorem State.PortUnit.exec_portWrite (h : s.PortUnit p u) (hu : u.work = .write) :
    exec .portWriteCompletion s = .next (closeEvent s (s.completeUnit p u fun l => l.answerOk p .okWrite)) := by
  have hposs : s.unitIs (fun w => w == .write) = true := h.unitIs (by rw [hu]; rfl)
  rw [exec_portWriteCompletion, execPortWriteCompletion, event_possible hposs h.running]
  simp only [h.currentUnit]

/-- A write unit stores the words of its burst (R150). -/
theorem PathUnit.writes_write (hu : u.work = .write) (m : Memory) :
    u.writes m = burstWrites u.address u.enables u.data := by
  unfold PathUnit.writes
  rw [hu]

theorem State.WantedUnit.exec_portWrite_answered (h : s.WantedUnit p u t d) (hj : s.JobsPlaced) (hu : u.work = .write) :
    exec .portWriteCompletion s = .next (s.writeAnswered p u) := by
  refine (h.exec_portWrite hu).trans (congrArg Host.Outcome.next ?_)
  rw [h.completeUnit, h.answerOk, PathUnit.writes_write hu]
  exact closeEvent_quiet hj rfl rfl rfl rfl rfl

theorem State.PortUnit.exec_portWrite_dropped (h : s.PortUnit p u) (hj : s.JobsPlaced) (hw : u.wanted = false)
    (hu : u.work = .write) : exec .portWriteCompletion s =
      .next (s.endsUnanswered p (s.mem.applyWrites (burstWrites u.address u.enables u.data))) := by
  refine (h.exec_portWrite hu).trans (congrArg Host.Outcome.next ?_)
  rw [h.completeUnit_dropped hw, PathUnit.writes_write hu]
  exact closeEvent_endsUnanswered hj _

/-- A byte that no write stores to is as before, with its parity (R158). -/
theorem Memory.applyWrites_of_not_storesTo (m : Memory) {ws : List WordWrite} {a : Nat} (h : ¬storesTo ws a) :
    (m.applyWrites ws).readByte a = m.readByte a ∧ (m.applyWrites ws).parityBit a = m.parityBit a :=
  m.applyWrites_outside ws a fun w hw i hi hb e => h ⟨w, hw, i, hi, hb, e⟩

end write

/-- Settles O39, by whether the port still wants the answer and whether a transfer waits for the path. -/
theorem portWriteCompletes : Obligations.PortWriteCompletes := by
  refine ⟨fun s p u t d h hj hu =>
    ⟨h.exec_portWrite_answered hj hu, fun a ha => s.mem.applyWrites_of_not_storesTo ha⟩, fun s p u h hj hw hu => ?_⟩
  intro m
  have hends := h.exec_portWrite_dropped hj hw hu
  exact ⟨fun hi => hends.trans (congrArg _ (State.endsUnanswered_of_free hi m)),
    fun t d v hi => hends.trans (congrArg _ (State.endsUnanswered_of_waiting hi m))⟩

end Sys2Proof.Machine
end

section
/-! PROOFS. The window records (R101, R102, R137, R138, R142): staged word by word, applied or refused at word 0. -/

namespace Sys2Proof.Machine

/-! ## The record that takes effect (R101, R102) -/

/-- Whether the new record of a window ends the binding that the old one made (R102). -/
def Record.endsBinding (old r : Record) : Bool := old.isRing && !(r.isRing && r.winCtx == old.winCtx)

theorem Record.isRing_iff (r : Record) : r.isRing = true ↔ r.winEnable = true ∧ r.kind = .ring := by
  rw [Record.isRing, Bool.and_eq_true, beq_iff_eq]

/-- A window that binds no context, or binds the same one still, ends no binding. -/
theorem Record.endsBinding_eq_false {old r : Record} (h : (old.winEnable = false ∨ old.kind ≠ .ring) ∨
    (r.winEnable = true ∧ r.kind = .ring ∧ r.winCtx = old.winCtx)) : old.endsBinding r = false := by
  obtain hold | ⟨hen, hkind, hctx⟩ := h
  · have hn : old.isRing = false := by
      rw [← Bool.not_eq_true, old.isRing_iff]
      exact fun ⟨hen, hkind⟩ => hold.elim (fun e => by simp [hen] at e) (absurd hkind)
    rw [Record.endsBinding, hn, Bool.false_and]
  · have hr : r.isRing = true := r.isRing_iff.2 ⟨hen, hkind⟩
    rw [Record.endsBinding, hr, hctx, beq_self_eq_true, Bool.and_self, Bool.not_true, Bool.and_false]

/-- A window that bound a context and whose new record does not ends that binding. -/
theorem Record.endsBinding_eq_true {old r : Record} (hen : old.winEnable = true) (hkind : old.kind = .ring)
    (h : r.winEnable = false ∨ r.kind ≠ .ring ∨ r.winCtx ≠ old.winCtx) : old.endsBinding r = true := by
  have hold : old.isRing = true := old.isRing_iff.2 ⟨hen, hkind⟩
  have hnew : ¬(r.isRing && r.winCtx == old.winCtx) = true := by
    rw [Bool.and_eq_true, r.isRing_iff, beq_iff_eq]
    rintro ⟨⟨hen', hkind'⟩, hctx⟩
    obtain e | e | e := h
    · simp [hen'] at e
    · exact e hkind'
    · exact e hctx
  rw [Record.endsBinding, hold, Bool.eq_false_iff.2 hnew]
  rfl

/-- The state with the record pair of one window replaced. -/
def State.withWindow (s : State) (w : Fin 16) (x : Window) : State := { s with windows := s.windows.set w x }

theorem State.withWindow_window (s : State) (w v : Fin 16) (x : Window) :
    (s.withWindow w x).windows[v] = if v = w then x else s.windows[v] := windows_set s.windows w v x

theorem State.withWindow_withWindow (s : State) (w : Fin 16) (x y : Window) :
    (s.withWindow w x).withWindow w y = s.withWindow w y :=
  congrArg (fun ws => ({ s with windows := ws } : State)) (Vector.set_set ..)

theorem State.installWindow_keeps {s : State} {w : Fin 16} {old r : Record} (hw : s.windows[w] = ⟨old, r⟩)
    (h : old.endsBinding r = false) : s.installWindow w r = s.withWindow w ⟨r, r⟩ := by
  unfold State.installWindow
  rw [hw]
  exact if_neg (Bool.eq_false_iff.1 h)

theorem State.installWindow_withdraws {s : State} {w : Fin 16} {old r : Record} (hw : s.windows[w] = ⟨old, r⟩)
    (h : old.endsBinding r = true) :
    s.installWindow w r = { s.withWindow w ⟨r, r⟩ with toLive := s.toLive.withdraw old.winCtx } := by
  unfold State.installWindow
  rw [hw]
  exact if_pos h

theorem State.applyWindow_passes {s : State} {w : Fin 16} (p : Port) {r : Record} (hw : s.windows[w].staged = r)
    (h : s.windowReason w r = none) : s.applyWindow p w = s.installWindow w r := by
  subst hw
  unfold State.applyWindow
  rw [h]

theorem State.applyWindow_fails {s : State} {w : Fin 16} (p : Port) {r : Record} (hw : s.windows[w].staged = r)
    {reason : Reason} (h : s.windowReason w r = some reason) :
    s.applyWindow p w = s.refuseConfig p .window w.val reason := by
  subst hw
  unfold State.applyWindow
  rw [h]

/-! ## The completion of a window record word (R136, R137) -/

section unit
variable {s : State} {p : Port} {w : Fin 16} {n : Nat} {be : Enables} {v : Word} {t : Transfer}

/-- The state in which a written word of a window record is in memory, answered and staged. -/
def State.windowStaged (s : State) (p : Port) (w : Fin 16) (n : Nat) (be : Enables) (v : Word) : State :=
  (s.writeAnswered p ⟨.cbWrite, s.cbBase + (0x200 + 0x20 * w.val + 4 * n), [be], [v], true⟩).withWindow w
    ⟨s.windows[w].applied, s.windows[w].staged.stagedWord n be v⟩

theorem State.windowStaged_window : (s.windowStaged p w n be v).windows[w] =
    ⟨s.windows[w].applied, s.windows[w].staged.stagedWord n be v⟩ :=
  (State.withWindow_window _ w w _).trans (if_pos rfl)

/-- The checks of R90 read the same of the state in which the record is staged. -/
theorem State.windowStaged_reason (r : Record) :
    (s.windowStaged p w n be v).windowReason w r = s.windowReason w r := by
  refine State.windowReason_congr s _ w r rfl rfl rfl fun u => ?_
  rw [State.windowStaged, State.withWindow_window]
  split
  · next e => rw [e]
  · rfl

theorem State.stageWord_window (s : State) {offset : Nat} (hb : be ≠ 0) (hf : cbFunction offset = .window w n) :
    s.stageWord ⟨offset, be, v⟩ =
      s.withWindow w ⟨s.windows[w].applied, s.windows[w].staged.stagedWord n be v⟩ := by
  unfold State.stageWord
  rw [if_pos (CbWord.acts_of_enabled _ _ hb), hf]
  rfl

variable (hn : n < 8) (h : s.CbWordUnit p (0x200 + 0x20 * w.val + 4 * n) be v t)
include hn h

/-- The event of a window record word: staged, and word 0 applied (R136, R137). -/
theorem State.CbWordUnit.windowEvent {row : CbRow} (hrow : row = .stage ∨ (n = 0 ∧ row = .windowApply)) :
    Machine.event (s.cbWriteHas row) s (fun s => s.completeCbWrite) = .next (closeEvent s
      (if n = 0 then (s.windowStaged p w n be v).applyWindow p w else s.windowStaged p w n be v)) := by
  have hf : cbFunction (0x200 + 0x20 * w.val + 4 * n) = .window w n := cbFunction_window w ⟨n, hn⟩
  have hmem : row ∈ (⟨0x200 + 0x20 * w.val + 4 * n, be, v⟩ : CbWord).rows p (readClear s.globalWord) := by
    unfold CbWord.rows
    rw [if_pos (CbWord.acts_of_enabled _ _ h.enabled), hf]
    cases n with
    | zero => rcases hrow with rfl | ⟨_, rfl⟩ <;> simp
    | succ n => rcases hrow with rfl | ⟨h0, _⟩ <;> simp_all
  rw [h.event hmem, State.stageWord_window _ h.enabled hf, State.actWord_window _ _ _ _ h.enabled hf]
  rfl

/-- A record word other than word 0 is staged and acts no further (R137). -/
theorem State.CbWordUnit.exec_windowStage (h0 : n ≠ 0) :
    exec .stageRecordWord s = .next (closeEvent s (s.windowStaged p w n be v)) := by
  rw [exec_stageRecordWord, execStageRecordWord, h.windowEvent hn (.inl rfl), if_neg h0]

/-- Word 0 is one event, whichever of its two rows names it (log 2). -/
theorem State.CbWordUnit.exec_windowRows (h0 : n = 0) : exec .stageRecordWord s = exec .windowRecordApply s := by
  rw [exec_stageRecordWord, execStageRecordWord, h.windowEvent hn (.inl rfl), exec_windowRecordApply,
    execWindowRecordApply, h.windowEvent hn (.inr ⟨h0, rfl⟩)]

/-- Word 0 of a record that passes installs it (R138). -/
theorem State.CbWordUnit.exec_windowInstall (h0 : n = 0)
    (hr : s.windowReason w (s.windows[w].staged.stagedWord n be v) = none) :
    exec .windowRecordApply s = .next (closeEvent s
      ((s.windowStaged p w n be v).installWindow w (s.windows[w].staged.stagedWord n be v))) := by
  rw [exec_windowRecordApply, execWindowRecordApply, h.windowEvent hn (.inr ⟨h0, rfl⟩), if_pos h0]
  exact closed_congr (State.applyWindow_passes p (congrArg Window.staged State.windowStaged_window)
    (by rw [State.windowStaged_reason, hr]))

/-- Word 0 of a record that fails a check is refused, and the staged copy is kept (R137, R138, R142). -/
theorem State.CbWordUnit.exec_windowRefuse (h0 : n = 0) {reason : Reason}
    (hr : s.windowReason w (s.windows[w].staged.stagedWord n be v) = some reason) :
    exec .windowRecordApply s =
      .next (closeEvent s ((s.windowStaged p w n be v).refuseConfig p .window w.val reason)) := by
  rw [exec_windowRecordApply, execWindowRecordApply, h.windowEvent hn (.inr ⟨h0, rfl⟩), if_pos h0]
  exact closed_congr (State.applyWindow_fails p (congrArg Window.staged State.windowStaged_window)
    (by rw [State.windowStaged_reason, hr]))

end unit

/-- Settles O50, by the word written, whether the record passes, and whether it ends a binding. -/
theorem windowRecordsAreStagedAndApplied : Obligations.WindowRecordsAreStagedAndApplied := by
  intro s p w n be v t hn h hj old r done stagedOnly
  have hwin : (s.windowStaged p w n be v).windows[w] = ⟨old, r⟩ := State.windowStaged_window
  have hset : (s.windowStaged p w n be v).withWindow w ⟨r, r⟩ = done.withWindow w ⟨r, r⟩ :=
    State.withWindow_withWindow ..
  refine ⟨fun h0 => ?_, fun h0 hr hkeep => ?_, fun h0 hr hen hkind hend => ?_, fun reason h0 hr => ?_,
    fun h0 => h.exec_windowRows hn h0⟩
  · exact (h.exec_windowStage hn h0).trans (congrArg _ (closeEvent_quiet hj rfl rfl rfl rfl rfl))
  · have hinstall := (State.installWindow_keeps hwin (Record.endsBinding_eq_false hkeep)).trans hset
    exact (h.exec_windowInstall hn h0 hr).trans ((closed_congr hinstall).trans
      (congrArg _ (closeEvent_quiet hj rfl rfl rfl rfl rfl)))
  · have hinstall := State.installWindow_withdraws hwin (Record.endsBinding_eq_true hen hkind hend)
    rw [hset] at hinstall
    exact (h.exec_windowInstall hn h0 hr).trans (closed_congr hinstall)
  · exact (h.exec_windowRefuse hn h0 hr).trans (congrArg _ (closeEvent_reported hj rfl rfl))

end Sys2Proof.Machine
end

section
/-! PROOFS. BITFIELD windows (R108-R116, R118): the bits that each operation acts on, the bits of the stored words, and
the completions of BITFIELD units. -/

namespace Sys2Proof.Machine

/-! ## The bits of byte lanes and of words read (R108, R158) -/

theorem getLsbD_laneMask (be : Enables) {i : Nat} (hi : i < 32) : (laneMask be).getLsbD i = be.getLsbD (i / 8) := by
  have h : ∀ be : Enables, ∀ i : Fin 32, (laneMask be).getLsbD i.val = be.getLsbD (i.val / 8) := by decide
  exact h be ⟨i, hi⟩

theorem getLsbD_byteLane (w : Word) (lane : Nat) {k : Nat} (hk : k < 8) :
    (byteLane w lane).getLsbD k = w.getLsbD (8 * lane + k) := by
  rw [byteLane, BitVec.getLsbD_extractLsb', decide_eq_true hk, Bool.true_and]

/-- A read lane holds its byte, in its place in the word, where its enable is on (R158). -/
theorem Memory.getLsbD_readLane (m : Memory) (a : Nat) (be : Enables) {lane i : Nat} (hi : i < 32) :
    (m.readLane a be lane).getLsbD i =
      (decide (i / 8 = lane) && be.getLsbD lane && (m.readByte (a + lane)).getLsbD (i % 8)) := by
  unfold Memory.readLane
  by_cases hb : be.getLsbD lane = true
  · rw [if_pos hb, hb, Bool.and_true, BitVec.getLsbD_shiftLeft, BitVec.getLsbD_setWidth]
    by_cases hl : i / 8 = lane
    · have hin : ¬i < 8 * lane := by omega
      have hbit : i - 8 * lane = i % 8 := by omega
      have hlt : i % 8 < 32 := by omega
      simp [hi, hin, hbit, hl, hlt]
    · obtain hlow | hhigh : i < 8 * lane ∨ 8 ≤ i - 8 * lane := by omega
      · simp [hlow, hl]
      · simp [BitVec.getLsbD_of_ge _ _ hhigh, hl]
  · simp [hb]

/-- Bit `i` of the word read is bit `i % 8` of the byte in lane `i / 8`, where that lane is enabled (R158). -/
theorem Memory.getLsbD_readWord (m : Memory) (a : Nat) (be : Enables) {i : Nat} (hi : i < 32) :
    (m.readWord a be).getLsbD i = (be.getLsbD (i / 8) && (m.readByte (a + i / 8)).getLsbD (i % 8)) := by
  simp only [Memory.readWord, BitVec.getLsbD_or, m.getLsbD_readLane a be hi]
  obtain h | h | h | h : i / 8 = 0 ∨ i / 8 = 1 ∨ i / 8 = 2 ∨ i / 8 = 3 := by omega
  all_goals simp [h]

theorem getLsbD_allEnabled {lane : Nat} (h : lane < 4) : allEnabled.getLsbD lane = true := by
  have hall : ∀ k : Fin 4, allEnabled.getLsbD k.val = true := by decide
  exact hall ⟨lane, h⟩

theorem Memory.readByte_congr (m : Memory) {a b : Nat} (h : memIndex a = memIndex b) : m.readByte a = m.readByte b := by
  unfold Memory.readByte
  rw [h]

/-! ## What the operations do to the bits of a word (R108-R111, R113) -/

/-- A bit is open in an enabled byte, and at levels 1 to 3 only where the protected mask is clear (R108, R109). -/
theorem getLsbD_openBits (be : Enables) (level : Level) (mask : Word) {i : Nat} (hi : i < 32) :
    (openBits be level mask).getLsbD i = (be.getLsbD (i / 8) && (level == 0 || !mask.getLsbD i)) := by
  unfold openBits
  by_cases hl : level = 0
  · rw [if_pos hl, getLsbD_laneMask be hi, beq_iff_eq.2 hl, Bool.true_or, Bool.and_true]
  · rw [if_neg hl, BitVec.getLsbD_and, BitVec.getLsbD_not, getLsbD_laneMask be hi, beq_eq_false_iff_ne.2 hl,
      decide_eq_true hi, Bool.true_and, Bool.false_or]

/-- Every operation writes a bit that is not open back as read (R108). -/
theorem BitOp.getLsbD_newWord_closed (op : BitOp) {opened : Word} (old data : Word) {i : Nat} (hi : i < 32)
    (h : opened.getLsbD i = false) : (op.newWord opened old data).getLsbD i = old.getLsbD i := by
  have hdata : (data &&& opened).getLsbD i = false := by rw [BitVec.getLsbD_and, h, Bool.and_false]
  have hkeep : ∀ x : Word, x.getLsbD i = false → (old &&& ~~~x).getLsbD i = old.getLsbD i := fun x hx => by
    rw [BitVec.getLsbD_and, BitVec.getLsbD_not, decide_eq_true hi, hx, Bool.not_false, Bool.and_self, Bool.and_true]
  cases op with
  | plainWrite => exact (BitVec.getLsbD_or ..).trans (by rw [hkeep opened h, hdata, Bool.or_false])
  | set => exact (BitVec.getLsbD_or ..).trans (by rw [hdata, Bool.or_false])
  | clear => exact hkeep (data &&& opened) hdata
  | toggle => exact (BitVec.getLsbD_xor ..).trans (by rw [hdata, Bool.xor_false])
  | fetchClear => exact hkeep opened h
  | plainRead | compare => rfl

/-- What each writing operation makes of a bit (R110, R111, R113). -/
theorem BitOp.getLsbD_newWord (opened old data : Word) {i : Nat} (hi : i < 32) :
    (BitOp.plainWrite.newWord opened old data).getLsbD i =
      (if opened.getLsbD i then data.getLsbD i else old.getLsbD i) ∧
    (BitOp.set.newWord opened old data).getLsbD i =
      (if opened.getLsbD i && data.getLsbD i then true else old.getLsbD i) ∧
    (BitOp.clear.newWord opened old data).getLsbD i =
      (if opened.getLsbD i && data.getLsbD i then false else old.getLsbD i) ∧
    (BitOp.toggle.newWord opened old data).getLsbD i =
      (if opened.getLsbD i && data.getLsbD i then !old.getLsbD i else old.getLsbD i) ∧
    (BitOp.fetchClear.newWord opened old data).getLsbD i = (if opened.getLsbD i then false else old.getLsbD i) := by
  cases ho : opened.getLsbD i with
  | false => simp only [BitOp.getLsbD_newWord_closed _ old data hi ho, Bool.false_and, Bool.false_eq_true, if_false,
      and_self]
  | true =>
    simp only [BitOp.newWord, BitVec.getLsbD_and, BitVec.getLsbD_or, BitVec.getLsbD_xor, BitVec.getLsbD_not, ho,
      decide_eq_true hi]
    cases data.getLsbD i <;> simp

/-! ## A protected bit in memory (R109) -/

/-- A byte keeps a property that it has and that every byte a unit stores over it has (R150). -/
theorem Memory.readByte_applyWrites_of {P : Byte → Prop} (m : Memory) (ws : List WordWrite) (b : Nat)
    (h : P (m.readByte b)) (hws : ∀ w ∈ ws, ∀ lane < 4, w.enables.getLsbD lane = true →
      memIndex b = memIndex (w.address + lane) → P (byteLane w.word lane)) :
    P ((m.applyWrites ws).readByte b) := by
  induction ws generalizing m with
  | nil => exact h
  | cons w rest ih =>
    refine ih (m.writeWord w.address w.enables w.word) ?_ fun v hv => hws v (List.mem_cons_of_mem w hv)
    have hlane := hws w List.mem_cons_self
    have hstep : ∀ (m : Memory), ∀ lane < 4, P (m.readByte b) →
        P ((m.writeLane w.address w.enables w.word lane).readByte b) := fun m lane hl hm => by
      rw [Memory.readByte_writeLane]
      split
      · next hc =>
        obtain ⟨hbe, haddr⟩ := hc
        exact hlane lane hl hbe haddr
      · exact hm
    exact hstep _ 3 (by decide) (hstep _ 2 (by decide) (hstep _ 1 (by decide) (hstep m 0 (by decide) h)))

/-- Each write of a unit that reads stores, over a word of its burst, that word as the operation changes it (R115). -/
theorem BitOp.mem_writes {op : BitOp} {level : Level} {mask : Word} {m : Memory} {w : WordWrite}
    (hr : op.reads level = true) : ∀ {bes : List Enables} {a : Nat} {data : List Word},
    w ∈ op.writes level mask m a bes data → ∃ k, w.address = a + 4 * k ∧
      ∃ d, w.word = op.newWord (openBits w.enables level mask) (m.readWord w.address w.enables) d
  | [], _, _, h => by simp [BitOp.writes] at h
  | be :: bes, a, data, h => by
    rw [BitOp.writes, List.mem_cons, if_pos hr] at h
    obtain rfl | h := h
    · exact ⟨0, rfl, data.headD 0, rfl⟩
    · obtain ⟨k, ha, hw⟩ := BitOp.mem_writes hr h
      exact ⟨k + 1, by omega, hw⟩

theorem BitOp.reads_of_level (op : BitOp) {level : Level} (h : level ≠ 0) : op.reads level = true := by
  rw [BitOp.reads, bne_iff_ne.2 h, Bool.or_true]

section unit
variable {u : PathUnit} {op : BitOp} {level : Level} {mask compare : Word}

/-- The writes of a BITFIELD unit: those of its operation, or none (R115, R116). -/
theorem PathUnit.writes_bitfield (hu : u.work = .bitfield op level mask compare) (m : Memory) : u.writes m =
    if op.writesBack && (!op.reads level || m.burstGood u.address u.enables) then
      op.writes level mask m u.address u.enables u.data
    else [] := by
  unfold PathUnit.writes
  rw [hu]

theorem PathUnit.mem_writes_bitfield (hu : u.work = .bitfield op level mask compare) {m : Memory} {w : WordWrite}
    (h : w ∈ u.writes m) : w ∈ op.writes level mask m u.address u.enables u.data := by
  rw [PathUnit.writes_bitfield hu] at h
  split at h
  · exact h
  · exact absurd h List.not_mem_nil

/-- At levels 1 to 3 each bit that is protected stands in the byte of memory that holds it (R109). -/
theorem PathUnit.readByte_protected (hu : u.work = .bitfield op level mask compare) (hl : level ≠ 0) (m : Memory)
    (n : Nat) {i : Nat} (hi : i < 32) (hmask : mask.getLsbD i = true) :
    ((m.applyWrites (u.writes m)).readByte (u.address + 4 * n + i / 8)).getLsbD (i % 8) =
      (m.readByte (u.address + 4 * n + i / 8)).getLsbD (i % 8) := by
  refine m.readByte_applyWrites_of (P := fun v => v.getLsbD (i % 8) = _) (u.writes m) _ rfl
    fun w hw lane hlane hbe haddr => ?_
  obtain ⟨k, ha, d, hword⟩ := BitOp.mem_writes (op.reads_of_level hl) (PathUnit.mem_writes_bitfield hu hw)
  have hsame : lane = i / 8 := by
    simp only [memIndex] at haddr
    omega
  subst hsame
  have hclosed : (openBits w.enables level mask).getLsbD i = false := by
    rw [getLsbD_openBits _ _ _ hi, beq_eq_false_iff_ne.2 hl, hmask, Bool.not_true, Bool.or_self, Bool.and_false]
  calc (byteLane w.word (i / 8)).getLsbD (i % 8)
    _ = w.word.getLsbD i := by rw [getLsbD_byteLane _ _ (Nat.mod_lt _ (by decide)), Nat.div_add_mod]
    _ = (m.readWord w.address w.enables).getLsbD i := by rw [hword, BitOp.getLsbD_newWord_closed _ _ _ hi hclosed]
    _ = (m.readByte (w.address + i / 8)).getLsbD (i % 8) := by rw [m.getLsbD_readWord _ _ hi, hbe, Bool.true_and]
    _ = (m.readByte (u.address + 4 * n + i / 8)).getLsbD (i % 8) := by rw [m.readByte_congr haddr]

/-- At levels 1 to 3 the protected bits of every word of the burst stand (R109). -/
theorem PathUnit.readWord_protected (hu : u.work = .bitfield op level mask compare) (hl : level ≠ 0) (m : Memory)
    (n : Nat) : (m.applyWrites (u.writes m)).readWord (u.address + 4 * n) allEnabled &&& mask =
      m.readWord (u.address + 4 * n) allEnabled &&& mask := by
  refine BitVec.eq_of_getLsbD_eq fun i hi => ?_
  rw [BitVec.getLsbD_and, BitVec.getLsbD_and, Memory.getLsbD_readWord _ _ _ hi, Memory.getLsbD_readWord _ _ _ hi]
  cases hmask : mask.getLsbD i
  · rw [Bool.and_false, Bool.and_false]
  · rw [PathUnit.readByte_protected hu hl m n hi hmask]

end unit

/-- Settles O45, bit by bit: a bit that is not open is written back as read, and the words of one unit are built from
the memory before it. -/
theorem bitfieldOperationsActOnOpenBits : Obligations.BitfieldOperationsActOnOpenBits :=
  ⟨fun be level mask old data _ hi =>
    ⟨getLsbD_openBits be level mask hi, BitOp.getLsbD_newWord (openBits be level mask) old data hi⟩,
    fun m _ _ _ _ _ hu hl _ n _ => PathUnit.readWord_protected hu hl m n⟩

/-! ## The completion of a BITFIELD unit (R110-R116, R118) -/

/-- The row of the completion of an operation. -/
def BitOp.row : BitOp → Instr
  | .plainWrite => .bitfieldPlainWrite
  | .set => .set
  | .clear => .clear
  | .toggle => .toggle
  | .plainRead => .bitfieldPlainRead
  | .fetchClear => .fetchAndClear
  | .compare => .compareRead

theorem exec_bitOpRow (op : BitOp) (s : State) :
    exec op.row s = event (s.bitfieldIs op) s fun s => s.completeBitfield := by
  cases op <;> rfl

/-- A Q0 write at level 0 is the one unit without a read half (R110, R115). -/
theorem BitOp.reads_iff (op : BitOp) (level : Level) : op.reads level = true ↔ ¬(op = .plainWrite ∧ level = 0) := by
  rw [BitOp.reads, Bool.or_eq_true, bne_iff_ne, bne_iff_ne, not_and_or]

/-- Every operation that answers data has a read half. -/
theorem BitOp.reads_of_isRead {op : BitOp} (h : op.isRead = true) (level : Level) : op.reads level = true := by
  rw [BitOp.reads_iff]
  rintro ⟨rfl, _⟩
  exact absurd h (by decide)

/-- Every operation that answers no data has a write half. -/
theorem BitOp.writesBack_of_not_isRead {op : BitOp} (h : op.isRead = false) : op.writesBack = true := by
  cases op
  case plainWrite | set | clear | toggle => rfl
  case plainRead | fetchClear | compare => exact absurd h (by decide)

section completion
variable {s : State} {p : Port} {u : PathUnit} {t : Transfer} {d : Decode} {op : BitOp} {level : Level}
  {mask compare : Word}

/-- The answer of a unit whose read half passed, or that has none (R111-R114). -/
def BitOp.answer (op : BitOp) (compare : Word) (u : PathUnit) (m : Memory) : Answer :=
  if op.isRead then .okRead (op.answerWords compare u.enables (m.readBurst u.address u.enables)) else .okWrite

theorem State.bitAnswer_passed (h : op.reads level = true → s.mem.burstGood u.address u.enables = true) (l : Live) :
    s.bitAnswer p u op level compare l = l.answerOk p (op.answer compare u s.mem) := by
  have hc : ¬(op.reads level && !s.mem.burstGood u.address u.enables) = true := by
    rw [Bool.and_eq_true, Bool.not_eq_true']
    exact fun ⟨hr, hb⟩ => Bool.false_ne_true (hb.symm.trans (h hr))
  rw [State.bitAnswer, if_neg hc, BitOp.answer, apply_ite (l.answerOk p)]

theorem State.bitAnswer_failed (hr : op.reads level = true) (hb : s.mem.burstGood u.address u.enables = false)
    (l : Live) : s.bitAnswer p u op level compare l = l.answerError p .parity := by
  rw [State.bitAnswer, hr, hb]
  rfl

/-- A wanted unit whose read half passes is answered OK, its words in memory (R110-R115). -/
theorem State.WantedUnit.exec_bitfield_passed (h : s.WantedUnit p u t d) (hj : s.JobsPlaced)
    (hu : u.work = .bitfield op level mask compare)
    (hg : op.reads level = true → s.mem.burstGood u.address u.enables = true) :
    exec op.row s = .next { s.pathFreed p with
      mem := s.mem.applyWrites (u.writes s.mem)
      ifaces := s.ifaces.set p (.answering (op.answer compare u s.mem)) } := by
  rw [exec_bitOpRow, h.bitfield_event hu, funext (State.bitAnswer_passed hg), h.answerOk]
  exact congrArg Host.Outcome.next (closeEvent_quiet hj rfl rfl rfl rfl rfl)

/-- A unit whose read half fails writes nothing (R116). -/
theorem PathUnit.writes_bitfield_failed (hu : u.work = .bitfield op level mask compare) {m : Memory}
    (hr : op.reads level = true) (hb : m.burstGood u.address u.enables = false) : u.writes m = [] := by
  rw [PathUnit.writes_bitfield hu, hr, hb, Bool.not_true, Bool.or_false, Bool.and_false]
  rfl

/-- A wanted unit whose read half fails is answered ERROR PARITY (R116). -/
theorem State.WantedUnit.exec_bitfield_failed (h : s.WantedUnit p u t d) (hj : s.JobsPlaced)
    (hu : u.work = .bitfield op level mask compare) (hr : op.reads level = true)
    (hb : s.mem.burstGood u.address u.enables = false) :
    exec op.row s = .next (s.reported ((s.pathFreed p).erred p .parity t d.windowIndex)) := by
  rw [exec_bitOpRow, h.bitfield_event hu, funext (State.bitAnswer_failed hr hb), h.answerError,
    PathUnit.writes_bitfield_failed hu hr hb]
  exact congrArg Host.Outcome.next (closeEvent_reported hj rfl rfl)

/-- The unit of a port that was reset ends unanswered (R118, R151). -/
theorem State.PortUnit.exec_bitfield_dropped (h : s.PortUnit p u) (hj : s.JobsPlaced) (hw : u.wanted = false)
    (hu : u.work = .bitfield op level mask compare) :
    exec op.row s = .next (s.endsUnanswered p (s.mem.applyWrites (u.writes s.mem))) :=
  (exec_bitOpRow op s).trans (h.bitfield_event_dropped hj hw hu)

/-- So does one whose read half fails, and memory stands (R116, R118). -/
theorem State.PortUnit.exec_bitfield_dropped_failed (h : s.PortUnit p u) (hj : s.JobsPlaced) (hw : u.wanted = false)
    (hu : u.work = .bitfield op level mask compare) (hr : op.reads level = true)
    (hb : s.mem.burstGood u.address u.enables = false) : exec op.row s = .next (s.endsUnanswered p s.mem) := by
  rw [h.exec_bitfield_dropped hj hw hu, PathUnit.writes_bitfield_failed hu hr hb]
  rfl

/-! ## Writes (R110, R111) -/

/-- The rows of the operations that answer no data. -/
theorem BitOp.writeRows {i : Instr} (h : (op, i) ∈ [(BitOp.plainWrite, Instr.bitfieldPlainWrite), (.set, .set),
    (.clear, .clear), (.toggle, .toggle)]) : i = op.row ∧ op.isRead = false := by
  simp only [List.mem_cons, Prod.mk.injEq, List.not_mem_nil, or_false] at h
  obtain ⟨rfl, rfl⟩ | ⟨rfl, rfl⟩ | ⟨rfl, rfl⟩ | ⟨rfl, rfl⟩ := h
  all_goals exact ⟨rfl, rfl⟩

theorem PathUnit.writes_bitfield_passed (hu : u.work = .bitfield op level mask compare) {m : Memory}
    (hwb : op.writesBack = true) (hg : op.reads level = true → m.burstGood u.address u.enables = true) :
    u.writes m = op.writes level mask m u.address u.enables u.data := by
  rw [PathUnit.writes_bitfield hu, hwb, Bool.true_and]
  refine if_pos ?_
  cases hr : op.reads level
  · rfl
  · exact hg hr

end completion

/-- Settles O46, by whether the read half passes and whether the port still wants the answer. -/
theorem bitfieldWritesComplete : Obligations.BitfieldWritesComplete := by
  intro s p u op level mask compare i h hj hu hlen hrow reads old words written
  obtain ⟨rfl, hwrite⟩ := BitOp.writeRows hrow
  have hreads : op.reads level = true ↔ reads := op.reads_iff level
  refine ⟨fun hpass => ?_, fun hr hb => ?_⟩
  · have hg : op.reads level = true → s.mem.burstGood u.address u.enables = true :=
      fun hr => hpass.resolve_left (not_not_intro (hreads.1 hr))
    have hwords : s.mem.applyWrites (u.writes s.mem) = written := by
      rw [PathUnit.writes_bitfield_passed hu (BitOp.writesBack_of_not_isRead hwrite) hg,
        BitOp.writes_eq _ _ _ _ _ _ _ hlen]
      simp only [hreads, written, words, old]
    have hans : op.answer compare u s.mem = .okWrite := if_neg (by rw [hwrite]; exact Bool.false_ne_true)
    rw [← hwords, ← hans]
    exact ⟨fun t d hw => hw.exec_bitfield_passed hj hu hg, fun hw => h.exec_bitfield_dropped hj hw hu⟩
  · have hr' := hreads.2 hr
    exact ⟨fun t d hw => hw.exec_bitfield_failed hj hu hr' hb, fun hw => h.exec_bitfield_dropped_failed hj hw hu hr' hb⟩

/-! ## Reads (R112-R114) -/

section reads
variable {u : PathUnit} {op : BitOp} {level : Level} {mask compare : Word}

/-- The rows of the operations that answer data. -/
theorem BitOp.readRows {i : Instr} (h : (op, i) ∈ [(BitOp.plainRead, Instr.bitfieldPlainRead),
    (.fetchClear, .fetchAndClear), (.compare, .compareRead)]) : i = op.row ∧ op.isRead = true := by
  simp only [List.mem_cons, Prod.mk.injEq, List.not_mem_nil, or_false] at h
  obtain ⟨rfl, rfl⟩ | ⟨rfl, rfl⟩ | ⟨rfl, rfl⟩ := h
  all_goals exact ⟨rfl, rfl⟩

/-- The answer of a read, word by word (R108, R112-R114). -/
theorem BitOp.answer_read (h : op.isRead = true) (m : Memory) : op.answer compare u m =
    .okRead ((List.range u.enables.length).map fun n =>
      if op = .compare then
        ~~~((m.readBurst u.address u.enables).getD n 0 ^^^ compare) &&& laneMask (u.enables.getD n 0)
      else (m.readBurst u.address u.enables).getD n 0) := by
  rw [BitOp.answer, if_pos h, op.answerWords_eq compare _ _ (m.readBurst_length _ _)]
  cases op <;> rfl

/-- Of the operations that answer data only the fetch-and-clear writes: each word as read, its open bits cleared
(R113). -/
theorem PathUnit.applyWrites_bitfield_read (hu : u.work = .bitfield op level mask compare) (h : op.isRead = true)
    {m : Memory} (hg : m.burstGood u.address u.enables = true) : m.applyWrites (u.writes m) =
      if op = .fetchClear then
        m.applyWrites (burstWrites u.address u.enables ((List.range u.enables.length).map fun n =>
          (m.readBurst u.address u.enables).getD n 0 &&& ~~~openBits (u.enables.getD n 0) level mask))
      else m := by
  by_cases hop : op = .fetchClear
  · subst hop
    rw [if_pos rfl, PathUnit.writes_bitfield_passed hu rfl fun _ => hg, BitOp.writes_fetchClear]
  · have hwb : op.writesBack = false := by
      cases op
      case plainRead | compare => rfl
      case fetchClear => exact absurd rfl hop
      case plainWrite | set | clear | toggle => exact absurd h (by decide)
    rw [if_neg hop, PathUnit.writes_bitfield hu, hwb]
    rfl

end reads

/-- Settles O47, by whether the bytes read pass and whether the port still wants the answer. -/
theorem bitfieldReadsComplete : Obligations.BitfieldReadsComplete := by
  intro s p u op level mask compare i h hj hu hrow old answer cleared left
  obtain ⟨rfl, hread⟩ := BitOp.readRows hrow
  have hr := BitOp.reads_of_isRead hread level
  refine ⟨fun hg => ?_, fun hb => ?_⟩
  · have hleft : s.mem.applyWrites (u.writes s.mem) = left := PathUnit.applyWrites_bitfield_read hu hread hg
    have hans : op.answer compare u s.mem = .okRead answer := BitOp.answer_read hread s.mem
    rw [← hleft, ← hans]
    exact ⟨fun t d hw => hw.exec_bitfield_passed hj hu fun _ => hg, fun hw => h.exec_bitfield_dropped hj hw hu⟩
  · exact ⟨fun t d hw => hw.exec_bitfield_failed hj hu hr hb, fun hw => h.exec_bitfield_dropped_failed hj hw hu hr hb⟩

end Sys2Proof.Machine
end

section
/-! PROOFS. The attention unit: notices raised by route (R119, R125), the summary word and ATTN (R121, R170), the fault record
and the config status record (R127, R130, R142). -/

namespace Sys2Proof.Machine

/-! ## The bit of a kind (section 8.7) -/

theorem Kind.index_lt (k : Kind) : k.index < 8 := by cases k <;> decide

theorem Kind.getLsbD_mask (k : Kind) (i : Nat) : k.mask.getLsbD i = decide (i = k.index) := by
  have hk := k.index_lt
  rw [Kind.mask, BitVec.getLsbD_shiftLeft, BitVec.getLsbD_one]
  grind

/-- A set has the one bit of a kind or it has not. -/
theorem Kind.and_mask_cases (k : Kind) (v : BitVec 8) : v &&& k.mask = 0 ∨ v &&& k.mask = k.mask := by
  have hbit : ∀ i, (v &&& k.mask).getLsbD i = (decide (i = k.index) && v.getLsbD k.index) := fun i => by
    rw [BitVec.getLsbD_and, k.getLsbD_mask]
    grind
  cases hv : v.getLsbD k.index with
  | false => exact .inl (BitVec.eq_of_getLsbD_eq fun i _ => by simp [hbit, hv])
  | true => exact .inr (BitVec.eq_of_getLsbD_eq fun i _ => by simp [hbit, hv, k.getLsbD_mask])

/-! ## Shown marks (R125) -/

/-- Kinds that were not pending lose their shown marks. -/
theorem shown_of_not_pending {pending kinds : BitVec 8} (shown : BitVec 8) (h : pending &&& kinds = 0) :
    shown &&& (pending ||| ~~~kinds) = shown &&& ~~~kinds := by
  refine BitVec.eq_of_getLsbD_eq fun i hi => ?_
  have hbit : (pending.getLsbD i && kinds.getLsbD i) = false := by
    rw [← BitVec.getLsbD_and, h]
    exact BitVec.getLsbD_zero
  simp only [BitVec.getLsbD_and, BitVec.getLsbD_or, BitVec.getLsbD_not, hi, decide_true, Bool.true_and]
  grind

/-- Kinds that were pending already keep their shown marks. -/
theorem shown_of_pending {pending kinds : BitVec 8} (shown : BitVec 8) (h : pending &&& kinds = kinds) :
    shown &&& (pending ||| ~~~kinds) = shown := by
  have hall : pending ||| ~~~kinds = BitVec.allOnes 8 := by
    rw [← h]
    refine BitVec.eq_of_getLsbD_eq fun i hi => ?_
    simp only [BitVec.getLsbD_and, BitVec.getLsbD_or, BitVec.getLsbD_not, BitVec.getLsbD_allOnes, hi, decide_true,
      Bool.true_and]
    grind
  rw [hall, BitVec.and_allOnes]

theorem or_of_pending {pending kinds : BitVec 8} (h : pending &&& kinds = kinds) : pending ||| kinds = pending := by
  rw [← h]
  refine BitVec.eq_of_getLsbD_eq fun i _ => ?_
  simp only [BitVec.getLsbD_and, BitVec.getLsbD_or]
  grind

/-! ## A notice raised by its route (R119) -/

/-- Kinds that are pending already are not raised again. -/
theorem PortAttn.raiseKinds_of_pending {a : PortAttn} {c : Fin 8} {kinds : BitVec 8} (h : a.pending[c] &&& kinds = kinds) :
    a.raiseKinds c kinds = a := by
  rw [PortAttn.raiseKinds, or_of_pending h, shown_of_pending _ h]
  simp only [Fin.getElem_fin, Vector.set_getElem_self]

section raise
variable (l : Live) (c d : Fin 8) (k : Kind) (p : Port)

/-- The kinds that a notice adds at a port: its own where the route names the port. -/
theorem Live.raise_get : (l.raise c k).attn.get p =
    (l.attn.get p).raiseKinds c (if routeNames (l.ctxs[c].applied.route k) p then k.mask else 0#8) := by
  rw [Live.raise_attn, raiseRouted_get]

theorem Live.raise_pending : ((l.raise c k).attn.get p).pending[d] =
    if d = c ∧ routeNames (l.ctxs[c].applied.route k) p then (l.attn.get p).pending[d] ||| k.mask
    else (l.attn.get p).pending[d] := by
  rw [Live.raise_get, PortAttn.raiseKinds_pending, ite_and]
  split
  · split
    · rfl
    · exact BitVec.or_zero
  · exact BitVec.or_zero

theorem Live.raise_shown : ((l.raise c k).attn.get p).shown[d] =
    if d = c ∧ routeNames (l.ctxs[c].applied.route k) p ∧ (l.attn.get p).pending[d] &&& k.mask = 0 then
      (l.attn.get p).shown[d] &&& ~~~k.mask
    else (l.attn.get p).shown[d] := by
  rw [Live.raise_get, PortAttn.raiseKinds_shown, ite_and, ite_and]
  split
  · split
    · split
      · next h => exact shown_of_not_pending _ h
      · next h => exact shown_of_pending _ ((k.and_mask_cases _).resolve_left h)
    · exact shown_none _ _
  · exact shown_none _ _

variable {l c k}

theorem Live.raise_attn_of_pending
    (h : ∀ q : Port, routeNames (l.ctxs[c].applied.route k) q = true → (l.attn.get q).pending[c] &&& k.mask = k.mask) :
    (l.raise c k).attn = l.attn := by
  refine PerPort.eq_of_get fun q => ?_
  rw [Live.raise_get, PortAttn.raiseKinds_of_pending]
  split
  · next hq => exact h q hq
  · exact BitVec.and_zero

end raise

/-- Settles O13, at one port: what the notice adds there, what it does to the marks, and when it adds nothing. -/
theorem noticesAreRouted : Obligations.NoticesAreRouted := by
  intro l c k p
  have hnone : ∀ q, routeNames 0 q = false := fun q => by cases q <;> rfl
  refine ⟨fun d => l.raise_pending c d k p, fun d => l.raise_shown c d k p, noticed_same l.ctxs[c] c k true l.attn true,
    Live.raise_attn_of_pending, fun hroute => Live.raise_attn_of_pending fun q hq => ?_, by cases p <;> decide⟩
  rw [hroute, hnone q] at hq
  exact absurd hq Bool.false_ne_true

/-! ## The summary word and ATTN (R121, R170) -/

/-- A field of one bit. -/
theorem getLsbD_field_bit (lo i : Nat) (b : Bool) (h : lo < 32) :
    (field lo 1 (bit01 b)).getLsbD i = (decide (i = lo) && b) := by
  by_cases hi : i = lo
  · subst hi
    rw [getLsbD_field_inside _ _ _ _ ⟨Nat.le_refl _, Nat.lt_succ_self _, h⟩, Nat.sub_self]
    cases b <;> simp [bit01]
  · rw [getLsbD_field_outside _ _ _ _ (by omega), decide_eq_false hi, Bool.false_and]

/-- Each bit of the summary word stands for one thing pending (R121). -/
theorem PortAttn.getLsbD_summary (a : PortAttn) :
    (∀ c : Fin 8, a.summary.getLsbD c.val = (a.pending[c] != 0)) ∧ a.summary.getLsbD 8 = a.config ∧
      a.summary.getLsbD 9 = a.fault ∧ a.summary.getLsbD 10 = a.engine := by
  have hbits : ∀ i < 11, a.summary.getLsbD i = ((allCtxs.any fun c => decide (i = c.val) && a.anyPending c) ||
      (decide (i = 8) && a.config) || (decide (i = 9) && a.fault) || (decide (i = 10) && a.engine)) := fun i hi => by
    simp (disch := decide) only [PortAttn.summary, BitVec.getLsbD_setWidth, BitVec.getLsbD_or, getLsbD_field_bit,
      decide_eq_true hi, Bool.true_and]
    simp [allCtxs, Bool.or_assoc]
  refine ⟨fun c => ?_, ?_, ?_, ?_⟩
  · rw [hbits c.val (by omega)]
    fin_cases c <;> simp [allCtxs, PortAttn.anyPending]
  · exact (hbits 8 (by decide)).trans (by simp [allCtxs])
  · exact (hbits 9 (by decide)).trans (by simp [allCtxs])
  · exact (hbits 10 (by decide)).trans (by simp [allCtxs])

/-- ATTN is asserted on a bit that the summary word and the enable word have in common (R121). -/
theorem PortAttn.asserted_iff (a : PortAttn) :
    a.asserted = true ↔ ∃ i < 11, a.summary.getLsbD i = true ∧ a.enable.getLsbD i = true := by
  have hbit : ∀ i, (a.summary &&& a.enable).getLsbD i = true ↔ a.summary.getLsbD i = true ∧ a.enable.getLsbD i = true :=
    fun i => by rw [BitVec.getLsbD_and, Bool.and_eq_true]
  rw [PortAttn.asserted, bne_iff_ne]
  constructor
  · intro hne
    by_contra hnone
    refine hne (BitVec.eq_of_getLsbD_eq fun i hi => ?_)
    refine Eq.trans ?_ BitVec.getLsbD_zero.symm
    rw [← Bool.not_eq_true, hbit]
    exact fun hcommon => hnone ⟨i, hi, hcommon⟩
  · rintro ⟨i, -, hcommon⟩ hzero
    have := (hbit i).2 hcommon
    simp [hzero] at this

/-- Settles O14: the bits of the summary word, and ATTN out of power-on reset. -/
theorem summaryWordDrivesAttn : Obligations.SummaryWordDrivesAttn := by
  intro s p
  obtain ⟨hctx, hconfig, hfault, hengine⟩ := (s.attn.get p).getLsbD_summary
  refine ⟨hctx, hconfig, hfault, hengine, rfl, fun hr => ?_, fun hr => ?_⟩
  · rw [State.attnLine, hr]
    rfl
  · rw [State.attnLine, hr]
    exact (s.attn.get p).asserted_iff

/-! ## The records (R127, R130, R142) -/

theorem min_succ_eq_ite (bound n : Nat) : min bound (n + 1) = if n < bound then n + 1 else bound := by
  split <;> omega

section capture
variable {a : PortAttn} (k : FaultKind) (t : Transfer) (w : BitVec 5)

theorem PortAttn.capture_of_none (h : a.record = none) : a.capture k t w = { a with
    fault := true
    record := some ⟨k, t.dir, t.level, w, BitVec.ofNat 26 t.address, 0⟩ } := by
  unfold PortAttn.capture
  rw [h]

theorem PortAttn.capture_of_some {r : FaultRecord} (h : a.record = some r) : a.capture k t w = { a with
    record := some { r with further := if r.further < 15 then r.further + 1 else 15 } } := by
  unfold PortAttn.capture
  rw [h]
  simp only [min_succ_eq_ite]

end capture

/-- Settles O15, by whether the record is valid already. -/
theorem recordsCaptureTheFirstAndCount : Obligations.RecordsCaptureTheFirstAndCount := by
  refine ⟨fun a k t w => ⟨fun h => ?_, fun r h => ?_, ?_⟩, fun s p table index reason => ?_⟩
  · rw [PortAttn.capture_of_none k t w h]
    exact ⟨rfl, rfl⟩
  · rw [PortAttn.capture_of_some k t w h]
    exact ⟨rfl, rfl⟩
  · cases h : a.record with
    | none =>
      rw [PortAttn.capture_of_none k t w h]
      exact ⟨rfl, rfl, rfl, rfl, rfl⟩
    | some r =>
      rw [PortAttn.capture_of_some k t w h]
      exact ⟨rfl, rfl, rfl, rfl, rfl⟩
  · unfold State.refuseConfig
    cases s.configStatus with
    | none => rfl
    | some r => simp only [min_succ_eq_ite]

end Sys2Proof.Machine
end

section
/-! PROOFS. Acknowledge words at the completion of their writes: the global ones with their records, and those of the contexts
(R122, R123, R124, R136). -/

namespace Sys2Proof.Machine

/-! ## The global acknowledge word (R123) -/

theorem cbFunction_globalAck (q : Port) : cbFunction (if q = .A then 0x040 else 0x080) = .globalAck q := by
  cases q <;> rfl

theorem cbFunction_globalAck_other (p : Port) : cbFunction (if p = .A then 0x080 else 0x040) = .globalAck p.other := by
  cases p <;> rfl

section global
variable (s : State) (p : Port) (b : Bool)

theorem State.ackConfig_if : (if b then s.ackConfig p else s) = { s with
    configStatus := if b then none else s.configStatus
    attn := s.attn.set p { s.attn.get p with config := if b then false else (s.attn.get p).config } } := by
  cases b with
  | true => rfl
  | false => exact congrArg (fun a => { s with attn := a }) (PerPort.set_get_self s.attn p).symm

theorem State.ackFault_if : (if b then s.ackFault p else s) = { s with
    attn := s.attn.set p { s.attn.get p with
      fault := if b then false else (s.attn.get p).fault
      record := if b then none else (s.attn.get p).record } } := by
  cases b with
  | true => rfl
  | false => exact congrArg (fun a => { s with attn := a }) (PerPort.set_get_self s.attn p).symm

theorem State.ackEngine_if : (if b then s.ackEngine p else s) = { s with
    engineFault := if b then none else s.engineFault
    attn := s.attn.set p { s.attn.get p with engine := if b then false else (s.attn.get p).engine } } := by
  cases b with
  | true => rfl
  | false => exact congrArg (fun a => { s with attn := a }) (PerPort.set_get_self s.attn p).symm

/-- Each of the three bits clears its kind with its record; a bit written 0 leaves both (R123). -/
theorem State.globalAck_eq (w : Word) : s.globalAck p w = { s with
    configStatus := if w.getLsbD 8 then none else s.configStatus
    engineFault := if w.getLsbD 10 then none else s.engineFault
    attn := s.attn.set p { s.attn.get p with
      config := if w.getLsbD 8 then false else (s.attn.get p).config
      fault := if w.getLsbD 9 then false else (s.attn.get p).fault
      record := if w.getLsbD 9 then none else (s.attn.get p).record
      engine := if w.getLsbD 10 then false else (s.attn.get p).engine } } := by
  unfold State.globalAck
  dsimp only
  rw [State.ackConfig_if, State.ackFault_if, State.ackEngine_if]
  simp only [PerPort.get_set_self, PerPort.set_set]

end global

/-! ## Rows of an acknowledge word (log 2) -/

/-- The rows that the bits written 1 name. -/
def ackBitRows (w : Word) : List CbRow :=
  (if w.getLsbD 8 then [CbRow.ackConfig] else []) ++ (if w.getLsbD 9 then [CbRow.ackFault] else []) ++
    (if w.getLsbD 10 then [CbRow.ackEngine] else [])

theorem mem_ackRows {w : Word} {row : CbRow} (h : row ∈ ackBitRows w) : row ∈ ackRows w := by
  have hne : (ackBitRows w).isEmpty = false := List.isEmpty_eq_false_iff.2 (List.ne_nil_of_mem h)
  have hrows : ackRows w = if (ackBitRows w).isEmpty then [.plain] else ackBitRows w := rfl
  rw [hrows, hne]
  exact h

/-- Each of the three commands is the completion of the write, by the row of its bit. -/
theorem exec_ack {i : Instr} {b : Nat} (h : (i, b) ∈ [(Instr.ackConfig, 8), (.ackFault, 9), (.ackEngine, 10)]) (s : State)
    {w : Word} (hw : w.getLsbD b = true) :
    ∃ row ∈ ackRows w, exec i s = event (s.cbWriteHas row) s fun s => s.completeCbWrite := by
  simp only [List.mem_cons, Prod.mk.injEq, List.not_mem_nil, or_false] at h
  rcases h with ⟨rfl, rfl⟩ | ⟨rfl, rfl⟩ | ⟨rfl, rfl⟩
  · exact ⟨.ackConfig, mem_ackRows (by simp [ackBitRows, hw]), exec_ackConfig s⟩
  · exact ⟨.ackFault, mem_ackRows (by simp [ackBitRows, hw]), exec_ackFault s⟩
  · exact ⟨.ackEngine, mem_ackRows (by simp [ackBitRows, hw]), exec_ackEngine s⟩

section rows
variable {p q : Port} {c : Fin 8} {offset : Nat} {be : Enables} (v : Word) (clear : Bool)

theorem CbWord.rows_globalAck (hb : be ≠ 0) (hf : cbFunction offset = .globalAck q) :
    (⟨offset, be, v⟩ : CbWord).rows p clear = if q = p then ackRows (v &&& laneMask be) else [.plain] := by
  unfold CbWord.rows
  rw [if_pos (CbWord.acts_of_enabled _ _ hb), hf]
  rfl

theorem CbWord.rows_contextAck (hb : be ≠ 0) (hf : cbFunction offset = .contextAck q c) :
    (⟨offset, be, v⟩ : CbWord).rows p clear = if q = p ∧ clear = false then [.contextAck] else [.plain] := by
  unfold CbWord.rows
  rw [if_pos (CbWord.acts_of_enabled _ _ hb), hf]

variable (s : State)

theorem State.actWord_globalAck (hb : be ≠ 0) (hf : cbFunction offset = .globalAck q) :
    s.actWord p ⟨offset, be, v⟩ = if q = p then s.globalAck p (v &&& laneMask be) else s := by
  unfold State.actWord
  rw [if_pos (CbWord.acts_of_enabled _ _ hb), hf]
  rfl

/-- An acknowledge word of a context acts for its own port, under ACKWRITE (R122, R124). -/
theorem State.actWord_contextAck (hb : be ≠ 0) (hf : cbFunction offset = .contextAck q c) :
    s.actWord p ⟨offset, be, v⟩ = if q = p ∧ readClear s.globalWord = false then
      { s with attn := s.attn.set p ((s.attn.get p).clearKinds c ((v &&& laneMask be).setWidth 8)) } else s := by
  unfold State.actWord
  rw [if_pos (CbWord.acts_of_enabled _ _ hb), hf]
  cases hclear : readClear s.globalWord <;> simp [State.contextAck, CbWord.carried, hclear]

end rows

/-! ## The completion of the write (R123, R124, R136) -/

section unit
variable {s : State} {p q : Port} {c : Fin 8} {offset : Nat} {be : Enables} {v : Word} {t : Transfer}

/-- The completion of a write of a word that is no record word, by a row that the word stands for. -/
theorem State.CbWordUnit.event_unstaged (h : s.CbWordUnit p offset be v t) {row : CbRow}
    (hrow : row ∈ (⟨offset, be, v⟩ : CbWord).rows p (readClear s.globalWord))
    (hw : ∀ k n, cbFunction offset ≠ .window k n) (hc : ∀ c n, cbFunction offset ≠ .context c n) :
    Machine.event (s.cbWriteHas row) s (fun s => s.completeCbWrite) = .next (closeEvent s
      ((s.writeAnswered p ⟨.cbWrite, s.cbBase + offset, [be], [v], true⟩).actWord p ⟨offset, be, v⟩)) := by
  rw [h.event hrow, State.stageWord_of_no_record _ ⟨offset, be, v⟩ hw hc]

/-- A write that acts on nothing leaves its words in memory and its port answered. -/
theorem State.CbWordUnit.exec_plain (h : s.CbWordUnit p offset be v t) (hj : s.JobsPlaced)
    (hrow : CbRow.plain ∈ (⟨offset, be, v⟩ : CbWord).rows p (readClear s.globalWord))
    (hw : ∀ k n, cbFunction offset ≠ .window k n) (hc : ∀ c n, cbFunction offset ≠ .context c n)
    (hact : ∀ u : State, u.globalWord = s.globalWord → u.actWord p ⟨offset, be, v⟩ = u) :
    exec .cbPlainWrite s = .next (s.writeAnswered p ⟨.cbWrite, s.cbBase + offset, [be], [v], true⟩) := by
  rw [exec_cbPlainWrite, execCbPlainWrite, h.event_unstaged hrow hw hc,
    hact (s.writeAnswered p ⟨.cbWrite, s.cbBase + offset, [be], [v], true⟩) rfl]
  exact congrArg _ (closeEvent_quiet hj rfl rfl rfl rfl rfl)

/-- The completion of a write of a port's own global acknowledge word with a bit of a kind set (R123). -/
theorem State.CbWordUnit.exec_globalAck (h : s.CbWordUnit p offset be v t) (hj : s.JobsPlaced)
    (hf : cbFunction offset = .globalAck p) {i : Instr} {b : Nat}
    (hi : (i, b) ∈ [(Instr.ackConfig, 8), (.ackFault, 9), (.ackEngine, 10)])
    (hb : (v &&& laneMask be).getLsbD b = true) :
    exec i s = .next (s.reported
      ((s.writeAnswered p ⟨.cbWrite, s.cbBase + offset, [be], [v], true⟩).globalAck p (v &&& laneMask be))) := by
  obtain ⟨row, hmem, hexec⟩ := exec_ack hi s hb
  have hrow : row ∈ (⟨offset, be, v⟩ : CbWord).rows p (readClear s.globalWord) := by
    rwa [CbWord.rows_globalAck v _ h.enabled hf, if_pos rfl]
  rw [hexec, h.event_unstaged hrow (by simp [hf]) (by simp [hf]), State.actWord_globalAck v _ h.enabled hf, if_pos rfl,
    State.globalAck_eq]
  exact congrArg _ (closeEvent_reported hj rfl rfl)

theorem State.CbWordUnit.exec_globalAck_other (h : s.CbWordUnit p offset be v t) (hj : s.JobsPlaced)
    (hf : cbFunction offset = .globalAck q) (hq : q ≠ p) :
    exec .cbPlainWrite s = .next (s.writeAnswered p ⟨.cbWrite, s.cbBase + offset, [be], [v], true⟩) := by
  refine h.exec_plain hj ?_ (by simp [hf]) (by simp [hf]) fun u _ => ?_
  · rw [CbWord.rows_globalAck v _ h.enabled hf, if_neg hq]
    exact List.mem_singleton_self _
  · rw [State.actWord_globalAck v _ h.enabled hf, if_neg hq]

/-- The completion of a write of a port's own acknowledge word of a context, under ACKWRITE (R124). -/
theorem State.CbWordUnit.exec_contextAck (h : s.CbWordUnit p offset be v t) (hj : s.JobsPlaced)
    (hf : cbFunction offset = .contextAck p c) (hclear : readClear s.globalWord = false) :
    exec .contextAck s = .next (s.reported
      { s.writeAnswered p ⟨.cbWrite, s.cbBase + offset, [be], [v], true⟩ with
        attn := s.attn.set p ((s.attn.get p).clearKinds c ((v &&& laneMask be).setWidth 8)) }) := by
  have hrow : CbRow.contextAck ∈ (⟨offset, be, v⟩ : CbWord).rows p (readClear s.globalWord) := by
    rw [CbWord.rows_contextAck v _ h.enabled hf, if_pos ⟨rfl, hclear⟩]
    exact List.mem_singleton_self _
  rw [Machine.exec_contextAck, execContextAck, h.event_unstaged hrow (by simp [hf]) (by simp [hf]),
    State.actWord_contextAck v _ h.enabled hf, if_pos ⟨rfl, hclear⟩]
  exact congrArg _ (closeEvent_reported hj rfl rfl)

theorem State.CbWordUnit.exec_contextAck_idle (h : s.CbWordUnit p offset be v t) (hj : s.JobsPlaced)
    (hf : cbFunction offset = .contextAck q c) (hidle : ¬(q = p ∧ readClear s.globalWord = false)) :
    exec .cbPlainWrite s = .next (s.writeAnswered p ⟨.cbWrite, s.cbBase + offset, [be], [v], true⟩) := by
  refine h.exec_plain hj ?_ (by simp [hf]) (by simp [hf]) fun u hu => ?_
  · rw [CbWord.rows_contextAck v _ h.enabled hf, if_neg hidle]
    exact List.mem_singleton_self _
  · rw [State.actWord_contextAck v _ h.enabled hf, hu, if_neg hidle]

end unit

/-- Settles O48, by the word written: the own or the other port's global word, or the word of a context. -/
theorem acknowledgeWordsClear : Obligations.AcknowledgeWordsClear := by
  refine ⟨⟨fun s p be v t i b h hj hi hb => ?_, fun s p be v t h hj => ?_⟩, fun s p q c be v t h hj => ?_⟩
  · intro w a
    rw [h.exec_globalAck hj (cbFunction_globalAck p) hi hb, State.globalAck_eq]
    rfl
  · exact h.exec_globalAck_other hj (cbFunction_globalAck_other p) (Port.other_ne p)
  · intro done a kinds
    have hf := cbFunction_contextAck q c
    refine ⟨?_, fun hidle => h.exec_contextAck_idle hj hf fun hown => ?_⟩
    · rintro rfl hclear
      exact h.exec_contextAck hj hf hclear
    · obtain ⟨hq, hclear⟩ := hown
      rcases hidle with hne | hset
      · exact hne hq
      · exact absurd (hset.symm.trans hclear) (by decide)

end Sys2Proof.Machine
end

section
/-! PROOFS. The control-block reads of a port under READCLEAR: the kinds that they clear (R126). -/

namespace Sys2Proof.Machine

/-! ## Notice words (R126, section 8.6) -/

theorem noticeContext_offset (p : Port) (c : Fin 8) : noticeContext p (Item.notice p c).offset = some c := by
  revert c
  cases p <;> decide

theorem Item.notice_offset_aligned (p : Port) (c : Fin 8) : (Item.notice p c).offset % 4 = 0 := by
  cases p <;> simp only [Item.offset] <;> omega

/-- The notice word that an aligned offset lies at (section 8.6). -/
theorem noticeContext_eq_some {p : Port} {offset : Nat} {c : Fin 8} (ha : offset % 4 = 0)
    (h : noticeContext p offset = some c) : offset = (Item.notice p c).offset := by
  by_contra hne
  have hnone : noticeContext p offset = none := noticeContext_eq_none ha fun d hd => by
    rw [hd, noticeContext_offset, Option.some.injEq] at h
    exact hne (h ▸ hd)
  rw [hnone] at h
  exact nomatch h

/-! ## One word of the burst -/

section word
variable (a : PortAttn) (p : Port) (w : Word) {offset : Nat} {c e : Fin 8}

/-- At a notice word the kinds that the data carries and that are shown leave the pending set. -/
theorem PortAttn.readClearWord_own (h : offset = (Item.notice p e).offset) :
    (a.readClearWord p offset w).pending[e] = a.pending[e] &&& ~~~(w.setWidth 8 &&& a.shown[e]) := by
  have hbits : ∀ x y z : BitVec 8, x &&& ~~~(y &&& x &&& z) = x &&& ~~~(y &&& z) := fun x y z => by
    refine BitVec.eq_of_getLsbD_eq fun i hi => ?_
    simp only [BitVec.getLsbD_and, BitVec.getLsbD_not, hi, decide_true, Bool.true_and]
    grind
  rw [PortAttn.readClearWord, h, noticeContext_offset]
  simp only [PortAttn.clearKinds, Fin.getElem_fin, Vector.getElem_set_self]
  exact hbits _ _ _

/-- A word elsewhere leaves the kinds of a context and their marks. -/
theorem PortAttn.readClearWord_elsewhere (ha : offset % 4 = 0) (h : offset ≠ (Item.notice p e).offset) :
    (a.readClearWord p offset w).pending[e] = a.pending[e] ∧ (a.readClearWord p offset w).shown[e] = a.shown[e] := by
  unfold PortAttn.readClearWord
  split
  · exact ⟨rfl, rfl⟩
  · next c hc =>
    have hne : c ≠ e := fun hce => h (hce ▸ noticeContext_eq_some ha hc)
    exact ⟨vector_getElem_set_ne _ _ hne, vector_getElem_set_ne _ _ hne⟩

theorem PortAttn.readClearWord_frame (offset : Nat) : ∃ pending shown,
    a.readClearWord p offset w = { a with pending := pending, shown := shown } := by
  unfold PortAttn.readClearWord
  split
  · exact ⟨a.pending, a.shown, rfl⟩
  · exact ⟨_, _, rfl⟩

end word

/-! ## The burst -/

/-- A read clears kinds of contexts and nothing else. -/
theorem PortAttn.readClearBurst_frame (p : Port) : ∀ (words : List Word) (offset : Nat) (a : PortAttn),
    ∃ pending shown, a.readClearBurst p offset words = { a with pending := pending, shown := shown }
  | [], _, a => ⟨a.pending, a.shown, rfl⟩
  | w :: rest, offset, a => by
    obtain ⟨pending, shown, hword⟩ := a.readClearWord_frame p w offset
    rw [PortAttn.readClearBurst, hword]
    exact PortAttn.readClearBurst_frame p rest (offset + 4) { a with pending := pending, shown := shown }

section burst
variable {p : Port} {e : Fin 8}

theorem PortAttn.readClearBurst_uncovered : ∀ (words : List Word) (offset : Nat) (a : PortAttn), offset % 4 = 0 →
    (∀ m < words.length, offset + 4 * m ≠ (Item.notice p e).offset) →
    (a.readClearBurst p offset words).pending[e] = a.pending[e]
  | [], _, _, _, _ => rfl
  | w :: rest, offset, a, ha, h => by
    have hword := a.readClearWord_elsewhere p w ha (h 0 (Nat.succ_pos _))
    rw [PortAttn.readClearBurst, PortAttn.readClearBurst_uncovered rest (offset + 4) _ (by omega), hword.1]
    intro m hm
    have := h (m + 1) (Nat.succ_lt_succ hm)
    omega

theorem PortAttn.readClearBurst_covered : ∀ (words : List Word) (offset : Nat) (a : PortAttn), offset % 4 = 0 →
    ∀ m < words.length, offset + 4 * m = (Item.notice p e).offset →
    (a.readClearBurst p offset words).pending[e] =
      a.pending[e] &&& ~~~((words.getD m 0).setWidth 8 &&& a.shown[e])
  | [], _, _, _, _, hm, _ => absurd hm (Nat.not_lt_zero _)
  | w :: rest, offset, a, ha, 0, _, h => by
    rw [PortAttn.readClearBurst, PortAttn.readClearBurst_uncovered rest (offset + 4) _ (by omega) fun n _ => by omega]
    exact a.readClearWord_own p w h
  | w :: rest, offset, a, ha, m + 1, hm, h => by
    obtain ⟨hpending, hshown⟩ := a.readClearWord_elsewhere p w (e := e) ha (by omega)
    rw [PortAttn.readClearBurst, PortAttn.readClearBurst_covered rest (offset + 4) _ (by omega) m
      (Nat.lt_of_succ_lt_succ hm) (by omega), hpending, hshown, List.getD_cons_succ]

end burst

/-! ## The completion of the read (R93, R126, R134) -/

section read
variable {s : State} {p : Port} {u : PathUnit} {t : Transfer} {d : Decode}

/-- The state when the data of a control-block read under READCLEAR has passed to its port. -/
def State.readCleared (s : State) (p : Port) (u : PathUnit) : State :=
  { s.pathFreed p with
    ifaces := s.ifaces.set p (.answering (.okRead (s.mem.readBurst u.address u.enables)))
    attn := s.attn.set p
      ((s.attn.get p).readClearBurst p (u.address - s.cbBase) (s.mem.readBurst u.address u.enables)) }

theorem State.WantedUnit.exec_readClears (h : s.WantedUnit p u t d) (hu : u.work = .cbRead)
    (hclear : readClear s.globalWord = true) (hg : s.mem.burstGood u.address u.enables = true) :
    exec .portReadCompletion s = .next (closeEvent s (s.readCleared p u)) := by
  have hanswer : s.readPassed p u s.toLive = { s.toLive with
      ifaces := s.ifaces.set p (.answering (.okRead (s.mem.readBurst u.address u.enables)))
      attn := s.attn.set p
        ((s.attn.get p).readClearBurst p (u.address - s.cbBase) (s.mem.readBurst u.address u.enables)) } := by
    rw [State.readPassed, Live.answerOk_held _ h.held, hu, hclear]
    rfl
  refine (h.toPortUnit.exec_portRead (.inr hu)).trans (closed_congr ?_)
  simp only [hg, if_true]
  rw [h.completeUnit, PathUnit.writes_read (.inr hu)]
  exact congrArg (fun l => ({ s.pathFreed p with toLive := l } : State)) hanswer

/-- Where the read clears, its completion goes by either row (log 2). -/
theorem State.PortUnit.exec_noticeRead (h : s.PortUnit p u) (hu : u.work = .cbRead) (hr : s.readsNotice = true) :
    exec .noticeWordReadClear s = exec .portReadCompletion s := by
  have hunit : s.unitIs (fun w => w == .read || w == .cbRead) = true := h.unitIs (by rw [hu]; rfl)
  rw [exec_noticeWordReadClear, execNoticeWordReadClear, exec_portReadCompletion, execPortReadCompletion,
    event_possible hr h.running, event_possible hunit h.running]

theorem State.PortUnit.readsNotice_eq (h : s.PortUnit p u) : s.readsNotice =
    (u.work == .cbRead && u.wanted && readClear s.globalWord && s.mem.burstGood u.address u.enables &&
      (u.offsets s.cbBase).any fun o => (noticeContext p o).isSome) := by
  rw [State.readsNotice, h.currentUnit]

/-- A word of the unit at a notice word of its port (R126). -/
theorem PathUnit.covers_notice {base n : Nat} {c : Fin 8} (hb : base ≤ u.address) (hn : n < u.enables.length)
    (h : u.address + 4 * n = base + (Item.notice p c).offset) :
    ((u.offsets base).any fun o => (noticeContext p o).isSome) = true := by
  have hoffset : u.address - base + 4 * n = (Item.notice p c).offset := by omega
  refine List.any_eq_true.2 ⟨(Item.notice p c).offset, ?_, by rw [noticeContext_offset]; rfl⟩
  exact List.mem_map.2 ⟨n, List.mem_range.2 hn, hoffset⟩

/-- The offsets of the words of an aligned unit in the control block. -/
theorem State.unit_word_offset (hb : s.cbBase ≤ u.address) (ha : u.address % 4 = 0) :
    (u.address - s.cbBase) % 4 = 0 ∧ ∀ m offset : Nat,
      u.address + 4 * m = s.cbBase + offset ↔ u.address - s.cbBase + 4 * m = offset := by
  have hbase : s.cbBase % 4 = 0 := cbBaseOf_aligned s.cbsel s.memsz
  exact ⟨by omega, fun m offset => by omega⟩

end read

/-- Settles O40: a read that clears nothing is no event of the second row, and one that clears does so at each of its
notice words. -/
theorem noticeReadsClearUnderReadclear : Obligations.NoticeReadsClearUnderReadclear := by
  refine ⟨fun s p u h hno => ?_, fun s p u t d h hu hclear hb ha hg n c hn hc => ?_⟩
  · refine event_impossible ?_
    rw [h.readsNotice_eq]
    rcases hno with hbad | hunwanted
    · simp [hbad]
    · simp [hunwanted]
  · have hreads : s.readsNotice = true := by
      rw [h.toPortUnit.readsNotice_eq, hu, h.wanted, hclear, hg, PathUnit.covers_notice hb hn hc]
      rfl
    have hread := h.exec_readClears hu hclear hg
    have hattn : (closeEvent s (s.readCleared p u)).attn = (s.readCleared p u).attn :=
      closeEvent_attn_of_ready s (s.readCleared p u) fun _ => rfl
    obtain ⟨haligned, hoffset⟩ := State.unit_word_offset hb ha
    obtain ⟨pending, shown, hframe⟩ := (s.attn.get p).readClearBurst_frame p
      (s.mem.readBurst u.address u.enables) (u.address - s.cbBase)
    refine ⟨_, (h.toPortUnit.exec_noticeRead hu hreads).trans hread, hread, closeEvent_ifaces .., rfl,
      closeEvent_core s (s.readCleared p u), ?_⟩
    rw [hattn]
    simp only [State.readCleared, PerPort.get_set_self, PerPort.get_set_other, true_and]
    refine ⟨by rw [hframe], by rw [hframe], by rw [hframe], by rw [hframe], by rw [hframe],
      fun e => ⟨fun m hm hcov => ?_, fun hcov => ?_⟩⟩
    · exact PortAttn.readClearBurst_covered _ _ _ haligned m (by rwa [Memory.readBurst_length]) ((hoffset _ _).1 hcov)
    · refine PortAttn.readClearBurst_uncovered _ _ _ haligned fun m hm he => ?_
      rw [Memory.readBurst_length] at hm
      exact hcov m hm ((hoffset _ _).2 he)

end Sys2Proof.Machine
end

section
/-! PROOFS. The status items: what their words hold (R127 to R130, R145, section 8.7), and how the mirror writer takes and
writes them (R125, R147). -/

namespace Sys2Proof.Machine

/-! ## Codes (section 8.7) -/

theorem FaultKind.code_mem (k : FaultKind) : (k, k.code % 2 ^ 4) ∈ [(FaultKind.unmapped, 1), (.access, 2), (.shape, 3),
    (.parity, 4), (.full, 5), (.empty, 6), (.overrun, 7), (.expired, 8), (.withdrawn, 9)] := by
  cases k <;> decide

theorem Table.code_mem (k : Table) :
    (k, k.code % 2 ^ 2) ∈ [(Table.window, 0), (.context, 1), (.command, 2), (.global, 3)] := by
  cases k <;> decide

theorem Reason.code_mem (k : Reason) : (k, k.code % 2 ^ 3) ∈ [(Reason.range, 1), (.align, 2), (.memory, 3), (.control, 4),
    (.overlap, 5), (.binding, 6), (.bound, 7)] := by
  cases k <;> decide

theorem dirBit_mod (d : Dir) : dirBit d % 2 ^ 1 = if d = .write then 1 else 0 := by cases d <;> rfl

theorem portBit_mod (p : Port) : portBit p % 2 ^ 1 = if p = .A then 0 else 1 := by cases p <;> rfl

theorem EngineCause.code_mod (k : EngineCause) : k.code % 2 ^ 1 = if k = .stamp then 0 else 1 := by cases k <;> rfl

/-! ## The words of the items, field by field (section 8.7) -/

/-- A field that fills the low bits of a word. -/
theorem field_low_toNat (len n : Nat) (h : len ≤ 32) : (field 0 len n).toNat = n % 2 ^ len := by
  have hlt : n % 2 ^ len < 2 ^ 32 :=
    Nat.lt_of_lt_of_le (Nat.mod_lt _ (Nat.two_pow_pos len)) (Nat.pow_le_pow_right (by decide) h)
  rw [field, BitVec.shiftLeft_zero, BitVec.toNat_setWidth, BitVec.toNat_ofNat, Nat.mod_eq_of_lt hlt]

/-- Bit 31 of a record's first word is 1 while the record is valid. -/
theorem getLsbD_valid (w : Word) : (w ||| field 31 1 1).getLsbD 31 = true := by
  rw [BitVec.getLsbD_or, getLsbD_field_inside 31 1 1 31 (by decide)]
  exact Bool.or_true _

theorem bit01_testBit (b : Bool) : (bit01 b).testBit 0 = b := by cases b <;> rfl

/-- The first word of a valid fault record item (R127). -/
def FaultRecord.word (r : FaultRecord) : Word :=
  field 0 4 r.kind.code ||| field 4 1 (dirBit r.dir) ||| field 5 2 r.level.toNat ||| field 8 5 r.window.toNat |||
    field 16 4 r.further ||| field 31 1 1

theorem faultRecordWords_some (r : FaultRecord) : faultRecordWords (some r) = [r.word, r.address.setWidth 32] := rfl

theorem FaultRecord.word_fields (r : FaultRecord) :
    bits r.word 0 4 = r.kind.code % 2 ^ 4 ∧ bits r.word 4 1 = dirBit r.dir % 2 ^ 1 ∧
      bits r.word 5 2 = r.level.toNat % 2 ^ 2 ∧ bits r.word 7 1 = 0 % 2 ^ 1 ∧ bits r.word 8 5 = r.window.toNat % 2 ^ 5 ∧
      bits r.word 13 3 = 0 % 2 ^ 3 ∧ bits r.word 16 4 = r.further % 2 ^ 4 ∧ bits r.word 20 11 = 0 % 2 ^ 11 := by
  refine ⟨?_, ?_, ?_, ?_, ?_, ?_, ?_, ?_⟩ <;> refine bits_eq_mod _ _ _ _ fun i hi => ?_ <;>
    simp (disch := omega) only [FaultRecord.word, BitVec.getLsbD_or, getLsbD_field_outside, getLsbD_field_inside,
      Bool.false_or, Bool.or_false, Nat.add_sub_cancel_left, Nat.zero_testBit]

/-- The first word of a valid config status record item (R130). -/
def ConfigStatus.word (r : ConfigStatus) : Word :=
  field 0 2 r.table.code ||| field 4 4 r.index ||| field 8 3 r.reason.code ||| field 12 1 (portBit r.port) |||
    field 31 1 1

theorem configStatusWords_some (r : ConfigStatus) : configStatusWords (some r) = [r.word, field 0 8 r.further] := rfl

theorem ConfigStatus.word_fields (r : ConfigStatus) :
    bits r.word 0 2 = r.table.code % 2 ^ 2 ∧ bits r.word 2 2 = 0 % 2 ^ 2 ∧ bits r.word 4 4 = r.index % 2 ^ 4 ∧
      bits r.word 8 3 = r.reason.code % 2 ^ 3 ∧ bits r.word 11 1 = 0 % 2 ^ 1 ∧
      bits r.word 12 1 = portBit r.port % 2 ^ 1 ∧ bits r.word 13 18 = 0 % 2 ^ 18 := by
  refine ⟨?_, ?_, ?_, ?_, ?_, ?_, ?_⟩ <;> refine bits_eq_mod _ _ _ _ fun i hi => ?_ <;>
    simp (disch := omega) only [ConfigStatus.word, BitVec.getLsbD_or, getLsbD_field_outside, getLsbD_field_inside,
      Bool.false_or, Bool.or_false, Nat.add_sub_cancel_left, Nat.zero_testBit]

/-- The first word of a valid engine fault record item (R129). -/
def EngineFault.word (r : EngineFault) : Word :=
  field 0 1 r.cause.code ||| field 4 3 r.context.val ||| field 8 4 r.further ||| field 31 1 1

theorem engineFaultWords_some (r : EngineFault) : engineFaultWords (some r) = [r.word, field 0 24 r.address] := rfl

theorem EngineFault.word_fields (r : EngineFault) :
    bits r.word 0 1 = r.cause.code % 2 ^ 1 ∧ bits r.word 1 3 = 0 % 2 ^ 3 ∧ bits r.word 4 3 = r.context.val % 2 ^ 3 ∧
      bits r.word 7 1 = 0 % 2 ^ 1 ∧ bits r.word 8 4 = r.further % 2 ^ 4 ∧ bits r.word 12 19 = 0 % 2 ^ 19 := by
  refine ⟨?_, ?_, ?_, ?_, ?_, ?_⟩ <;> refine bits_eq_mod _ _ _ _ fun i hi => ?_ <;>
    simp (disch := omega) only [EngineFault.word, BitVec.getLsbD_or, getLsbD_field_outside, getLsbD_field_inside,
      Bool.false_or, Bool.or_false, Nat.add_sub_cancel_left, Nat.zero_testBit]

section context
variable (x : Ctx)

/-- The first word of a context status item: its counts, watermark state, init state and order (R145). -/
def Ctx.countsWord : Word :=
  field 0 12 x.ready ||| field 12 12 x.heldCount ||| field 24 2 x.writing ||| field 26 2 x.inCopy |||
    field 28 2 x.watermark.code ||| field 30 1 (bit01 x.initialised) ||| field 31 1 (bit01 x.isLifo)

/-- The last word of a context status item: its stamp cache and next sequence number (R145). -/
def Ctx.stampWord : Word :=
  field 0 16 x.cache.stamp.toNat ||| field 16 8 x.seq.toNat ||| field 24 1 (bit01 x.cache.valid) |||
    field 25 1 (bit01 x.cache.staleRaised)

/-- The counters stand two to a word, the second and the fourth in the high half (R145). -/
theorem Ctx.statusWords_counters :
    x.statusWords = [x.countsWord, x.delivered ++ x.published, x.rejected ++ x.discarded, x.stampWord] := by
  rw [Ctx.statusWords, field_halves, field_halves]
  rfl

theorem Ctx.countsWord_fields :
    bits x.countsWord 0 12 = x.ready % 2 ^ 12 ∧ bits x.countsWord 12 12 = x.heldCount % 2 ^ 12 ∧
      bits x.countsWord 24 2 = x.writing % 2 ^ 2 ∧ bits x.countsWord 26 2 = x.inCopy % 2 ^ 2 ∧
      bits x.countsWord 28 2 = x.watermark.code % 2 ^ 2 := by
  refine ⟨?_, ?_, ?_, ?_, ?_⟩ <;> refine bits_eq_mod _ _ _ _ fun i hi => ?_ <;>
    simp (disch := omega) only [Ctx.countsWord, BitVec.getLsbD_or, getLsbD_field_outside, getLsbD_field_inside,
      Bool.false_or, Bool.or_false, Nat.add_sub_cancel_left]

theorem Ctx.countsWord_flags :
    x.countsWord.getLsbD 30 = x.initialised ∧ x.countsWord.getLsbD 31 = x.isLifo := by
  refine ⟨?_, ?_⟩ <;>
    simp (disch := omega) only [Ctx.countsWord, BitVec.getLsbD_or, getLsbD_field_outside, getLsbD_field_inside,
      Bool.false_or, Bool.or_false, Nat.sub_self, bit01_testBit]

theorem Ctx.stampWord_fields :
    bits x.stampWord 0 16 = x.cache.stamp.toNat % 2 ^ 16 ∧ bits x.stampWord 16 8 = x.seq.toNat % 2 ^ 8 ∧
      bits x.stampWord 26 6 = 0 % 2 ^ 6 := by
  refine ⟨?_, ?_, ?_⟩ <;> refine bits_eq_mod _ _ _ _ fun i hi => ?_ <;>
    simp (disch := omega) only [Ctx.stampWord, BitVec.getLsbD_or, getLsbD_field_outside, getLsbD_field_inside,
      Bool.false_or, Bool.or_false, Nat.add_sub_cancel_left, Nat.zero_testBit]

theorem Ctx.stampWord_flags :
    x.stampWord.getLsbD 24 = x.cache.valid ∧ x.stampWord.getLsbD 25 = x.cache.staleRaised := by
  refine ⟨?_, ?_⟩ <;>
    simp (disch := omega) only [Ctx.stampWord, BitVec.getLsbD_or, getLsbD_field_outside, getLsbD_field_inside,
      Bool.false_or, Bool.or_false, Nat.sub_self, bit01_testBit]

end context

/-! ## The items of a state (R127 to R130, R145) -/

section items
variable {s : State} {p : Port}

theorem State.itemWords_faultRecord {r : FaultRecord} (h : (s.attn.get p).record = some r) :
    s.itemWords (.faultRecord p) = [r.word, r.address.setWidth 32] := by
  rw [State.itemWords, h, faultRecordWords_some]

theorem State.itemWords_configStatus {r : ConfigStatus} (h : s.configStatus = some r) :
    s.itemWords .configStatus = [r.word, field 0 8 r.further] := by
  rw [State.itemWords, h, configStatusWords_some]

theorem State.itemWords_engineFault {r : EngineFault} (h : s.engineFault = some r) :
    s.itemWords .engineFault = [r.word, field 0 24 r.address] := by
  rw [State.itemWords, h, engineFaultWords_some]

end items

/-! ## The grant of the mirror writer (R125, R147) -/

section grant
variable (l : Live) (item : Item)

@[simp] theorem Live.markGranted_ctxs : (l.markGranted item).ctxs = l.ctxs := by cases item <;> rfl
@[simp] theorem Live.markGranted_jobs : (l.markGranted item).jobs = l.jobs := by cases item <;> rfl
@[simp] theorem Live.markGranted_ifaces : (l.markGranted item).ifaces = l.ifaces := by cases item <;> rfl

/-- The grant of an item changes nothing of a port's attention state but its shown marks. -/
theorem Live.markGranted_attn (q : Port) : ∃ shown,
    (l.markGranted item).attn.get q = { l.attn.get q with shown := shown } := by
  cases item with
  | notice p c =>
    obtain rfl | rfl := Port.eq_or_eq_other p q
    · exact ⟨_, PerPort.get_set_self ..⟩
    · exact ⟨_, PerPort.get_set_other ..⟩
  | summary | faultRecord | configStatus | engineFault | context => exact ⟨_, rfl⟩

/-- Every kind pending at a notice word is marked shown at its grant (R125). -/
theorem Live.markGranted_shown (p : Port) (c : Fin 8) :
    ((l.markGranted (.notice p c)).attn.get p).shown[c] = (l.attn.get p).pending[c] := by
  rw [Live.markGranted, PerPort.get_set_self, PortAttn.markShown]
  exact Vector.getElem_set_self c.isLt

variable {l item}

theorem Live.markGranted_of_no_notice (h : ∀ p c, item ≠ .notice p c) : l.markGranted item = l := by
  cases item with
  | notice p c => exact absurd rfl (h p c)
  | summary | faultRecord | configStatus | engineFault | context => rfl

/-- No item reads a shown mark (R145). -/
theorem State.itemWords_of_shown {s u : State} (hattn : ∀ q, ∃ shown, u.attn.get q = { s.attn.get q with shown := shown })
    (hctxs : u.ctxs = s.ctxs) (hconfig : u.configStatus = s.configStatus) (hengine : u.engineFault = s.engineFault)
    (i : Item) : s.itemWords i = u.itemWords i := by
  cases i with
  | summary p =>
    obtain ⟨shown, h⟩ := hattn p
    have hsummary : (u.attn.get p).summary = (s.attn.get p).summary := by rw [h]; rfl
    rw [State.itemWords, State.itemWords, hsummary]
  | notice p c | faultRecord p =>
    obtain ⟨shown, h⟩ := hattn p
    simp only [State.itemWords, h]
  | configStatus => rw [State.itemWords, State.itemWords, hconfig]
  | engineFault => rw [State.itemWords, State.itemWords, hengine]
  | context c => simp only [State.itemWords, hctxs]

/-- Where no item is marked and none changed its value, none is dirtied (R146). -/
theorem dirtied_eq_nil_of_itemWords {s u : State} {l : Live} (hl : ∀ c : Fin 8, l.ctxs[c.val].statusDue = false)
    (hi : ∀ i, s.itemWords i = u.itemWords i) : dirtied s l u = [] := by
  refine List.eq_nil_iff_forall_not_mem.2 fun i h => ?_
  obtain ⟨hchanged | ⟨c, -, hc⟩, -⟩ := mem_dirtied.1 h
  · exact hchanged (hi i).symm
  · exact Bool.false_ne_true ((hl c).symm.trans hc)

variable {s : State} {rest : List Item}

/-- The state in which the head item left the mirror list with its value as it stands, its notices marked shown (R147). -/
def State.itemGranted (s : State) (item : Item) (rest : List Item) : State :=
  { s with
    toLive := s.markGranted item
    pointer := .mirror
    mirror := rest
    busy := some (.mirror item (s.itemWords item)) }

theorem State.grantTo_mirror (h : s.mirror = item :: rest) : s.grantTo .mirror = s.itemGranted item rest := by
  unfold State.grantTo State.grantMirror
  dsimp only
  rw [h]
  rfl

theorem State.exec_mirrorWrite_head (hr : s.inReset = false) (hj : s.JobsPlaced) (hw : s.winner = some .mirror)
    (h : s.mirror = item :: rest) : exec .mirrorWrite s = .next (s.itemGranted item rest) := by
  have hctxs : (s.itemGranted item rest).ctxs = s.ctxs := s.markGranted_ctxs item
  have hjobs : (s.itemGranted item rest).jobs = s.jobs := s.markGranted_jobs item
  have hnone : dirtied s (s.itemGranted item rest).toLive (s.itemGranted item rest) = [] :=
    dirtied_eq_nil_of_itemWords (fun c => ((hj.of_eq hctxs hjobs) c).2.2)
      (State.itemWords_of_shown (s.markGranted_attn item) hctxs rfl rfl)
  refine (State.exec_mirrorWrite_to hr hw).trans (congrArg Host.Outcome.next ?_)
  rw [State.grantTo_mirror h, closeEvent_reported hj hctxs hjobs, State.reported, hnone, List.append_nil]

end grant

/-! ## The completion of a mirror unit (R147, R150) -/

theorem State.exec_mirrorUnitCompletion_item {s : State} {item : Item} {words : List Word} (hr : s.inReset = false)
    (hj : s.JobsPlaced) (hb : s.busy = some (.mirror item words)) :
    exec .mirrorUnitCompletion s = .next { s with
      mem := s.mem.applyWrites (burstWrites (s.cbBase + item.offset) (fullEnables words) words)
      busy := none } := by
  have hposs : s.mirrorBusy = true := by rw [State.mirrorBusy, hb]
  have hwrites : s.busyWrites = burstWrites (s.cbBase + item.offset) (fullEnables words) words := by
    rw [State.busyWrites, hb]
  rw [exec_mirrorUnitCompletion, execMirrorUnitCompletion, event_possible hposs hr, State.finishUnit, hwrites]
  exact congrArg _ (closeEvent_quiet hj rfl rfl rfl rfl rfl)

/-- Settles O35: the offsets, the words of each item, the grant of the head item, and its completion. -/
theorem mirrorItemsAreWritten : Obligations.MirrorItemsAreWritten := by
  refine ⟨fun p c => ?_, rfl, fun s p c => ⟨rfl, fun h => ?_, fun r h => ?_, fun h => ?_, fun r h => ?_, fun h => ?_,
    fun r h => ?_, ?_⟩, fun s item rest hr hj hw h => ?_, fun s item words hr hj hb =>
    State.exec_mirrorUnitCompletion_item hr hj hb⟩
  · cases p <;> exact ⟨rfl, rfl, rfl, rfl, rfl, rfl⟩
  · rw [State.itemWords, h]
    rfl
  · obtain ⟨hkind, hdir, hlevel, hgap7, hwindow, hgap13, hfurther, hgap20⟩ := r.word_fields
    exact ⟨r.word, State.itemWords_faultRecord h, hkind ▸ r.kind.code_mem, hdir.trans (dirBit_mod _),
      hlevel.trans (Nat.mod_eq_of_lt r.level.isLt), hgap7, hwindow.trans (Nat.mod_eq_of_lt r.window.isLt), hgap13,
      hfurther, hgap20, getLsbD_valid _⟩
  · rw [State.itemWords, h]
    rfl
  · obtain ⟨htable, hgap2, hindex, hreason, hgap11, hport, hgap13⟩ := r.word_fields
    exact ⟨r.word, field 0 8 r.further, State.itemWords_configStatus h, htable ▸ r.table.code_mem, hgap2, hindex,
      hreason ▸ r.reason.code_mem, hgap11, hport.trans (portBit_mod _), hgap13, getLsbD_valid _,
      field_low_toNat 8 _ (by decide)⟩
  · rw [State.itemWords, h]
    rfl
  · obtain ⟨hcause, hgap1, hcontext, hgap7, hfurther, hgap12⟩ := r.word_fields
    exact ⟨r.word, field 0 24 r.address, State.itemWords_engineFault h, hcause.trans r.cause.code_mod, hgap1,
      hcontext.trans (Nat.mod_eq_of_lt r.context.isLt), hgap7, hfurther, hgap12, getLsbD_valid _,
      field_low_toNat 24 _ (by decide)⟩
  · intro x
    obtain ⟨hready, hheld, hwriting, hcopy, hmark⟩ := x.countsWord_fields
    obtain ⟨hinit, hlifo⟩ := x.countsWord_flags
    obtain ⟨hstamp, hseq, hgap26⟩ := x.stampWord_fields
    obtain ⟨hvalid, hstale⟩ := x.stampWord_flags
    refine ⟨x.countsWord, x.stampWord, x.statusWords_counters, hready, hheld, hwriting, hcopy, ?_, hinit, hlifo,
      hstamp.trans (Nat.mod_eq_of_lt x.cache.stamp.isLt), hseq.trans (Nat.mod_eq_of_lt x.seq.isLt), hvalid, hstale,
      hgap26⟩
    refine (hmark.trans x.watermark.code_mod).trans ?_
    cases x.watermark <;> rfl
  · have hgrant := State.exec_mirrorWrite_head hr hj hw h
    refine ⟨⟨_, hgrant, rfl, rfl, rfl, s.markGranted_ctxs item, s.markGranted_jobs item, rfl,
      s.markGranted_ifaces item, fun p => ?_, ?_⟩, fun hno => ?_⟩
    · obtain ⟨shown, hattn⟩ := s.markGranted_attn item p
      have hpending : ((s.markGranted item).attn.get p).pending = (s.attn.get p).pending := by rw [hattn]
      exact hpending
    · rintro p c rfl
      exact s.markGranted_shown p c
    · rw [hgrant, State.itemGranted, Live.markGranted_of_no_notice hno]

end Sys2Proof.Machine
end

section
/-! PROOFS. The mirror law (R146): the body of an event puts no item on the mirror list, the grant of a mirror item
takes its head off, and the close adds only items that are not on it. -/

namespace Sys2Proof.Machine

/-! ## The law across a close -/

theorem State.MirrorLaw.of_sublist {s t : State} (hs : s.MirrorLaw) (h : t.mirror.Sublist s.mirror) : t.MirrorLaw :=
  List.Nodup.sublist h hs

theorem State.MirrorLaw.of_eq {s t : State} (hs : s.MirrorLaw) (h : t.mirror = s.mirror) : t.MirrorLaw :=
  hs.of_sublist (h ▸ List.Sublist.refl _)

/-- The items that join at the end of an event are each listed once, and none of them was on the list (R146). -/
theorem State.MirrorLaw.settle {u : State} (hu : u.MirrorLaw) (s : State) : (Machine.settle s u).MirrorLaw := by
  obtain ⟨v, hlist, -, -, -, hjoin⟩ := settle_mirror s u
  have hnew : ∀ i ∈ dirtied s u.toLive v, i ∉ u.mirror := fun _ hi => hlist ▸ (mem_dirtied.1 hi).2
  unfold State.MirrorLaw
  rw [hjoin]
  exact List.Nodup.append hu (Item.nodup_all.filter _) fun i hi hd => hnew i hd hi

theorem State.MirrorLaw.close {u : State} (hu : u.MirrorLaw) (s : State) : (closeEvent s u).MirrorLaw := by
  rw [closeEvent_eq_settle]
  exact (hu.of_eq (State.onLive_mirror _ _)).settle s

theorem State.MirrorLaw.of_event {possible : Bool} {s t : State} {f : State → State} (hs : s.MirrorLaw)
    (h : Machine.event possible s f = .next t) (hf : (f s).mirror.Sublist s.mirror) : t.MirrorLaw := by
  rcases event_cases h with ⟨-, -, rfl⟩ | rfl
  · exact (hs.of_sublist hf).close s
  · exact hs

/-! ## What leaves the mirror list as it is -/

section decoder
variable (s : State) (p : Port) (t : Transfer)

@[simp] theorem State.refuseTransfer_mirror (k : FaultKind) : (s.refuseTransfer p t k).mirror = s.mirror := rfl

@[simp] theorem State.handDown_mirror (d : Decode) (u : PathUnit) : (s.handDown p t d u).mirror = s.mirror := by
  unfold State.handDown
  split <;> rfl

theorem State.takePass_mirror : (s.takePass p t).mirror = s.mirror := by
  unfold State.takePass
  split <;> simp

theorem State.takePlain_mirror : (s.takePlain p t).mirror = s.mirror := by
  unfold State.takePlain
  split
  · dsimp only
    split <;> simp
  · rfl

theorem State.takeUnmapped_mirror : (s.takeUnmapped p t).mirror = s.mirror := by
  unfold State.takeUnmapped
  split <;> rfl

theorem State.takeCbRead_mirror : (s.takeCbRead p t).mirror = s.mirror := by
  unfold State.takeCbRead
  split <;> simp

theorem State.takeCbWrite_mirror : (s.takeCbWrite p t).mirror = s.mirror := by
  unfold State.takeCbWrite
  split
  · split <;> simp
  · rfl

theorem State.takeBitfield_mirror : (s.takeBitfield p t).mirror = s.mirror := by
  unfold State.takeBitfield
  split
  · dsimp only
    split
    · rfl
    · split <;> simp
  · rfl

theorem State.takePeek_mirror (d : Decode) (c : Fin 8) : (s.takePeek p t d c).mirror = s.mirror := by
  unfold State.takePeek
  split <;> simp

theorem State.takeTransfer_mirror {f : Transfer → State → State} (hf : ∀ t, (f t s).mirror = s.mirror) :
    (s.takeTransfer p f).mirror = s.mirror := by
  unfold State.takeTransfer
  split
  · exact hf _
  · rfl

/-- A transfer in a RING window, by what its sub-range does at the context. -/
theorem State.ring_mirror (sub : SubRange) {act : Transfer → Decode → Fin 8 → State → State}
    (ha : ∀ t d c (u : State), (act t d c u).mirror = u.mirror) :
    (s.takeTransfer p fun t u => u.takeRing p t sub (act t)).mirror = s.mirror := by
  refine s.takeTransfer_mirror p fun t => ?_
  unfold State.takeRing
  split
  · dsimp only
    split
    · rfl
    · split
      · rfl
      · exact ha _ _ _ _
  · rfl

@[simp] theorem State.takeStanding_mirror (standing : Option Transfer) :
    (s.takeStanding p standing).mirror = s.mirror := by
  rw [State.takeStanding_eq]

end decoder

section completions
variable (s : State) (p : Port)

@[simp] theorem State.completeUnit_mirror (u : PathUnit) (answer : Live → Live) :
    (s.completeUnit p u answer).mirror = s.mirror := by
  have hleft : (s.finishUnit.leavePath p).mirror = s.mirror := by
    unfold State.leavePath
    split <;> rfl
  unfold State.completeUnit
  dsimp only
  split <;> exact hleft

theorem State.completeRead_mirror : s.completeRead.mirror = s.mirror := by
  unfold State.completeRead
  split <;> simp

theorem State.completeBitfield_mirror : s.completeBitfield.mirror = s.mirror := by
  unfold State.completeBitfield
  split
  · split <;> simp
  · rfl

theorem State.stampFetched_mirror (m : Memory) (c : Fin 8) (address : Nat) :
    (s.stampFetched m c address).mirror = s.mirror := by
  unfold State.stampFetched
  split
  · split <;> rfl
  · rfl

end completions

section monitor
variable (s : State) (p : Port)

theorem State.stageWord_mirror (w : CbWord) : (s.stageWord w).mirror = s.mirror := by
  unfold State.stageWord
  split
  · split <;> rfl
  · rfl

theorem State.applyWindow_mirror (w : Fin 16) : (s.applyWindow p w).mirror = s.mirror := by
  unfold State.applyWindow
  split
  · rfl
  · unfold State.installWindow
    dsimp only
    split <;> rfl

theorem State.command_mirror (c : Fin 8) (code : Nat) : (s.command p c code).mirror = s.mirror := by
  unfold State.command
  split
  · rfl
  · split <;> rfl
  · rfl

theorem State.actWord_mirror (w : CbWord) : (s.actWord p w).mirror = s.mirror := by
  unfold State.actWord
  split
  · split
    · unfold State.writeGlobal
      dsimp only
      split <;> rfl
    · rfl
    · split
      · rw [State.globalAck_eq]
      · rfl
    · split
      · unfold State.contextAck
        split <;> rfl
      · rfl
    · exact s.applyWindow_mirror p _
    · unfold State.applyContext
      split <;> rfl
    · exact s.command_mirror p _ _
    · rfl
  · rfl

/-- Both passes of the monitor over a burst (R136). -/
theorem State.monitorActs_mirror (words : List CbWord) : (s.monitorActs p words).mirror = s.mirror :=
  foldl_preserves (fun u : State => u.mirror = s.mirror) _ (fun (u : State) w hu => (u.actWord_mirror p w).trans hu) _ _
    (foldl_preserves (fun u : State => u.mirror = s.mirror) _
      (fun (u : State) w hu => (u.stageWord_mirror w).trans hu) _ _ rfl)

theorem State.completeCbWrite_mirror : s.completeCbWrite.mirror = s.mirror := by
  unfold State.completeCbWrite
  split
  · rfl
  · exact (State.monitorActs_mirror _ _ _).trans (s.completeUnit_mirror _ _ _)

end monitor

/-! ## Ticks, port resets and the grant (R74, R147, R168) -/

@[simp] theorem State.tickEvent_mirror (s : State) (order : List TickPart) :
    (s.tickEvent order).mirror = s.mirror := rfl

@[simp] theorem State.resetPort_mirror (s : State) (p : Port) (late : Vector (BitVec 8) 8) :
    (s.resetPort p late).mirror = s.mirror := rfl


section grant
variable (s : State)

theorem State.grantJob_mirror : s.grantJob.mirror = s.mirror := by
  unfold State.grantJob
  split
  · rfl
  · split <;> rfl

/-- The grant of a mirror item takes the head off the list. -/
theorem State.grantMirror_mirror : s.grantMirror.mirror = s.mirror.tail := by
  unfold State.grantMirror
  split
  · next h => rw [h]; rfl
  · next h => rw [h]; rfl

/-- A grant takes at most the head off the list. -/
theorem State.grant_mirror : s.grant.mirror.Sublist s.mirror := by
  unfold State.grant
  split
  · exact .refl _
  · next r _ =>
    cases r with
    | portA => exact .refl _
    | portB => exact .refl _
    | engine => exact (State.grantJob_mirror { s with pointer := .engine }) ▸ List.Sublist.refl _
    | mirror => exact (State.grantMirror_mirror { s with pointer := .mirror }) ▸ List.tail_sublist _

end grant

/-! ## Commands and steps -/

theorem exec_mirrorLaw {i : Instr} {s t : State} (hs : s.MirrorLaw) (h : exec i s = .next t) : t.MirrorLaw := by
  have same : ∀ {possible : Bool} {f : State → State}, Machine.event possible s f = .next t →
      (f s).mirror = s.mirror → t.MirrorLaw := fun h hf => hs.of_event h (hf ▸ List.Sublist.refl _)
  cases i with
  | transferArrival p u =>
    rw [exec_transferArrival] at h
    exact same h rfl
  | requestWithdrawal p =>
    rw [exec_requestWithdrawal] at h
    exact same h rfl
  | passThrough p =>
    rw [exec_passThrough] at h
    exact same h (s.takeTransfer_mirror p (s.takePass_mirror p))
  | plainWindowTransfer p =>
    rw [exec_plainWindowTransfer] at h
    exact same h (s.takeTransfer_mirror p (s.takePlain_mirror p))
  | unmapped p =>
    rw [exec_unmapped] at h
    exact same h (s.takeTransfer_mirror p (s.takeUnmapped_mirror p))
  | cbRead p =>
    rw [exec_cbRead] at h
    exact same h (s.takeTransfer_mirror p (s.takeCbRead_mirror p))
  | cbWrite p =>
    rw [exec_cbWrite] at h
    exact same h (s.takeTransfer_mirror p (s.takeCbWrite_mirror p))
  | bitfieldTransfer p =>
    rw [exec_bitfieldTransfer] at h
    exact same h (s.takeTransfer_mirror p (s.takeBitfield_mirror p))
  | push p =>
    rw [exec_push] at h
    exact same h (s.ring_mirror p .push fun _ _ _ _ => rfl)
  | pushLast p =>
    rw [exec_pushLast] at h
    exact same h (s.ring_mirror p .pushLast fun _ _ _ _ => rfl)
  | pop p =>
    rw [exec_pop] at h
    exact same h (s.ring_mirror p .pop fun _ _ _ _ => rfl)
  | peek p =>
    rw [exec_peek] at h
    exact same h (s.ring_mirror p .peek fun u d c v => v.takePeek_mirror p u d c)
  | state p =>
    rw [exec_state] at h
    exact same h (s.ring_mirror p .state fun _ _ _ _ => rfl)
  | bitfieldPlainWrite | set | clear | toggle | bitfieldPlainRead | fetchAndClear | compareRead =>
    exact same h s.completeBitfield_mirror
  | arbiterGrant | signalUpdateGrant | mirrorWrite => exact hs.of_event h s.grant_mirror
  | jobPresentation prefer =>
    rw [exec_jobPresentation] at h
    exact same h rfl
  | portReadCompletion | noticeWordReadClear => exact same h s.completeRead_mirror
  | portWriteCompletion =>
    rw [exec_portWriteCompletion, execPortWriteCompletion] at h
    refine same h ?_
    split
    · rfl
    · exact s.completeUnit_mirror _ _ _
  | peekReadCompletion =>
    rw [exec_peekReadCompletion, execPeekReadCompletion] at h
    refine same h ?_
    split
    · rfl
    · exact s.completeUnit_mirror _ _ _
  | entryWriteCompletion =>
    rw [exec_entryWriteCompletion, execEntryWriteCompletion] at h
    refine same h ?_
    split <;> rfl
  | entryCopyCompletion =>
    rw [exec_entryCopyCompletion, execEntryCopyCompletion] at h
    refine same h ?_
    split <;> rfl
  | stampFetchCompletion =>
    rw [exec_stampFetchCompletion, execStampFetchCompletion] at h
    refine same h ?_
    split
    · exact s.leaveJob.stampFetched_mirror _ _ _
    · rfl
  | signalUpdateCompletion =>
    rw [exec_signalUpdateCompletion, execSignalUpdateCompletion] at h
    refine same h ?_
    split
    · split <;> rfl
    · rfl
  | globalWord | enableWord | ackConfig | ackFault | ackEngine | contextAck | stageRecordWord | windowRecordApply
  | contextRecordApply | flush | cbPlainWrite => exact same h s.completeCbWrite_mirror
  | tick order =>
    rw [exec_tick] at h
    exact same h (s.tickEvent_mirror _)
  | idleExpiry p =>
    rw [exec_idleExpiry] at h
    exact same h (s.tickEvent_mirror _)
  | stallExpiry p =>
    rw [exec_stallExpiry] at h
    exact same h (s.tickEvent_mirror _)
  | waitExpiry p =>
    rw [exec_waitExpiry] at h
    exact same h (s.tickEvent_mirror _)
  | holdoffExpiry c =>
    rw [exec_holdoffExpiry] at h
    exact same h (s.tickEvent_mirror _)
  | stale c =>
    rw [exec_stale] at h
    exact same h (s.tickEvent_mirror _)
  | mirrorUnitCompletion => exact same h rfl
  | portReset p late =>
    cases h
    split
    · exact hs
    · split
      · exact hs
      · exact (hs.of_eq (s.resetPort_mirror p late)).settle s
  | portResetRelease p standing =>
    cases h
    split
    · exact hs
    · split
      · exact hs.of_eq (State.takeStanding_mirror _ p standing)
      · exact hs
  | powerOnReset cbsel memsz =>
    cases h
    exact Item.nodup_all
  | powerOnResetRelease a b =>
    cases h
    split
    · exact hs.of_eq ((State.takeStanding_mirror _ .B b).trans (State.takeStanding_mirror _ .A a))
    · exact hs

theorem State.MirrorLaw.clockPeriod {s : State} (hs : s.MirrorLaw) : s.clockPeriod.MirrorLaw := by
  unfold State.clockPeriod
  split
  · exact hs
  · split
    · exact hs
    · exact (hs.of_eq (s.tickEvent_mirror [])).close s

theorem step_mirrorLaw {s t : State} (hs : s.MirrorLaw) (h : step s = .next t) : t.MirrorLaw := by
  unfold step at h
  split at h
  · cases h
    exact hs.clockPeriod
  · next rest _ => exact exec_mirrorLaw (s := { s with pending := rest }) hs h

/-- Settles O5: every kind of step keeps the list free of duplicates, and the items are thirty. -/
theorem stepsKeepTheMirrorLaw : Obligations.StepsKeepTheMirrorLaw := by
  intro s t hs h
  have ht : t.MirrorLaw := step_mirrorLaw hs h
  exact ⟨ht, Item.length_le_of_nodup ht⟩

end Sys2Proof.Machine
end

section
/-! PROOFS. The control block (R134-R136, R143, R151): its reads are plain reads, its writes are judged, and the words
of a permitted write are acted on in two passes. -/

namespace Sys2Proof.Machine

/-! ## The judgement (R134, R135) -/

section judged
variable {s : State} {p : Port} {t : Transfer}

theorem State.decodeRow_cb (h : s.decision t = .cb) :
    s.decodeRow t = if t.isWrite then .cbWrite else .cbRead := by
  unfold State.decodeRow
  rw [if_neg (by rw [h]; decide), State.firstClass_of_cb h]

theorem State.decodeRow_cbRead (h : s.decision t = .cb) (hd : t.dir = .read) : s.decodeRow t = .cbRead := by
  rw [State.decodeRow_cb h, if_neg (by rw [t.isWrite_iff, hd]; decide)]

theorem State.decodeRow_cbWrite (h : s.decision t = .cb) (hd : t.dir = .write) : s.decodeRow t = .cbWrite := by
  rw [State.decodeRow_cb h, if_pos (t.isWrite_iff.2 hd)]

/-- The monitor permits a write at level 0 whose words all lie below the status area (R135). -/
theorem State.permitsCbWrite_iff (s : State) (t : Transfer) :
    s.permitsCbWrite t = true ↔ t.level = 0 ∧ ∀ a ∈ t.addresses, a < s.cbBase + 0x800 := by
  have hoffset : ∀ a : Nat, a - s.cbBase < 0x800 ↔ a < s.cbBase + 0x800 := fun a => by omega
  simp only [State.permitsCbWrite, Bool.and_eq_true, beq_iff_eq, List.all_eq_true, decide_eq_true_eq, hoffset]

/-- A transfer of the control block that its owner answers ERROR is recorded without a window (R127, R135). -/
theorem State.cb_answerError (s : State) (p : Port) (t : Transfer) (k : FaultKind) :
    (s.onLive fun l => (l.setIface p (.held t .cb none)).answerError p k) = s.erred p k t 31 := by
  unfold State.onLive
  dsimp only
  rw [Live.answerError_held k (t := t) (d := .cb) (w := none) (by simp)]
  simp [State.erred, Decode.windowIndex]

theorem State.takeCbRead_cb (h : s.decision t = .cb) (hd : t.dir = .read) :
    s.takeCbRead p t = s.handDown p t .cb ⟨.cbRead, t.address, t.wordEnables, [], true⟩ := by
  unfold State.takeCbRead
  rw [if_pos h, Transfer.pathUnit_eq, if_neg (by rw [hd]; decide)]

theorem State.takeCbWrite_permitted (h : s.decision t = .cb) (hd : t.dir = .write) (hp : s.permitsCbWrite t = true) :
    s.takeCbWrite p t = s.handDown p t .cb ⟨.cbWrite, t.address, t.wordEnables, t.wordData, true⟩ := by
  unfold State.takeCbWrite
  rw [if_pos h, if_pos hp, Transfer.pathUnit_eq, if_pos hd]

theorem State.takeCbWrite_refused (h : s.decision t = .cb) (hp : s.permitsCbWrite t ≠ true) :
    s.takeCbWrite p t = s.erred p .access t 31 := by
  unfold State.takeCbWrite
  rw [if_pos h, if_neg hp, State.cb_answerError]

end judged

/-- Settles O21, by direction and the monitor's judgement: a unit handed down, or ERROR ACCESS. -/
theorem controlBlockTransfersAreJudged : Obligations.ControlBlockTransfersAreJudged := by
  intro s p t hd hj h
  refine ⟨fun hdir => ?_, fun hdir hlevel hin => ?_, fun hdir hout => ?_⟩
  · exact hd.exec_handedDown hj (State.decodeRow_cbRead h hdir) (State.takeCbRead_cb h hdir)
  · have hp : s.permitsCbWrite t = true := (s.permitsCbWrite_iff t).2 ⟨hlevel, hin⟩
    exact hd.exec_handedDown hj (State.decodeRow_cbWrite h hdir) (State.takeCbWrite_permitted h hdir hp)
  · have hp : s.permitsCbWrite t ≠ true := fun hp => by
      obtain ⟨hlevel, hin⟩ := (s.permitsCbWrite_iff t).1 hp
      obtain hne | ⟨a, ha, hle⟩ := hout
      · exact hne hlevel
      · exact absurd (hin a ha) (Nat.not_lt.2 hle)
    rw [exec_cbWrite, execCbWrite, hd.event (State.decodeRow_cbWrite h hdir), State.takeCbWrite_refused h hp]
    exact congrArg Host.Outcome.next (closeEvent_reported hj rfl rfl)

/-! ## Words on which the monitor does not act (R135, R136, R143) -/

/-- The monitor has nothing to do on the word: its byte enables are all off, it has no function, or it is a command of
code 0. -/
def CbWord.Idle (w : CbWord) : Prop :=
  w.enables = 0 ∨ cbFunction w.offset = .plain ∨ ∃ c, cbFunction w.offset = .command c ∧ bits w.carried 0 8 = 0

section idle
variable {w : CbWord}

/-- An idle word is off, or its function is one that asks for nothing. -/
theorem CbWord.Idle.function (h : w.Idle) (ha : w.acts = true) :
    cbFunction w.offset = .plain ∨ ∃ c, cbFunction w.offset = .command c ∧ bits w.carried 0 8 = 0 :=
  h.resolve_left fun hoff => by simp [CbWord.acts, hoff] at ha

theorem CbWord.Idle.rows (h : w.Idle) (p : Port) (clear : Bool) : w.rows p clear = [.plain] := by
  unfold CbWord.rows
  split
  · next ha =>
    obtain hf | ⟨c, hf, hcode⟩ := h.function ha
    · rw [hf]
    · rw [hf]
      exact if_neg (by rw [hcode]; decide)
  · rfl

theorem CbWord.Idle.stageWord (h : w.Idle) (s : State) : s.stageWord w = s := by
  unfold State.stageWord
  split
  · next ha =>
    obtain hf | ⟨c, hf, -⟩ := h.function ha <;> rw [hf]
  · rfl

theorem CbWord.Idle.actWord (h : w.Idle) (s : State) (p : Port) : s.actWord p w = s := by
  unfold State.actWord
  split
  · next ha =>
    obtain hf | ⟨c, hf, hcode⟩ := h.function ha
    · rw [hf]
    · rw [hf]
      dsimp only
      rw [hcode]
      rfl
  · rfl

end idle

/-- A command word is a FLUSH of its context by code 1 alone (log 2). -/
theorem CbWord.rows_command {p : Port} {c : Fin 8} {offset : Nat} {be : Enables} (v : Word) (clear : Bool)
    (hb : be ≠ 0) (hf : cbFunction offset = .command c) : (⟨offset, be, v⟩ : CbWord).rows p clear =
      if bits (v &&& laneMask be) 0 8 = 1 then [.flush] else [.plain] := by
  unfold CbWord.rows
  rw [if_pos (CbWord.acts_of_enabled _ _ hb), hf]
  rfl

/-- A command of a reserved code is refused (R143). -/
theorem State.command_reserved (s : State) (p : Port) (c : Fin 8) :
    ∀ {code : Nat}, 2 ≤ code → s.command p c code = s.refuseConfig p .command c.val .range
  | _ + 2, _ => rfl

/-! ## The completion of a permitted write (R136, R151) -/

/-- A permitted control-block write stores the words of its burst (R136, R150). -/
theorem PathUnit.writes_cbWrite {u : PathUnit} (hu : u.work = .cbWrite) (m : Memory) :
    u.writes m = burstWrites u.address u.enables u.data := by
  unfold PathUnit.writes
  rw [hu]

theorem PathUnit.cbWords_single (base offset : Nat) (be : Enables) (v : Word) (wanted : Bool) :
    (PathUnit.mk .cbWrite (base + offset) [be] [v] wanted).cbWords base = [⟨offset, be, v⟩] := by
  simp [PathUnit.cbWords, Machine.cbWords]

section completion
variable {s : State} {p : Port} {u : PathUnit} {t : Transfer} {d : Decode}

theorem State.PortUnit.cbWriteHas (h : s.PortUnit p u) (hu : u.work = .cbWrite) {w : CbWord} {row : CbRow}
    (hw : w ∈ u.cbWords s.cbBase) (hrow : row ∈ w.rows p (readClear s.globalWord)) : s.cbWriteHas row = true := by
  unfold State.cbWriteHas
  rw [h.currentUnit]
  simp only [hu, beq_self_eq_true, Bool.true_and, List.any_eq_true, List.contains_iff_mem]
  exact ⟨w, hw, hrow⟩

/-- The port is answered and the monitor acts on every word (R136). -/
theorem State.WantedUnit.completeCbWrite (h : s.WantedUnit p u t d) (hu : u.work = .cbWrite) :
    s.completeCbWrite = (s.writeAnswered p u).monitorActs p (u.cbWords s.cbBase) := by
  unfold State.completeCbWrite
  rw [h.toPortUnit.currentUnit]
  dsimp only
  rw [h.completeUnit, h.answerOk, PathUnit.writes_cbWrite hu]
  rfl

/-- The monitor acts on every word all the same where the port was reset (R151). -/
theorem State.PortUnit.completeCbWrite_unwanted (h : s.PortUnit p u) (hu : u.work = .cbWrite) (hw : u.wanted = false)
    (hi : ∀ t d v, s.ifaces.get p ≠ .held t d (some v)) :
    s.completeCbWrite = State.monitorActs
      { s.pathFreed p with mem := s.mem.applyWrites (burstWrites u.address u.enables u.data) } p
      (u.cbWords s.cbBase) := by
  unfold State.completeCbWrite
  rw [h.currentUnit]
  dsimp only
  rw [h.completeUnit_unwanted hw hi, PathUnit.writes_cbWrite hu]

/-- The completion of a write of one idle word, as a row of its own: nothing but the write itself (R135, R136, R143). -/
theorem State.WantedUnit.exec_idleWord (h : s.WantedUnit p u t d) (hj : s.JobsPlaced) {w : CbWord} (hw : w.Idle)
    (hu : u = ⟨.cbWrite, s.cbBase + w.offset, [w.enables], [w.data], true⟩) :
    exec .cbPlainWrite s = .next (s.writeAnswered p u) := by
  have hwork : u.work = .cbWrite := by rw [hu]
  have hwords : u.cbWords s.cbBase = [w] := by
    rw [hu]
    exact PathUnit.cbWords_single _ _ _ _ _
  have hposs : s.cbWriteHas .plain = true := h.toPortUnit.cbWriteHas hwork (w := w)
    (by rw [hwords]; exact List.mem_singleton_self _) (by rw [hw.rows]; exact List.mem_singleton_self _)
  have hacts : (s.writeAnswered p u).monitorActs p [w] = s.writeAnswered p u :=
    (hw.actWord _ p).trans (hw.stageWord _)
  rw [exec_cbPlainWrite, execCbPlainWrite, event_possible hposs h.running, h.completeCbWrite hwork, hwords, hacts]
  exact congrArg Host.Outcome.next (closeEvent_quiet hj rfl rfl rfl rfl rfl)

/-- A command of a code above 1 is refused with RANGE at the completion of its write (R142, R143). -/
theorem State.CbWordUnit.exec_commandRefused {c : Fin 8} {be : Enables} {v : Word}
    (h : s.CbWordUnit p (0x500 + 4 * c.val) be v t) (hj : s.JobsPlaced) (hcode : 2 ≤ bits (v &&& laneMask be) 0 8) :
    exec .cbPlainWrite s = .next (s.reported
      ((s.writeAnswered p ⟨.cbWrite, s.cbBase + (0x500 + 4 * c.val), [be], [v], true⟩).refuseConfig p .command
        c.val .range)) := by
  have hf := cbFunction_command c
  have hrow : CbRow.plain ∈ (⟨0x500 + 4 * c.val, be, v⟩ : CbWord).rows p (readClear s.globalWord) := by
    rw [CbWord.rows_command v _ h.enabled hf, if_neg (by omega)]
    exact List.mem_singleton_self _
  rw [exec_cbPlainWrite, execCbPlainWrite, h.event_unstaged hrow (by simp [hf]) (by simp [hf]),
    State.actWord_command _ _ _ _ h.enabled hf, State.command_reserved _ _ _ hcode]
  exact congrArg Host.Outcome.next (closeEvent_reported hj rfl rfl)

end completion

/-- Each row of a control-block write is the completion of the write, where it has a word of the row (log 2). -/
theorem exec_cbRow {row : CbRow} {i : Instr}
    (h : (row, i) ∈ [(CbRow.globalWord, Instr.globalWord), (.enableWord, .enableWord), (.ackConfig, .ackConfig),
      (.ackFault, .ackFault), (.ackEngine, .ackEngine), (.contextAck, .contextAck), (.stage, .stageRecordWord),
      (.windowApply, .windowRecordApply), (.contextApply, .contextRecordApply), (.flush, .flush),
      (.plain, .cbPlainWrite)]) (s : State) :
    exec i s = event (s.cbWriteHas row) s fun s => s.completeCbWrite := by
  simp only [List.mem_cons, Prod.mk.injEq, List.not_mem_nil, or_false] at h
  rcases h with ⟨rfl, rfl⟩ | ⟨rfl, rfl⟩ | ⟨rfl, rfl⟩ | ⟨rfl, rfl⟩ | ⟨rfl, rfl⟩ | ⟨rfl, rfl⟩ | ⟨rfl, rfl⟩ |
    ⟨rfl, rfl⟩ | ⟨rfl, rfl⟩ | ⟨rfl, rfl⟩ | ⟨rfl, rfl⟩ <;> rfl

/-- Settles O55: one idle word, a command of a reserved code, and a burst that its port waits for or was reset from. -/
theorem plainWritesAndBurstsOfTheConfiguration : Obligations.PlainWritesAndBurstsOfTheConfiguration := by
  refine ⟨⟨?_, fun s p c be v t h hj hcode => h.exec_commandRefused hj hcode⟩, ?_⟩
  · rintro s p u t h hj - ⟨offset, be, v, hu, hidle⟩
    exact h.exec_idleWord hj (w := ⟨offset, be, v⟩) hidle hu
  · intro s p u row i h hu hhas hi words acted
    have hevent : exec i s = .next (closeEvent s s.completeCbWrite) :=
      (exec_cbRow hi s).trans (event_possible hhas h.running)
    refine ⟨fun t d hw hheld => ?_, fun hw hfree => ?_⟩
    · have hwanted : s.WantedUnit p u t d := ⟨h, hw, hheld⟩
      rw [hevent, hwanted.completeCbWrite hu]
      rfl
    · rw [hevent, h.completeCbWrite_unwanted hu hw hfree]
      rfl

end Sys2Proof.Machine
end

section
/-! PROOFS. The bytes and the parity of memory (R158): what the lanes of a word read and check, and what a burst stores. -/

namespace Sys2Proof.Machine

/-! ## Reads: the enabled lanes of a word -/

/-- A lane of the word read is the byte at its address, or 00h where its enable is off (log 6). -/
theorem Memory.byteLane_readWord (m : Memory) (a : Nat) (be : Enables) {i : Nat} (hi : i < 4) :
    byteLane (m.readWord a be) i = if be.getLsbD i then m.readByte (a + i) else 0 := by
  refine BitVec.eq_of_getLsbD_eq fun k hk => ?_
  have hlane : (8 * i + k) / 8 = i := by omega
  have hbit : (8 * i + k) % 8 = k := by omega
  rw [getLsbD_byteLane _ _ hk, m.getLsbD_readWord a be (by omega), hlane, hbit]
  cases be.getLsbD i <;> simp

theorem Memory.wordGood_iff (m : Memory) (a : Nat) (be : Enables) :
    m.wordGood a be = true ↔ ∀ j : Fin 4, be.getLsbD j.val = true → m.byteGood (a + j.val) = true := by
  have hlane : ∀ j : Nat, (!be.getLsbD j || m.byteGood (a + j)) = true ↔
      (be.getLsbD j = true → m.byteGood (a + j) = true) := fun j => by
    cases be.getLsbD j <;> simp
  simp only [Memory.wordGood, List.all_cons, List.all_nil, Bool.and_true, Bool.and_eq_true, hlane, Fin.forall_fin_succ,
    Fin.forall_fin_zero, and_true]
  rfl

/-! ## Parity: the count of 1s -/

/-- The parity of a count is the exclusive or over the list. -/
theorem decide_countP_odd {α : Type} (p : α → Bool) (l : List α) :
    decide (l.countP p % 2 = 1) = l.foldr (fun x b => (p x).xor b) false := by
  induction l with
  | nil => rfl
  | cons x rest ih =>
    rw [List.foldr_cons, ← ih, List.countP_cons]
    cases p x with
    | false => simp
    | true =>
      rw [if_pos rfl, Bool.true_xor, ← decide_not]
      exact decide_eq_decide.2 (by omega)

theorem oddOnes_eq_decide_countP (b : Byte) :
    oddOnes b = decide ((List.range 8).countP (fun j => b.getLsbD j) % 2 = 1) := by
  rw [decide_countP_odd]
  simp [oddOnes, List.range_succ]

theorem Memory.byteGood_iff (m : Memory) (a : Nat) : m.byteGood a = true ↔
    ((List.range 8).countP (fun j => (m.readByte a).getLsbD j) + (if m.parityBit a then 1 else 0)) % 2 = 1 := by
  rw [Memory.byteGood, oddOnes_eq_decide_countP]
  cases m.parityBit a with
  | false => simp
  | true =>
    rw [Bool.xor_true, ← decide_not, decide_eq_true_iff, if_pos rfl]
    omega

/-! ## Writes: the words of a burst -/

/-- Bytes less than the 16 Mbyte of the memory apart are different bytes of it (R149). -/
theorem memIndex_add_inj {a i j : Nat} (hi : i < 16777216) (hj : j < 16777216) :
    memIndex (a + i) = memIndex (a + j) ↔ i = j := by
  unfold memIndex
  omega

theorem Memory.readByte_writeWord_enabled (m : Memory) (a : Nat) {be : Enables} (w : Word) {i : Nat} (hi : i < 4)
    (hbe : be.getLsbD i = true) : (m.writeWord a be w).readByte (a + i) = byteLane w i := by
  have hsame : ∀ j < 4, memIndex (a + i) = memIndex (a + j) ↔ i = j := fun j hj =>
    memIndex_add_inj (by omega) (by omega)
  simp only [Memory.writeWord, Memory.readByte_writeLane, hsame 0 (by decide), hsame 1 (by decide),
    hsame 2 (by decide), hsame 3 (by decide)]
  obtain rfl | rfl | rfl | rfl : i = 0 ∨ i = 1 ∨ i = 2 ∨ i = 3 := by omega
  all_goals simp [hbe]

theorem mem_burstWrites_of_getElem? {be : Enables} {w : Word} : ∀ {bes : List Enables} {ws : List Word} {a n : Nat},
    bes[n]? = some be → ws[n]? = some w → ⟨a + 4 * n, be, w⟩ ∈ burstWrites a bes ws
  | b :: bes, v :: ws, a, 0, hb, hw => by
    cases hb
    cases hw
    exact List.mem_cons_self
  | b :: bes, v :: ws, a, n + 1, hb, hw => by
    have hmem := mem_burstWrites_of_getElem? (a := a + 4) (n := n) hb hw
    rw [show a + 4 + 4 * n = a + 4 * (n + 1) by omega] at hmem
    exact List.mem_cons_of_mem _ hmem

theorem address_of_mem_burstWrites {v : WordWrite} : ∀ {bes : List Enables} {ws : List Word} {a : Nat},
    v ∈ burstWrites a bes ws → ∃ k < bes.length, v.address = a + 4 * k
  | [], _, _, h => absurd h List.not_mem_nil
  | _ :: _, [], _, h => absurd h List.not_mem_nil
  | b :: bes, w :: ws, a, h => by
    obtain rfl | h := List.mem_cons.1 h
    · exact ⟨0, Nat.succ_pos _, rfl⟩
    · obtain ⟨k, hk, ha⟩ := address_of_mem_burstWrites h
      exact ⟨k + 1, Nat.succ_lt_succ hk, by omega⟩

/-- The words after the first of a burst that fits the memory store to no byte of the first. -/
theorem not_storesTo_later_words {bes : List Enables} (ws : List Word) (a : Nat) {i : Nat} (hi : i < 4)
    (hlen : 4 * bes.length + 4 ≤ 16777216) : ¬storesTo (burstWrites (a + 4) bes ws) (a + i) := by
  rintro ⟨v, hv, j, hj, -, haddr⟩
  obtain ⟨k, hk, ha⟩ := address_of_mem_burstWrites hv
  rw [ha, show a + 4 + 4 * k + j = a + (4 + 4 * k + j) by omega,
    memIndex_add_inj (by omega) (by omega)] at haddr
  omega

/-- A burst that fits the memory leaves each enabled byte of its words where the word has it (R150, log 6): no later
word stores to that byte again. -/
theorem Memory.readByte_applyWrites_burst {be : Enables} {w : Word} {i : Nat} (hi : i < 4)
    (hbe : be.getLsbD i = true) : ∀ {bes : List Enables} {ws : List Word} {n : Nat} (m : Memory) (a : Nat),
    4 * bes.length ≤ 16777216 → bes[n]? = some be → ws[n]? = some w →
      (m.applyWrites (burstWrites a bes ws)).readByte (a + 4 * n + i) = byteLane w i
  | b :: bes, v :: ws, 0, m, a, hlen, hb, hw => by
    cases hb
    cases hw
    have hlater := (m.writeWord a be w).applyWrites_of_not_storesTo (not_storesTo_later_words ws a hi hlen)
    exact hlater.1.trans (m.readByte_writeWord_enabled a w hi hbe)
  | b :: bes, v :: ws, n + 1, m, a, hlen, hb, hw => by
    rw [List.length_cons] at hlen
    have hrest := Memory.readByte_applyWrites_burst (n := n) hi hbe (m.writeWord a b v) (a + 4) (by omega) hb hw
    rwa [show a + 4 + 4 * n = a + 4 * (n + 1) by omega] at hrest

/-- Settles O37: the lanes of a word read, the count of 1s, and the bytes of a burst stored. -/
theorem memoryKeepsBytesAndParity : Obligations.MemoryKeepsBytesAndParity := by
  refine ⟨fun m a be i => ⟨m.byteLane_readWord a be i.isLt, m.wordGood_iff a be⟩, Memory.byteGood_iff,
    fun m a bes ws hlen => ⟨fun x => m.applyWrites_of_not_storesTo, fun n be w i hb hw hbe => ⟨?_, ?_⟩⟩⟩
  · exact Memory.readByte_applyWrites_burst i.isLt hbe m a (by omega) hb hw
  · exact m.applyWrites_good _ _ ⟨_, mem_burstWrites_of_getElem? hb hw, i.val, i.isLt, hbe, rfl⟩

end Sys2Proof.Machine
end

section
/-! PROOFS. A step and the command at the front of the queue (logs 17 and 24). -/

namespace Sys2Proof.Machine

/-- A step takes the command at the front of the queue and leaves the queue's rest. -/
theorem step_of_command {s : State} {c : Instr} {rest : List Instr} (h : s.pending = c :: rest) :
    step s = exec c { s with pending := rest } := by
  unfold step
  rw [h]

/-- The meaning of every command is `.next` of a state by its definition: one event, which answers the closed state or
the state as it was, or, for the reset lines, the state that the line leaves (log 24). -/
theorem exec_answers (c : Instr) (s : State) : ∃ t, exec c s = .next t := by
  cases c <;> exact ⟨_, rfl⟩

/-- Settles O1, by the front of the queue and by the commands. -/
theorem stepRunsTheFrontCommand : Obligations.StepRunsTheFrontCommand :=
  ⟨fun _ s => step_of_command (rest := s.pending) rfl, exec_answers⟩

end Sys2Proof.Machine
end

section
/-! PROOFS. The port interfaces and the lines that hold them: arrival and withdrawal (R162, R163, R164), the releases of
the reset lines (R169, R170), and what acts while RESET_N is asserted. -/

namespace Sys2Proof.Machine

/-! ## Arrival and withdrawal (R162, R163, R164) -/

section iface
variable {s : State} {p : Port}

theorem State.takesArrival_iff : s.takesArrival p = true ↔ s.ifaces.get p = .idle ∧ s.portReset.get p = false := by
  simp [State.takesArrival]

theorem Iface.isAnswering_iff {x : Iface} : x.isAnswering = true ↔ ∃ a : Answer, x = .answering a := by
  cases x <;> simp [Iface.isAnswering]

/-- The close of an event that moves an interface alone changes nothing. -/
theorem closeEvent_setIface (hj : s.JobsPlaced) (x : Iface) :
    closeEvent s (s.onLive fun l => l.setIface p x) = { s with ifaces := s.ifaces.set p x } :=
  closeEvent_quiet hj rfl rfl rfl rfl rfl

/-- The arrival of a transfer at an interface that takes it (R163). -/
theorem State.exec_transferArrival_taken (hr : s.inReset = false) (hj : s.JobsPlaced) (h : s.takesArrival p = true)
    (t : Transfer) :
    exec (.transferArrival p t) s = .next { s with ifaces := s.ifaces.set p (.decoding t) } := by
  rw [exec_transferArrival, execTransferArrival, event_possible h hr, closeEvent_setIface hj]

theorem State.exec_transferArrival_ignored (h : ¬s.takesArrival p = true) (t : Transfer) :
    exec (.transferArrival p t) s = .next s := by
  rw [exec_transferArrival, execTransferArrival, event_impossible (Bool.eq_false_iff.2 h)]

/-- The withdrawal of an answered request (R163). -/
theorem State.exec_requestWithdrawal_answered (hr : s.inReset = false) (hj : s.JobsPlaced)
    (h : (s.ifaces.get p).isAnswering = true) :
    exec (.requestWithdrawal p) s = .next { s with ifaces := s.ifaces.set p .idle } := by
  rw [exec_requestWithdrawal, execRequestWithdrawal, event_possible h hr, closeEvent_setIface hj]

theorem State.exec_requestWithdrawal_ignored (h : ¬(s.ifaces.get p).isAnswering = true) :
    exec (.requestWithdrawal p) s = .next s := by
  rw [exec_requestWithdrawal, execRequestWithdrawal, event_impossible (Bool.eq_false_iff.2 h)]

end iface

/-- Settles O16, by whether the interface takes an arrival and by whether it presents an answer. -/
theorem arrivalAndWithdrawal : Obligations.ArrivalAndWithdrawal := by
  intro s p t hr hj
  refine ⟨fun hidle hline => ?_, fun hbusy => ?_, fun a ha => ?_, fun hnone => ?_⟩
  · exact State.exec_transferArrival_taken hr hj (State.takesArrival_iff.2 ⟨hidle, hline⟩) t
  · refine State.exec_transferArrival_ignored (fun h => ?_) t
    obtain ⟨hidle, hline⟩ := State.takesArrival_iff.1 h
    rcases hbusy with hbusy | hheld
    · exact hbusy hidle
    · exact Bool.false_ne_true (hline.symm.trans hheld)
  · exact State.exec_requestWithdrawal_answered hr hj (Iface.isAnswering_iff.2 ⟨a, ha⟩)
  · refine State.exec_requestWithdrawal_ignored fun h => ?_
    obtain ⟨a, ha⟩ := Iface.isAnswering_iff.1 h
    exact hnone a ha

/-! ## Releases with RESET_N released (R169) -/

section release
variable {s : State} {p : Port}

theorem State.exec_portResetRelease_asserted (hr : s.inReset = false) (hline : s.portReset.get p = true)
    (r : Option Transfer) :
    exec (.portResetRelease p r) s =
      .next (State.takeStanding { s with portReset := s.portReset.set p false } p r) := by
  simp [exec_portResetRelease, execPortResetRelease, hr, hline]

/-- A line that is released already is not released again (log 18). -/
theorem State.exec_portResetRelease_released (hr : s.inReset = false) (hline : s.portReset.get p = false)
    (r : Option Transfer) : exec (.portResetRelease p r) s = .next s := by
  simp [exec_portResetRelease, execPortResetRelease, hr, hline]

/-- RESET_N that is released already is not released again (log 18). -/
theorem State.exec_powerOnResetRelease_released (hr : s.inReset = false) (a b : Option Transfer) :
    exec (.powerOnResetRelease a b) s = .next s := by
  simp [exec_powerOnResetRelease, execPowerOnResetRelease, hr]

/-- An interface that takes an arrival takes the request that stands at its lines (R163). -/
theorem State.takeStanding_taken (h : s.takesArrival p = true) (t : Transfer) :
    s.takeStanding p (some t) = { s with ifaces := s.ifaces.set p (.decoding t) } := by
  simp only [State.takeStanding, h, if_true]
  rfl

end release

/-! ## Under RESET_N (R170) -/

section underReset
variable {s : State}

theorem event_inReset {possible : Bool} {f : State → State} (hr : s.inReset = true) :
    event possible s f = .next s := by
  simp [event, hr]

/-- Every command but those of the four reset rows is one event of the block. -/
theorem exec_is_event {i : Instr} (hreset : ∀ p late, i ≠ .portReset p late)
    (hrelease : ∀ p r, i ≠ .portResetRelease p r) (hpower : ∀ cbsel memsz, i ≠ .powerOnReset cbsel memsz)
    (hpowerRelease : ∀ a b, i ≠ .powerOnResetRelease a b) (s : State) :
    ∃ (possible : Bool) (f : State → State), exec i s = event possible s f := by
  cases i with
  | portReset p late => exact absurd rfl (hreset p late)
  | portResetRelease p r => exact absurd rfl (hrelease p r)
  | powerOnReset cbsel memsz => exact absurd rfl (hpower cbsel memsz)
  | powerOnResetRelease a b => exact absurd rfl (hpowerRelease a b)
  | _ =>
    dsimp only [exec]
    exact ⟨_, _, rfl⟩

theorem State.exec_portReset_inReset (hr : s.inReset = true) (p : Port) (late : Vector (BitVec 8) 8) :
    exec (.portReset p late) s = .next { s with portReset := s.portReset.set p true } := by
  simp [exec_portReset, execPortReset, hr]

theorem State.exec_portResetRelease_inReset (hr : s.inReset = true) (p : Port) (r : Option Transfer) :
    exec (.portResetRelease p r) s = .next { s with portReset := s.portReset.set p false } := by
  simp [exec_portResetRelease, execPortResetRelease, hr]

theorem State.exec_powerOnResetRelease_inReset (hr : s.inReset = true) (a b : Option Transfer) :
    exec (.powerOnResetRelease a b) s =
      .next ((State.takeStanding { s with inReset := false } .A a).takeStanding .B b) := by
  simp [exec_powerOnResetRelease, execPowerOnResetRelease, hr]

theorem State.presents_mirror_of_cons {item : Item} {rest : List Item} (h : s.mirror = item :: rest) :
    s.presents .mirror = true := by
  simp [State.presents, h]

end underReset

/-- Settles O60, by the level of RESET_N: while it is released by the level of the port's own line, while it is asserted
by the commands. -/
theorem resetReleasesReadyThePorts : Obligations.ResetReleasesReadyThePorts := by
  refine ⟨fun s p hr => ⟨fun hline hidle => ?_, fun hline => State.exec_portResetRelease_released hr hline,
    State.exec_powerOnResetRelease_released hr⟩, fun s hr => ⟨fun a b => ?_, State.exec_portReset_inReset hr,
    State.exec_portResetRelease_inReset hr, fun i hreset hrelease hpower hpowerRelease => ?_⟩⟩
  · refine ⟨State.exec_portResetRelease_asserted hr hline none, fun t => ?_⟩
    have hready : State.takesArrival { s with portReset := s.portReset.set p false } p = true :=
      State.takesArrival_iff.2 ⟨hidle, PerPort.get_set_self _ _ _⟩
    rw [State.exec_portResetRelease_asserted hr hline, State.takeStanding_taken hready]
  · refine ⟨?_, fun item rest hm => ⟨State.presents_mirror_of_cons hm, hm⟩⟩
    rw [State.exec_powerOnResetRelease_inReset hr, State.takeStanding_eq, State.takeStanding_eq]
    rfl
  · obtain ⟨possible, f, hevent⟩ := exec_is_event hreset hrelease hpower hpowerRelease s
    rw [hevent, event_inReset hr]

end Sys2Proof.Machine
end
